-- ==== Sys2Proof/Word.lean ====
section
/-! DEFINITION. The data types of the block: bytes, 32-bit register words, 64-bit positions, bit strings, and tables
indexed by a byte value (00_scope.md R10, R11, R13). -/

namespace Sys2Proof

/-- One byte: a source item, a sink item, a symbol (00_scope.md R10; GLOSSARY "Symbol"). -/
abbrev Byte := BitVec 8

/-- One register word (20_memory.md R71). -/
abbrev Word := BitVec 32

/-- A source or sink position (10_state.md R40, R41; 92_eei_decisions.md D43). -/
abbrev Pos := BitVec 64

/-- A bit string: the head is `c[0]`, the first decision from the root (00_scope.md R11).
`false` is the bit 0 (left), `true` the bit 1 (right). -/
abbrev Bits := List Bool

/-- A table with one entry per byte value 0 to 255 (10_state.md R47, R51). -/
abbrev Table (α : Type) := Vector α 256

end Sys2Proof
end

