-- ==== Sys2Proof/Config.lean ====
section
/-! DEFINITION. What the block's integration fixes (00_scope.md R9) and the values the spec leaves open
(93_implementation_defined.md). A constant with no body is a parameter or a free value: nothing in Lean can evaluate it. -/

namespace Sys2Proof.Config

/-- ALPHABET_SIZE, R9: the symbols are the byte values 0 to 255. -/
def alphabetSize : Nat := 256

/-- MAX_TOTAL, R9 and R151: the most source bytes one COUNT session may hold. -/
def maxTotal : Word := 0xFFFFFFFF

/-- DEC_NODE_CAP, R9 and R49: 1 + 256 * 255 arena records. -/
def decNodeCap : Nat := 65281

/-- MAX_CODE_LEN, R9. -/
def maxCodeLen : Nat := 255

/-- PLACEHOLDER, R9 and R191. -/
def placeholder : Byte := 0x00

/-- ID_VALUE, R9 and R22. -/
def idValue : Word := 0x48550001

/-- HUF_BASE, R9 and R88: OPEN, the byte address at which the platform places the register window. -/
opaque hufBase : Nat

/-- HUF_IRQ_LINE, R9 and R249: OPEN, the platform interrupt input that the `irq` output drives. -/
opaque hufIrqLine : Nat

/-- Free value (log entry 4): what the n-th register read that R46 leaves open returns
(93_implementation_defined.md item 13). -/
opaque busyRead : Nat → Word

end Sys2Proof.Config
end

