-- ==== Sys2Proof/Syntax.lean ====
section
/-! DEFINITION. The commands (00_scope.md R3, 30_encoding.md R102), the stages a command performs
(40_command_control.md R132, 46_pipelines.md R230, R231) and the registers of the host window (10_state.md R20). -/

namespace Sys2Proof

/-- The ten commands, one constructor per row of the opcode table (R102). No command has an operand (R101). -/
inductive Instr where
  | nop
  | count
  | build
  | assign
  | writeHdr
  | pack
  | readHdr
  | unpack
  | compress
  | decompress
deriving DecidableEq, Repr

/-- What the engine performs at one time: a single-stage command, or one sub-step of a pipeline
(R132 `Perform(op)`, R232). -/
inductive Stage where
  | nop
  | count
  | build
  | assign
  | writeHdr
  | pack
  | readHdr
  | unpack
deriving DecidableEq, Repr

/-- The command that performs this stage alone. -/
def Stage.toInstr : Stage → Instr
  | .nop => .nop
  | .count => .count
  | .build => .build
  | .assign => .assign
  | .writeHdr => .writeHdr
  | .pack => .pack
  | .readHdr => .readHdr
  | .unpack => .unpack

/-- The defined registers of the window, in the order of R20's table. `codeBits j` is CODE_BITSj. -/
inductive Reg where
  | id
  | ctrl
  | cmd
  | status
  | errInfo
  | total
  | nsym
  | decNsym
  | payloadStart
  | lastBits
  | srcPosLo
  | srcPosHi
  | snkPosLo
  | snkPosHi
  | index
  | weight
  | codeLen
  | codeBits (j : Fin 8)
deriving DecidableEq, Repr

/-- One answer of the byte source (20_memory.md R74). -/
inductive SrcItem where
  | byte (v : Byte)
  | eof
  | fail
deriving DecidableEq, Repr

/-- One answer of the byte sink to an append or a patch (20_memory.md R79, R80). -/
inductive SnkAnswer where
  | ok
  | fail
deriving DecidableEq, Repr

end Sys2Proof
end

