-- ==== Sys2Proof/Decode.lean ====
section
/-! DEFINITION. The opcode map (30_encoding.md R100 to R105): the decoder of a command word, total on all 2^32 words,
and after it the encoder. Also the register indices of the host window (10_state.md R20) and the window's byte
addresses (20_memory.md R71, R88). -/

namespace Sys2Proof

/-- Why a word is no command: a bit of 31:4 is set (R104), or its OP is reserved (R103). -/
inductive Illegal where
  | mustBeZero
  | reservedOp
deriving DecidableEq, Repr

/-- What a command word stands for: a command, or an illegal word and why. -/
inductive Decoded where
  | command (i : Instr)
  | illegal (why : Illegal)
deriving DecidableEq, Repr

/-- The field OP, bits 3:0 (R100, R101). -/
def opField (v : Word) : BitVec 4 := v.extractLsb' 0 4

/-- The field MBZ, bits 31:4 (R100). -/
def mbzField (v : Word) : BitVec 28 := v.extractLsb' 4 28

/-- The OP column of the opcode map (R102). Reserved values 0xA to 0xF have no command (R103). -/
def instrOfOp (op : BitVec 4) : Option Instr :=
  match op.toNat with
  | 0 => some .nop
  | 1 => some .count
  | 2 => some .build
  | 3 => some .assign
  | 4 => some .writeHdr
  | 5 => some .pack
  | 6 => some .readHdr
  | 7 => some .unpack
  | 8 => some .compress
  | 9 => some .decompress
  | _ => none

/-- Decode a command word (R102 to R104; the check of R132's `Run`). -/
def decode (v : Word) : Decoded :=
  if mbzField v ≠ 0 then .illegal .mustBeZero
  else match instrOfOp (opField v) with
    | some i => .command i
    | none => .illegal .reservedOp

/-- The opcode map read the other way: the OP of a command (R102). -/
def Instr.opcode : Instr → BitVec 4
  | .nop => 0x0
  | .count => 0x1
  | .build => 0x2
  | .assign => 0x3
  | .writeHdr => 0x4
  | .pack => 0x5
  | .readHdr => 0x6
  | .unpack => 0x7
  | .compress => 0x8
  | .decompress => 0x9

/-- The command word of a command: MBZ = 0, OP its opcode (R100, R102). -/
def encode (i : Instr) : Word := (0 : BitVec 28) ++ i.opcode

/-- The OP that CUR_OP holds while the stage is performed (R138). -/
def Stage.op (st : Stage) : BitVec 4 := st.toInstr.opcode

/-- The command read from a word whose bits are numbered as the opcode table numbers them. A command is one 32-bit
register word (R105), so there is no further word: bits above `nbits` are 0. -/
def decodeTableWord (nbits w : Nat) : Option Instr :=
  if w % 2 ^ nbits < 2 ^ 32 then
    match decode (BitVec.ofNat 32 (w % 2 ^ nbits)) with
    | .command i => some i
    | .illegal _ => none
  else none

/-- The register at a word index; 25 to 63 are reserved (R20, R21). -/
def Reg.ofIndex (i : BitVec 6) : Option Reg :=
  match i.toNat with
  | 0 => some .id
  | 1 => some .ctrl
  | 2 => some .cmd
  | 3 => some .status
  | 4 => some .errInfo
  | 5 => some .total
  | 6 => some .nsym
  | 7 => some .decNsym
  | 8 => some .payloadStart
  | 9 => some .lastBits
  | 10 => some .srcPosLo
  | 11 => some .srcPosHi
  | 12 => some .snkPosLo
  | 13 => some .snkPosHi
  | 14 => some .index
  | 15 => some .weight
  | 16 => some .codeLen
  | 17 => some (.codeBits 0)
  | 18 => some (.codeBits 1)
  | 19 => some (.codeBits 2)
  | 20 => some (.codeBits 3)
  | 21 => some (.codeBits 4)
  | 22 => some (.codeBits 5)
  | 23 => some (.codeBits 6)
  | 24 => some (.codeBits 7)
  | _ => none

/-- The word index of a register (R20). -/
def Reg.wordIndex : Reg → BitVec 6
  | .id => 0
  | .ctrl => 1
  | .cmd => 2
  | .status => 3
  | .errInfo => 4
  | .total => 5
  | .nsym => 6
  | .decNsym => 7
  | .payloadStart => 8
  | .lastBits => 9
  | .srcPosLo => 10
  | .srcPosHi => 11
  | .snkPosLo => 12
  | .snkPosHi => 13
  | .index => 14
  | .weight => 15
  | .codeLen => 16
  | .codeBits j => BitVec.ofNat 6 (17 + j.val)

/-- The byte address of word index `i` in the platform's space: HUF_BASE + 4 × i (R71, R88). -/
def wordAddress (i : BitVec 6) : Nat := Config.hufBase + 4 * i.toNat

end Sys2Proof
end

