-- ==== Sys2Proof/Machine/State.lean ====
section
/-! DEFINITION. The state of the machine as plain data (10_state.md R20 to R55), what the platform and the host have
supplied to it (20_memory.md R74 to R81, 70_reset_and_hazards.md R281), and the state after reset (R271). -/

namespace Sys2Proof.Machine

/-- The error kinds of R240. -/
inductive ErrKind where
  | sourceUnavailable
  | sinkUnavailable
  | malformedHeader
  | ambiguousCodeSet
  | truncatedPayload
  | undefinedCode
  | symbolNotInTable
  | weightOverflow
  | sequenceError
  | illegalCommand
deriving DecidableEq, Repr

/-- The conditions that 60_exceptions.md R258 says cannot happen ("Reaching one of them is a model bug, not a behaviour
of the block"). Only states that no run reaches raise one; log entry 12. -/
inductive Fault where
  /-- BUILD formed a merged weight above 2^32 - 1 (R164, R258). Raised by `buildBody`. Safe: the model stops. -/
  | mergedWeight
  /-- A rule read an arena record at an index of `nn` or more, or followed an absent link that its tree has by R166 (a)
  (R49: no rule does). Raised by `assignBody`, `readHdrBody`, `unpackBody` and their continuations. Safe: the model
  stops. -/
  | noNode
  /-- ASSIGN dequeued more entries than the tree has nodes (R182 (e), R258). Raised by `assignBody`. Safe: the model
  stops. -/
  | queueBound
  /-- ASSIGN formed a code longer than 255 bits (R182 (b), R258). Raised by `assignBody`. Safe: the model stops. -/
  | codeLength
  /-- The offset of a patch stands at or past the end of the object (R80, R213, R258). Raised by `snkPatch`. Safe: the
  model stops. -/
  | patchOffset
deriving DecidableEq, Repr

/-- Why the model gives no meaning. No arm of `exec` answers one: every command has its meaning (R259). -/
inductive Refusal where
  /-- The command has no meaning in this model yet. Raised by no arm. Safe: the model stops. -/
  | notModelled (mnemonic : String)
deriving DecidableEq, Repr

/-- One record of the node arena (R49): a leaf with its symbol and weight, or an inner record with its weight and
links. The two forms carry the five fields: a leaf has no children, and `sym` has a meaning only in a leaf. -/
inductive Node where
  | leaf (sym : Byte) (weight : Word)
  | inner (weight : Word) (left right : Option Nat)
deriving DecidableEq, Repr

/-- Which byte of the header the next `Get()` of READ_HDR delivers (R192), with the transient state of R53: `cnt` is
symbol_count, `left` the records still to read (this one included), `seen` the symbols of the earlier records,
`got` the code field bytes read so far. -/
inductive HdrAt where
  | countLo
  | countHi (lo : Byte)
  | symbol (cnt left : Nat) (seen : List Byte)
  | length (cnt left : Nat) (seen : List Byte) (sym : Byte)
  | code (cnt left : Nat) (seen : List Byte) (sym len : Byte) (got : List Byte)
  | meaningful (cnt : Nat)
deriving DecidableEq, Repr

/-- The transaction whose answer a stage waits for, with the transient state it needs to go on (R53, R89). -/
inductive Point where
  /-- COUNT: `SrcRead` (R150). -/
  | countRead
  /-- WRITE_HDR: `SnkAppend` of the first byte of `todo` (R190). -/
  | hdrPut (todo : List Byte)
  /-- READ_HDR: `SrcRead` of a header byte (R192). -/
  | hdrGet (at_ : HdrAt)
  /-- PACK: `SrcRead` with the accumulator and the held-bit count (R210). -/
  | packRead (acc : Byte) (held : Nat)
  /-- PACK: `SnkAppend` of the full accumulator, `todo` being the rest of the current code (R210). -/
  | packByte (acc : Byte) (todo : Bits)
  /-- PACK: `SnkAppend` of the final flush (R212). -/
  | packFlush (acc : Byte) (held : Nat)
  /-- PACK: `SnkPatch` of the placeholder (R213). -/
  | packPatch
  /-- UNPACK: the first `SrcRead` (R215). -/
  | unpackFirst
  /-- UNPACK: the lookahead `SrcRead`, byte `b` being held and the walk standing at `cur` (R217). -/
  | unpackAhead (b : Byte) (cur : Nat)
  /-- UNPACK: `SnkAppend` of the symbol of the leaf just reached. `todo` is the rest of the current byte's meaningful
  bits and `ahead` the lookahead byte, none for EOF (R215). -/
  | unpackPut (sym : Byte) (todo : Bits) (ahead : Option Byte)
deriving DecidableEq, Repr

/-- The engine's run state (R54, R57): idle, a word accepted and not yet taken up, or a stage waiting for an answer,
with the sub-steps of the pipeline that come after it. -/
inductive Run where
  | idle
  | accepted
  | waiting (st : Stage) (p : Point) (rest : List Stage)
deriving DecidableEq, Repr

/-- A move of the host, the platform or the engine, in the order in which they happen (R7, R90, R281). -/
inductive Event where
  /-- The host performs `RegRead(i)`. -/
  | hostRead (i : BitVec 6)
  /-- The host performs `RegWrite(i, v)`. -/
  | hostWrite (i : BitVec 6) (v : Word)
  /-- The platform asserts `rst`. -/
  | rst
  /-- The platform arranges the source session that a later `SrcOpen` begins, with the items it has ready. -/
  | srcSession (items : List SrcItem)
  /-- The platform makes one more item ready in the current source session. -/
  | srcItem (it : SrcItem)
  /-- The platform arranges the sink session that a later `SnkOpen` begins, with the answers it has ready. -/
  | snkSession (answers : List SnkAnswer)
  /-- The platform makes one more answer ready in the current sink session. -/
  | snkAnswer (a : SnkAnswer)
  /-- The engine goes on. -/
  | engine
deriving DecidableEq, Repr

/-- Everything the spec gives the machine, and the model's own fields at the end. -/
structure State where
  /-- CTRL.IE_DONE (R24). -/
  ieDone : Bool
  /-- CTRL.IE_ERR (R24). -/
  ieErr : Bool
  /-- CMD, the last accepted word (R25, R54). -/
  cmd : Word
  /-- `busy` and the control state (R26, R54, R57): STATUS.BUSY is `run ≠ idle`. -/
  run : Run
  /-- STATUS.DONE (R27). -/
  done : Bool
  /-- STATUS.ERR (R28). -/
  err : Bool
  /-- STATUS.OVERRUN (R29). -/
  overrun : Bool
  /-- F_W (R52). -/
  fw : Bool
  /-- F_T (R52). -/
  ft : Bool
  /-- F_C (R52). -/
  fc : Bool
  /-- F_H (R52). -/
  fh : Bool
  /-- F_D (R52). -/
  fd : Bool
  /-- STATUS.CUR_OP (R31). -/
  curOp : BitVec 4
  /-- ERRINFO, the whole register (R34). -/
  errInfo : Word
  /-- TOTAL (R35). -/
  total : Word
  /-- NSYM, bits 8:0 (R36). -/
  nsym : BitVec 9
  /-- DEC_NSYM, bits 8:0 (R37). -/
  decNsym : BitVec 9
  /-- PAYLOAD_START (R38). -/
  payloadStart : Word
  /-- LAST_BITS, bits 3:0 (R39). -/
  lastBits : BitVec 4
  /-- SRC_POS (R40). DESIGN CHOICE: past 2^64 - 1, where the spec gives no value, it goes on from 0 (log entry 18). -/
  srcPos : Pos
  /-- SNK_POS (R41). DESIGN CHOICE: past 2^64 - 1, where the spec gives no value, it goes on from 0 (log entry 18). -/
  snkPos : Pos
  /-- INDEX.SYM (R42). -/
  index : Byte
  /-- The weight table `w` (R47). -/
  w : Table Word
  /-- The priority list `PL`, arena indices (R48). -/
  pl : List Nat
  /-- The node arena, records 0 to `nn - 1` (R49): `nn` is the list's length. -/
  arena : List Node
  /-- The tree root (R50). -/
  root : Option Nat
  /-- The code table `CT` (R51): `none` is `present = 0, len = 0, bits = ""`, and `some c` is `present = 1`,
  `bits = c`, `len = |c|`. -/
  ct : Table (Option Bits)
  /-- The current source session (R55, R75): the items ready and not yet taken. None when no session is open. -/
  src : Option (List SrcItem)
  /-- The platform's: the source sessions that later `SrcOpen`s begin, the next one first (R77). -/
  srcNext : List (List SrcItem)
  /-- The current sink session (R55, R78): the answers ready and not yet taken. None when no session is open. -/
  snk : Option (List SnkAnswer)
  /-- The platform's: the sink sessions that later `SnkOpen`s begin, the next one first (R79). -/
  snkNext : List (List SnkAnswer)
  /-- The platform's: the output objects, the latest first (R78 to R81). -/
  objects : List (List Byte)
  /-- The model's own: PAYLOAD_START as the last successful WRITE_HDR recorded it, the offset after the placeholder of the
  header in the current sink object (R191). READ_HDR, which R280 lets come between WRITE_HDR and PACK, overwrites
  PAYLOAD_START and not this (log entry 8). -/
  headerEnd : Word
  /-- The model's own: the moves to come, the next one first (log entry 2). -/
  script : List Event
  /-- The model's own: the value the last `RegRead` returned (log entry 5). -/
  rdata : Word
  /-- The model's own: how many free values have been drawn (log entry 5). -/
  draws : Nat
deriving DecidableEq, Repr

/-- The machine right after reset (10_state.md section 5, R271), with nothing supplied by the host or the platform. -/
def State.reset : State where
  ieDone := false
  ieErr := false
  cmd := 0
  run := .idle
  done := false
  err := false
  overrun := false
  fw := false
  ft := false
  fc := false
  fh := false
  fd := false
  curOp := 0
  errInfo := 0
  total := 0
  nsym := 0
  decNsym := 0
  payloadStart := 0
  lastBits := 0
  srcPos := 0
  snkPos := 0
  index := 0
  w := Vector.replicate 256 0
  pl := []
  arena := []
  root := none
  ct := Vector.replicate 256 none
  src := none
  srcNext := []
  snk := none
  snkNext := []
  objects := []
  headerEnd := 0
  script := []
  rdata := 0
  draws := 0

end Sys2Proof.Machine
end

