-- ==== Sys2Proof/Machine/Operands.lean ====
section
/-! DEFINITION. The operand forms: no command word carries an operand (30_encoding.md R101), so these are the tables'
accessors and the fields of the container and of the code windows (30_encoding.md R109 to R117, 20_memory.md R83 to
R85, 10_state.md R45). -/

namespace Sys2Proof.Machine

/-- Entry `s` of a table. -/
def tget {α : Type} (t : Table α) (s : Byte) : α := t[s.toNat]'(s.isLt)

/-- The table with entry `s` replaced. -/
def tset {α : Type} (t : Table α) (s : Byte) (a : α) : Table α := t.set s.toNat a s.isLt

/-- The symbols 0 to 255, ascending. -/
def symbols : List Byte := (List.range 256).map (BitVec.ofNat 8)

/-- The bits of a byte, most significant first (R84). -/
def byteBits (b : Byte) : Bits := (List.range 8).map fun j => b.getLsbD (7 - j)

/-- The number whose binary digits are the given bits, most significant first. -/
def msbNat (c : Bits) : Nat := c.foldl (fun a b => 2 * a + b.toNat) 0

/-- A byte whose bit `7 - j` is `c[j]`, the bits past the end of `c` being 0 (R111). -/
def packByte (c : Bits) : Byte := BitVec.ofNat 8 (msbNat ((c ++ List.replicate 8 false).take 8))

/-- The number of whole bytes that `n` bits take, `ceil(n/8)` (R110). -/
def bytesFor (n : Nat) : Nat := (n + 7) / 8

/-- The code field of a record: field byte `k` holds bits `8k` to `8k + 7` of the code (R111). -/
def codeField (c : Bits) : List Byte :=
  (List.range (bytesFor c.length)).map fun k => packByte (c.drop (8 * k))

/-- The code read from a record's field bytes: their first `len` bits, the padding ignored (R196). -/
def codeOfField (len : Byte) (f : List Byte) : Bits := (f.flatMap byteBits).take len.toNat

/-- A header record: symbol, code length, code field (R110). -/
def recordBytes (s : Byte) (c : Bits) : List Byte := s :: BitVec.ofNat 8 c.length :: codeField c

/-- The low and the high byte of `symbol_count` (R109). -/
def countBytes (n : Nat) : List Byte := [BitVec.ofNat 8 n, BitVec.ofNat 8 (n / 256)]

/-- `symbol_count` from its two bytes, low byte first (R109). -/
def countOfBytes (lo hi : Byte) : Nat := lo.toNat + 256 * hi.toNat

/-- The records of the present entries, in ascending symbol order (R190). -/
def recordsOf (ct : Table (Option Bits)) : List Byte :=
  symbols.flatMap fun s => match tget ct s with
    | some c => recordBytes s c
    | none => []

/-- The number of present entries (R190). -/
def presentCount (ct : Table (Option Bits)) : Nat := (symbols.filter fun s => (tget ct s).isSome).length

/-- What WRITE_HDR appends: the count, the records, the placeholder (R190, R191). -/
def headerBytes (ct : Table (Option Bits)) : List Byte :=
  countBytes (presentCount ct) ++ recordsOf ct ++ [Config.placeholder]

/-- The word CODE_BITSj of a code: code bit `32j + b` is bit `31 - b`, the bits past the end reading 0 (R45). -/
def codeWord (c : Bits) (j : Nat) : Word :=
  BitVec.ofNat 32 (msbNat ((c.drop (32 * j) ++ List.replicate 32 false).take 32))

end Sys2Proof.Machine
end

