-- ==== Sys2Proof/Machine/Flags.lean ====
section
/-! DEFINITION. The status flags: preconditions and invalidation (40_command_control.md R134, R135), BUSY, the STATUS
word (10_state.md R26 to R33) and the interrupt output (60_exceptions.md R249). The block has no arithmetic condition
codes (10_state.md R58). -/

namespace Sys2Proof.Machine

/-- STATUS.BUSY (R26): 1 from the acceptance of a command until its run ends. -/
def State.busy (s : State) : Bool := s.run != .idle

/-- `Pre(op)`, the precondition table (R134). -/
def pre (st : Stage) (s : State) : Bool :=
  match st with
  | .nop => true
  | .count => true
  | .build => s.fw
  | .assign => s.ft
  | .writeHdr => s.fc
  | .pack => s.fh
  | .readHdr => true
  | .unpack => s.fd

/-- `Invalidate(op)`, the first column of R135: the flags cleared before the body's first action. -/
def invalidate (st : Stage) (s : State) : State :=
  match st with
  | .nop => s
  | .count => { s with fw := false, ft := false, fc := false, fh := false, fd := false }
  | .build => { s with ft := false, fc := false, fh := false, fd := false }
  | .assign => { s with fc := false, fh := false }
  | .writeHdr => { s with fh := false }
  | .pack => { s with fd := false }
  | .readHdr => { s with ft := false, fd := false }
  | .unpack => { s with fh := false }

/-- The column "set to 1 on success" of R135. -/
def setOnSuccess (st : Stage) (s : State) : State :=
  match st with
  | .nop => s
  | .count => { s with fw := true }
  | .build => { s with ft := true }
  | .assign => { s with fc := true }
  | .writeHdr => { s with fh := true }
  | .pack => s
  | .readHdr => { s with fd := true }
  | .unpack => s

/-- The column "set to 0 at the end, success or error" of R135. -/
def clearAtEnd (st : Stage) (s : State) : State :=
  match st with
  | .nop => s
  | .count => s
  | .build => s
  | .assign => s
  | .writeHdr => s
  | .pack => { s with fh := false }
  | .readHdr => s
  | .unpack => { s with fd := false }

/-- The interrupt output's level (R249). -/
def State.irq (s : State) : Bool := (s.done && s.ieDone) || (s.err && s.ieErr)

/-- The platform interrupt input driven, and the level on it (R249; HUF_IRQ_LINE is a parameter of the platform). -/
def State.irqLine (s : State) : Nat × Bool := (Config.hufIrqLine, s.irq)

/-- The STATUS word, bit 31 first: reserved 31:21, IRQ, CUR_OP 19:16, reserved 15:13, F_D, F_H, F_C, F_T, F_W,
reserved 7:4, OVERRUN, ERR, DONE, BUSY (R26 to R32). -/
def statusWord (s : State) : Word :=
  (0 : BitVec 11) ++ BitVec.ofBool s.irq ++ s.curOp ++ (0 : BitVec 3)
    ++ BitVec.ofBool s.fd ++ BitVec.ofBool s.fh ++ BitVec.ofBool s.fc ++ BitVec.ofBool s.ft ++ BitVec.ofBool s.fw
    ++ (0 : BitVec 4)
    ++ BitVec.ofBool s.overrun ++ BitVec.ofBool s.err ++ BitVec.ofBool s.done ++ BitVec.ofBool s.busy

/-- A host write to STATUS: each of DONE, ERR and OVERRUN whose bit in `v` is 1 is cleared (R33). -/
def clearStatus (v : Word) (s : State) : State :=
  { s with
    done := s.done && !v.getLsbD 1
    err := s.err && !v.getLsbD 2
    overrun := s.overrun && !v.getLsbD 3 }

end Sys2Proof.Machine
end

