-- ==== Sys2Proof/Machine/Ops.lean ====
section
/-! DEFINITION. The shared operations: the source and sink ports (20_memory.md R75 to R81), the node arena and its links
(10_state.md R49), acceptance (40_command_control.md R130), `finish` (R136), `raise` (60_exceptions.md R243) and reset
(70_reset_and_hazards.md R271). -/

namespace Sys2Proof.Machine

/-- How a piece of a command body goes: it is done with a value, it waits at a transaction for its answer (R89), it
raises an error (R243), or it meets a condition that cannot happen (R258). -/
inductive Flow (α : Type) where
  | done (a : α) (s : State)
  | wait (p : Point) (s : State)
  | raise (e : ErrKind) (s : State)
  | fault (f : Fault)
deriving Repr

/-- Go on after a piece that is done; anything else ends the sequence (R89, R244). -/
def Flow.bind {α β : Type} (m : Flow α) (k : α → State → Flow β) : Flow β :=
  match m with
  | .done a s => k a s
  | .wait p s => .wait p s
  | .raise e s => .raise e s
  | .fault f => .fault f

/-! ### The source port -/

/-- `SrcOpen()` (R75): the session the platform arranged next begins, at position 0. With none arranged the session
begins with no item ready. -/
def srcOpen (s : State) : State :=
  { s with src := some (s.srcNext.headD []), srcNext := s.srcNext.tail, srcPos := 0 }

/-- The items ready in the current source session. -/
def srcItems (s : State) : List SrcItem := s.src.getD []

/-- `SrcRead()` that answers `Byte(v)`: the item is taken, `rest` remains, and SRC_POS advances (R76). DESIGN CHOICE: from
2^64 - 1, where no rule gives the sum, SRC_POS goes on from 0 (log entry 18). -/
def tookByte (rest : List SrcItem) (s : State) : State := { s with src := some rest, srcPos := s.srcPos + 1 }

/-- `SrcRead()` that answers `EOF` or `Fail`: the item is taken and SRC_POS is unchanged (R76). -/
def tookFinal (rest : List SrcItem) (s : State) : State := { s with src := some rest }

/-! ### The sink port -/

/-- `SnkOpen()` (R78): a new, empty output object, in the session the platform arranged next. -/
def snkOpen (s : State) : State :=
  { s with snk := some (s.snkNext.headD []), snkNext := s.snkNext.tail, snkPos := 0, objects := [] :: s.objects }

/-- The current output object. -/
def curObject (s : State) : List Byte := s.objects.headD []

/-- The state with the current output object replaced. -/
def setObject (o : List Byte) (s : State) : State := { s with objects := o :: s.objects.tail }

/-- `SnkAppend(v)` (R79), the engine waiting at `p` while no answer is ready. `Ok`: the byte stands at offset SNK_POS
and SNK_POS advances. `Fail`: the object and SNK_POS are unchanged. The caller is `Put(v)`, which raises
SINK_UNAVAILABLE on `Fail` (R190, R210, R215). DESIGN CHOICE: from 2^64 - 1, where no rule gives the sum, SNK_POS goes on
from 0 (log entry 18). -/
def put (v : Byte) (p : Point) (s : State) : Flow Unit :=
  match s.snk with
  | some (.ok :: rest) =>
    .done () { setObject (curObject s ++ [v]) s with snk := some rest, snkPos := s.snkPos + 1 }
  | some (.fail :: rest) => .raise .sinkUnavailable { s with snk := some rest }
  | _ => .wait p s

/-- The offset of PACK's patch, `PAYLOAD_START - 1` with PAYLOAD_START as WRITE_HDR recorded it: the placeholder's offset
(R81, R191, R213; log entry 8). -/
def patchOffset (s : State) : Nat := s.headerEnd.toNat - 1

/-- Whether the patch is one the engine issues: its offset is one of the object's (R80, R213). -/
def patchInside (s : State) : Bool := s.headerEnd != 0 && decide (patchOffset s < (curObject s).length)

/-- `SnkPatch(PAYLOAD_START - 1, v)` (R80, R213), the engine waiting at `p` while no answer is ready. `Ok`: the byte is
replaced, the length and SNK_POS unchanged. `Fail`: SINK_UNAVAILABLE, the object unchanged. An offset past the object's
end cannot happen (R258). -/
def snkPatch (v : Byte) (p : Point) (s : State) : Flow Unit :=
  if patchInside s then
    match s.snk with
    | some (.ok :: rest) => .done () { setObject ((curObject s).set (patchOffset s) v) s with snk := some rest }
    | some (.fail :: rest) => .raise .sinkUnavailable { s with snk := some rest }
    | _ => .wait p s
  else .fault .patchOffset

/-! ### The node arena -/

/-- The weight field of a record. -/
def Node.weight : Node → Word
  | .leaf _ wt => wt
  | .inner wt _ _ => wt

/-- The weight of record `i`; BUILD asks for it only below `nn` (R49). -/
def nodeWeight (arena : List Node) (i : Nat) : Word := ((arena[i]?).map Node.weight).getD 0

/-- The inner record with no children and weight 0 that the decoder allocates (R192, R197). -/
def emptyNode : Node := .inner 0 none none

/-- The link of a record for a code bit: `left` for 0, `right` for 1 (R11). A leaf has neither (R166 (a)). -/
def Node.child (n : Node) (b : Bool) : Option Nat :=
  match n with
  | .leaf _ _ => none
  | .inner _ l r => if b then r else l

/-- The record with the link for a code bit set. -/
def Node.setChild (n : Node) (b : Bool) (i : Nat) : Node :=
  match n with
  | .leaf s wt => .leaf s wt
  | .inner wt l r => if b then .inner wt l (some i) else .inner wt (some i) r

/-! ### The start and the end of a run -/

/-- Acceptance of a command word, one atomic step (R130). -/
def accept (v : Word) (s : State) : State :=
  { s with cmd := v, run := .accepted, done := false, err := false, errInfo := 0, curOp := opField v }

/-- A host write to CMD (R25): accepted when idle (R130); while busy it is ignored and sets OVERRUN (R131). -/
def writeCmd (v : Word) (s : State) : State :=
  if s.busy then { s with overrun := true } else accept v s

/-- The flag columns of a `finish` in the body of a stage (R136). -/
def finishStage (st : Stage) (s : State) : State := clearAtEnd st (setOnSuccess st s)

/-- The end of a run with success, one atomic step (R136, R232). -/
def endRun (s : State) : State := { s with run := .idle, done := true }

/-- The codes of R240. -/
def ErrKind.code : ErrKind → Byte
  | .sourceUnavailable => 0x01
  | .sinkUnavailable => 0x02
  | .malformedHeader => 0x03
  | .ambiguousCodeSet => 0x04
  | .truncatedPayload => 0x05
  | .undefinedCode => 0x06
  | .symbolNotInTable => 0x07
  | .weightOverflow => 0x08
  | .sequenceError => 0x09
  | .illegalCommand => 0x0A

/-- ERRINFO for an error: OP in bits 11:8, CODE in bits 7:0 (R34, R243). -/
def errWord (op : BitVec 4) (e : ErrKind) : Word := (0 : BitVec 20) ++ op ++ e.code

/-- The completion state `raise E` writes (R243): ERRINFO, ERR, DONE and BUSY. -/
def recordError (e : ErrKind) (s : State) : State :=
  { s with errInfo := errWord s.curOp e, err := true, done := false, run := .idle }

/-- `raise E` while stage `st` is performed, one atomic step (R243). Nothing is saved for a return, and there is none
(R247). -/
def raiseError (st : Stage) (e : ErrKind) (s : State) : State := recordError e (clearAtEnd st s)

/-- A reset, by `rst` or by CTRL.SRESET (R270, R271): every piece of the block's state takes its reset value and both
sessions are abandoned. What the platform and the host hold stays (R272): the output objects, the sessions and moves to
come. Of the model's own fields `headerEnd`, which belongs to the block, is reset and the others stay (log entries 5, 14). -/
def applyReset (s : State) : State :=
  { State.reset with
    srcNext := s.srcNext, snkNext := s.snkNext, objects := s.objects
    script := s.script, rdata := s.rdata, draws := s.draws }

end Sys2Proof.Machine
end

