-- ==== Sys2Proof/Machine/HostPort.lean ====
section
/-! DEFINITION. The register port: `RegRead` and `RegWrite` (20_memory.md R72, R73; 10_state.md R20 to R46). -/

namespace Sys2Proof.Machine

/-- What a register reads while BUSY = 0 (R22 to R45). Reserved bits read 0 (R21). -/
def regValue (r : Reg) (s : State) : Word :=
  match r with
  | .id => Config.idValue
  | .ctrl => (0 : BitVec 29) ++ BitVec.ofBool s.ieErr ++ BitVec.ofBool s.ieDone ++ (0 : BitVec 1)
  | .cmd => s.cmd
  | .status => statusWord s
  | .errInfo => s.errInfo
  | .total => s.total
  | .nsym => s.nsym.setWidth 32
  | .decNsym => s.decNsym.setWidth 32
  | .payloadStart => s.payloadStart
  | .lastBits => s.lastBits.setWidth 32
  | .srcPosLo => s.srcPos.extractLsb' 0 32
  | .srcPosHi => s.srcPos.extractLsb' 32 32
  | .snkPosLo => s.snkPos.extractLsb' 0 32
  | .snkPosHi => s.snkPos.extractLsb' 32 32
  | .index => s.index.setWidth 32
  | .weight => tget s.w s.index
  | .codeLen =>
    match tget s.ct s.index with
    | some c => (0 : BitVec 23) ++ (1 : BitVec 1) ++ BitVec.ofNat 8 c.length
    | none => 0
  | .codeBits j =>
    match tget s.ct s.index with
    | some c => codeWord c j.val
    | none => 0

/-- The registers that read exactly while BUSY = 1 (R46); STATUS does so in bits 3:0 only. -/
def exactWhileBusy (r : Option Reg) : Bool :=
  match r with
  | some .id => true
  | some .ctrl => true
  | some .cmd => true
  | some .errInfo => true
  | some .index => true
  | _ => false

/-- `RegRead(i)` while BUSY = 0: reserved words read 0 (R21). -/
def idleRead (i : BitVec 6) (s : State) : Word :=
  match Reg.ofIndex i with
  | some r => regValue r s
  | none => 0

/-- `RegRead(i)` while BUSY = 1 (R46): the registers listed there read exactly, STATUS in bits 3:0, and everything else
is a free value (log entry 4). -/
def busyRead (i : BitVec 6) (s : State) : Word :=
  if exactWhileBusy (Reg.ofIndex i) then idleRead i s
  else if Reg.ofIndex i = some .status then
    (Config.busyRead s.draws).extractLsb' 4 28 ++ (statusWord s).extractLsb' 0 4
  else Config.busyRead s.draws

/-- `RegRead(i)`: the value returned (R72). -/
def regRead (i : BitVec 6) (s : State) : Word := if s.busy then busyRead i s else idleRead i s

/-- A host read: it changes nothing of the block (R73). The model keeps the value returned and counts a free value
drawn (log entry 5). -/
def hostRead (i : BitVec 6) (s : State) : State :=
  { s with
    rdata := regRead i s
    draws := if s.busy && !exactWhileBusy (Reg.ofIndex i) then s.draws + 1 else s.draws }

/-- A host write to CTRL: bit 0 = 1 is a soft reset and nothing else; bit 0 = 0 stores the enables (R23, R24). -/
def writeCtrl (v : Word) (s : State) : State :=
  if v.getLsbD 0 then applyReset s else { s with ieDone := v.getLsbD 1, ieErr := v.getLsbD 2 }

/-- `RegWrite(i, v)` (R72, R73): CTRL, CMD, STATUS and INDEX take a write; every other word ignores it (R21). -/
def regWrite (i : BitVec 6) (v : Word) (s : State) : State :=
  match Reg.ofIndex i with
  | some .ctrl => writeCtrl v s
  | some .cmd => writeCmd v s
  | some .status => clearStatus v s
  | some .index => { s with index := v.extractLsb' 0 8 }
  | _ => s

end Sys2Proof.Machine
end

