-- ==== Sys2Proof/Machine/Control.lean ====
section
/-! DEFINITION. How a stage is performed and a run ends (40_command_control.md R132 to R136, R138; 46_pipelines.md
R232), and NOP (R137). -/

namespace Sys2Proof.Machine

/-- `Perform(op)` (R132): CUR_OP, the precondition, the invalidation, the body. -/
def performStage (st : Stage) (body : State → Flow Unit) (s : State) : Flow Unit :=
  if pre st s then body (invalidate st { s with curOp := st.op })
  else .raise .sequenceError { s with curOp := st.op }

/-- What becomes of a stage: its `finish` applies its flag columns and control goes on with `k` (R136, R232); while it
waits, BUSY stays 1 and `rest` are the sub-steps to come; a `raise` ends the run (R243). -/
def settle (st : Stage) (rest : List Stage) (k : State → Host.Outcome State Fault Refusal) (m : Flow Unit) :
    Host.Outcome State Fault Refusal :=
  match m with
  | .done _ s => k (finishStage st s)
  | .wait p s => .next { s with run := .waiting st p rest }
  | .raise e s => .next (raiseError st e s)
  | .fault f => .fault f

/-- The run of a single-stage command (R132, R136): as far as the answers that are ready take it (log entry 1). -/
def runStage (st : Stage) (body : State → Flow Unit) (s : State) : Host.Outcome State Fault Refusal :=
  settle st [] (fun t => .next (endRun t)) (performStage st body s)

/-- `Body(NOP)`: finish (R137). -/
def nopBody (s : State) : Flow Unit := .done () s

/-- NOP (R137). -/
def execNop (s : State) : Host.Outcome State Fault Refusal := runStage .nop nopBody s

end Sys2Proof.Machine
end

