-- ==== Sys2Proof/Machine/BitPacker.lean ====
section
/-! DEFINITION. The bit packer and unpacker: PACK and UNPACK (45_bit_packer.md R210 to R221). -/

namespace Sys2Proof.Machine

/-! ### PACK -/

/-- The accumulator with one more bit (R210). -/
def shiftIn (acc : Byte) (b : Bool) : Byte := (acc <<< 1) ||| (BitVec.ofBool b).setWidth 8

/-- The bits of one code go into the accumulator; a full one is appended (R210, R211). The value is the accumulator
and the held-bit count after them. -/
def packBits : Bits → Byte → Nat → State → Flow (Byte × Nat)
  | [], acc, held, s => .done (acc, held) s
  | b :: c, acc, held, s =>
    if held + 1 = 8 then
      (put (shiftIn acc b) (.packByte (shiftIn acc b) c) s).bind fun _ s => packBits c 0 0 s
    else packBits c (shiftIn acc b) (held + 1) s

/-- The patch, the last action of PACK (R213). -/
def packPatch (s : State) : Flow Unit := snkPatch (s.lastBits.setWidth 8) .packPatch s

/-- The byte of the final flush: the held bits at its top (R212). -/
def flushByte (acc : Byte) (held : Nat) : Byte := acc <<< (8 - held)

/-- The final flush is appended, LAST_BITS is set, and the patch follows (R212). -/
def packFlush (acc : Byte) (held : Nat) (s : State) : Flow Unit :=
  (put (flushByte acc held) (.packFlush acc held) s).bind fun _ s =>
    packPatch { s with lastBits := BitVec.ofNat 4 held }

/-- After EOF (R212): the flush when bits are held, else LAST_BITS = 8. -/
def packEnd (acc : Byte) (held : Nat) (s : State) : Flow Unit :=
  if held > 0 then packFlush acc held s else packPatch { s with lastBits := 8 }

/-- The reading loop of PACK over the items ready in the session (R210). -/
def packLoop : List SrcItem → Byte → Nat → State → Flow Unit
  | [], acc, held, s => .wait (.packRead acc held) s
  | .fail :: rest, _, _, s => .raise .sourceUnavailable (tookFinal rest s)
  | .eof :: rest, acc, held, s => packEnd acc held (tookFinal rest s)
  | .byte v :: rest, acc, held, s =>
    match tget s.ct v with
    | none => .raise .symbolNotInTable (tookByte rest s)
    | some c => (packBits c acc held (tookByte rest s)).bind fun ah s => packLoop rest ah.1 ah.2 s

/-- `Body(PACK)` (R210). -/
def packBody (s : State) : Flow Unit :=
  let s := srcOpen { s with lastBits := 0 }
  packLoop (srcItems s) 0 0 s

/-- PACK goes on after the answer to the append of a full accumulator. -/
def packResume (acc : Byte) (todo : Bits) (s : State) : Flow Unit :=
  (put acc (.packByte acc todo) s).bind fun _ s =>
    (packBits todo 0 0 s).bind fun ah s => packLoop (srcItems s) ah.1 ah.2 s

/-- PACK (R210). -/
def execPack (s : State) : Host.Outcome State Fault Refusal := runStage .pack packBody s

/-! ### UNPACK -/

/-- The walk over the meaningful bits of one byte (R215, R216): a link that is absent raises UNDEFINED_CODE, and a leaf
appends its symbol and goes back to the root. `ahead` is the lookahead byte, none for EOF. -/
def walkBits (root : Nat) (ahead : Option Byte) : Bits → Nat → State → Flow Nat
  | [], cur, s => .done cur s
  | b :: bs, cur, s =>
    match s.arena[cur]? with
    | none => .fault .noNode
    | some n =>
      match n.child b with
      | none => .raise .undefinedCode s
      | some x =>
        match s.arena[x]? with
        | none => .fault .noNode
        | some (.leaf sym _) =>
          (put sym (.unpackPut sym bs ahead) s).bind fun _ s => walkBits root ahead bs root s
        | some (.inner _ _ _) => walkBits root ahead bs x s

/-- The end of the payload (R218): the walk must stand at the root. -/
def unpackEnd (root cur : Nat) (s : State) : Flow Unit :=
  if cur = root then .done () s else .raise .truncatedPayload s

/-- The loop of UNPACK with byte `b` held and the walk at `cur`, over the items ready (R215, R217): the byte is the
last when the lookahead answers EOF, and then only its top LAST_BITS bits are meaningful. -/
def unpackLoop (root : Nat) : List SrcItem → Byte → Nat → State → Flow Unit
  | [], b, cur, s => .wait (.unpackAhead b cur) s
  | .fail :: rest, _, _, s => .raise .sourceUnavailable (tookFinal rest s)
  | .eof :: rest, b, cur, s =>
    (walkBits root none ((byteBits b).take s.lastBits.toNat) cur (tookFinal rest s)).bind fun cur s =>
      unpackEnd root cur s
  | .byte v :: rest, b, cur, s =>
    (walkBits root (some v) (byteBits b) cur (tookByte rest s)).bind fun cur s => unpackLoop root rest v cur s

/-- The first `Next()` of UNPACK: EOF is the empty payload (R215, R218). -/
def unpackFirst (root : Nat) (items : List SrcItem) (s : State) : Flow Unit :=
  match items with
  | [] => .wait .unpackFirst s
  | .fail :: rest => .raise .sourceUnavailable (tookFinal rest s)
  | .eof :: rest => .done () (tookFinal rest s)
  | .byte v :: rest => unpackLoop root rest v root (tookByte rest s)

/-- UNPACK goes on after the answer to the append of a symbol. -/
def unpackResume (root : Nat) (sym : Byte) (todo : Bits) (ahead : Option Byte) (s : State) : Flow Unit :=
  (put sym (.unpackPut sym todo ahead) s).bind fun _ s =>
    (walkBits root ahead todo root s).bind fun cur s =>
      match ahead with
      | none => unpackEnd root cur s
      | some v => unpackLoop root (srcItems s) v cur s

/-- Go on with the tree's root (R50); a decoder tree has one whenever UNPACK needs it (R192). -/
def withRoot (s : State) (k : Nat → Flow Unit) : Flow Unit :=
  match s.root with
  | none => .fault .noNode
  | some r => k r

/-- `Body(UNPACK)` (R215). With DEC_NSYM = 0 no source read is issued (R219). -/
def unpackBody (s : State) : Flow Unit :=
  let s := snkOpen s
  if s.decNsym = 0 then .done () s
  else withRoot s fun r => unpackFirst r (srcItems s) s

/-- UNPACK (R215). -/
def execUnpack (s : State) : Host.Outcome State Fault Refusal := runStage .unpack unpackBody s

end Sys2Proof.Machine
end

