-- ==== Sys2Proof/Machine/CodeAssigner.lean ====
section
/-! DEFINITION. The code-table generator: ASSIGN (43_code_assigner.md R180 to R182). -/

namespace Sys2Proof.Machine

/-- The breadth-first loop of ASSIGN over the FIFO queue `Q` of (node, code so far) (R180). Each node is dequeued at
most once (R182 (e)), so a bound of `nn` dequeues is enough; passing it, or a code over 255 bits, cannot happen
(R258). -/
def assignLoop (arena : List Node) : Nat → List (Nat × Bits) → Table (Option Bits) → Except Fault (Table (Option Bits))
  | _, [], ct => .ok ct
  | 0, _ :: _, _ => .error .queueBound
  | n + 1, (x, c) :: q, ct =>
    match arena[x]? with
    | some (.leaf s _) =>
      if c.length ≤ Config.maxCodeLen then assignLoop arena n q (tset ct s (some c)) else .error .codeLength
    | some (.inner _ (some l) (some r)) => assignLoop arena n (q ++ [(l, c ++ [false]), (r, c ++ [true])]) ct
    | some (.inner _ _ _) => .error .noNode
    | none => .error .noNode

/-- The table ASSIGN writes (R180): empty for the empty tree, the 1-bit code "0" for a single leaf (R181), and the
traversal's codes otherwise. -/
def assignTable (arena : List Node) (root : Option Nat) : Except Fault (Table (Option Bits)) :=
  match root with
  | none => .ok (Vector.replicate 256 none)
  | some r =>
    match arena[r]? with
    | some (.leaf s _) => .ok (tset (Vector.replicate 256 none) s (some [false]))
    | _ => assignLoop arena arena.length [(r, [])] (Vector.replicate 256 none)

/-- `Body(ASSIGN)` (R180). -/
def assignBody (s : State) : Flow Unit :=
  match assignTable s.arena s.root with
  | .ok ct => .done () { s with ct := ct }
  | .error f => .fault f

/-- ASSIGN (R180). -/
def execAssign (s : State) : Host.Outcome State Fault Refusal := runStage .assign assignBody s

end Sys2Proof.Machine
end

