-- ==== Sys2Proof/Machine/Counter.lean ====
section
/-! DEFINITION. The frequency counter: COUNT (41_frequency_counter.md R150 to R153). -/

namespace Sys2Proof.Machine

/-- Count one byte (R150): `w[b] + 1` and `TOTAL + 1`. -/
def tally (b : Byte) (s : State) : State := { s with w := tset s.w b (tget s.w b + 1), total := s.total + 1 }

/-- The number of distinct symbols with nonzero weight (R152). -/
def distinct (w : Table Word) : Nat := (symbols.filter fun b => tget w b != 0).length

/-- The reading loop of COUNT over the items ready in the session (R150). A byte that arrives when TOTAL is
2^32 - 1 has been taken and is not counted (R151). -/
def countLoop : List SrcItem → State → Flow Unit
  | [], s => .wait .countRead s
  | .fail :: rest, s => .raise .sourceUnavailable (tookFinal rest s)
  | .eof :: rest, s => .done () { tookFinal rest s with nsym := BitVec.ofNat 9 (distinct s.w) }
  | .byte b :: rest, s =>
    if s.total = Config.maxTotal then .raise .weightOverflow (tookByte rest s)
    else countLoop rest (tally b (tookByte rest s))

/-- `Body(COUNT)` (R150). -/
def countBody (s : State) : Flow Unit :=
  let s := srcOpen { s with w := Vector.replicate 256 0, total := 0, nsym := 0 }
  countLoop (srcItems s) s

/-- COUNT (R150). -/
def execCount (s : State) : Host.Outcome State Fault Refusal := runStage .count countBody s

end Sys2Proof.Machine
end

