-- ==== Sys2Proof/Machine/HeaderCodec.lean ====
section
/-! DEFINITION. The header codec and the tree reconstruction: WRITE_HDR and READ_HDR (44_header_codec.md R190 to
R201). -/

namespace Sys2Proof.Machine

/-! ### WRITE_HDR -/

/-- Append the bytes in order; at the end the payload's offset is recorded (R190), for PACK's patch as well (log entry 8). -/
def hdrPutLoop : List Byte → State → Flow Unit
  | [], s => .done () { s with payloadStart := s.snkPos.extractLsb' 0 32, headerEnd := s.snkPos.extractLsb' 0 32 }
  | v :: todo, s => (put v (.hdrPut (v :: todo)) s).bind fun _ s => hdrPutLoop todo s

/-- `Body(WRITE_HDR)` (R190). -/
def writeHdrBody (s : State) : Flow Unit :=
  hdrPutLoop (headerBytes s.ct) (snkOpen { s with payloadStart := 0 })

/-- WRITE_HDR (R190). -/
def execWriteHdr (s : State) : Host.Outcome State Fault Refusal := runStage .writeHdr writeHdrBody s

/-! ### READ_HDR -/

/-- How an insertion ends: the arena with the new leaf, an overlap with an earlier code, or a condition that cannot
happen. -/
inductive Inserted where
  | placed (arena : List Node)
  | overlap (arena : List Node)
  | fault (f : Fault)
deriving DecidableEq, Repr

/-- `Insert(c, s)` from record `x` on (R197). -/
def insertCode (sym : Byte) : Bits → Nat → List Node → Inserted
  | [], x, arena =>
    match arena[x]? with
    | some (.inner wt none none) => .placed (arena.set x (.leaf sym wt))
    | some _ => .overlap arena
    | none => .fault .noNode
  | b :: c, x, arena =>
    match arena[x]? with
    | none => .fault .noNode
    | some (.leaf _ _) => .overlap arena
    | some n =>
      match n.child b with
      | some y => insertCode sym c y arena
      | none =>
        insertCode sym c arena.length ((arena ++ [emptyNode]).set x (n.setChild b arena.length))

/-- What follows a record: the next one, or the meaningful-bits byte when `left` records remain to read and that is
none (R192, R114). -/
def afterRecord (cnt left : Nat) (seen : List Byte) : HdrAt :=
  if left = 0 then .meaningful cnt else .symbol cnt left seen

/-- A record whose code field is complete: its code goes into the tree (R196, R197). -/
def recordRead (cnt left : Nat) (seen : List Byte) (sym len : Byte) (f : List Byte) (s : State) :
    Flow (Option HdrAt) :=
  match s.root with
  | none => .fault .noNode
  | some r =>
    match insertCode sym (codeOfField len f) r s.arena with
    | .placed arena => .done (some (afterRecord cnt (left - 1) (sym :: seen))) { s with arena := arena }
    | .overlap arena => .raise .ambiguousCodeSet { s with arena := arena }
    | .fault f => .fault f

/-- READ_HDR takes header byte `v` (R192, R194, R195, R198, R199). None as the next place means that the header is
complete. -/
def hdrByte (h : HdrAt) (v : Byte) (s : State) : Flow (Option HdrAt) :=
  match h with
  | .countLo => .done (some (.countHi v)) s
  | .countHi lo =>
    let cnt := countOfBytes lo v
    if cnt > Config.alphabetSize then .raise .malformedHeader s else .done (some (afterRecord cnt cnt [])) s
  | .symbol cnt left seen => .done (some (.length cnt left seen v)) s
  | .length cnt left seen sym =>
    if v = 0 then .raise .malformedHeader s
    else if sym ∈ seen then .raise .malformedHeader s
    else .done (some (.code cnt left seen sym v [])) s
  | .code cnt left seen sym len got =>
    let f := got ++ [v]
    if f.length < bytesFor len.toNat then .done (some (.code cnt left seen sym len f)) s
    else recordRead cnt left seen sym len f s
  | .meaningful cnt =>
    if v.toNat < 1 ∨ v.toNat > 8 then .raise .malformedHeader s
    else .done none { s with
      lastBits := v.extractLsb' 0 4, decNsym := BitVec.ofNat 9 cnt, payloadStart := s.srcPos.extractLsb' 0 32 }

/-- The header bytes taken one after another by `Get()` (R193): EOF raises MALFORMED_HEADER and Fail raises
SOURCE_UNAVAILABLE. -/
def hdrLoop : List SrcItem → HdrAt → State → Flow Unit
  | [], h, s => .wait (.hdrGet h) s
  | .fail :: rest, _, s => .raise .sourceUnavailable (tookFinal rest s)
  | .eof :: rest, _, s => .raise .malformedHeader (tookFinal rest s)
  | .byte v :: rest, h, s => (hdrByte h v (tookByte rest s)).bind fun next s =>
      match next with
      | some h' => hdrLoop rest h' s
      | none => .done () s

/-- `Body(READ_HDR)` (R192): the arena is cleared and holds an empty root. -/
def readHdrBody (s : State) : Flow Unit :=
  let s := srcOpen { s with decNsym := 0, lastBits := 0, payloadStart := 0 }
  let s := { s with arena := [emptyNode], root := some 0 }
  hdrLoop (srcItems s) .countLo s

/-- READ_HDR (R192). -/
def execReadHdr (s : State) : Host.Outcome State Fault Refusal := runStage .readHdr readHdrBody s

end Sys2Proof.Machine
end

