-- ==== Sys2Proof/Machine/TreeBuilder.lean ====
section
/-! DEFINITION. The priority list and the tree builder: BUILD (42_tree_builder.md R160 to R166). -/

namespace Sys2Proof.Machine

/-- `insert_ordered(i)` (R160): after every node whose weight is at most `N[i].weight`, before the first of strictly
greater weight. -/
def insertOrdered (arena : List Node) (i : Nat) : List Nat → List Nat
  | [] => [i]
  | x :: pl => if nodeWeight arena i < nodeWeight arena x then i :: x :: pl else x :: insertOrdered arena i pl

/-- `pop_min()` (R161): the head of the list and the rest; none is EMPTY. -/
def popMin : List Nat → Option (Nat × List Nat)
  | [] => none
  | x :: pl => some (x, pl)

/-- Whether symbol `s` replaces `best` in the scan for the smallest nonzero weight (R162): a strict comparison, so the
lowest symbol wins among equals. -/
def betterThan (tmp : Table Word) (best : Option Byte) (s : Byte) : Bool :=
  tget tmp s != 0 && (match best with
    | none => true
    | some b => decide (tget tmp s < tget tmp b))

/-- The symbol of the smallest nonzero weight left, none when all are zero (R162). -/
def pickMin (tmp : Table Word) : Option Byte :=
  symbols.foldl (fun best s => if betterThan tmp best s then some s else best) none

/-- The loop of `ListInit` (R162): it picks a symbol, allocates its leaf, inserts it, and zeroes its weight in the
working copy `tmp`. Each turn zeroes one of the 256 entries, so 256 turns are enough. -/
def listInitLoop : Nat → Table Word → List Node → List Nat → List Node × List Nat
  | 0, _, arena, pl => (arena, pl)
  | n + 1, tmp, arena, pl =>
    match pickMin tmp with
    | none => (arena, pl)
    | some s =>
      let arena' := arena ++ [.leaf s (tget tmp s)]
      listInitLoop n (tset tmp s 0) arena' (insertOrdered arena' arena.length pl)

/-- `ListInit()` (R162): the arena and the list, both cleared first. `w` itself is not written. -/
def listInit (w : Table Word) : List Node × List Nat := listInitLoop 256 w [] []

/-- The merges (R163, R164): pop `a`, then `b`; a new node with `left = a`, `right = b` and the sum of their weights
goes back into the list. A sum above 2^32 - 1 cannot happen (R258). -/
def mergeLoop : Nat → List Node → List Nat → Except Fault (List Node × List Nat)
  | 0, arena, pl => .ok (arena, pl)
  | n + 1, arena, pl =>
    match popMin pl with
    | none => .ok (arena, pl)
    | some (a, pl₁) =>
      match popMin pl₁ with
      | none => .ok (arena, pl)
      | some (b, pl₂) =>
        if (nodeWeight arena a).toNat + (nodeWeight arena b).toNat < 2 ^ 32 then
          let arena' := arena ++ [.inner (nodeWeight arena a + nodeWeight arena b) (some a) (some b)]
          mergeLoop n arena' (insertOrdered arena' arena.length pl₂)
        else .error .mergedWeight

/-- `Body(BUILD)` (R163). With no leaf the root is none (R163, 92_eei_decisions.md D17); otherwise the root is what
`pop_min` removes from the list of one (R165). -/
def buildBody (s : State) : Flow Unit :=
  let (arena₀, pl₀) := listInit s.w
  match mergeLoop (pl₀.length - 1) arena₀ pl₀ with
  | .error f => .fault f
  | .ok (arena, pl) =>
    match popMin pl with
    | none => .done () { s with arena := arena, pl := pl, root := none }
    | some (r, pl') => .done () { s with arena := arena, pl := pl', root := some r }

/-- BUILD (R163). -/
def execBuild (s : State) : Host.Outcome State Fault Refusal := runStage .build buildBody s

end Sys2Proof.Machine
end

