-- ==== Sys2Proof/Machine/Pipelines.lean ====
section
/-! DEFINITION. The pipelines COMPRESS and DECOMPRESS (46_pipelines.md R230 to R235), and how a run goes on once the
answer it waits for is there (20_memory.md R89). -/

namespace Sys2Proof.Machine

/-- `Body(op)` of a stage. -/
def stageBody (st : Stage) : State → Flow Unit :=
  match st with
  | .nop => nopBody
  | .count => countBody
  | .build => buildBody
  | .assign => assignBody
  | .writeHdr => writeHdrBody
  | .pack => packBody
  | .readHdr => readHdrBody
  | .unpack => unpackBody

/-- The sub-steps one after another; after the last the run ends with success (R230 to R232). -/
def performAll : List Stage → State → Host.Outcome State Fault Refusal
  | [], s => .next (endRun s)
  | st :: rest, s => settle st rest (performAll rest) (performStage st (stageBody st) s)

/-- The sub-steps of COMPRESS (R230). -/
def compressStages : List Stage := [.count, .build, .assign, .writeHdr, .pack]

/-- The sub-steps of DECOMPRESS (R231). -/
def decompressStages : List Stage := [.readHdr, .unpack]

/-- COMPRESS (R230). `Perform(COMPRESS)` writes CUR_OP first, then each sub-step does (R138). -/
def execCompress (s : State) : Host.Outcome State Fault Refusal :=
  performAll compressStages { s with curOp := Instr.compress.opcode }

/-- DECOMPRESS (R231). Its flags are those of its sub-steps (R135, R231): READ_HDR clears F_T and F_D, and F_H falls when
UNPACK starts, so a DECOMPRESS whose READ_HDR raises keeps F_H (90_conflicts.md C12; log entry 16). -/
def execDecompress (s : State) : Host.Outcome State Fault Refusal :=
  performAll decompressStages { s with curOp := Instr.decompress.opcode }

/-- A stage goes on from the transaction it waits at: the transaction is asked for its answer again. -/
def resumeBody (p : Point) (s : State) : Flow Unit :=
  match p with
  | .countRead => countLoop (srcItems s) s
  | .hdrPut todo => hdrPutLoop todo s
  | .hdrGet h => hdrLoop (srcItems s) h s
  | .packRead acc held => packLoop (srcItems s) acc held s
  | .packByte acc todo => packResume acc todo s
  | .packFlush acc held => packFlush acc held s
  | .packPatch => packPatch s
  | .unpackFirst => withRoot s fun r => unpackFirst r (srcItems s) s
  | .unpackAhead b cur => withRoot s fun r => unpackLoop r (srcItems s) b cur s
  | .unpackPut sym todo ahead => withRoot s fun r => unpackResume r sym todo ahead s

/-- A waiting run goes on, and then the sub-steps that come after the waiting one (R232). -/
def resumeRun (st : Stage) (p : Point) (rest : List Stage) (s : State) : Host.Outcome State Fault Refusal :=
  settle st rest (performAll rest) (resumeBody p s)

end Sys2Proof.Machine
end

