-- ==== Sys2Proof/Machine/Engine.lean ====
section
/-! DEFINITION. What each move does: the engine's turn (40_command_control.md R132), the host's accesses, the platform's
answers and `rst` (70_reset_and_hazards.md R281). -/

namespace Sys2Proof.Machine

/-- `raise ILLEGAL_COMMAND` (R133): no stage is performed, so only the completion state changes. ERRINFO.OP is the OP
field, which acceptance put into CUR_OP. -/
def raiseIllegal (s : State) : State := recordError .illegalCommand s

/-- `Run(v)` of the accepted word (R132): an illegal word raises ILLEGAL_COMMAND, a command is performed. -/
def runAccepted (s : State) : Host.Outcome State Fault Refusal :=
  match decode s.cmd with
  | .illegal _ => .next (raiseIllegal s)
  | .command i => exec i s

/-- The engine goes on: idle it does nothing (R256), an accepted word is run, and a waiting run goes on as far as the
answers that are ready take it (log entries 1 and 15). -/
def engineTurn (s : State) : Host.Outcome State Fault Refusal :=
  match s.run with
  | .idle => .next s
  | .accepted => runAccepted s
  | .waiting st p rest => resumeRun st p rest s

/-- One more item is ready in the current source session; with no session open it is discarded (R272). -/
def deliverItem (it : SrcItem) (s : State) : State :=
  match s.src with
  | some items => { s with src := some (items ++ [it]) }
  | none => s

/-- One more answer is ready in the current sink session; with no session open it is discarded (R272). -/
def deliverAnswer (a : SnkAnswer) (s : State) : State :=
  match s.snk with
  | some answers => { s with snk := some (answers ++ [a]) }
  | none => s

/-- One move (R281). -/
def applyEvent (e : Event) (s : State) : Host.Outcome State Fault Refusal :=
  match e with
  | .hostRead i => .next (hostRead i s)
  | .hostWrite i v => .next (regWrite i v s)
  | .rst => .next (applyReset s)
  | .srcSession items => .next { s with srcNext := s.srcNext ++ [items] }
  | .srcItem it => .next (deliverItem it s)
  | .snkSession answers => .next { s with snkNext := s.snkNext ++ [answers] }
  | .snkAnswer a => .next (deliverAnswer a s)
  | .engine => engineTurn s

/-- The next move of the script; when the script is empty the engine goes on (log entry 2). -/
def stepScript (s : State) : Host.Outcome State Fault Refusal :=
  match s.script with
  | [] => engineTurn s
  | e :: rest => applyEvent e { s with script := rest }

/-- The state in which `v` has just been accepted and the engine moves next, whatever ran before (log entry 3). -/
def placeWord (v : Word) (s : State) : State := { accept v s with script := .engine :: s.script }

end Sys2Proof.Machine
end

