-- ==== Sys2Proof/Machine/Step.lean ====
section
/-! DEFINITION. One step of the machine, and where it takes its next command word from: the CMD register of an
accepted command (10_state.md R25, R57). -/

namespace Sys2Proof.Machine

/-- One step: the next move of the script, or the engine's when there is none. -/
def step (s : State) : Host.Outcome State Fault Refusal := stepScript s

/-- The state whose next step runs the command word with bits `w` (the opcode table's numbering). -/
def State.withFetchWord (s : State) (nbits w : Nat) : State :=
  placeWord (BitVec.ofNat 32 (w % 2 ^ nbits)) s

end Sys2Proof.Machine
end

