-- ==== Sys2Proof/WellFormed.lean ====
section
/-! DEFINITION. When a term is one the spec gives: a command (every constructor is, having no operand, R101), a command
word (30_encoding.md R102 to R104), and a complete source session (20_memory.md R77). -/

namespace Sys2Proof

/-- A command word has MBZ = 0 (R104) and an OP below 0xA (R103). -/
def wellFormedWord (v : Word) : Bool := mbzField v == 0 && decide ((opField v).toNat < 10)

/-- A command is well formed when the word it stands for is one of the opcode map (R102). -/
def Instr.wellFormed (i : Instr) : Bool := wellFormedWord (encode i)

/-- A complete source session: bytes, then one final item, `EOF` or `Fail` (R77). -/
def completeSession : List SrcItem → Bool
  | .byte _ :: rest => completeSession rest
  | [.eof] => true
  | [.fail] => true
  | _ => false

end Sys2Proof
end

