-- ==== Sys2Proof/Safety.lean ====
section
/-! DEFINITION. The terms in which claims are stated: the tree an arena holds, the tables and streams the rules speak of,
and the invariants of the machine (42_tree_builder.md R166, 43_code_assigner.md R182, 44_header_codec.md R201,
45_bit_packer.md R220, 60_exceptions.md R258). Nothing of the machine uses this file. -/

set_option autoImplicit false

namespace Sys2Proof.Machine

/-! ### Trees -/

/-- A code tree without its arena. `none` is the absent child of a decoder's inner record (90_conflicts.md C8). -/
inductive Trie where
  | none
  | leaf (sym : Byte)
  | node (l r : Trie)
deriving DecidableEq, Repr

/-- What stands at the end of a path from the root, 0 for left and 1 for right (R11): `none` when the path leaves the
tree or goes on past a leaf. -/
def Trie.descend : Trie → Bits → Trie
  | t, [] => t
  | .node l r, b :: c => if b then r.descend c else l.descend c
  | _, _ :: _ => .none

/-- The symbol of the leaf exactly at a path. -/
def Trie.lookup (t : Trie) (c : Bits) : Option Byte :=
  match t.descend c with
  | .leaf s => some s
  | _ => Option.none

/-- Each leaf's symbol with its path, from left to right. -/
def Trie.codes : Trie → List (Byte × Bits)
  | .none => []
  | .leaf s => [(s, [])]
  | .node l r => l.codes.map (fun p => (p.1, false :: p.2)) ++ r.codes.map (fun p => (p.1, true :: p.2))

/-- The symbols of the leaves, from left to right. -/
def Trie.symbols (t : Trie) : List Byte := t.codes.map Prod.fst

/-- Every inner node has both children, and there is at least one leaf (R166 (a)). -/
def Trie.full : Trie → Bool
  | .none => false
  | .leaf _ => true
  | .node l r => l.full && r.full

/-- The number of leaves and inner nodes. -/
def Trie.nodes : Trie → Nat
  | .none => 0
  | .leaf _ => 1
  | .node l r => l.nodes + r.nodes + 1

/-- The length of the longest path from the root to a node. -/
def Trie.depth : Trie → Nat
  | .none => 0
  | .leaf _ => 0
  | .node l r => max l.depth r.depth + 1

/-- The arena holds the tree `t` under the link `i`. -/
inductive IsTrie (arena : List Node) : Option Nat → Trie → Prop where
  | none : IsTrie arena none .none
  | leaf {i : Nat} {s : Byte} {wt : Word} (h : arena[i]? = some (.leaf s wt)) : IsTrie arena (some i) (.leaf s)
  | node {i : Nat} {wt : Word} {l r : Option Nat} {tl tr : Trie} (h : arena[i]? = some (.inner wt l r))
      (hl : IsTrie arena l tl) (hr : IsTrie arena r tr) : IsTrie arena (some i) (.node tl tr)

/-- Every inner record's weight is the sum of its two children's weights, as numbers (R164, R166 (c)). -/
def WeightsAdd (arena : List Node) : Prop :=
  ∀ (i : Nat) (wt : Word) (l r : Nat), arena[i]? = some (Node.inner wt (some l) (some r)) →
    wt.toNat = (nodeWeight arena l).toNat + (nodeWeight arena r).toNat

/-- Every link of every record leads to a record of the arena. -/
def LinksInRange (arena : List Node) : Prop :=
  ∀ (i : Nat) (n : Node) (b : Bool) (j : Nat), arena[i]? = some n → n.child b = some j → j < arena.length

/-! ### Tables -/

/-- The weight table of a byte sequence: entry `b` is the number of occurrences of `b` (R47, R150). -/
def countsOf (bs : List Byte) : Table Word := Vector.ofFn fun i => BitVec.ofNat 32 (bs.count (BitVec.ofNat 8 i.val))

/-- The sum of the weights, as a number (R151). -/
def weightSum (w : Table Word) : Nat := (symbols.map fun b => (tget w b).toNat).sum

/-- The symbols of nonzero weight, ascending (R162). -/
def weighted (w : Table Word) : List Byte := symbols.filter fun b => tget w b != 0

/-- The code of a symbol in an encoder tree: its path, or "0" when the root is the only leaf (R181, R182 (b)). -/
def codeIn (t : Trie) (b : Byte) : Option Bits :=
  match t with
  | .leaf s => if s = b then some [false] else none
  | _ => (t.codes.find? fun p => p.1 = b).map Prod.snd

/-- The code table of an encoder tree (R180 to R182). -/
def codesOf (t : Trie) : Table (Option Bits) := Vector.ofFn fun i => codeIn t (BitVec.ofNat 8 i.val)

/-- No present code is a prefix of another symbol's code (R182 (c)). -/
def PrefixFree (ct : Table (Option Bits)) : Prop :=
  ∀ (a b : Byte) (c d : Bits), a ≠ b → tget ct a = some c → tget ct b = some d → ¬ c <+: d

/-- Every present code has 1 to 255 bits (R51, R182 (b)). -/
def CodesBounded (ct : Table (Option Bits)) : Prop :=
  ∀ (b : Byte) (c : Bits), tget ct b = some c → 1 ≤ c.length ∧ c.length ≤ 255

/-! ### Streams -/

/-- A source session that delivers `bs` and then `final`; what stands after `final` is never read (R77). -/
def deliver (bs : List Byte) (final : SrcItem) (later : List SrcItem) : List SrcItem :=
  bs.map SrcItem.byte ++ final :: later

/-- A sink session whose first `n` answers are Ok. -/
def okThen (n : Nat) (later : List SnkAnswer) : List SnkAnswer := List.replicate n SnkAnswer.ok ++ later

/-- The bits that encode `bs`: the codes in source order (R211). A byte with no code adds none. -/
def payloadBits (ct : Table (Option Bits)) (bs : List Byte) : Bits := bs.flatMap fun b => (tget ct b).getD []

/-- LAST_BITS of a payload of `n` bits (R212, R221). -/
def lastBitsFor (n : Nat) : Nat := if n % 8 = 0 then 8 else n % 8

/-- The meaningful bits of a payload whose last byte carries `m` of them (R113, R215). -/
def meaningfulBits (payload : List Byte) (m : Nat) : Bits :=
  (payload.flatMap byteBits).take (8 * (payload.length - 1) + m)

/-- The container of `bs` under a code table: the header with LAST_BITS in place of the placeholder, then the payload
(R81, R108). -/
def containerOf (ct : Table (Option Bits)) (bs : List Byte) : List Byte :=
  countBytes (presentCount ct) ++ recordsOf ct
    ++ BitVec.ofNat 8 (lastBitsFor (payloadBits ct bs).length) :: codeField (payloadBits ct bs)

/-- A header record as it stands in a stream (R110). -/
structure HdrRecord where
  sym : Byte
  len : Byte
  field : List Byte
deriving DecidableEq, Repr

/-- The record's bytes (R110). -/
def HdrRecord.bytes (r : HdrRecord) : List Byte := r.sym :: r.len :: r.field

/-- The record's code (R196). -/
def HdrRecord.code (r : HdrRecord) : Bits := codeOfField r.len r.field

/-- The record has a code length of at least 1 and the field bytes that go with it (R110, R116). -/
def HdrRecord.ok (r : HdrRecord) : Bool := r.len != 0 && r.field.length == bytesFor r.len.toNat

/-- The header bytes of a list of records, with the meaningful-bits byte `m` (R108 to R112). -/
def headerOf (recs : List HdrRecord) (m : Byte) : List Byte :=
  countBytes recs.length ++ recs.flatMap HdrRecord.bytes ++ [m]

/-- A list of records READ_HDR accepts: at most 256, each in form, no symbol twice, codes prefix-free (R116). -/
structure GoodRecords (recs : List HdrRecord) : Prop where
  count : recs.length ≤ 256
  form : ∀ r ∈ recs, r.ok = true
  once : (recs.map HdrRecord.sym).Nodup
  free : recs.Pairwise fun a b => ¬ a.code <+: b.code ∧ ¬ b.code <+: a.code

/-- A tree that carries exactly the records' symbols, each at its code (R201). -/
def HoldsRecords (t : Trie) (recs : List HdrRecord) : Prop :=
  ∀ c x, t.lookup c = some x ↔ ∃ r ∈ recs, r.sym = x ∧ r.code = c

/-- The bytes of a record that stops before its end, with nothing in it to refuse: its symbol alone, or its symbol, new,
its length, not 0, and fewer field bytes than that length asks for (R110, R195). -/
def CutRecord (seen : List Byte) (cut : List Byte) : Prop :=
  (∃ sym, cut = [sym]) ∨
    ∃ sym len f, cut = sym :: len :: f ∧ sym ∉ seen ∧ len ≠ 0 ∧ f.length < (len.toNat + 7) / 8

/-- The bytes of a header that stops before its end, with nothing in it to refuse: fewer than two bytes, or a count of at
most 256, good records, and then the end, or a record that stops before its own (R192, R193). -/
def CutHeader (p : List Byte) : Prop :=
  p.length < 2 ∨ ∃ (n : Nat) (recs : List HdrRecord) (cut : List Byte), GoodRecords recs ∧ n ≤ 256 ∧
    p = countBytes n ++ recs.flatMap HdrRecord.bytes ++ cut ∧
    ((cut = [] ∧ recs.length ≤ n) ∨ (CutRecord (recs.map HdrRecord.sym) cut ∧ recs.length < n))

/-! ### The end of a run -/

/-- A stage's run ended with success (R136). -/
def ended (st : Stage) (s : State) : State := { s with curOp := st.op, run := .idle, done := true }

/-- A run ended with error `e` in stage `st` (R243). -/
def failed (st : Stage) (e : ErrKind) (s : State) : State :=
  { s with curOp := st.op, errInfo := errWord st.op e, err := true, done := false, run := .idle }

/-- The host issues the commands one by one, each once the last has ended with DONE: the state in which the last one
issued ends, be it with an error (R233). None where one does not end. -/
def oneByOne : List Instr → State → Option State
  | [], s => some s
  | i :: rest, s =>
    match exec i (accept (encode i) s) with
    | .next t => if t.busy then none else if t.done then oneByOne rest t else some t
    | _ => none

/-! ### Invariants -/

/-- The stage whose transaction a waiting point is. -/
def Point.stage : Point → Stage
  | .countRead => .count
  | .hdrPut _ => .writeHdr
  | .hdrGet _ => .readHdr
  | .packRead _ _ => .pack
  | .packByte _ _ => .pack
  | .packFlush _ _ => .pack
  | .packPatch => .pack
  | .unpackFirst => .unpack
  | .unpackAhead _ _ => .unpack
  | .unpackPut _ _ _ => .unpack

/-- The stages a command performs, in their order: a pipeline's sub-steps, or the one stage (R57, R230 to R232). -/
def stagesOf : Instr → List Stage
  | .nop => [.nop]
  | .count => [.count]
  | .build => [.build]
  | .assign => [.assign]
  | .writeHdr => [.writeHdr]
  | .pack => [.pack]
  | .readHdr => [.readHdr]
  | .unpack => [.unpack]
  | .compress => compressStages
  | .decompress => decompressStages

/-- The flags that hold while a stage is performed, from its precondition and its invalidation (R134, R135). -/
def flagsWhile (st : Stage) (s : State) : Prop :=
  match st with
  | .nop => True
  | .count => s.fw = false ∧ s.ft = false ∧ s.fc = false ∧ s.fh = false ∧ s.fd = false
  | .build => s.fw = true ∧ s.ft = false ∧ s.fc = false ∧ s.fh = false ∧ s.fd = false
  | .assign => s.ft = true ∧ s.fc = false ∧ s.fh = false
  | .writeHdr => s.fc = true ∧ s.fh = false
  | .pack => s.fh = true ∧ s.fd = false
  | .readHdr => s.ft = false ∧ s.fd = false
  | .unpack => s.fd = true ∧ s.fh = false

/-- The header place is one that a count of at most 256 leads to (R194), and at most 255 code bits fill 32 bytes. -/
def HdrAt.ok : HdrAt → Prop
  | .countLo => True
  | .countHi _ => True
  | .symbol cnt left _ => cnt ≤ 256 ∧ 1 ≤ left ∧ left ≤ cnt
  | .length cnt left _ _ => cnt ≤ 256 ∧ 1 ≤ left ∧ left ≤ cnt
  | .code cnt left _ _ len got => cnt ≤ 256 ∧ 1 ≤ left ∧ left ≤ cnt ∧ len ≠ 0 ∧ got.length < bytesFor len.toNat
  | .meaningful cnt => cnt ≤ 256

/-- The transient state at a waiting point is in its range (R53: `held` is 0 to 7 between bits). -/
def Point.ok : Point → Prop
  | .hdrGet h => h.ok
  | .packRead _ held => held < 8
  | .packFlush _ held => 0 < held ∧ held < 8
  | _ => True

/-- The status side of the machine, which every step keeps: DONE and ERR exclude each other and are 0 while BUSY, as is
ERRINFO (R28, R33, R46); ERRINFO is 0 with DONE (R136); its reserved bits are 0 (R34); PL is empty between runs (R48); the
validity flags imply each other as R135's reasons say; NSYM, DEC_NSYM and LAST_BITS are in range (R36, R37, R39). A waiting
stage waits at one of its own transactions, with its flags and its OP in CUR_OP (R31); it and the sub-steps to come are the
last of the stages of the command in CMD (R57, R230 to R232). -/
structure Coherent (s : State) : Prop where
  doneOrErr : s.done = true → s.err = false
  busyClear : s.busy = true → s.done = false ∧ s.err = false ∧ s.errInfo = 0
  doneInfo : s.done = true → s.errInfo = 0
  infoReserved : s.errInfo.extractLsb' 12 20 = 0
  listEmpty : s.pl = []
  treeCounted : s.ft = true → s.fw = true
  codesCounted : s.fc = true → s.fw = true
  headerCoded : s.fh = true → s.fc = true
  oneTree : s.ft = true → s.fd = false
  nsymRange : s.nsym.toNat ≤ 256
  decNsymRange : s.decNsym.toNat ≤ 256
  lastBitsRange : s.lastBits.toNat ≤ 8
  waiting : ∀ st p rest, s.run = .waiting st p rest → st = p.stage ∧ p.ok ∧ flagsWhile st s ∧ s.curOp = st.op ∧
    ∃ i, decode s.cmd = .command i ∧ (st :: rest) <:+ stagesOf i

/-- The point at which a waiting run waits. -/
def Run.point : Run → Option Point
  | .waiting _ p _ => some p
  | _ => none

/-- Whether a command stands at the reading of a session of COUNT. -/
def State.counting (s : State) : Prop := s.run.point = some .countRead

/-- Whether the arena holds a decoder tree that a later `Insert` or walk uses: F_D, or a READ_HDR or UNPACK in
progress. -/
def State.decoding (s : State) : Prop :=
  s.fd = true ∨ ∃ p, s.run.point = some p ∧ (p.stage = .readHdr ∨ p.stage = .unpack)

/-- The tables' side, which rules out every condition of R258 that is a fault of the model: a complete count sums to
TOTAL (R151), the encoder's tree is one (R166), codes have 1 to 255 bits (R182), the decoder's links lead to records, and
while a header is open for PACK the patch is inside the object (R80, R213), which a WRITE_HDR in progress prepares. -/
structure Sound (s : State) : Prop where
  coherent : Coherent s
  counted : s.fw = true ∨ s.counting → weightSum s.w = s.total.toNat
  encoder : s.ft = true → s.root ≠ none →
    ∃ t, IsTrie s.arena s.root t ∧ t.full = true ∧ t.nodes ≤ s.arena.length ∧ t.depth ≤ 255
  codes : s.fc = true → CodesBounded s.ct
  decoder : s.decoding → LinksInRange s.arena ∧ ∃ r, s.root = some r ∧ r < s.arena.length
  walk : ∀ b cur, s.run.point = some (.unpackAhead b cur) → cur < s.arena.length
  patch : s.fh = true → patchInside s = true
  header : ∀ todo, s.run.point = some (.hdrPut todo) → s.snkPos.toNat = (curObject s).length ∧
    1 ≤ (curObject s).length + todo.length ∧ (curObject s).length + todo.length ≤ 8707

/-- Every answer a run of one command can ask for is ready: two complete source sessions to come, a complete rest of the
current one, and enough sink answers in the current session and in the next (the premise of R140 and R282). -/
structure Answered (s : State) : Prop where
  sessions : 2 ≤ s.srcNext.length
  complete : ∀ l ∈ s.srcNext, completeSession l = true
  current : s.fd = true → ∃ l, s.src = some l ∧ completeSession l = true
  sinkNext : ∃ l rest, s.snkNext = l :: rest ∧
    8708 + 32 * ((s.srcNext.map List.length).sum + (srcItems s).length) ≤ l.length
  sinkCurrent : s.fh = true → ∃ l, s.snk = some l ∧ 1 + 32 * (s.srcNext.map List.length).sum ≤ l.length

end Sys2Proof.Machine
end

