-- ==== Sys2Proof/Certificates/Slice0/Obligations.lean ====
section
/-! DEFINITION. The statements for the provers, in the order of the spec's files. Each docstring names the rule it
formalises, or says what it is derived from. -/

set_option autoImplicit false

open Sys2Proof Sys2Proof.Machine

/-! ### 30_encoding.md -/

/-- R102: a word decodes to a command exactly when it is that command's word in the opcode map, and the encoder gives
that word. -/
def Obligations.DecodeReadsTheEncoding : Prop :=
  ∀ (v : Word) (i : Instr), (decode v = .command i ↔ v = encode i) ∧
    encode i = (match i with
      | .nop => 0x00000000
      | .count => 0x00000001
      | .build => 0x00000002
      | .assign => 0x00000003
      | .writeHdr => 0x00000004
      | .pack => 0x00000005
      | .readHdr => 0x00000006
      | .unpack => 0x00000007
      | .compress => 0x00000008
      | .decompress => 0x00000009)

/-- R102's words, and illegal words of both kinds (R103, R104). -/
def Obligations.OpcodeMapWords : Prop :=
  decode 0x00000000 = .command .nop ∧ decode 0x00000001 = .command .count ∧ decode 0x00000002 = .command .build ∧
  decode 0x00000003 = .command .assign ∧ decode 0x00000004 = .command .writeHdr ∧
  decode 0x00000005 = .command .pack ∧ decode 0x00000006 = .command .readHdr ∧
  decode 0x00000007 = .command .unpack ∧ decode 0x00000008 = .command .compress ∧
  decode 0x00000009 = .command .decompress ∧
  decode 0x0000000A = .illegal .reservedOp ∧ decode 0x0000000F = .illegal .reservedOp ∧
  decode 0x00000010 = .illegal .mustBeZero ∧ decode 0x80000001 = .illegal .mustBeZero

/-- R111: the code field has `ceil(L/8)` bytes, and code bit `8k + j` is bit `7 - j` of field byte `k`, the unused low
bits of the last byte being 0. -/
def Obligations.CodeFieldLayout : Prop :=
  ∀ (code : Bits), (codeField code).length = (code.length + 7) / 8 ∧
    ∀ (k j : Nat) (b : Byte), j < 8 → (codeField code)[k]? = some b →
      b.getLsbD (7 - j) = (code[8 * k + j]?).getD false

/-- R196: the code read back from a field is the code, whatever the padding bits are. -/
def Obligations.CodeFieldReadsBack : Prop :=
  ∀ (code : Bits) (len : Byte) (f : List Byte), code.length = len.toNat → f.length = (code.length + 7) / 8 →
    (codeOfField len f = code ↔
      ∀ (i : Nat) (bit : Bool), code[i]? = some bit → (f[i / 8]?).map (fun b => b.getLsbD (7 - i % 8)) = some bit)

/-! ### 40_command_control.md and the step -/

/-- What a step does with each move (the model's schedule, log entry 2; R90): an item or an answer that arrives is the last
of the open session's, and is discarded where none is open. -/
def Obligations.StepAppliesTheNextMove : Prop :=
  ∀ (s : State) (rest : List Event),
    (∀ i, step { s with script := .hostRead i :: rest } = .next (hostRead i { s with script := rest })) ∧
    (∀ i v, step { s with script := .hostWrite i v :: rest } = .next (regWrite i v { s with script := rest })) ∧
    (step { s with script := .rst :: rest } = .next (applyReset { s with script := rest })) ∧
    (step { s with script := .engine :: rest } = engineTurn { s with script := rest }) ∧
    (step { s with script := [] } = engineTurn { s with script := [] }) ∧
    (∀ items, step { s with script := .srcSession items :: rest }
      = .next { s with script := rest, srcNext := s.srcNext ++ [items] }) ∧
    (∀ answers, step { s with script := .snkSession answers :: rest }
      = .next { s with script := rest, snkNext := s.snkNext ++ [answers] }) ∧
    (∀ it, step { s with script := .srcItem it :: rest }
      = .next { s with script := rest, src := s.src.map (· ++ [it]) }) ∧
    (∀ a, step { s with script := .snkAnswer a :: rest }
      = .next { s with script := rest, snk := s.snk.map (· ++ [a]) })

/-- From R132: a step of the engine on an accepted command word performs the command the word decodes to. That one step is
the whole of `exec`, where R132 speaks of a sequence of later steps, is the model's choice (log entry 1, DEDUCED), and so is
the script that says whose move is next (log entry 2, DESIGN CHOICE). -/
def Obligations.StepRunsTheAcceptedCommand : Prop :=
  ∀ (s : State) (i : Instr), s.run = .accepted → decode s.cmd = .command i →
    (s.script = [] → step s = exec i s) ∧
    (∀ rest, s.script = .engine :: rest → step s = exec i { s with script := rest })

/-- R130, R131: a command word written to an idle engine is accepted; while busy the write changes OVERRUN and nothing
else, and raises no interrupt. -/
def Obligations.CommandWrites : Prop :=
  ∀ (s : State) (v : Word),
    (s.busy = false →
      regWrite 2 v s = { s with
        cmd := v, run := .accepted, done := false, err := false, errInfo := 0, curOp := v.extractLsb' 0 4 } ∧
      (regWrite 2 v s).busy = true ∧ regRead 2 (regWrite 2 v s) = v) ∧
    (s.busy = true → regWrite 2 v s = { s with overrun := true } ∧ (regWrite 2 v s).irq = s.irq)

/-- R133: an illegal word written to an idle engine ends its run with ILLEGAL_COMMAND, and nothing but the completion
state changes. -/
def Obligations.IllegalWordRaises : Prop :=
  ∀ (s : State) (v : Word) (rest : List Event), s.busy = false → (v.extractLsb' 4 28 ≠ 0 ∨ 10 ≤ (v.extractLsb' 0 4).toNat) →
    s.script = .hostWrite 2 v :: .engine :: rest →
    ∃ u, step s = .next u ∧ u.busy = true ∧
      step u = .next { s with
        cmd := v, curOp := v.extractLsb' 0 4, errInfo := (0 : BitVec 20) ++ v.extractLsb' 0 4 ++ (0x0A : BitVec 8)
        err := true, done := false, run := .idle, script := rest }

/-- R134: a command whose precondition flag is 0 ends with SEQUENCE_ERROR; no transaction, flag, table or register
changes except the completion state. -/
def Obligations.SequenceErrors : Prop :=
  ∀ (s : State),
    (s.fw = false → exec .build s = .next { s with
      curOp := 0x2, errInfo := 0x209, err := true, done := false, run := .idle }) ∧
    (s.ft = false → exec .assign s = .next { s with
      curOp := 0x3, errInfo := 0x309, err := true, done := false, run := .idle }) ∧
    (s.fc = false → exec .writeHdr s = .next { s with
      curOp := 0x4, errInfo := 0x409, err := true, done := false, run := .idle }) ∧
    (s.fh = false → exec .pack s = .next { s with
      curOp := 0x5, errInfo := 0x509, err := true, done := false, run := .idle }) ∧
    (s.fd = false → exec .unpack s = .next { s with
      curOp := 0x7, errInfo := 0x709, err := true, done := false, run := .idle })

/-- R137: NOP succeeds and changes only CUR_OP and the completion state. -/
def Obligations.NopCompletes : Prop :=
  ∀ (s : State), exec .nop s = .next { s with curOp := 0x0, run := .idle, done := true }

/-! ### 10_state.md and 20_memory.md: the register port -/

/-- R21: reserved words and read-only registers ignore writes, and a reserved word of an idle block reads 0. -/
def Obligations.ReservedAndReadOnlyWords : Prop :=
  ∀ (i : BitVec 6) (s : State),
    (i ≠ 1 → i ≠ 2 → i ≠ 3 → i ≠ 14 → ∀ v, regWrite i v s = s) ∧
    (25 ≤ i.toNat → s.busy = false → regRead i s = 0)

/-- R23, R24, R33, R42: what a write to CTRL, STATUS and INDEX does. CTRL with bit 0 = 0 stores the enables and reads
them back, and with bit 0 = 1 it does what `rst` does, whatever the other bits are; STATUS clears each of DONE, ERR and
OVERRUN whose bit is 1; INDEX takes bits 7:0 and reads them back at once. -/
def Obligations.ControlStatusIndexWrites : Prop :=
  ∀ (s : State) (v : Word),
    (v.getLsbD 0 = false →
      regWrite 1 v s = { s with ieDone := v.getLsbD 1, ieErr := v.getLsbD 2 } ∧
      regRead 1 (regWrite 1 v s) = v &&& 0x6) ∧
    (v.getLsbD 0 = true → regWrite 1 v s = applyReset s ∧ regRead 1 (regWrite 1 v s) = 0) ∧
    regWrite 3 v s = { s with
      done := s.done && !v.getLsbD 1, err := s.err && !v.getLsbD 2, overrun := s.overrun && !v.getLsbD 3 } ∧
    regWrite 14 v s = { s with index := v.extractLsb' 0 8 } ∧
    regRead 14 (regWrite 14 v s) = v &&& 0xFF

/-- R26 to R32 and R249: what STATUS reads while idle, bit by bit; at reset it reads 0. -/
def Obligations.StatusReadsItsFields : Prop :=
  regRead 3 State.reset = 0 ∧ ∀ (s : State), s.busy = false →
    (regRead 3 s).getLsbD 0 = false ∧ (regRead 3 s).getLsbD 1 = s.done ∧
    (regRead 3 s).getLsbD 2 = s.err ∧ (regRead 3 s).getLsbD 3 = s.overrun ∧
    (regRead 3 s).extractLsb' 4 4 = 0 ∧
    (regRead 3 s).getLsbD 8 = s.fw ∧ (regRead 3 s).getLsbD 9 = s.ft ∧ (regRead 3 s).getLsbD 10 = s.fc ∧
    (regRead 3 s).getLsbD 11 = s.fh ∧ (regRead 3 s).getLsbD 12 = s.fd ∧
    (regRead 3 s).extractLsb' 13 3 = 0 ∧ (regRead 3 s).extractLsb' 16 4 = s.curOp ∧
    (regRead 3 s).getLsbD 20 = ((s.done && s.ieDone) || (s.err && s.ieErr)) ∧
    (regRead 3 s).extractLsb' 21 11 = 0

/-- R22, R25, R34 to R44, R85: what the other registers read while idle. -/
def Obligations.RegistersReadTheirState : Prop :=
  ∀ (s : State), s.busy = false →
    regRead 0 s = 0x48550001 ∧ regRead 2 s = s.cmd ∧ regRead 4 s = s.errInfo ∧ regRead 5 s = s.total ∧
    (regRead 6 s).toNat = s.nsym.toNat ∧ (regRead 7 s).toNat = s.decNsym.toNat ∧
    regRead 8 s = s.payloadStart ∧ (regRead 9 s).toNat = s.lastBits.toNat ∧
    (regRead 11 s).toNat * 2 ^ 32 + (regRead 10 s).toNat = s.srcPos.toNat ∧
    (regRead 13 s).toNat * 2 ^ 32 + (regRead 12 s).toNat = s.snkPos.toNat ∧
    (regRead 14 s).toNat = s.index.toNat ∧ regRead 15 s = tget s.w s.index ∧
    (∀ code, tget s.ct s.index = some code → code.length ≤ 255 → (regRead 16 s).toNat = 256 + code.length) ∧
    (tget s.ct s.index = none → regRead 16 s = 0)

/-- R45: what CODE_BITSj reads while idle, for an entry that is present and for one that is not. -/
def Obligations.CodeBitsReadTheCode : Prop :=
  ∀ (s : State) (j b : Nat), s.busy = false → j < 8 → b < 32 →
    (regRead (BitVec.ofNat 6 (17 + j)) s).getLsbD (31 - b)
      = (((tget s.ct s.index).getD [])[32 * j + b]?).getD false

/-- R46: the reads that are exact while BUSY; ERRINFO reads 0 then in every state that meets the invariant. -/
def Obligations.BusyReadsThatAreExact : Prop :=
  ∀ (s : State), s.busy = true →
    regRead 0 s = 0x48550001 ∧ regRead 2 s = s.cmd ∧ regRead 14 s = s.index.setWidth 32 ∧
    (regRead 1 s).getLsbD 1 = s.ieDone ∧ (regRead 1 s).getLsbD 2 = s.ieErr ∧
    (regRead 3 s).getLsbD 0 = true ∧ (regRead 3 s).getLsbD 1 = s.done ∧
    (regRead 3 s).getLsbD 2 = s.err ∧ (regRead 3 s).getLsbD 3 = s.overrun ∧
    regRead 4 s = s.errInfo ∧ (Coherent s → regRead 4 s = 0)

/-- R73: a read changes nothing of the block or of the platform; an idle block gives the same value again. -/
def Obligations.ReadsHaveNoSideEffect : Prop :=
  ∀ (s : State) (i : BitVec 6),
    hostRead i s = { s with rdata := regRead i s, draws := (hostRead i s).draws } ∧
    (s.busy = false → (hostRead i s).draws = s.draws ∧ regRead i (hostRead i s) = regRead i s)

/-- R93: no host write but a soft reset changes a table, the tree, a validity flag, a count, a position or a session. -/
def Obligations.HostWritesKeepTheTables : Prop :=
  ∀ (s : State) (i : BitVec 6) (v : Word), ¬ (i = 1 ∧ v.getLsbD 0 = true) →
    ∃ ieDone ieErr cmd run done err overrun curOp errInfo index,
      regWrite i v s = { s with
        ieDone := ieDone, ieErr := ieErr, cmd := cmd, run := run, done := done, err := err, overrun := overrun
        curOp := curOp, errInfo := errInfo, index := index }

/-! ### 70_reset_and_hazards.md -/

/-- From R271 and R273: a reset gives every piece of the block's state its reset value and closes both sessions. ID then
reads 0x48550001, every other word reads 0, and irq is 0. That the sessions to come, the objects and the moves to come stay
is the model's (log entry 14, DEDUCED), and so is that `rdata` and `draws` stay (log entry 5, DESIGN CHOICE) and that
`headerEnd` is reset (log entry 8, DEDUCED). -/
def Obligations.ReadsAfterReset : Prop :=
  ∀ (s : State),
    applyReset s = { s with
      ieDone := false, ieErr := false, cmd := 0, run := .idle, done := false, err := false, overrun := false
      fw := false, ft := false, fc := false, fh := false, fd := false, curOp := 0, errInfo := 0
      total := 0, nsym := 0, decNsym := 0, payloadStart := 0, lastBits := 0, srcPos := 0, snkPos := 0, index := 0
      w := Vector.replicate 256 0, pl := [], arena := [], root := none, ct := Vector.replicate 256 none
      src := none, snk := none, headerEnd := 0 } ∧
    (∀ i : BitVec 6, regRead i (applyReset s) = if i = 0 then 0x48550001 else 0) ∧
    (applyReset s).irq = false

/-- R272: a reset ends a run at once, with DONE = 0, ERR = 0 and no error code; a late answer has no effect; the output
objects stay. -/
def Obligations.ResetAbortsTheRun : Prop :=
  ∀ (s t : State), step { s with script := [.rst] } = .next t →
    t.busy = false ∧ t.done = false ∧ t.err = false ∧ t.errInfo = 0 ∧ t.irq = false ∧
    t.fh = false ∧ t.fd = false ∧ t.objects = s.objects ∧
    (∀ it, step { t with script := [.srcItem it] } = .next t) ∧
    (∀ a, step { t with script := [.snkAnswer a] } = .next t) ∧
    step t = .next t

/-! ### 41_frequency_counter.md -/

/-- R150, R152: COUNT of a session of fewer than 2^32 bytes. -/
def Obligations.CountCompletes : Prop :=
  ∀ (s : State) (bs : List Byte) (later : List SrcItem) (sess : List (List SrcItem)),
    s.srcNext = deliver bs .eof later :: sess → bs.length < 2 ^ 32 →
    exec .count s = .next { s with
      w := countsOf bs, total := BitVec.ofNat 32 bs.length, nsym := BitVec.ofNat 9 bs.dedup.length
      src := some later, srcNext := sess, srcPos := BitVec.ofNat 64 bs.length
      fw := true, ft := false, fc := false, fh := false, fd := false
      curOp := 0x1, run := .idle, done := true }

/-- R153: COUNT of a session that fails keeps the partial counts. -/
def Obligations.CountSourceFails : Prop :=
  ∀ (s : State) (bs : List Byte) (later : List SrcItem) (sess : List (List SrcItem)),
    s.srcNext = deliver bs .fail later :: sess → bs.length < 2 ^ 32 →
    exec .count s = .next { s with
      w := countsOf bs, total := BitVec.ofNat 32 bs.length, nsym := 0
      src := some later, srcNext := sess, srcPos := BitVec.ofNat 64 bs.length
      fw := false, ft := false, fc := false, fh := false, fd := false
      curOp := 0x1, errInfo := 0x101, err := true, done := false, run := .idle }

/-- R151: the byte that arrives after 2^32 - 1 counted bytes is taken, not counted, and raises WEIGHT_OVERFLOW. -/
def Obligations.CountOverflows : Prop :=
  ∀ (s : State) (bs : List Byte) (b : Byte) (later : List SrcItem) (sess : List (List SrcItem)),
    s.srcNext = (bs.map SrcItem.byte ++ .byte b :: later) :: sess → bs.length = 2 ^ 32 - 1 →
    exec .count s = .next { s with
      w := countsOf bs, total := 0xFFFFFFFF, nsym := 0
      src := some later, srcNext := sess, srcPos := 0x100000000
      fw := false, ft := false, fc := false, fh := false, fd := false
      curOp := 0x1, errInfo := 0x108, err := true, done := false, run := .idle }

/-! ### 42_tree_builder.md -/

/-- R160: the node goes in before the first of strictly greater weight, after all others; a sorted list stays sorted. -/
def Obligations.InsertionIsStable : Prop :=
  ∀ (arena : List Node) (i : Nat) (pl : List Nat),
    insertOrdered arena i pl
      = pl.take (pl.findIdx fun x => decide (nodeWeight arena i < nodeWeight arena x))
        ++ i :: pl.drop (pl.findIdx fun x => decide (nodeWeight arena i < nodeWeight arena x)) ∧
    ((pl.Pairwise fun x y => nodeWeight arena x ≤ nodeWeight arena y) →
      (insertOrdered arena i pl).Pairwise fun x y => nodeWeight arena x ≤ nodeWeight arena y)

/-- R162: the initial list is the leaves of the symbols of nonzero weight, in order of (weight, symbol), as arena
records 0 to n - 1. -/
def Obligations.InitialListIsSorted : Prop :=
  ∀ (w : Table Word), ∃ order : List Byte,
    listInit w = (order.map (fun b => Node.leaf b (tget w b)), List.range order.length) ∧
    order.Perm (weighted w) ∧
    order.Pairwise fun a b => tget w a < tget w b ∨ (tget w a = tget w b ∧ a < b)

/-- R164: a merge step takes the two lowest entries; the first popped is the left child, the weights add, and the new
node goes back by the same insertion. -/
def Obligations.MergeStep : Prop :=
  ∀ (n : Nat) (arena : List Node) (a b : Nat) (pl : List Nat),
    (nodeWeight arena a).toNat + (nodeWeight arena b).toNat < 2 ^ 32 →
    ∃ node : Node, node = .inner (nodeWeight arena a + nodeWeight arena b) (some a) (some b) ∧
      mergeLoop (n + 1) arena (a :: b :: pl)
        = mergeLoop n (arena ++ [node]) (insertOrdered (arena ++ [node]) arena.length pl)

/-- R163, R165, R166: BUILD of a complete count leaves what n - 1 merges make of the initial list, which is the tree of
R166: (a) full, (b) one leaf per symbol of nonzero weight and 2n - 1 records, (c) weights that add up to the total, (d) depth
at most n - 1; no leaf gives no root. -/
def Obligations.BuildCompletes : Prop :=
  ∀ (s : State), s.fw = true → weightSum s.w < 2 ^ 32 →
    ∃ (arena : List Node) (root : Option Nat),
      exec .build s = .next { s with
        arena := arena, root := root, pl := []
        ft := true, fc := false, fh := false, fd := false, curOp := 0x2, run := .idle, done := true } ∧
      mergeLoop ((weighted s.w).length - 1) (listInit s.w).1 (listInit s.w).2 = .ok (arena, root.toList) ∧
      (weighted s.w = [] → arena = [] ∧ root = none) ∧
      (weighted s.w ≠ [] → ∃ (r : Nat) (t : Trie),
        root = some r ∧ IsTrie arena root t ∧ t.full = true ∧ t.symbols.Perm (weighted s.w) ∧
        t.nodes = arena.length ∧ arena.length + 1 = 2 * (weighted s.w).length ∧
        (∀ (i : Nat) (b : Byte) (wt : Word), arena[i]? = some (Node.leaf b wt) → wt = tget s.w b) ∧
        WeightsAdd arena ∧ (nodeWeight arena r).toNat = weightSum s.w ∧
        t.depth + 1 ≤ (weighted s.w).length)

/-! ### 43_code_assigner.md -/

/-- R180, R181: ASSIGN gives each leaf its path as its code, a single leaf the code "0", and the empty tree no code. -/
def Obligations.AssignCompletes : Prop :=
  ∀ (s : State) (t : Trie), s.ft = true → IsTrie s.arena s.root t → (t = .none ∨ t.full = true) →
    t.nodes ≤ s.arena.length → t.depth ≤ 255 → t.symbols.Nodup →
    exec .assign s = .next { s with
      ct := codesOf t, fc := true, fh := false, curOp := 0x3, run := .idle, done := true }

/-- R182 (a) to (c): the table ASSIGN leaves: exactly the tree's symbols have a code, of 1 bit to the tree's depth (1 for
a single leaf), none a prefix of another's. -/
def Obligations.AssignedCodesArePrefixFree : Prop :=
  ∀ (s : State) (t : Trie), s.ft = true → IsTrie s.arena s.root t → (t = .none ∨ t.full = true) →
    t.nodes ≤ s.arena.length → t.depth ≤ 255 → t.symbols.Nodup →
    ∃ u, exec .assign s = .next u ∧ u.busy = false ∧ u.done = true ∧ PrefixFree u.ct ∧
      (∀ b, (tget u.ct b).isSome = true ↔ b ∈ t.symbols) ∧
      (∀ b c, tget u.ct b = some c → 1 ≤ c.length ∧ c.length ≤ max t.depth 1)

/-! ### 44_header_codec.md -/

/-- R190, R191, and the layout of R108 to R112: WRITE_HDR with every answer Ok. The header is the number of present
entries, low byte first, then for each present entry in ascending order its symbol, its code's length and its code field,
then 0x00. `headerEnd` is the model's (log entry 8). -/
def Obligations.WriteHdrCompletes : Prop :=
  ∀ (s : State) (later : List SnkAnswer) (sess : List (List SnkAnswer)) (n : Nat) (hdr : List Byte), s.fc = true →
    n = (symbols.filter fun b => (tget s.ct b).isSome).length →
    hdr = BitVec.ofNat 8 (n % 256) :: BitVec.ofNat 8 (n / 256) ::
      (symbols.flatMap fun b => match tget s.ct b with
        | some code => b :: BitVec.ofNat 8 code.length :: codeField code
        | none => []) ++ [0x00] →
    s.snkNext = okThen hdr.length later :: sess →
    headerBytes s.ct = hdr ∧
    exec .writeHdr s = .next { s with
      objects := hdr :: s.objects, snk := some later, snkNext := sess, snkPos := BitVec.ofNat 64 hdr.length
      payloadStart := BitVec.ofNat 32 hdr.length, headerEnd := BitVec.ofNat 32 hdr.length
      fh := true, curOp := 0x4, run := .idle, done := true }

/-- R190, R245: WRITE_HDR whose append number `k` (from 0) answers Fail leaves the first `k` header bytes. -/
def Obligations.WriteHdrSinkFails : Prop :=
  ∀ (s : State) (k : Nat) (later : List SnkAnswer) (sess : List (List SnkAnswer)), s.fc = true →
    k < (headerBytes s.ct).length → s.snkNext = okThen k (.fail :: later) :: sess →
    exec .writeHdr s = .next { s with
      objects := (headerBytes s.ct).take k :: s.objects, snk := some later, snkNext := sess
      snkPos := BitVec.ofNat 64 k, payloadStart := 0, fh := false
      curOp := 0x4, errInfo := 0x402, err := true, done := false, run := .idle }

/-- R192, R199 to R201: READ_HDR of a good header rebuilds a tree that holds exactly the records' codes, within the
arena's capacity, and stops at the payload. -/
def Obligations.ReadHdrCompletes : Prop :=
  ∀ (s : State) (recs : List HdrRecord) (m : Byte) (payload : List SrcItem) (sess : List (List SrcItem)),
    GoodRecords recs → 1 ≤ m.toNat → m.toNat ≤ 8 →
    s.srcNext = ((headerOf recs m).map SrcItem.byte ++ payload) :: sess →
    ∃ (arena : List Node) (t : Trie),
      exec .readHdr s = .next { s with
        arena := arena, root := some 0, decNsym := BitVec.ofNat 9 recs.length, lastBits := m.extractLsb' 0 4
        payloadStart := BitVec.ofNat 32 (headerOf recs m).length
        src := some payload, srcNext := sess, srcPos := BitVec.ofNat 64 (headerOf recs m).length
        ft := false, fd := true, curOp := 0x6, run := .idle, done := true } ∧
      IsTrie arena (some 0) t ∧ HoldsRecords t recs ∧ arena.length ≤ 65281 ∧ (headerOf recs m).length ≤ 8707

/-- R194: a count above 256 is refused right after the two count bytes. -/
def Obligations.ReadHdrRefusesTheCount : Prop :=
  ∀ (s : State) (lo hi : Byte) (later : List SrcItem) (sess : List (List SrcItem)),
    256 < countOfBytes lo hi → s.srcNext = (.byte lo :: .byte hi :: later) :: sess →
    exec .readHdr s = .next { s with
      arena := [emptyNode], root := some 0, decNsym := 0, lastBits := 0, payloadStart := 0
      src := some later, srcNext := sess, srcPos := 2, ft := false, fd := false
      curOp := 0x6, errInfo := 0x603, err := true, done := false, run := .idle }

/-- R195: after any good records, a record with length 0 or with a symbol that came before is refused before its code
bytes are read. -/
def Obligations.ReadHdrRefusesTheRecord : Prop :=
  ∀ (s : State) (n : Nat) (recs : List HdrRecord) (sym len : Byte) (later : List SrcItem) (sess : List (List SrcItem)),
    GoodRecords recs → recs.length < n → n ≤ 256 → (len = 0 ∨ sym ∈ recs.map HdrRecord.sym) →
    s.srcNext
      = ((countBytes n ++ recs.flatMap HdrRecord.bytes ++ [sym, len]).map SrcItem.byte ++ later) :: sess →
    ∃ arena : List Node,
      exec .readHdr s = .next { s with
        arena := arena, root := some 0, decNsym := 0, lastBits := 0, payloadStart := 0
        src := some later, srcNext := sess
        srcPos := BitVec.ofNat 64 ((recs.flatMap HdrRecord.bytes).length + 4), ft := false, fd := false
        curOp := 0x6, errInfo := 0x603, err := true, done := false, run := .idle }

/-- R197: after any good records, a record in form with a new symbol whose code equals an earlier code, extends one or is
a prefix of one, is refused as ambiguous once its code bytes are read. -/
def Obligations.ReadHdrDetectsOverlap : Prop :=
  ∀ (s : State) (n : Nat) (recs : List HdrRecord) (r : HdrRecord) (later : List SrcItem) (sess : List (List SrcItem)),
    GoodRecords recs → recs.length < n → n ≤ 256 → r.ok = true → r.sym ∉ recs.map HdrRecord.sym →
    (∃ q ∈ recs, q.code <+: r.code ∨ r.code <+: q.code) →
    s.srcNext
      = ((countBytes n ++ recs.flatMap HdrRecord.bytes ++ r.bytes).map SrcItem.byte ++ later) :: sess →
    ∃ arena : List Node,
      exec .readHdr s = .next { s with
        arena := arena, root := some 0, decNsym := 0, lastBits := 0, payloadStart := 0
        src := some later, srcNext := sess
        srcPos := BitVec.ofNat 64 (2 + (recs.flatMap HdrRecord.bytes).length + r.bytes.length), ft := false, fd := false
        curOp := 0x6, errInfo := 0x604, err := true, done := false, run := .idle }

/-- R198: after good records, a meaningful-bits byte outside 1 to 8 is refused. -/
def Obligations.ReadHdrRefusesTheMeaningfulBits : Prop :=
  ∀ (s : State) (recs : List HdrRecord) (m : Byte) (later : List SrcItem) (sess : List (List SrcItem)),
    GoodRecords recs → (m.toNat < 1 ∨ 8 < m.toNat) →
    s.srcNext = ((headerOf recs m).map SrcItem.byte ++ later) :: sess →
    ∃ arena : List Node,
      exec .readHdr s = .next { s with
        arena := arena, root := some 0, decNsym := 0, lastBits := 0, payloadStart := 0
        src := some later, srcNext := sess, srcPos := BitVec.ofNat 64 (headerOf recs m).length
        ft := false, fd := false
        curOp := 0x6, errInfo := 0x603, err := true, done := false, run := .idle }

/-- R193: a header cut short, with nothing refused before the cut, ends with MALFORMED_HEADER at EOF and with
SOURCE_UNAVAILABLE at Fail, and no byte past the cut is read. -/
def Obligations.ReadHdrCutShort : Prop :=
  ∀ (s : State) (p : List Byte) (later : List SrcItem) (sess : List (List SrcItem)), CutHeader p →
    (s.srcNext = deliver p .eof later :: sess → ∃ arena : List Node,
      exec .readHdr s = .next { s with
        arena := arena, root := some 0, decNsym := 0, lastBits := 0, payloadStart := 0
        src := some later, srcNext := sess, srcPos := BitVec.ofNat 64 p.length, ft := false, fd := false
        curOp := 0x6, errInfo := 0x603, err := true, done := false, run := .idle }) ∧
    (s.srcNext = deliver p .fail later :: sess → ∃ arena : List Node,
      exec .readHdr s = .next { s with
        arena := arena, root := some 0, decNsym := 0, lastBits := 0, payloadStart := 0
        src := some later, srcNext := sess, srcPos := BitVec.ofNat 64 p.length, ft := false, fd := false
        curOp := 0x6, errInfo := 0x601, err := true, done := false, run := .idle })

/-! ### 45_bit_packer.md -/

/-- R210 to R213, R221: PACK with every answer Ok, every byte coded and the patch inside the object. `headerEnd` is
PAYLOAD_START as WRITE_HDR left it (log entry 8). What a position past 2^64 - 1 is, is the model's choice (log entry
18, DESIGN CHOICE). -/
def Obligations.PackCompletes : Prop :=
  ∀ (s : State) (bs : List Byte) (later : List SrcItem) (sess : List (List SrcItem)) (answers : List SnkAnswer)
    (obj : List Byte) (old : List (List Byte)),
    s.fh = true → s.srcNext = deliver bs .eof later :: sess → (∀ b ∈ bs, tget s.ct b ≠ none) →
    s.objects = obj :: old →
    s.snk = some (okThen (((payloadBits s.ct bs).length + 7) / 8 + 1) answers) →
    s.headerEnd ≠ 0 → s.headerEnd.toNat ≤ obj.length + ((payloadBits s.ct bs).length + 7) / 8 →
    exec .pack s = .next { s with
      src := some later, srcNext := sess, srcPos := BitVec.ofNat 64 bs.length
      objects := (obj ++ codeField (payloadBits s.ct bs)).set (s.headerEnd.toNat - 1)
        (BitVec.ofNat 8 (lastBitsFor (payloadBits s.ct bs).length)) :: old
      snk := some answers
      snkPos := s.snkPos + BitVec.ofNat 64 (((payloadBits s.ct bs).length + 7) / 8)
      lastBits := BitVec.ofNat 4 (lastBitsFor (payloadBits s.ct bs).length)
      fh := false, fd := false, curOp := 0x5, run := .idle, done := true }

/-- From R81, R82, R213 and R280: a READ_HDR between WRITE_HDR and PACK, whatever its outcome, does not move the patch:
the object is the header with the placeholder replaced, then the payload, and PAYLOAD_START keeps what READ_HDR left.
READ_HDR and PACK are each accepted first (R130).
That the patch follows WRITE_HDR's PAYLOAD_START is the model's (log entry 8, DEDUCED). What a position past 2^64 - 1
is, is the model's choice (log entry 18, DESIGN CHOICE). -/
def Obligations.PackAfterReadHdr : Prop :=
  ∀ (s t u : State) (bs : List Byte) (later : List SrcItem) (sess : List (List SrcItem)) (answers : List SnkAnswer)
    (snks : List (List SnkAnswer)),
    s.fc = true → CodesBounded s.ct →
    s.snkNext
      = okThen ((headerBytes s.ct).length + (((payloadBits s.ct bs).length + 7) / 8 + 1)) answers :: snks →
    exec .writeHdr s = .next t → exec .readHdr (accept (encode .readHdr) t) = .next u → u.busy = false →
    u.srcNext = deliver bs .eof later :: sess → (∀ b ∈ bs, tget s.ct b ≠ none) →
    exec .pack (accept (encode .pack) u) = .next { u with
      cmd := encode .pack, err := false, errInfo := 0
      src := some later, srcNext := sess, srcPos := BitVec.ofNat 64 bs.length
      objects := containerOf s.ct bs :: s.objects, snk := some answers
      snkPos := BitVec.ofNat 64 (containerOf s.ct bs).length
      lastBits := BitVec.ofNat 4 (lastBitsFor (payloadBits s.ct bs).length)
      fh := false, fd := false, curOp := 0x5, run := .idle, done := true }

/-- R214 and R210: a second pass that meets a byte with no code, or Fail, after the bytes `bs`: the whole payload bytes
so far are appended, the held bits are not, LAST_BITS is 0 and the placeholder is not patched. What a position past
2^64 - 1 is, is the model's choice (log entry 18, DESIGN CHOICE). -/
def Obligations.PackStopsInTheSecondPass : Prop :=
  ∀ (s : State) (bs : List Byte) (later : List SrcItem) (sess : List (List SrcItem)) (answers : List SnkAnswer)
    (obj : List Byte) (old : List (List Byte)),
    s.fh = true → (∀ b ∈ bs, tget s.ct b ≠ none) → s.objects = obj :: old →
    s.snk = some (okThen ((payloadBits s.ct bs).length / 8) answers) →
    (∀ v, tget s.ct v = none → s.srcNext = (bs.map SrcItem.byte ++ .byte v :: later) :: sess →
      exec .pack s = .next { s with
        src := some later, srcNext := sess, srcPos := BitVec.ofNat 64 (bs.length + 1)
        objects := (obj ++ (codeField (payloadBits s.ct bs)).take ((payloadBits s.ct bs).length / 8)) :: old
        snk := some answers, snkPos := s.snkPos + BitVec.ofNat 64 ((payloadBits s.ct bs).length / 8)
        lastBits := 0, fh := false, fd := false
        curOp := 0x5, errInfo := 0x507, err := true, done := false, run := .idle }) ∧
    (s.srcNext = deliver bs .fail later :: sess →
      exec .pack s = .next { s with
        src := some later, srcNext := sess, srcPos := BitVec.ofNat 64 bs.length
        objects := (obj ++ (codeField (payloadBits s.ct bs)).take ((payloadBits s.ct bs).length / 8)) :: old
        snk := some answers, snkPos := s.snkPos + BitVec.ofNat 64 ((payloadBits s.ct bs).length / 8)
        lastBits := 0, fh := false, fd := false
        curOp := 0x5, errInfo := 0x501, err := true, done := false, run := .idle })

/-- R210, R213, R244: PACK whose sink answers Fail raises SINK_UNAVAILABLE and keeps the bytes appended before: at an
append while bits go out (the `k`-th append, from 0, made while the byte `v` is taken), LAST_BITS being 0; at the final
flush, LAST_BITS being 0; and at the patch, the placeholder keeping its value. In the last clause `headerEnd` is
PAYLOAD_START as WRITE_HDR left it (log entry 8, DEDUCED). What a position past 2^64 - 1 is, is the model's choice (log
entry 18, DESIGN CHOICE). -/
def Obligations.PackSinkFails : Prop :=
  ∀ (s : State) (bs : List Byte) (later : List SrcItem) (sess : List (List SrcItem)) (answers : List SnkAnswer)
    (obj : List Byte) (old : List (List Byte)),
    s.fh = true → (∀ b ∈ bs, tget s.ct b ≠ none) → s.objects = obj :: old →
    (∀ (v : Byte) (code : Bits) (k : Nat), tget s.ct v = some code →
      s.srcNext = (bs.map SrcItem.byte ++ .byte v :: later) :: sess →
      (payloadBits s.ct bs).length / 8 ≤ k → 8 * (k + 1) ≤ (payloadBits s.ct bs).length + code.length →
      s.snk = some (okThen k (.fail :: answers)) →
      exec .pack s = .next { s with
        src := some later, srcNext := sess, srcPos := BitVec.ofNat 64 (bs.length + 1)
        objects := (obj ++ (codeField (payloadBits s.ct bs ++ code)).take k) :: old, snk := some answers
        snkPos := s.snkPos + BitVec.ofNat 64 k, lastBits := 0, fh := false, fd := false
        curOp := 0x5, errInfo := 0x502, err := true, done := false, run := .idle }) ∧
    (s.srcNext = deliver bs .eof later :: sess → (payloadBits s.ct bs).length % 8 ≠ 0 →
      s.snk = some (okThen ((payloadBits s.ct bs).length / 8) (.fail :: answers)) →
      exec .pack s = .next { s with
        src := some later, srcNext := sess, srcPos := BitVec.ofNat 64 bs.length
        objects := (obj ++ (codeField (payloadBits s.ct bs)).take ((payloadBits s.ct bs).length / 8)) :: old
        snk := some answers, snkPos := s.snkPos + BitVec.ofNat 64 ((payloadBits s.ct bs).length / 8)
        lastBits := 0, fh := false, fd := false
        curOp := 0x5, errInfo := 0x502, err := true, done := false, run := .idle }) ∧
    (s.srcNext = deliver bs .eof later :: sess →
      s.snk = some (okThen (((payloadBits s.ct bs).length + 7) / 8) (.fail :: answers)) →
      s.headerEnd ≠ 0 → s.headerEnd.toNat ≤ obj.length + ((payloadBits s.ct bs).length + 7) / 8 →
      exec .pack s = .next { s with
        src := some later, srcNext := sess, srcPos := BitVec.ofNat 64 bs.length
        objects := (obj ++ codeField (payloadBits s.ct bs)) :: old, snk := some answers
        snkPos := s.snkPos + BitVec.ofNat 64 (((payloadBits s.ct bs).length + 7) / 8)
        lastBits := BitVec.ofNat 4 (lastBitsFor (payloadBits s.ct bs).length)
        fh := false, fd := false
        curOp := 0x5, errInfo := 0x502, err := true, done := false, run := .idle })

/-- R215, R217, R220: UNPACK of a payload whose meaningful bits are the codes of `coded`, one after another. What a
position past 2^64 - 1 is, is the model's choice (log entry 18, DESIGN CHOICE). -/
def Obligations.UnpackCompletes : Prop :=
  ∀ (s : State) (tl tr : Trie) (coded : List (Byte × Bits)) (payload : List Byte) (later : List SrcItem)
    (answers : List SnkAnswer) (sess : List (List SnkAnswer)),
    s.fd = true → s.decNsym ≠ 0 → IsTrie s.arena s.root (.node tl tr) →
    (∀ p ∈ coded, (Trie.node tl tr).lookup p.2 = some p.1) →
    payload ≠ [] → meaningfulBits payload s.lastBits.toNat = coded.flatMap Prod.snd →
    1 ≤ s.lastBits.toNat → s.lastBits.toNat ≤ 8 →
    s.src = some (deliver payload .eof later) → s.snkNext = okThen coded.length answers :: sess →
    exec .unpack s = .next { s with
      objects := coded.map Prod.fst :: s.objects, snk := some answers, snkNext := sess
      snkPos := BitVec.ofNat 64 coded.length
      src := some later, srcPos := s.srcPos + BitVec.ofNat 64 payload.length
      fh := false, fd := false, curOp := 0x7, run := .idle, done := true }

/-- R219 and R218: with DEC_NSYM = 0 UNPACK opens the sink session, reads nothing and succeeds; an empty payload also
gives an empty output. -/
def Obligations.UnpackOfNothing : Prop :=
  ∀ (s : State), s.fd = true →
    (s.decNsym = 0 →
      exec .unpack s = .next { s with
        objects := [] :: s.objects, snk := some (s.snkNext.headD []), snkNext := s.snkNext.tail, snkPos := 0
        fh := false, fd := false, curOp := 0x7, run := .idle, done := true }) ∧
    (∀ later r, s.decNsym ≠ 0 → s.root = some r → s.src = some (.eof :: later) →
      exec .unpack s = .next { s with
        objects := [] :: s.objects, snk := some (s.snkNext.headD []), snkNext := s.snkNext.tail, snkPos := 0
        src := some later, fh := false, fd := false, curOp := 0x7, run := .idle, done := true })

/-- R216, R246: bits that lead to a child that does not exist raise UNDEFINED_CODE at the failing bit, after the symbols
decoded before: the bytes taken are those up to that bit's byte and the lookahead. The first clause is a session that ends
with EOF; the second is one that may end in any way, EOF or Fail, the lookahead being a byte. What a position past 2^64 - 1
is, is the model's choice (log entry 18, DESIGN CHOICE). -/
def Obligations.UnpackUndefinedPath : Prop :=
  ∀ (s : State) (tl tr l r : Trie) (coded : List (Byte × Bits)) (c more : Bits) (b : Bool) (payload : List Byte)
    (last : Nat) (answers : List SnkAnswer) (sess : List (List SnkAnswer)),
    s.fd = true → s.decNsym ≠ 0 → IsTrie s.arena s.root (.node tl tr) →
    (∀ p ∈ coded, (Trie.node tl tr).lookup p.2 = some p.1) →
    (Trie.node tl tr).descend c = .node l r → (if b then r else l) = .none →
    last = (coded.flatMap Prod.snd ++ c).length / 8 → s.snkNext = okThen coded.length answers :: sess →
    (∀ later, payload ≠ [] → meaningfulBits payload s.lastBits.toNat = coded.flatMap Prod.snd ++ c ++ b :: more →
      1 ≤ s.lastBits.toNat → s.lastBits.toNat ≤ 8 → s.src = some (deliver payload .eof later) →
      exec .unpack s = .next { s with
        objects := coded.map Prod.fst :: s.objects, snk := some answers, snkNext := sess
        snkPos := BitVec.ofNat 64 coded.length
        src := some ((deliver payload .eof later).drop (last + 2))
        srcPos := s.srcPos + BitVec.ofNat 64 (min (last + 2) payload.length)
        fh := false, fd := false
        curOp := 0x7, errInfo := 0x706, err := true, done := false, run := .idle }) ∧
    (∀ rest, payload.flatMap byteBits = coded.flatMap Prod.snd ++ c ++ b :: more →
      s.src = some (payload.map SrcItem.byte ++ rest) → last + 1 < payload.length →
      exec .unpack s = .next { s with
        objects := coded.map Prod.fst :: s.objects, snk := some answers, snkNext := sess
        snkPos := BitVec.ofNat 64 coded.length
        src := some ((payload.map SrcItem.byte ++ rest).drop (last + 2))
        srcPos := s.srcPos + BitVec.ofNat 64 (last + 2)
        fh := false, fd := false
        curOp := 0x7, errInfo := 0x706, err := true, done := false, run := .idle })

/-- R218: meaningful bits that run out inside the tree raise TRUNCATED_PAYLOAD, after the symbols decoded before. What
a position past 2^64 - 1 is, is the model's choice (log entry 18, DESIGN CHOICE). -/
def Obligations.UnpackTruncated : Prop :=
  ∀ (s : State) (tl tr l r : Trie) (coded : List (Byte × Bits)) (c : Bits) (payload : List Byte)
    (later : List SrcItem) (answers : List SnkAnswer) (sess : List (List SnkAnswer)),
    s.fd = true → s.decNsym ≠ 0 → IsTrie s.arena s.root (.node tl tr) →
    (∀ p ∈ coded, (Trie.node tl tr).lookup p.2 = some p.1) →
    c ≠ [] → (Trie.node tl tr).descend c = .node l r →
    payload ≠ [] → meaningfulBits payload s.lastBits.toNat = coded.flatMap Prod.snd ++ c →
    1 ≤ s.lastBits.toNat → s.lastBits.toNat ≤ 8 →
    s.src = some (deliver payload .eof later) → s.snkNext = okThen coded.length answers :: sess →
    exec .unpack s = .next { s with
      objects := coded.map Prod.fst :: s.objects, snk := some answers, snkNext := sess
      snkPos := BitVec.ofNat 64 coded.length
      src := some later, srcPos := s.srcPos + BitVec.ofNat 64 payload.length
      fh := false, fd := false
      curOp := 0x7, errInfo := 0x705, err := true, done := false, run := .idle }

/-- R215, R217, R244: UNPACK whose port answers Fail. At the first read nothing is decoded. At a lookahead read the
byte held is not decoded: the symbols appended are those of the bytes before it. At the append of a symbol (number `k`,
from 0) SINK_UNAVAILABLE is raised, the `k` symbols before it standing in the object; the bytes taken are those up to
the symbol's last bit and the lookahead. The last clause is the same append in a session that may end in any way, EOF
or Fail, the lookahead byte being there. What a position past 2^64 - 1 is, is the model's choice (log entry 18, DESIGN
CHOICE). -/
def Obligations.UnpackPortFails : Prop :=
  ∀ (s : State) (tl tr : Trie) (coded : List (Byte × Bits)) (later : List SrcItem) (answers : List SnkAnswer)
    (sess : List (List SnkAnswer)),
    s.fd = true → s.decNsym ≠ 0 → IsTrie s.arena s.root (.node tl tr) →
    (∀ p ∈ coded, (Trie.node tl tr).lookup p.2 = some p.1) →
    (s.src = some (.fail :: later) →
      exec .unpack s = .next { s with
        objects := [] :: s.objects, snk := some (s.snkNext.headD []), snkNext := s.snkNext.tail, snkPos := 0
        src := some later, fh := false, fd := false
        curOp := 0x7, errInfo := 0x701, err := true, done := false, run := .idle }) ∧
    (∀ (l r : Trie) (c : Bits) (before : List Byte) (held : Byte), (Trie.node tl tr).descend c = .node l r →
      before.flatMap byteBits = coded.flatMap Prod.snd ++ c →
      s.src = some (deliver (before ++ [held]) .fail later) → s.snkNext = okThen coded.length answers :: sess →
      exec .unpack s = .next { s with
        objects := coded.map Prod.fst :: s.objects, snk := some answers, snkNext := sess
        snkPos := BitVec.ofNat 64 coded.length
        src := some later, srcPos := s.srcPos + BitVec.ofNat 64 (before.length + 1)
        fh := false, fd := false
        curOp := 0x7, errInfo := 0x701, err := true, done := false, run := .idle }) ∧
    (∀ (k last : Nat) (more : Bits) (payload : List Byte), k < coded.length → payload ≠ [] →
      meaningfulBits payload s.lastBits.toNat = coded.flatMap Prod.snd ++ more →
      1 ≤ s.lastBits.toNat → s.lastBits.toNat ≤ 8 →
      s.src = some (deliver payload .eof later) → s.snkNext = okThen k (.fail :: answers) :: sess →
      last = (((coded.take (k + 1)).flatMap Prod.snd).length - 1) / 8 →
      exec .unpack s = .next { s with
        objects := (coded.take k).map Prod.fst :: s.objects, snk := some answers, snkNext := sess
        snkPos := BitVec.ofNat 64 k
        src := some ((deliver payload .eof later).drop (last + 2))
        srcPos := s.srcPos + BitVec.ofNat 64 (min (last + 2) payload.length)
        fh := false, fd := false
        curOp := 0x7, errInfo := 0x702, err := true, done := false, run := .idle }) ∧
    (∀ (k last : Nat) (more : Bits) (payload : List Byte) (rest : List SrcItem), k < coded.length →
      payload.flatMap byteBits = coded.flatMap Prod.snd ++ more →
      s.src = some (payload.map SrcItem.byte ++ rest) → s.snkNext = okThen k (.fail :: answers) :: sess →
      last = (((coded.take (k + 1)).flatMap Prod.snd).length - 1) / 8 → last + 1 < payload.length →
      exec .unpack s = .next { s with
        objects := (coded.take k).map Prod.fst :: s.objects, snk := some answers, snkNext := sess
        snkPos := BitVec.ofNat 64 k
        src := some ((payload.map SrcItem.byte ++ rest).drop (last + 2))
        srcPos := s.srcPos + BitVec.ofNat 64 (last + 2)
        fh := false, fd := false
        curOp := 0x7, errInfo := 0x702, err := true, done := false, run := .idle })

/-! ### 46_pipelines.md -/

/-- R230: COMPRESS of `bs`, given twice, with enough Ok answers: it completes with the container of `bs` under the code
table it leaves, which codes exactly the bytes of `bs`, prefix-free. `headerEnd` is the model's (log entry 8). -/
def Obligations.CompressCompletes : Prop :=
  ∀ (s : State) (bs : List Byte) (later₁ later₂ : List SrcItem) (sess : List (List SrcItem)) (k : Nat)
    (snks : List (List SnkAnswer)),
    s.srcNext = deliver bs .eof later₁ :: deliver bs .eof later₂ :: sess → bs.length < 2 ^ 32 →
    s.snkNext = okThen k [] :: snks → 8708 + 32 * bs.length ≤ k →
    ∃ (arena : List Node) (root : Option Nat) (ct : Table (Option Bits)) (answers : List SnkAnswer),
      exec .compress s = .next { s with
        w := countsOf bs, total := BitVec.ofNat 32 bs.length, nsym := BitVec.ofNat 9 bs.dedup.length
        arena := arena, root := root, pl := [], ct := ct
        payloadStart := BitVec.ofNat 32 (headerBytes ct).length, headerEnd := BitVec.ofNat 32 (headerBytes ct).length
        lastBits := BitVec.ofNat 4 (lastBitsFor (payloadBits ct bs).length)
        src := some later₂, srcNext := sess, srcPos := BitVec.ofNat 64 bs.length
        objects := containerOf ct bs :: s.objects, snk := some answers, snkNext := snks
        snkPos := BitVec.ofNat 64 (containerOf ct bs).length
        fw := true, ft := true, fc := true, fh := false, fd := false
        curOp := 0x5, run := .idle, done := true } ∧
      (∀ b, (tget ct b).isSome = true ↔ b ∈ bs) ∧ PrefixFree ct ∧ CodesBounded ct

/-- R115 and R235: the size of the header, its bound, and the size of the container. -/
def Obligations.HeaderAndContainerSize : Prop :=
  ∀ (ct : Table (Option Bits)) (bs : List Byte),
    (headerBytes ct).length
      = 2 + ((symbols.filterMap (tget ct)).map fun code => 2 + (code.length + 7) / 8).sum + 1 ∧
    (CodesBounded ct → (headerBytes ct).length ≤ 8707) ∧
    (containerOf ct bs).length
      = 3 + ((symbols.filterMap (tget ct)).map fun code => 2 + (code.length + 7) / 8).sum
        + ((payloadBits ct bs).length + 7) / 8

/-- R231, R201, R219: DECOMPRESS of a good header and a payload of its codes, with enough Ok answers, leaves a tree that
holds exactly the records' codes and takes the whole session; with no records the payload and the final item are left.
What a position past 2^64 - 1 is, is the model's choice (log entry 18, DESIGN CHOICE). -/
def Obligations.DecompressCompletes : Prop :=
  ∀ (s : State) (recs : List HdrRecord) (m : Byte) (coded : List HdrRecord) (payload : List Byte)
    (later : List SrcItem) (sess : List (List SrcItem)) (answers : List SnkAnswer) (snks : List (List SnkAnswer)),
    GoodRecords recs → 1 ≤ m.toNat → m.toNat ≤ 8 → (∀ r ∈ coded, r ∈ recs) →
    ((payload = [] ∧ coded = []) ∨ recs = [] ∨
      (payload ≠ [] ∧ meaningfulBits payload m.toNat = coded.flatMap HdrRecord.code)) →
    s.srcNext = deliver (headerOf recs m ++ payload) .eof later :: sess →
    s.snkNext = okThen coded.length answers :: snks →
    ∃ (arena : List Node) (t : Trie),
      exec .decompress s = .next { s with
        arena := arena, root := some 0, decNsym := BitVec.ofNat 9 recs.length, lastBits := m.extractLsb' 0 4
        payloadStart := BitVec.ofNat 32 (headerOf recs m).length
        src := some (if recs = [] then deliver payload .eof later else later), srcNext := sess
        srcPos := BitVec.ofNat 64 ((headerOf recs m).length + if recs = [] then 0 else payload.length)
        objects := coded.map HdrRecord.sym :: s.objects, snk := some answers, snkNext := snks
        snkPos := BitVec.ofNat 64 coded.length
        ft := false, fh := false, fd := false, curOp := 0x7, run := .idle, done := true } ∧
      IsTrie arena (some 0) t ∧ HoldsRecords t recs

/-- R233, R232, R243: the stages issued one by one, each after the last has ended with DONE, leave what the pipeline leaves,
except CMD, also where a stage ends with an error: the pipeline then ends at once, with that stage's OP and a code. -/
def Obligations.PipelinesAreTheirStages : Prop :=
  ∀ (s t : State),
    (oneByOne [.count, .build, .assign, .writeHdr, .pack] s = some t →
      exec .compress (accept (encode .compress) s) = .next { t with cmd := encode .compress } ∧
      (t.done = false → t.err = true ∧ ∃ e, t.errInfo = errWord t.curOp e)) ∧
    (oneByOne [.readHdr, .unpack] s = some t →
      exec .decompress (accept (encode .decompress) s) = .next { t with cmd := encode .decompress } ∧
      (t.done = false → t.err = true ∧ ∃ e, t.errInfo = errWord t.curOp e))

/-- R234: COMPRESS of any sequence of fewer than 2^32 bytes succeeds, and DECOMPRESS of its container succeeds with that
sequence as its output, whatever states the two runs start from. -/
def Obligations.RoundTrip : Prop :=
  ∀ (s : State) (bs : List Byte) (later₁ later₂ : List SrcItem) (sess : List (List SrcItem)) (k : Nat)
    (snks : List (List SnkAnswer)),
    s.srcNext = deliver bs .eof later₁ :: deliver bs .eof later₂ :: sess → bs.length < 2 ^ 32 →
    s.snkNext = okThen k [] :: snks → 8708 + 32 * bs.length ≤ k →
    ∃ t, exec .compress s = .next t ∧ t.busy = false ∧ t.done = true ∧
      ∀ (u : State) (later₃ : List SrcItem) (sess' : List (List SrcItem)) (k' : Nat) (snks' : List (List SnkAnswer)),
        u.srcNext = deliver (curObject t) .eof later₃ :: sess' →
        u.snkNext = okThen k' [] :: snks' → bs.length ≤ k' →
        ∃ v, exec .decompress u = .next v ∧ v.busy = false ∧ v.done = true ∧ curObject v = bs

/-- R95: a pipeline run that ends, with success or with an error, leaves a result that depends on its sessions alone: the
completion state, the objects it began, its positions, the flags it writes, and what COMPRESS and DECOMPRESS write. F_H is
none of them where READ_HDR ends a DECOMPRESS (90_conflicts.md C12; log entry 16, DEDUCED). -/
def Obligations.PipelinesDependOnTheirSessions : Prop :=
  ∀ (s s' t : State), s.srcNext = s'.srcNext → s.snkNext = s'.snkNext →
    (exec .compress (accept (encode .compress) s) = .next t → t.busy = false →
      ∃ t' began, exec .compress (accept (encode .compress) s') = .next t' ∧ t'.busy = false ∧
        t'.done = t.done ∧ t'.err = t.err ∧ t'.errInfo = t.errInfo ∧ t'.curOp = t.curOp ∧
        t.objects = began ++ s.objects ∧ t'.objects = began ++ s'.objects ∧ (began ≠ [] → t'.snkPos = t.snkPos) ∧
        t'.srcPos = t.srcPos ∧ t'.w = t.w ∧ t'.total = t.total ∧ t'.nsym = t.nsym ∧
        t'.fw = t.fw ∧ t'.ft = t.ft ∧ t'.fc = t.fc ∧ t'.fh = t.fh ∧ t'.fd = t.fd ∧
        (t.done = true → t'.arena = t.arena ∧ t'.root = t.root ∧ t'.ct = t.ct ∧ t'.payloadStart = t.payloadStart ∧
          t'.headerEnd = t.headerEnd ∧ t'.lastBits = t.lastBits)) ∧
    (exec .decompress (accept (encode .decompress) s) = .next t → t.busy = false →
      ∃ t' began, exec .decompress (accept (encode .decompress) s') = .next t' ∧ t'.busy = false ∧
        t'.done = t.done ∧ t'.err = t.err ∧ t'.errInfo = t.errInfo ∧ t'.curOp = t.curOp ∧
        t.objects = began ++ s.objects ∧ t'.objects = began ++ s'.objects ∧ (began ≠ [] → t'.snkPos = t.snkPos) ∧
        t'.srcPos = t.srcPos ∧ t'.arena = t.arena ∧ t'.root = t.root ∧ t'.decNsym = t.decNsym ∧
        t'.payloadStart = t.payloadStart ∧ t'.lastBits = t.lastBits ∧
        t'.ft = t.ft ∧ t'.fd = t.fd ∧ (t.curOp = 0x7 → t'.fh = t.fh))

/-! ### 60_exceptions.md and the whole machine -/

/-- R242: the error codes each command can record. -/
def Obligations.ErrorsOfEachCommand : Prop :=
  ∀ (i : Instr) (s t : State), s.errInfo = 0 → exec i s = .next t → t.errInfo ≠ 0 →
    t.errInfo.extractLsb' 0 8 ∈ (match i with
      | .nop => ([] : List Byte)
      | .count => [0x01, 0x08]
      | .build => [0x09]
      | .assign => [0x09]
      | .writeHdr => [0x02, 0x09]
      | .pack => [0x01, 0x02, 0x07, 0x09]
      | .readHdr => [0x01, 0x03, 0x04]
      | .unpack => [0x01, 0x02, 0x05, 0x06, 0x09]
      | .compress => [0x01, 0x02, 0x07, 0x08]
      | .decompress => [0x01, 0x02, 0x03, 0x04, 0x05, 0x06])

/-- R35, R36, R38, R47, R49 to R51, R82, R135: what each command leaves unchanged, whatever its outcome, and the flags a
DECOMPRESS that ends leaves: F_T = F_D = 0, and F_H = 0 once UNPACK has started; where READ_HDR ended it, F_H is as it was
(90_conflicts.md C12; log entry 16, DEDUCED). `headerEnd`, from which the patch's offset comes (log entry 8), `draws` and
`rdata` are the model's own. -/
def Obligations.CommandFrames : Prop :=
  ∀ (i : Instr) (s t : State), exec i s = .next t →
    (t.ieDone = s.ieDone ∧ t.ieErr = s.ieErr ∧ t.cmd = s.cmd ∧ t.overrun = s.overrun ∧ t.index = s.index ∧
      t.script = s.script ∧ t.rdata = s.rdata ∧ t.draws = s.draws) ∧
    (i ≠ .count → i ≠ .compress → t.w = s.w ∧ t.total = s.total ∧ t.nsym = s.nsym ∧ t.fw = s.fw) ∧
    (i ≠ .assign → i ≠ .compress → t.ct = s.ct) ∧
    (i ≠ .build → i ≠ .compress → t.pl = s.pl) ∧
    (i ≠ .build → i ≠ .readHdr → i ≠ .compress → i ≠ .decompress → t.arena = s.arena ∧ t.root = s.root) ∧
    (i ≠ .readHdr → i ≠ .decompress → t.decNsym = s.decNsym) ∧
    (i ∈ [.nop, .count, .build, .assign, .pack, .unpack] → t.payloadStart = s.payloadStart) ∧
    (i ≠ .writeHdr → i ≠ .compress → t.headerEnd = s.headerEnd) ∧
    (i ∈ [.nop, .count, .build, .assign, .writeHdr, .unpack] → t.lastBits = s.lastBits) ∧
    (i ∈ [.nop, .build, .assign, .writeHdr] → t.src = s.src ∧ t.srcNext = s.srcNext ∧ t.srcPos = s.srcPos) ∧
    (i ∈ [.nop, .count, .build, .assign, .readHdr] →
      t.snk = s.snk ∧ t.snkNext = s.snkNext ∧ t.snkPos = s.snkPos ∧ t.objects = s.objects) ∧
    (i ∈ [.writeHdr, .unpack, .compress, .decompress] → t.objects = s.objects ∨ ∃ o, t.objects = o :: s.objects) ∧
    (i = .pack → t.objects.tail = s.objects.tail ∧ t.snkNext = s.snkNext ∧
      ∀ a, a < (curObject s).length → a ≠ patchOffset s → (curObject t)[a]? = (curObject s)[a]?) ∧
    (i ∈ [.nop, .assign, .writeHdr, .pack, .unpack] → t.ft = s.ft) ∧
    (i ∈ [.nop, .writeHdr, .pack, .readHdr, .unpack, .decompress] → t.fc = s.fc) ∧
    (i ∈ [.nop, .readHdr] → t.fh = s.fh) ∧
    (i ∈ [.nop, .assign, .writeHdr] → t.fd = s.fd) ∧
    (i = .decompress → t.busy = false → t.ft = false ∧ t.fd = false ∧
      ((t.curOp = 0x7 ∧ t.fh = false) ∨ (t.curOp = 0x6 ∧ t.err = true ∧ t.fh = s.fh)))

/-- R28, R31, R33, R34, R36, R37, R39, R46, R48, R57, R135, R136, R230 to R232: every step keeps the status side of the
machine; the stage that waits is CUR_OP's, and it and the sub-steps to come are the last stages of the command in CMD. -/
def Obligations.StepKeepsCoherent : Prop :=
  ∀ (s t : State), Coherent s → step s = .next t → Coherent t

/-- R258: from a sound state a step never meets a condition that cannot happen, and leaves a sound state: the machine
always goes on. -/
def Obligations.StepKeepsSound : Prop :=
  ∀ (s : State), Sound s → ∃ t, step s = .next t ∧ Sound t

/-- The reset state is sound, and so coherent. -/
def Obligations.ResetIsSound : Prop := Sound State.reset

/-- R140: in a sound state in which every answer is ready, every command runs to its end. -/
def Obligations.EveryRunEnds : Prop :=
  ∀ (i : Instr) (s : State), Sound s → Answered s → ∃ t, exec i s = .next t ∧ t.busy = false

/-- From R74, R77, R89 and log entry 1 (DEDUCED): a source item may arrive late. A turn of the engine that leaves the run
waiting, made before the item arrives, makes no difference: not where the run already waits in a session with no final item
yet, and not where it has just been accepted and the session that lacks the item is the one it opens first, the one UNPACK
continues, or the second one a COMPRESS opens. -/
def Obligations.AnItemMayArriveLate : Prop :=
  ∀ (s u : State) (bs : List Byte) (it : SrcItem), engineTurn s = .next u → u.busy = true →
    (∀ (st : Stage) (p : Point) (rest : List Stage), s.run = .waiting st p rest → st = p.stage → st ≠ .writeHdr →
      (rest = [] ∨ st = .count ∨ (st = .readHdr ∧ rest = [.unpack])) → s.src = some (bs.map SrcItem.byte) →
      engineTurn (deliverItem it u) = engineTurn (deliverItem it s)) ∧
    (∀ (i : Instr) (sess : List (List SrcItem)), s.run = .accepted → decode s.cmd = .command i →
      i ∈ [.count, .readHdr, .pack, .compress, .decompress] → s.srcNext = bs.map SrcItem.byte :: sess →
      engineTurn (deliverItem it u) = engineTurn { s with srcNext := (bs.map SrcItem.byte ++ [it]) :: sess }) ∧
    (s.run = .accepted → decode s.cmd = .command .unpack → s.src = some (bs.map SrcItem.byte) →
      engineTurn (deliverItem it u) = engineTurn (deliverItem it s)) ∧
    (∀ (first : List SrcItem) (sess : List (List SrcItem)), s.run = .accepted → decode s.cmd = .command .compress →
      s.srcNext = first :: bs.map SrcItem.byte :: sess → u.srcNext = sess →
      engineTurn (deliverItem it u) = engineTurn { s with srcNext := first :: (bs.map SrcItem.byte ++ [it]) :: sess })

/-- From R89 and log entry 1 (DEDUCED): a sink answer may arrive late. A turn of the engine that leaves the run waiting, made
before the answer arrives, makes no difference: not where the run already waits in a sink session, and not where it has just
been accepted and the turn has opened the session the answer belongs to, or is a PACK, which continues one. -/
def Obligations.AnAnswerMayArriveLate : Prop :=
  ∀ (s u : State) (answers : List SnkAnswer) (a : SnkAnswer), engineTurn s = .next u → u.busy = true →
    (∀ (st : Stage) (p : Point) (rest : List Stage), s.run = .waiting st p rest → st = p.stage →
      ((st ∈ [.writeHdr, .pack, .unpack] ∧ rest = []) ∨ (st = .writeHdr ∧ rest = [.pack])) → s.snk = some answers →
      engineTurn (deliverAnswer a u) = engineTurn (deliverAnswer a s)) ∧
    (∀ (i : Instr) (sess : List (List SnkAnswer)), s.run = .accepted → decode s.cmd = .command i →
      i ∈ [.writeHdr, .unpack, .compress, .decompress] → s.snkNext = answers :: sess → u.snkNext = sess →
      engineTurn (deliverAnswer a u) = engineTurn { s with snkNext := (answers ++ [a]) :: sess }) ∧
    (s.run = .accepted → decode s.cmd = .command .pack → s.snk = some answers →
      engineTurn (deliverAnswer a u) = engineTurn (deliverAnswer a s))
end

