-- ==== Sys2Proof/Laws/Bits.lean ====
section
/-! SUPPORT. Bit strings, the bytes that hold them, and the code fields made of such bytes (20_memory.md R84,
30_encoding.md R111). -/

set_option autoImplicit false

namespace Sys2Proof.Machine

@[simp] theorem msbNat_nil : msbNat [] = 0 := rfl

theorem msbNat_concat (code : Bits) (b : Bool) : msbNat (code ++ [b]) = 2 * msbNat code + b.toNat := by
  simp [msbNat]

theorem msbNat_lt (code : Bits) : msbNat code < 2 ^ code.length := by
  induction code using List.reverseRecOn with
  | nil => simp
  | append_singleton code b ih =>
    rw [msbNat_concat, List.length_append, List.length_singleton, pow_succ]
    have := Bool.toNat_lt b
    omega

theorem testBit_msbNat (code : Bits) (i : Nat) : (msbNat code).testBit i = (code.reverse[i]?).getD false := by
  induction code using List.reverseRecOn generalizing i with
  | nil => simp
  | append_singleton code b ih =>
    rw [msbNat_concat, List.reverse_append, List.reverse_singleton, List.singleton_append]
    cases i with
    | zero => cases b <;> simp [Nat.testBit_zero]
    | succ i =>
      rw [Nat.testBit_succ, List.getElem?_cons_succ, ← ih]
      congr 1
      have := Bool.toNat_lt b
      omega

/-- A string filled with zero bits at its end up to a width, as bits of the number it stands for. -/
theorem testBit_msbNat_take (code : Bits) (w j : Nat) (h : j < w) :
    (msbNat ((code ++ List.replicate w false).take w)).testBit (w - 1 - j) = (code[j]?).getD false := by
  rw [testBit_msbNat]
  have hl : ((code ++ List.replicate w false).take w).length = w := by simp
  rw [List.getElem?_reverse (by omega), hl, show w - 1 - (w - 1 - j) = j by omega, List.getElem?_take_of_lt h]
  by_cases hj : j < code.length
  · rw [List.getElem?_append_left hj]
  · rw [List.getElem?_append_right (by omega), List.getElem?_replicate]
    rw [List.getElem?_eq_none (by omega : code.length ≤ j)]; split <;> rfl

/-- Bit `7 - j` of a packed byte is bit `j` of the string, 0 past its end (R111). -/
theorem getLsbD_packByte (code : Bits) {j : Nat} (h : j < 8) : (packByte code).getLsbD (7 - j) = (code[j]?).getD false := by
  have := testBit_msbNat_take code 8 j h
  rw [packByte, BitVec.getLsbD_ofNat]
  simpa [show 7 - j < 8 by omega] using this

/-- Bit `31 - b` of a code window's word (R45). -/
theorem getLsbD_codeWord (code : Bits) (j : Nat) {b : Nat} (h : b < 32) :
    (codeWord code j).getLsbD (31 - b) = (code[32 * j + b]?).getD false := by
  have := testBit_msbNat_take (code.drop (32 * j)) 32 b h
  rw [codeWord, BitVec.getLsbD_ofNat]
  simpa [show 31 - b < 32 by omega, List.getElem?_drop] using this

@[simp] theorem byteBits_length (b : Byte) : (byteBits b).length = 8 := by simp [byteBits]

theorem getElem?_byteBits (b : Byte) {j : Nat} (h : j < 8) : (byteBits b)[j]? = some (b.getLsbD (7 - j)) := by
  simp [byteBits, List.getElem?_range h]

/-- The bits of a packed byte are the string's first eight, filled with zero bits. -/
theorem byteBits_packByte (code : Bits) : byteBits (packByte code) = (code ++ List.replicate 8 false).take 8 := by
  apply List.ext_getElem?
  intro j
  by_cases h : j < 8
  · rw [getElem?_byteBits _ h, getLsbD_packByte _ h, List.getElem?_take_of_lt h]
    by_cases hj : j < code.length
    · rw [List.getElem?_append_left hj, List.getElem?_eq_getElem hj]; rfl
    · rw [List.getElem?_append_right (by omega), List.getElem?_eq_none (by omega : code.length ≤ j),
        List.getElem?_replicate_of_lt (by omega)]; rfl
  · rw [List.getElem?_eq_none (by simp; omega), List.getElem?_eq_none (by simp; omega)]

theorem packByte_byteBits (b : Byte) : packByte (byteBits b) = b := by
  apply BitVec.eq_of_getLsbD_eq
  intro i hi
  have := getLsbD_packByte (byteBits b) (j := 7 - i) (by omega)
  rw [getElem?_byteBits _ (by omega), show 7 - (7 - i) = i by omega] at this
  simpa using this

/-! ### The accumulator of PACK -/

theorem ofNat_msbNat_concat (code : Bits) (b : Bool) :
    BitVec.ofNat 8 (msbNat (code ++ [b])) = shiftIn (BitVec.ofNat 8 (msbNat code)) b := by
  apply BitVec.eq_of_getLsbD_eq
  intro i hi
  simp only [shiftIn, BitVec.getLsbD_ofNat, BitVec.getLsbD_or, BitVec.getLsbD_shiftLeft, BitVec.getLsbD_setWidth, hi,
    decide_true, Bool.true_and, testBit_msbNat, List.reverse_append, List.reverse_singleton, List.singleton_append]
  cases i with
  | zero => cases b <;> simp
  | succ i =>
    simp only [List.getElem?_cons_succ]
    cases b <;> simp [show i < 8 by omega]

/-- The bits held by PACK, flushed: they stand at the top of the byte, with zeros below (R212). -/
theorem flushByte_msbNat (code : Bits) (h : code.length < 8) :
    flushByte (BitVec.ofNat 8 (msbNat code)) code.length = packByte code := by
  apply BitVec.eq_of_getLsbD_eq
  intro i hi
  have h1 := getLsbD_packByte code (j := 7 - i) (by omega)
  rw [show 7 - (7 - i) = i by omega] at h1
  rw [h1]
  simp only [flushByte, BitVec.getLsbD_shiftLeft, BitVec.getLsbD_ofNat, testBit_msbNat, hi, decide_true, Bool.true_and]
  by_cases hc : i < 8 - code.length
  · rw [List.getElem?_eq_none (by omega : code.length ≤ 7 - i)]; simp [hc]
  · rw [List.getElem?_reverse (by omega), show code.length - 1 - (i - (8 - code.length)) = 7 - i by omega]
    simp [hc, show i - (8 - code.length) < 8 by omega]

/-- A full accumulator (R210). -/
theorem ofNat_msbNat_full (code : Bits) (h : code.length = 8) : BitVec.ofNat 8 (msbNat code) = packByte code := by
  rw [packByte, List.take_append_of_le_length (by omega), ← h, List.take_length]

/-! ### Code fields -/

theorem bytesFor_eq (n : Nat) : bytesFor n = (n + 7) / 8 := rfl

@[simp] theorem codeField_length (code : Bits) : (codeField code).length = (code.length + 7) / 8 := by
  simp [codeField, bytesFor]

@[simp] theorem codeField_nil : codeField [] = [] := rfl

theorem packByte_append {a b : Bits} (h : 8 ≤ a.length) : packByte (a ++ b) = packByte a := by
  rw [packByte, packByte, List.append_assoc, List.take_append_of_le_length h, List.take_append_of_le_length h]

/-- A field is its first byte and the field of what comes after the first eight bits. -/
theorem codeField_cons {code : Bits} (h : code ≠ []) : codeField code = packByte code :: codeField (code.drop 8) := by
  have hl : 0 < code.length := List.length_pos_of_ne_nil h
  have hn : bytesFor code.length = bytesFor (code.drop 8).length + 1 := by
    simp only [bytesFor, List.length_drop]; omega
  rw [codeField, hn, List.range_succ_eq_map]
  simp [codeField, Nat.mul_add, Function.comp_def, Nat.add_comm]

/-- Byte `k` of a field (R111). -/
theorem getElem?_codeField (code : Bits) (k : Nat) :
    (codeField code)[k]? = if k < bytesFor code.length then some (packByte (code.drop (8 * k))) else none := by
  simp only [codeField, List.getElem?_map]
  split <;> simp_all

theorem codeField_append {a b : Bits} (h : 8 ∣ a.length) : codeField (a ++ b) = codeField a ++ codeField b := by
  obtain ⟨n, hn⟩ := h
  induction n generalizing a with
  | zero =>
    have : a = [] := List.eq_nil_of_length_eq_zero (by omega)
    simp [this]
  | succ n ih =>
    have ha : a ≠ [] := by rintro rfl; simp at hn
    rw [codeField_cons (code := a ++ b) (by simp [ha]), codeField_cons ha, packByte_append (by omega),
      List.drop_append_of_le_length (by omega), ih (by simp; omega), List.cons_append]

/-- The whole bytes of a field are those of its whole groups of eight bits. -/
theorem take_codeField {code : Bits} : (codeField code).take (code.length / 8) = codeField (code.take (8 * (code.length / 8))) := by
  have h := codeField_append (a := code.take (8 * (code.length / 8))) (b := code.drop (8 * (code.length / 8)))
    (by rw [List.length_take, Nat.min_eq_left (by omega)]; exact Nat.dvd_mul_right ..)
  rw [List.take_append_drop] at h
  rw [h, List.take_append_of_le_length, List.take_of_length_le] <;>
    simp only [codeField_length, List.length_take] <;> omega

/-- The bits of a field are the code and the zero padding (R111). -/
theorem flatMap_byteBits_codeField (code : Bits) :
    (codeField code).flatMap byteBits = code ++ List.replicate (8 * bytesFor code.length - code.length) false := by
  induction hn : bytesFor code.length generalizing code with
  | zero =>
    have : code = [] := List.eq_nil_of_length_eq_zero (by simp only [bytesFor] at hn; omega)
    simp [this]
  | succ n ih =>
    have hc : code ≠ [] := by rintro rfl; simp [bytesFor] at hn
    have hl : 0 < code.length := List.length_pos_of_ne_nil hc
    simp only [bytesFor] at hn ih
    rw [codeField_cons hc, List.flatMap_cons, byteBits_packByte, ih (code.drop 8) (by simp; omega)]
    by_cases h8 : 8 ≤ code.length
    · rw [List.take_append_of_le_length h8, ← List.append_assoc, List.take_append_drop, List.length_drop]
      congr 2; omega
    · rw [List.drop_of_length_le (by omega), List.take_append, List.take_of_length_le (by omega)]
      have : n = 0 := by omega
      subst this
      rw [List.take_replicate, Nat.min_eq_left (by omega)]
      simp

/-- A code is read back from its field (R196). -/
theorem codeOfField_codeField {code : Bits} {len : Byte} (h : code.length = len.toNat) :
    codeOfField len (codeField code) = code := by
  rw [codeOfField, flatMap_byteBits_codeField, ← h, List.take_append_of_le_length (le_refl _), List.take_length]

theorem codeOfField_length {len : Byte} {f : List Byte} (h : f.length = bytesFor len.toNat) :
    (codeOfField len f).length = len.toNat := by
  have : (f.flatMap byteBits).length = 8 * f.length := by
    simp [List.length_flatMap, Nat.mul_comm]
  simp only [codeOfField, List.length_take, this, h, bytesFor]
  omega

/-- The bits of a byte sequence, bit by bit (R84, R211). -/
theorem getElem?_flatMap_byteBits (f : List Byte) (i : Nat) :
    (f.flatMap byteBits)[i]? = (f[i / 8]?).map fun b => b.getLsbD (7 - i % 8) := by
  induction f generalizing i with
  | nil => simp
  | cons b f ih =>
    rw [List.flatMap_cons]
    by_cases h : i < 8
    · rw [List.getElem?_append_left (by simpa), getElem?_byteBits _ h, Nat.div_eq_of_lt h, Nat.mod_eq_of_lt h]
      simp
    · rw [List.getElem?_append_right (by simp; omega), byteBits_length, ih,
        show i / 8 = (i - 8) / 8 + 1 by omega, show (i - 8) % 8 = i % 8 by omega, List.getElem?_cons_succ]

end Sys2Proof.Machine
end

