-- ==== Sys2Proof/Laws/State.lean ====
section
/-! SUPPORT. One lemma per field per update of the state, so that no later proof unfolds a record update. -/

set_option autoImplicit false

namespace Sys2Proof.Machine

/-! ### `SrcOpen` (R75) -/

@[simp] theorem srcOpen_ieDone (s : State) : (srcOpen s).ieDone = s.ieDone := rfl
@[simp] theorem srcOpen_ieErr (s : State) : (srcOpen s).ieErr = s.ieErr := rfl
@[simp] theorem srcOpen_cmd (s : State) : (srcOpen s).cmd = s.cmd := rfl
@[simp] theorem srcOpen_run (s : State) : (srcOpen s).run = s.run := rfl
@[simp] theorem srcOpen_done (s : State) : (srcOpen s).done = s.done := rfl
@[simp] theorem srcOpen_err (s : State) : (srcOpen s).err = s.err := rfl
@[simp] theorem srcOpen_overrun (s : State) : (srcOpen s).overrun = s.overrun := rfl
@[simp] theorem srcOpen_fw (s : State) : (srcOpen s).fw = s.fw := rfl
@[simp] theorem srcOpen_ft (s : State) : (srcOpen s).ft = s.ft := rfl
@[simp] theorem srcOpen_fc (s : State) : (srcOpen s).fc = s.fc := rfl
@[simp] theorem srcOpen_fh (s : State) : (srcOpen s).fh = s.fh := rfl
@[simp] theorem srcOpen_fd (s : State) : (srcOpen s).fd = s.fd := rfl
@[simp] theorem srcOpen_curOp (s : State) : (srcOpen s).curOp = s.curOp := rfl
@[simp] theorem srcOpen_errInfo (s : State) : (srcOpen s).errInfo = s.errInfo := rfl
@[simp] theorem srcOpen_total (s : State) : (srcOpen s).total = s.total := rfl
@[simp] theorem srcOpen_nsym (s : State) : (srcOpen s).nsym = s.nsym := rfl
@[simp] theorem srcOpen_decNsym (s : State) : (srcOpen s).decNsym = s.decNsym := rfl
@[simp] theorem srcOpen_payloadStart (s : State) : (srcOpen s).payloadStart = s.payloadStart := rfl
@[simp] theorem srcOpen_lastBits (s : State) : (srcOpen s).lastBits = s.lastBits := rfl
@[simp] theorem srcOpen_srcPos (s : State) : (srcOpen s).srcPos = 0 := rfl
@[simp] theorem srcOpen_snkPos (s : State) : (srcOpen s).snkPos = s.snkPos := rfl
@[simp] theorem srcOpen_index (s : State) : (srcOpen s).index = s.index := rfl
@[simp] theorem srcOpen_w (s : State) : (srcOpen s).w = s.w := rfl
@[simp] theorem srcOpen_pl (s : State) : (srcOpen s).pl = s.pl := rfl
@[simp] theorem srcOpen_arena (s : State) : (srcOpen s).arena = s.arena := rfl
@[simp] theorem srcOpen_root (s : State) : (srcOpen s).root = s.root := rfl
@[simp] theorem srcOpen_ct (s : State) : (srcOpen s).ct = s.ct := rfl
@[simp] theorem srcOpen_src (s : State) : (srcOpen s).src = some (s.srcNext.headD []) := rfl
@[simp] theorem srcOpen_srcNext (s : State) : (srcOpen s).srcNext = s.srcNext.tail := rfl
@[simp] theorem srcOpen_snk (s : State) : (srcOpen s).snk = s.snk := rfl
@[simp] theorem srcOpen_snkNext (s : State) : (srcOpen s).snkNext = s.snkNext := rfl
@[simp] theorem srcOpen_objects (s : State) : (srcOpen s).objects = s.objects := rfl
@[simp] theorem srcOpen_headerEnd (s : State) : (srcOpen s).headerEnd = s.headerEnd := rfl
@[simp] theorem srcOpen_script (s : State) : (srcOpen s).script = s.script := rfl
@[simp] theorem srcOpen_rdata (s : State) : (srcOpen s).rdata = s.rdata := rfl
@[simp] theorem srcOpen_draws (s : State) : (srcOpen s).draws = s.draws := rfl

/-! ### a byte taken (R76) -/

@[simp] theorem tookByte_ieDone (rest : List SrcItem) (s : State) : (tookByte rest s).ieDone = s.ieDone := rfl
@[simp] theorem tookByte_ieErr (rest : List SrcItem) (s : State) : (tookByte rest s).ieErr = s.ieErr := rfl
@[simp] theorem tookByte_cmd (rest : List SrcItem) (s : State) : (tookByte rest s).cmd = s.cmd := rfl
@[simp] theorem tookByte_run (rest : List SrcItem) (s : State) : (tookByte rest s).run = s.run := rfl
@[simp] theorem tookByte_done (rest : List SrcItem) (s : State) : (tookByte rest s).done = s.done := rfl
@[simp] theorem tookByte_err (rest : List SrcItem) (s : State) : (tookByte rest s).err = s.err := rfl
@[simp] theorem tookByte_overrun (rest : List SrcItem) (s : State) : (tookByte rest s).overrun = s.overrun := rfl
@[simp] theorem tookByte_fw (rest : List SrcItem) (s : State) : (tookByte rest s).fw = s.fw := rfl
@[simp] theorem tookByte_ft (rest : List SrcItem) (s : State) : (tookByte rest s).ft = s.ft := rfl
@[simp] theorem tookByte_fc (rest : List SrcItem) (s : State) : (tookByte rest s).fc = s.fc := rfl
@[simp] theorem tookByte_fh (rest : List SrcItem) (s : State) : (tookByte rest s).fh = s.fh := rfl
@[simp] theorem tookByte_fd (rest : List SrcItem) (s : State) : (tookByte rest s).fd = s.fd := rfl
@[simp] theorem tookByte_curOp (rest : List SrcItem) (s : State) : (tookByte rest s).curOp = s.curOp := rfl
@[simp] theorem tookByte_errInfo (rest : List SrcItem) (s : State) : (tookByte rest s).errInfo = s.errInfo := rfl
@[simp] theorem tookByte_total (rest : List SrcItem) (s : State) : (tookByte rest s).total = s.total := rfl
@[simp] theorem tookByte_nsym (rest : List SrcItem) (s : State) : (tookByte rest s).nsym = s.nsym := rfl
@[simp] theorem tookByte_decNsym (rest : List SrcItem) (s : State) : (tookByte rest s).decNsym = s.decNsym := rfl
@[simp] theorem tookByte_payloadStart (rest : List SrcItem) (s : State) : (tookByte rest s).payloadStart = s.payloadStart := rfl
@[simp] theorem tookByte_lastBits (rest : List SrcItem) (s : State) : (tookByte rest s).lastBits = s.lastBits := rfl
@[simp] theorem tookByte_srcPos (rest : List SrcItem) (s : State) : (tookByte rest s).srcPos = s.srcPos + 1 := rfl
@[simp] theorem tookByte_snkPos (rest : List SrcItem) (s : State) : (tookByte rest s).snkPos = s.snkPos := rfl
@[simp] theorem tookByte_index (rest : List SrcItem) (s : State) : (tookByte rest s).index = s.index := rfl
@[simp] theorem tookByte_w (rest : List SrcItem) (s : State) : (tookByte rest s).w = s.w := rfl
@[simp] theorem tookByte_pl (rest : List SrcItem) (s : State) : (tookByte rest s).pl = s.pl := rfl
@[simp] theorem tookByte_arena (rest : List SrcItem) (s : State) : (tookByte rest s).arena = s.arena := rfl
@[simp] theorem tookByte_root (rest : List SrcItem) (s : State) : (tookByte rest s).root = s.root := rfl
@[simp] theorem tookByte_ct (rest : List SrcItem) (s : State) : (tookByte rest s).ct = s.ct := rfl
@[simp] theorem tookByte_src (rest : List SrcItem) (s : State) : (tookByte rest s).src = some rest := rfl
@[simp] theorem tookByte_srcNext (rest : List SrcItem) (s : State) : (tookByte rest s).srcNext = s.srcNext := rfl
@[simp] theorem tookByte_snk (rest : List SrcItem) (s : State) : (tookByte rest s).snk = s.snk := rfl
@[simp] theorem tookByte_snkNext (rest : List SrcItem) (s : State) : (tookByte rest s).snkNext = s.snkNext := rfl
@[simp] theorem tookByte_objects (rest : List SrcItem) (s : State) : (tookByte rest s).objects = s.objects := rfl
@[simp] theorem tookByte_headerEnd (rest : List SrcItem) (s : State) : (tookByte rest s).headerEnd = s.headerEnd := rfl
@[simp] theorem tookByte_script (rest : List SrcItem) (s : State) : (tookByte rest s).script = s.script := rfl
@[simp] theorem tookByte_rdata (rest : List SrcItem) (s : State) : (tookByte rest s).rdata = s.rdata := rfl
@[simp] theorem tookByte_draws (rest : List SrcItem) (s : State) : (tookByte rest s).draws = s.draws := rfl

/-! ### a final item taken (R76) -/

@[simp] theorem tookFinal_ieDone (rest : List SrcItem) (s : State) : (tookFinal rest s).ieDone = s.ieDone := rfl
@[simp] theorem tookFinal_ieErr (rest : List SrcItem) (s : State) : (tookFinal rest s).ieErr = s.ieErr := rfl
@[simp] theorem tookFinal_cmd (rest : List SrcItem) (s : State) : (tookFinal rest s).cmd = s.cmd := rfl
@[simp] theorem tookFinal_run (rest : List SrcItem) (s : State) : (tookFinal rest s).run = s.run := rfl
@[simp] theorem tookFinal_done (rest : List SrcItem) (s : State) : (tookFinal rest s).done = s.done := rfl
@[simp] theorem tookFinal_err (rest : List SrcItem) (s : State) : (tookFinal rest s).err = s.err := rfl
@[simp] theorem tookFinal_overrun (rest : List SrcItem) (s : State) : (tookFinal rest s).overrun = s.overrun := rfl
@[simp] theorem tookFinal_fw (rest : List SrcItem) (s : State) : (tookFinal rest s).fw = s.fw := rfl
@[simp] theorem tookFinal_ft (rest : List SrcItem) (s : State) : (tookFinal rest s).ft = s.ft := rfl
@[simp] theorem tookFinal_fc (rest : List SrcItem) (s : State) : (tookFinal rest s).fc = s.fc := rfl
@[simp] theorem tookFinal_fh (rest : List SrcItem) (s : State) : (tookFinal rest s).fh = s.fh := rfl
@[simp] theorem tookFinal_fd (rest : List SrcItem) (s : State) : (tookFinal rest s).fd = s.fd := rfl
@[simp] theorem tookFinal_curOp (rest : List SrcItem) (s : State) : (tookFinal rest s).curOp = s.curOp := rfl
@[simp] theorem tookFinal_errInfo (rest : List SrcItem) (s : State) : (tookFinal rest s).errInfo = s.errInfo := rfl
@[simp] theorem tookFinal_total (rest : List SrcItem) (s : State) : (tookFinal rest s).total = s.total := rfl
@[simp] theorem tookFinal_nsym (rest : List SrcItem) (s : State) : (tookFinal rest s).nsym = s.nsym := rfl
@[simp] theorem tookFinal_decNsym (rest : List SrcItem) (s : State) : (tookFinal rest s).decNsym = s.decNsym := rfl
@[simp] theorem tookFinal_payloadStart (rest : List SrcItem) (s : State) : (tookFinal rest s).payloadStart = s.payloadStart := rfl
@[simp] theorem tookFinal_lastBits (rest : List SrcItem) (s : State) : (tookFinal rest s).lastBits = s.lastBits := rfl
@[simp] theorem tookFinal_srcPos (rest : List SrcItem) (s : State) : (tookFinal rest s).srcPos = s.srcPos := rfl
@[simp] theorem tookFinal_snkPos (rest : List SrcItem) (s : State) : (tookFinal rest s).snkPos = s.snkPos := rfl
@[simp] theorem tookFinal_index (rest : List SrcItem) (s : State) : (tookFinal rest s).index = s.index := rfl
@[simp] theorem tookFinal_w (rest : List SrcItem) (s : State) : (tookFinal rest s).w = s.w := rfl
@[simp] theorem tookFinal_pl (rest : List SrcItem) (s : State) : (tookFinal rest s).pl = s.pl := rfl
@[simp] theorem tookFinal_arena (rest : List SrcItem) (s : State) : (tookFinal rest s).arena = s.arena := rfl
@[simp] theorem tookFinal_root (rest : List SrcItem) (s : State) : (tookFinal rest s).root = s.root := rfl
@[simp] theorem tookFinal_ct (rest : List SrcItem) (s : State) : (tookFinal rest s).ct = s.ct := rfl
@[simp] theorem tookFinal_src (rest : List SrcItem) (s : State) : (tookFinal rest s).src = some rest := rfl
@[simp] theorem tookFinal_srcNext (rest : List SrcItem) (s : State) : (tookFinal rest s).srcNext = s.srcNext := rfl
@[simp] theorem tookFinal_snk (rest : List SrcItem) (s : State) : (tookFinal rest s).snk = s.snk := rfl
@[simp] theorem tookFinal_snkNext (rest : List SrcItem) (s : State) : (tookFinal rest s).snkNext = s.snkNext := rfl
@[simp] theorem tookFinal_objects (rest : List SrcItem) (s : State) : (tookFinal rest s).objects = s.objects := rfl
@[simp] theorem tookFinal_headerEnd (rest : List SrcItem) (s : State) : (tookFinal rest s).headerEnd = s.headerEnd := rfl
@[simp] theorem tookFinal_script (rest : List SrcItem) (s : State) : (tookFinal rest s).script = s.script := rfl
@[simp] theorem tookFinal_rdata (rest : List SrcItem) (s : State) : (tookFinal rest s).rdata = s.rdata := rfl
@[simp] theorem tookFinal_draws (rest : List SrcItem) (s : State) : (tookFinal rest s).draws = s.draws := rfl

/-! ### `SnkOpen` (R78) -/

@[simp] theorem snkOpen_ieDone (s : State) : (snkOpen s).ieDone = s.ieDone := rfl
@[simp] theorem snkOpen_ieErr (s : State) : (snkOpen s).ieErr = s.ieErr := rfl
@[simp] theorem snkOpen_cmd (s : State) : (snkOpen s).cmd = s.cmd := rfl
@[simp] theorem snkOpen_run (s : State) : (snkOpen s).run = s.run := rfl
@[simp] theorem snkOpen_done (s : State) : (snkOpen s).done = s.done := rfl
@[simp] theorem snkOpen_err (s : State) : (snkOpen s).err = s.err := rfl
@[simp] theorem snkOpen_overrun (s : State) : (snkOpen s).overrun = s.overrun := rfl
@[simp] theorem snkOpen_fw (s : State) : (snkOpen s).fw = s.fw := rfl
@[simp] theorem snkOpen_ft (s : State) : (snkOpen s).ft = s.ft := rfl
@[simp] theorem snkOpen_fc (s : State) : (snkOpen s).fc = s.fc := rfl
@[simp] theorem snkOpen_fh (s : State) : (snkOpen s).fh = s.fh := rfl
@[simp] theorem snkOpen_fd (s : State) : (snkOpen s).fd = s.fd := rfl
@[simp] theorem snkOpen_curOp (s : State) : (snkOpen s).curOp = s.curOp := rfl
@[simp] theorem snkOpen_errInfo (s : State) : (snkOpen s).errInfo = s.errInfo := rfl
@[simp] theorem snkOpen_total (s : State) : (snkOpen s).total = s.total := rfl
@[simp] theorem snkOpen_nsym (s : State) : (snkOpen s).nsym = s.nsym := rfl
@[simp] theorem snkOpen_decNsym (s : State) : (snkOpen s).decNsym = s.decNsym := rfl
@[simp] theorem snkOpen_payloadStart (s : State) : (snkOpen s).payloadStart = s.payloadStart := rfl
@[simp] theorem snkOpen_lastBits (s : State) : (snkOpen s).lastBits = s.lastBits := rfl
@[simp] theorem snkOpen_srcPos (s : State) : (snkOpen s).srcPos = s.srcPos := rfl
@[simp] theorem snkOpen_snkPos (s : State) : (snkOpen s).snkPos = 0 := rfl
@[simp] theorem snkOpen_index (s : State) : (snkOpen s).index = s.index := rfl
@[simp] theorem snkOpen_w (s : State) : (snkOpen s).w = s.w := rfl
@[simp] theorem snkOpen_pl (s : State) : (snkOpen s).pl = s.pl := rfl
@[simp] theorem snkOpen_arena (s : State) : (snkOpen s).arena = s.arena := rfl
@[simp] theorem snkOpen_root (s : State) : (snkOpen s).root = s.root := rfl
@[simp] theorem snkOpen_ct (s : State) : (snkOpen s).ct = s.ct := rfl
@[simp] theorem snkOpen_src (s : State) : (snkOpen s).src = s.src := rfl
@[simp] theorem snkOpen_srcNext (s : State) : (snkOpen s).srcNext = s.srcNext := rfl
@[simp] theorem snkOpen_snk (s : State) : (snkOpen s).snk = some (s.snkNext.headD []) := rfl
@[simp] theorem snkOpen_snkNext (s : State) : (snkOpen s).snkNext = s.snkNext.tail := rfl
@[simp] theorem snkOpen_objects (s : State) : (snkOpen s).objects = [] :: s.objects := rfl
@[simp] theorem snkOpen_headerEnd (s : State) : (snkOpen s).headerEnd = s.headerEnd := rfl
@[simp] theorem snkOpen_script (s : State) : (snkOpen s).script = s.script := rfl
@[simp] theorem snkOpen_rdata (s : State) : (snkOpen s).rdata = s.rdata := rfl
@[simp] theorem snkOpen_draws (s : State) : (snkOpen s).draws = s.draws := rfl

/-! ### the current object replaced -/

@[simp] theorem setObject_ieDone (o : List Byte) (s : State) : (setObject o s).ieDone = s.ieDone := rfl
@[simp] theorem setObject_ieErr (o : List Byte) (s : State) : (setObject o s).ieErr = s.ieErr := rfl
@[simp] theorem setObject_cmd (o : List Byte) (s : State) : (setObject o s).cmd = s.cmd := rfl
@[simp] theorem setObject_run (o : List Byte) (s : State) : (setObject o s).run = s.run := rfl
@[simp] theorem setObject_done (o : List Byte) (s : State) : (setObject o s).done = s.done := rfl
@[simp] theorem setObject_err (o : List Byte) (s : State) : (setObject o s).err = s.err := rfl
@[simp] theorem setObject_overrun (o : List Byte) (s : State) : (setObject o s).overrun = s.overrun := rfl
@[simp] theorem setObject_fw (o : List Byte) (s : State) : (setObject o s).fw = s.fw := rfl
@[simp] theorem setObject_ft (o : List Byte) (s : State) : (setObject o s).ft = s.ft := rfl
@[simp] theorem setObject_fc (o : List Byte) (s : State) : (setObject o s).fc = s.fc := rfl
@[simp] theorem setObject_fh (o : List Byte) (s : State) : (setObject o s).fh = s.fh := rfl
@[simp] theorem setObject_fd (o : List Byte) (s : State) : (setObject o s).fd = s.fd := rfl
@[simp] theorem setObject_curOp (o : List Byte) (s : State) : (setObject o s).curOp = s.curOp := rfl
@[simp] theorem setObject_errInfo (o : List Byte) (s : State) : (setObject o s).errInfo = s.errInfo := rfl
@[simp] theorem setObject_total (o : List Byte) (s : State) : (setObject o s).total = s.total := rfl
@[simp] theorem setObject_nsym (o : List Byte) (s : State) : (setObject o s).nsym = s.nsym := rfl
@[simp] theorem setObject_decNsym (o : List Byte) (s : State) : (setObject o s).decNsym = s.decNsym := rfl
@[simp] theorem setObject_payloadStart (o : List Byte) (s : State) : (setObject o s).payloadStart = s.payloadStart := rfl
@[simp] theorem setObject_lastBits (o : List Byte) (s : State) : (setObject o s).lastBits = s.lastBits := rfl
@[simp] theorem setObject_srcPos (o : List Byte) (s : State) : (setObject o s).srcPos = s.srcPos := rfl
@[simp] theorem setObject_snkPos (o : List Byte) (s : State) : (setObject o s).snkPos = s.snkPos := rfl
@[simp] theorem setObject_index (o : List Byte) (s : State) : (setObject o s).index = s.index := rfl
@[simp] theorem setObject_w (o : List Byte) (s : State) : (setObject o s).w = s.w := rfl
@[simp] theorem setObject_pl (o : List Byte) (s : State) : (setObject o s).pl = s.pl := rfl
@[simp] theorem setObject_arena (o : List Byte) (s : State) : (setObject o s).arena = s.arena := rfl
@[simp] theorem setObject_root (o : List Byte) (s : State) : (setObject o s).root = s.root := rfl
@[simp] theorem setObject_ct (o : List Byte) (s : State) : (setObject o s).ct = s.ct := rfl
@[simp] theorem setObject_src (o : List Byte) (s : State) : (setObject o s).src = s.src := rfl
@[simp] theorem setObject_srcNext (o : List Byte) (s : State) : (setObject o s).srcNext = s.srcNext := rfl
@[simp] theorem setObject_snk (o : List Byte) (s : State) : (setObject o s).snk = s.snk := rfl
@[simp] theorem setObject_snkNext (o : List Byte) (s : State) : (setObject o s).snkNext = s.snkNext := rfl
@[simp] theorem setObject_objects (o : List Byte) (s : State) : (setObject o s).objects = o :: s.objects.tail := rfl
@[simp] theorem setObject_headerEnd (o : List Byte) (s : State) : (setObject o s).headerEnd = s.headerEnd := rfl
@[simp] theorem setObject_script (o : List Byte) (s : State) : (setObject o s).script = s.script := rfl
@[simp] theorem setObject_rdata (o : List Byte) (s : State) : (setObject o s).rdata = s.rdata := rfl
@[simp] theorem setObject_draws (o : List Byte) (s : State) : (setObject o s).draws = s.draws := rfl

/-! ### a byte counted (R150) -/

@[simp] theorem tally_ieDone (b : Byte) (s : State) : (tally b s).ieDone = s.ieDone := rfl
@[simp] theorem tally_ieErr (b : Byte) (s : State) : (tally b s).ieErr = s.ieErr := rfl
@[simp] theorem tally_cmd (b : Byte) (s : State) : (tally b s).cmd = s.cmd := rfl
@[simp] theorem tally_run (b : Byte) (s : State) : (tally b s).run = s.run := rfl
@[simp] theorem tally_done (b : Byte) (s : State) : (tally b s).done = s.done := rfl
@[simp] theorem tally_err (b : Byte) (s : State) : (tally b s).err = s.err := rfl
@[simp] theorem tally_overrun (b : Byte) (s : State) : (tally b s).overrun = s.overrun := rfl
@[simp] theorem tally_fw (b : Byte) (s : State) : (tally b s).fw = s.fw := rfl
@[simp] theorem tally_ft (b : Byte) (s : State) : (tally b s).ft = s.ft := rfl
@[simp] theorem tally_fc (b : Byte) (s : State) : (tally b s).fc = s.fc := rfl
@[simp] theorem tally_fh (b : Byte) (s : State) : (tally b s).fh = s.fh := rfl
@[simp] theorem tally_fd (b : Byte) (s : State) : (tally b s).fd = s.fd := rfl
@[simp] theorem tally_curOp (b : Byte) (s : State) : (tally b s).curOp = s.curOp := rfl
@[simp] theorem tally_errInfo (b : Byte) (s : State) : (tally b s).errInfo = s.errInfo := rfl
@[simp] theorem tally_total (b : Byte) (s : State) : (tally b s).total = s.total + 1 := rfl
@[simp] theorem tally_nsym (b : Byte) (s : State) : (tally b s).nsym = s.nsym := rfl
@[simp] theorem tally_decNsym (b : Byte) (s : State) : (tally b s).decNsym = s.decNsym := rfl
@[simp] theorem tally_payloadStart (b : Byte) (s : State) : (tally b s).payloadStart = s.payloadStart := rfl
@[simp] theorem tally_lastBits (b : Byte) (s : State) : (tally b s).lastBits = s.lastBits := rfl
@[simp] theorem tally_srcPos (b : Byte) (s : State) : (tally b s).srcPos = s.srcPos := rfl
@[simp] theorem tally_snkPos (b : Byte) (s : State) : (tally b s).snkPos = s.snkPos := rfl
@[simp] theorem tally_index (b : Byte) (s : State) : (tally b s).index = s.index := rfl
@[simp] theorem tally_w (b : Byte) (s : State) : (tally b s).w = tset s.w b (tget s.w b + 1) := rfl
@[simp] theorem tally_pl (b : Byte) (s : State) : (tally b s).pl = s.pl := rfl
@[simp] theorem tally_arena (b : Byte) (s : State) : (tally b s).arena = s.arena := rfl
@[simp] theorem tally_root (b : Byte) (s : State) : (tally b s).root = s.root := rfl
@[simp] theorem tally_ct (b : Byte) (s : State) : (tally b s).ct = s.ct := rfl
@[simp] theorem tally_src (b : Byte) (s : State) : (tally b s).src = s.src := rfl
@[simp] theorem tally_srcNext (b : Byte) (s : State) : (tally b s).srcNext = s.srcNext := rfl
@[simp] theorem tally_snk (b : Byte) (s : State) : (tally b s).snk = s.snk := rfl
@[simp] theorem tally_snkNext (b : Byte) (s : State) : (tally b s).snkNext = s.snkNext := rfl
@[simp] theorem tally_objects (b : Byte) (s : State) : (tally b s).objects = s.objects := rfl
@[simp] theorem tally_headerEnd (b : Byte) (s : State) : (tally b s).headerEnd = s.headerEnd := rfl
@[simp] theorem tally_script (b : Byte) (s : State) : (tally b s).script = s.script := rfl
@[simp] theorem tally_rdata (b : Byte) (s : State) : (tally b s).rdata = s.rdata := rfl
@[simp] theorem tally_draws (b : Byte) (s : State) : (tally b s).draws = s.draws := rfl

/-! ### acceptance (R130) -/

@[simp] theorem accept_ieDone (v : Word) (s : State) : (accept v s).ieDone = s.ieDone := rfl
@[simp] theorem accept_ieErr (v : Word) (s : State) : (accept v s).ieErr = s.ieErr := rfl
@[simp] theorem accept_cmd (v : Word) (s : State) : (accept v s).cmd = v := rfl
@[simp] theorem accept_run (v : Word) (s : State) : (accept v s).run = .accepted := rfl
@[simp] theorem accept_done (v : Word) (s : State) : (accept v s).done = false := rfl
@[simp] theorem accept_err (v : Word) (s : State) : (accept v s).err = false := rfl
@[simp] theorem accept_overrun (v : Word) (s : State) : (accept v s).overrun = s.overrun := rfl
@[simp] theorem accept_fw (v : Word) (s : State) : (accept v s).fw = s.fw := rfl
@[simp] theorem accept_ft (v : Word) (s : State) : (accept v s).ft = s.ft := rfl
@[simp] theorem accept_fc (v : Word) (s : State) : (accept v s).fc = s.fc := rfl
@[simp] theorem accept_fh (v : Word) (s : State) : (accept v s).fh = s.fh := rfl
@[simp] theorem accept_fd (v : Word) (s : State) : (accept v s).fd = s.fd := rfl
@[simp] theorem accept_curOp (v : Word) (s : State) : (accept v s).curOp = opField v := rfl
@[simp] theorem accept_errInfo (v : Word) (s : State) : (accept v s).errInfo = 0 := rfl
@[simp] theorem accept_total (v : Word) (s : State) : (accept v s).total = s.total := rfl
@[simp] theorem accept_nsym (v : Word) (s : State) : (accept v s).nsym = s.nsym := rfl
@[simp] theorem accept_decNsym (v : Word) (s : State) : (accept v s).decNsym = s.decNsym := rfl
@[simp] theorem accept_payloadStart (v : Word) (s : State) : (accept v s).payloadStart = s.payloadStart := rfl
@[simp] theorem accept_lastBits (v : Word) (s : State) : (accept v s).lastBits = s.lastBits := rfl
@[simp] theorem accept_srcPos (v : Word) (s : State) : (accept v s).srcPos = s.srcPos := rfl
@[simp] theorem accept_snkPos (v : Word) (s : State) : (accept v s).snkPos = s.snkPos := rfl
@[simp] theorem accept_index (v : Word) (s : State) : (accept v s).index = s.index := rfl
@[simp] theorem accept_w (v : Word) (s : State) : (accept v s).w = s.w := rfl
@[simp] theorem accept_pl (v : Word) (s : State) : (accept v s).pl = s.pl := rfl
@[simp] theorem accept_arena (v : Word) (s : State) : (accept v s).arena = s.arena := rfl
@[simp] theorem accept_root (v : Word) (s : State) : (accept v s).root = s.root := rfl
@[simp] theorem accept_ct (v : Word) (s : State) : (accept v s).ct = s.ct := rfl
@[simp] theorem accept_src (v : Word) (s : State) : (accept v s).src = s.src := rfl
@[simp] theorem accept_srcNext (v : Word) (s : State) : (accept v s).srcNext = s.srcNext := rfl
@[simp] theorem accept_snk (v : Word) (s : State) : (accept v s).snk = s.snk := rfl
@[simp] theorem accept_snkNext (v : Word) (s : State) : (accept v s).snkNext = s.snkNext := rfl
@[simp] theorem accept_objects (v : Word) (s : State) : (accept v s).objects = s.objects := rfl
@[simp] theorem accept_headerEnd (v : Word) (s : State) : (accept v s).headerEnd = s.headerEnd := rfl
@[simp] theorem accept_script (v : Word) (s : State) : (accept v s).script = s.script := rfl
@[simp] theorem accept_rdata (v : Word) (s : State) : (accept v s).rdata = s.rdata := rfl
@[simp] theorem accept_draws (v : Word) (s : State) : (accept v s).draws = s.draws := rfl

/-! ### the end of a run (R136) -/

@[simp] theorem endRun_ieDone (s : State) : (endRun s).ieDone = s.ieDone := rfl
@[simp] theorem endRun_ieErr (s : State) : (endRun s).ieErr = s.ieErr := rfl
@[simp] theorem endRun_cmd (s : State) : (endRun s).cmd = s.cmd := rfl
@[simp] theorem endRun_run (s : State) : (endRun s).run = .idle := rfl
@[simp] theorem endRun_done (s : State) : (endRun s).done = true := rfl
@[simp] theorem endRun_err (s : State) : (endRun s).err = s.err := rfl
@[simp] theorem endRun_overrun (s : State) : (endRun s).overrun = s.overrun := rfl
@[simp] theorem endRun_fw (s : State) : (endRun s).fw = s.fw := rfl
@[simp] theorem endRun_ft (s : State) : (endRun s).ft = s.ft := rfl
@[simp] theorem endRun_fc (s : State) : (endRun s).fc = s.fc := rfl
@[simp] theorem endRun_fh (s : State) : (endRun s).fh = s.fh := rfl
@[simp] theorem endRun_fd (s : State) : (endRun s).fd = s.fd := rfl
@[simp] theorem endRun_curOp (s : State) : (endRun s).curOp = s.curOp := rfl
@[simp] theorem endRun_errInfo (s : State) : (endRun s).errInfo = s.errInfo := rfl
@[simp] theorem endRun_total (s : State) : (endRun s).total = s.total := rfl
@[simp] theorem endRun_nsym (s : State) : (endRun s).nsym = s.nsym := rfl
@[simp] theorem endRun_decNsym (s : State) : (endRun s).decNsym = s.decNsym := rfl
@[simp] theorem endRun_payloadStart (s : State) : (endRun s).payloadStart = s.payloadStart := rfl
@[simp] theorem endRun_lastBits (s : State) : (endRun s).lastBits = s.lastBits := rfl
@[simp] theorem endRun_srcPos (s : State) : (endRun s).srcPos = s.srcPos := rfl
@[simp] theorem endRun_snkPos (s : State) : (endRun s).snkPos = s.snkPos := rfl
@[simp] theorem endRun_index (s : State) : (endRun s).index = s.index := rfl
@[simp] theorem endRun_w (s : State) : (endRun s).w = s.w := rfl
@[simp] theorem endRun_pl (s : State) : (endRun s).pl = s.pl := rfl
@[simp] theorem endRun_arena (s : State) : (endRun s).arena = s.arena := rfl
@[simp] theorem endRun_root (s : State) : (endRun s).root = s.root := rfl
@[simp] theorem endRun_ct (s : State) : (endRun s).ct = s.ct := rfl
@[simp] theorem endRun_src (s : State) : (endRun s).src = s.src := rfl
@[simp] theorem endRun_srcNext (s : State) : (endRun s).srcNext = s.srcNext := rfl
@[simp] theorem endRun_snk (s : State) : (endRun s).snk = s.snk := rfl
@[simp] theorem endRun_snkNext (s : State) : (endRun s).snkNext = s.snkNext := rfl
@[simp] theorem endRun_objects (s : State) : (endRun s).objects = s.objects := rfl
@[simp] theorem endRun_headerEnd (s : State) : (endRun s).headerEnd = s.headerEnd := rfl
@[simp] theorem endRun_script (s : State) : (endRun s).script = s.script := rfl
@[simp] theorem endRun_rdata (s : State) : (endRun s).rdata = s.rdata := rfl
@[simp] theorem endRun_draws (s : State) : (endRun s).draws = s.draws := rfl

/-! ### an error recorded (R243) -/

@[simp] theorem recordError_ieDone (e : ErrKind) (s : State) : (recordError e s).ieDone = s.ieDone := rfl
@[simp] theorem recordError_ieErr (e : ErrKind) (s : State) : (recordError e s).ieErr = s.ieErr := rfl
@[simp] theorem recordError_cmd (e : ErrKind) (s : State) : (recordError e s).cmd = s.cmd := rfl
@[simp] theorem recordError_run (e : ErrKind) (s : State) : (recordError e s).run = .idle := rfl
@[simp] theorem recordError_done (e : ErrKind) (s : State) : (recordError e s).done = false := rfl
@[simp] theorem recordError_err (e : ErrKind) (s : State) : (recordError e s).err = true := rfl
@[simp] theorem recordError_overrun (e : ErrKind) (s : State) : (recordError e s).overrun = s.overrun := rfl
@[simp] theorem recordError_fw (e : ErrKind) (s : State) : (recordError e s).fw = s.fw := rfl
@[simp] theorem recordError_ft (e : ErrKind) (s : State) : (recordError e s).ft = s.ft := rfl
@[simp] theorem recordError_fc (e : ErrKind) (s : State) : (recordError e s).fc = s.fc := rfl
@[simp] theorem recordError_fh (e : ErrKind) (s : State) : (recordError e s).fh = s.fh := rfl
@[simp] theorem recordError_fd (e : ErrKind) (s : State) : (recordError e s).fd = s.fd := rfl
@[simp] theorem recordError_curOp (e : ErrKind) (s : State) : (recordError e s).curOp = s.curOp := rfl
@[simp] theorem recordError_errInfo (e : ErrKind) (s : State) : (recordError e s).errInfo = errWord s.curOp e := rfl
@[simp] theorem recordError_total (e : ErrKind) (s : State) : (recordError e s).total = s.total := rfl
@[simp] theorem recordError_nsym (e : ErrKind) (s : State) : (recordError e s).nsym = s.nsym := rfl
@[simp] theorem recordError_decNsym (e : ErrKind) (s : State) : (recordError e s).decNsym = s.decNsym := rfl
@[simp] theorem recordError_payloadStart (e : ErrKind) (s : State) : (recordError e s).payloadStart = s.payloadStart := rfl
@[simp] theorem recordError_lastBits (e : ErrKind) (s : State) : (recordError e s).lastBits = s.lastBits := rfl
@[simp] theorem recordError_srcPos (e : ErrKind) (s : State) : (recordError e s).srcPos = s.srcPos := rfl
@[simp] theorem recordError_snkPos (e : ErrKind) (s : State) : (recordError e s).snkPos = s.snkPos := rfl
@[simp] theorem recordError_index (e : ErrKind) (s : State) : (recordError e s).index = s.index := rfl
@[simp] theorem recordError_w (e : ErrKind) (s : State) : (recordError e s).w = s.w := rfl
@[simp] theorem recordError_pl (e : ErrKind) (s : State) : (recordError e s).pl = s.pl := rfl
@[simp] theorem recordError_arena (e : ErrKind) (s : State) : (recordError e s).arena = s.arena := rfl
@[simp] theorem recordError_root (e : ErrKind) (s : State) : (recordError e s).root = s.root := rfl
@[simp] theorem recordError_ct (e : ErrKind) (s : State) : (recordError e s).ct = s.ct := rfl
@[simp] theorem recordError_src (e : ErrKind) (s : State) : (recordError e s).src = s.src := rfl
@[simp] theorem recordError_srcNext (e : ErrKind) (s : State) : (recordError e s).srcNext = s.srcNext := rfl
@[simp] theorem recordError_snk (e : ErrKind) (s : State) : (recordError e s).snk = s.snk := rfl
@[simp] theorem recordError_snkNext (e : ErrKind) (s : State) : (recordError e s).snkNext = s.snkNext := rfl
@[simp] theorem recordError_objects (e : ErrKind) (s : State) : (recordError e s).objects = s.objects := rfl
@[simp] theorem recordError_headerEnd (e : ErrKind) (s : State) : (recordError e s).headerEnd = s.headerEnd := rfl
@[simp] theorem recordError_script (e : ErrKind) (s : State) : (recordError e s).script = s.script := rfl
@[simp] theorem recordError_rdata (e : ErrKind) (s : State) : (recordError e s).rdata = s.rdata := rfl
@[simp] theorem recordError_draws (e : ErrKind) (s : State) : (recordError e s).draws = s.draws := rfl

/-! ### a write to STATUS (R33) -/

@[simp] theorem clearStatus_ieDone (v : Word) (s : State) : (clearStatus v s).ieDone = s.ieDone := rfl
@[simp] theorem clearStatus_ieErr (v : Word) (s : State) : (clearStatus v s).ieErr = s.ieErr := rfl
@[simp] theorem clearStatus_cmd (v : Word) (s : State) : (clearStatus v s).cmd = s.cmd := rfl
@[simp] theorem clearStatus_run (v : Word) (s : State) : (clearStatus v s).run = s.run := rfl
@[simp] theorem clearStatus_done (v : Word) (s : State) : (clearStatus v s).done = (s.done && !v.getLsbD 1) := rfl
@[simp] theorem clearStatus_err (v : Word) (s : State) : (clearStatus v s).err = (s.err && !v.getLsbD 2) := rfl
@[simp] theorem clearStatus_overrun (v : Word) (s : State) : (clearStatus v s).overrun = (s.overrun && !v.getLsbD 3) := rfl
@[simp] theorem clearStatus_fw (v : Word) (s : State) : (clearStatus v s).fw = s.fw := rfl
@[simp] theorem clearStatus_ft (v : Word) (s : State) : (clearStatus v s).ft = s.ft := rfl
@[simp] theorem clearStatus_fc (v : Word) (s : State) : (clearStatus v s).fc = s.fc := rfl
@[simp] theorem clearStatus_fh (v : Word) (s : State) : (clearStatus v s).fh = s.fh := rfl
@[simp] theorem clearStatus_fd (v : Word) (s : State) : (clearStatus v s).fd = s.fd := rfl
@[simp] theorem clearStatus_curOp (v : Word) (s : State) : (clearStatus v s).curOp = s.curOp := rfl
@[simp] theorem clearStatus_errInfo (v : Word) (s : State) : (clearStatus v s).errInfo = s.errInfo := rfl
@[simp] theorem clearStatus_total (v : Word) (s : State) : (clearStatus v s).total = s.total := rfl
@[simp] theorem clearStatus_nsym (v : Word) (s : State) : (clearStatus v s).nsym = s.nsym := rfl
@[simp] theorem clearStatus_decNsym (v : Word) (s : State) : (clearStatus v s).decNsym = s.decNsym := rfl
@[simp] theorem clearStatus_payloadStart (v : Word) (s : State) : (clearStatus v s).payloadStart = s.payloadStart := rfl
@[simp] theorem clearStatus_lastBits (v : Word) (s : State) : (clearStatus v s).lastBits = s.lastBits := rfl
@[simp] theorem clearStatus_srcPos (v : Word) (s : State) : (clearStatus v s).srcPos = s.srcPos := rfl
@[simp] theorem clearStatus_snkPos (v : Word) (s : State) : (clearStatus v s).snkPos = s.snkPos := rfl
@[simp] theorem clearStatus_index (v : Word) (s : State) : (clearStatus v s).index = s.index := rfl
@[simp] theorem clearStatus_w (v : Word) (s : State) : (clearStatus v s).w = s.w := rfl
@[simp] theorem clearStatus_pl (v : Word) (s : State) : (clearStatus v s).pl = s.pl := rfl
@[simp] theorem clearStatus_arena (v : Word) (s : State) : (clearStatus v s).arena = s.arena := rfl
@[simp] theorem clearStatus_root (v : Word) (s : State) : (clearStatus v s).root = s.root := rfl
@[simp] theorem clearStatus_ct (v : Word) (s : State) : (clearStatus v s).ct = s.ct := rfl
@[simp] theorem clearStatus_src (v : Word) (s : State) : (clearStatus v s).src = s.src := rfl
@[simp] theorem clearStatus_srcNext (v : Word) (s : State) : (clearStatus v s).srcNext = s.srcNext := rfl
@[simp] theorem clearStatus_snk (v : Word) (s : State) : (clearStatus v s).snk = s.snk := rfl
@[simp] theorem clearStatus_snkNext (v : Word) (s : State) : (clearStatus v s).snkNext = s.snkNext := rfl
@[simp] theorem clearStatus_objects (v : Word) (s : State) : (clearStatus v s).objects = s.objects := rfl
@[simp] theorem clearStatus_headerEnd (v : Word) (s : State) : (clearStatus v s).headerEnd = s.headerEnd := rfl
@[simp] theorem clearStatus_script (v : Word) (s : State) : (clearStatus v s).script = s.script := rfl
@[simp] theorem clearStatus_rdata (v : Word) (s : State) : (clearStatus v s).rdata = s.rdata := rfl
@[simp] theorem clearStatus_draws (v : Word) (s : State) : (clearStatus v s).draws = s.draws := rfl

/-! ### a word placed for the next step (log entry 3) -/

@[simp] theorem placeWord_ieDone (v : Word) (s : State) : (placeWord v s).ieDone = s.ieDone := rfl
@[simp] theorem placeWord_ieErr (v : Word) (s : State) : (placeWord v s).ieErr = s.ieErr := rfl
@[simp] theorem placeWord_cmd (v : Word) (s : State) : (placeWord v s).cmd = v := rfl
@[simp] theorem placeWord_run (v : Word) (s : State) : (placeWord v s).run = .accepted := rfl
@[simp] theorem placeWord_done (v : Word) (s : State) : (placeWord v s).done = false := rfl
@[simp] theorem placeWord_err (v : Word) (s : State) : (placeWord v s).err = false := rfl
@[simp] theorem placeWord_overrun (v : Word) (s : State) : (placeWord v s).overrun = s.overrun := rfl
@[simp] theorem placeWord_fw (v : Word) (s : State) : (placeWord v s).fw = s.fw := rfl
@[simp] theorem placeWord_ft (v : Word) (s : State) : (placeWord v s).ft = s.ft := rfl
@[simp] theorem placeWord_fc (v : Word) (s : State) : (placeWord v s).fc = s.fc := rfl
@[simp] theorem placeWord_fh (v : Word) (s : State) : (placeWord v s).fh = s.fh := rfl
@[simp] theorem placeWord_fd (v : Word) (s : State) : (placeWord v s).fd = s.fd := rfl
@[simp] theorem placeWord_curOp (v : Word) (s : State) : (placeWord v s).curOp = opField v := rfl
@[simp] theorem placeWord_errInfo (v : Word) (s : State) : (placeWord v s).errInfo = 0 := rfl
@[simp] theorem placeWord_total (v : Word) (s : State) : (placeWord v s).total = s.total := rfl
@[simp] theorem placeWord_nsym (v : Word) (s : State) : (placeWord v s).nsym = s.nsym := rfl
@[simp] theorem placeWord_decNsym (v : Word) (s : State) : (placeWord v s).decNsym = s.decNsym := rfl
@[simp] theorem placeWord_payloadStart (v : Word) (s : State) : (placeWord v s).payloadStart = s.payloadStart := rfl
@[simp] theorem placeWord_lastBits (v : Word) (s : State) : (placeWord v s).lastBits = s.lastBits := rfl
@[simp] theorem placeWord_srcPos (v : Word) (s : State) : (placeWord v s).srcPos = s.srcPos := rfl
@[simp] theorem placeWord_snkPos (v : Word) (s : State) : (placeWord v s).snkPos = s.snkPos := rfl
@[simp] theorem placeWord_index (v : Word) (s : State) : (placeWord v s).index = s.index := rfl
@[simp] theorem placeWord_w (v : Word) (s : State) : (placeWord v s).w = s.w := rfl
@[simp] theorem placeWord_pl (v : Word) (s : State) : (placeWord v s).pl = s.pl := rfl
@[simp] theorem placeWord_arena (v : Word) (s : State) : (placeWord v s).arena = s.arena := rfl
@[simp] theorem placeWord_root (v : Word) (s : State) : (placeWord v s).root = s.root := rfl
@[simp] theorem placeWord_ct (v : Word) (s : State) : (placeWord v s).ct = s.ct := rfl
@[simp] theorem placeWord_src (v : Word) (s : State) : (placeWord v s).src = s.src := rfl
@[simp] theorem placeWord_srcNext (v : Word) (s : State) : (placeWord v s).srcNext = s.srcNext := rfl
@[simp] theorem placeWord_snk (v : Word) (s : State) : (placeWord v s).snk = s.snk := rfl
@[simp] theorem placeWord_snkNext (v : Word) (s : State) : (placeWord v s).snkNext = s.snkNext := rfl
@[simp] theorem placeWord_objects (v : Word) (s : State) : (placeWord v s).objects = s.objects := rfl
@[simp] theorem placeWord_headerEnd (v : Word) (s : State) : (placeWord v s).headerEnd = s.headerEnd := rfl
@[simp] theorem placeWord_script (v : Word) (s : State) : (placeWord v s).script = .engine :: s.script := rfl
@[simp] theorem placeWord_rdata (v : Word) (s : State) : (placeWord v s).rdata = s.rdata := rfl
@[simp] theorem placeWord_draws (v : Word) (s : State) : (placeWord v s).draws = s.draws := rfl

/-! ### a reset (R271) -/

@[simp] theorem applyReset_ieDone (s : State) : (applyReset s).ieDone = State.reset.ieDone := rfl
@[simp] theorem applyReset_ieErr (s : State) : (applyReset s).ieErr = State.reset.ieErr := rfl
@[simp] theorem applyReset_cmd (s : State) : (applyReset s).cmd = State.reset.cmd := rfl
@[simp] theorem applyReset_run (s : State) : (applyReset s).run = State.reset.run := rfl
@[simp] theorem applyReset_done (s : State) : (applyReset s).done = State.reset.done := rfl
@[simp] theorem applyReset_err (s : State) : (applyReset s).err = State.reset.err := rfl
@[simp] theorem applyReset_overrun (s : State) : (applyReset s).overrun = State.reset.overrun := rfl
@[simp] theorem applyReset_fw (s : State) : (applyReset s).fw = State.reset.fw := rfl
@[simp] theorem applyReset_ft (s : State) : (applyReset s).ft = State.reset.ft := rfl
@[simp] theorem applyReset_fc (s : State) : (applyReset s).fc = State.reset.fc := rfl
@[simp] theorem applyReset_fh (s : State) : (applyReset s).fh = State.reset.fh := rfl
@[simp] theorem applyReset_fd (s : State) : (applyReset s).fd = State.reset.fd := rfl
@[simp] theorem applyReset_curOp (s : State) : (applyReset s).curOp = State.reset.curOp := rfl
@[simp] theorem applyReset_errInfo (s : State) : (applyReset s).errInfo = State.reset.errInfo := rfl
@[simp] theorem applyReset_total (s : State) : (applyReset s).total = State.reset.total := rfl
@[simp] theorem applyReset_nsym (s : State) : (applyReset s).nsym = State.reset.nsym := rfl
@[simp] theorem applyReset_decNsym (s : State) : (applyReset s).decNsym = State.reset.decNsym := rfl
@[simp] theorem applyReset_payloadStart (s : State) : (applyReset s).payloadStart = State.reset.payloadStart := rfl
@[simp] theorem applyReset_lastBits (s : State) : (applyReset s).lastBits = State.reset.lastBits := rfl
@[simp] theorem applyReset_srcPos (s : State) : (applyReset s).srcPos = State.reset.srcPos := rfl
@[simp] theorem applyReset_snkPos (s : State) : (applyReset s).snkPos = State.reset.snkPos := rfl
@[simp] theorem applyReset_index (s : State) : (applyReset s).index = State.reset.index := rfl
@[simp] theorem applyReset_w (s : State) : (applyReset s).w = State.reset.w := rfl
@[simp] theorem applyReset_pl (s : State) : (applyReset s).pl = State.reset.pl := rfl
@[simp] theorem applyReset_arena (s : State) : (applyReset s).arena = State.reset.arena := rfl
@[simp] theorem applyReset_root (s : State) : (applyReset s).root = State.reset.root := rfl
@[simp] theorem applyReset_ct (s : State) : (applyReset s).ct = State.reset.ct := rfl
@[simp] theorem applyReset_src (s : State) : (applyReset s).src = State.reset.src := rfl
@[simp] theorem applyReset_srcNext (s : State) : (applyReset s).srcNext = s.srcNext := rfl
@[simp] theorem applyReset_snk (s : State) : (applyReset s).snk = State.reset.snk := rfl
@[simp] theorem applyReset_snkNext (s : State) : (applyReset s).snkNext = s.snkNext := rfl
@[simp] theorem applyReset_objects (s : State) : (applyReset s).objects = s.objects := rfl
@[simp] theorem applyReset_headerEnd (s : State) : (applyReset s).headerEnd = State.reset.headerEnd := rfl
@[simp] theorem applyReset_script (s : State) : (applyReset s).script = s.script := rfl
@[simp] theorem applyReset_rdata (s : State) : (applyReset s).rdata = s.rdata := rfl
@[simp] theorem applyReset_draws (s : State) : (applyReset s).draws = s.draws := rfl

/-! ### invalidation (R135) -/

@[simp] theorem invalidate_ieDone (st : Stage) (s : State) : (invalidate st s).ieDone = s.ieDone := by cases st <;> rfl
@[simp] theorem invalidate_ieErr (st : Stage) (s : State) : (invalidate st s).ieErr = s.ieErr := by cases st <;> rfl
@[simp] theorem invalidate_cmd (st : Stage) (s : State) : (invalidate st s).cmd = s.cmd := by cases st <;> rfl
@[simp] theorem invalidate_run (st : Stage) (s : State) : (invalidate st s).run = s.run := by cases st <;> rfl
@[simp] theorem invalidate_done (st : Stage) (s : State) : (invalidate st s).done = s.done := by cases st <;> rfl
@[simp] theorem invalidate_err (st : Stage) (s : State) : (invalidate st s).err = s.err := by cases st <;> rfl
@[simp] theorem invalidate_overrun (st : Stage) (s : State) : (invalidate st s).overrun = s.overrun := by cases st <;> rfl
@[simp] theorem invalidate_curOp (st : Stage) (s : State) : (invalidate st s).curOp = s.curOp := by cases st <;> rfl
@[simp] theorem invalidate_errInfo (st : Stage) (s : State) : (invalidate st s).errInfo = s.errInfo := by cases st <;> rfl
@[simp] theorem invalidate_total (st : Stage) (s : State) : (invalidate st s).total = s.total := by cases st <;> rfl
@[simp] theorem invalidate_nsym (st : Stage) (s : State) : (invalidate st s).nsym = s.nsym := by cases st <;> rfl
@[simp] theorem invalidate_decNsym (st : Stage) (s : State) : (invalidate st s).decNsym = s.decNsym := by cases st <;> rfl
@[simp] theorem invalidate_payloadStart (st : Stage) (s : State) : (invalidate st s).payloadStart = s.payloadStart := by cases st <;> rfl
@[simp] theorem invalidate_lastBits (st : Stage) (s : State) : (invalidate st s).lastBits = s.lastBits := by cases st <;> rfl
@[simp] theorem invalidate_srcPos (st : Stage) (s : State) : (invalidate st s).srcPos = s.srcPos := by cases st <;> rfl
@[simp] theorem invalidate_snkPos (st : Stage) (s : State) : (invalidate st s).snkPos = s.snkPos := by cases st <;> rfl
@[simp] theorem invalidate_index (st : Stage) (s : State) : (invalidate st s).index = s.index := by cases st <;> rfl
@[simp] theorem invalidate_w (st : Stage) (s : State) : (invalidate st s).w = s.w := by cases st <;> rfl
@[simp] theorem invalidate_pl (st : Stage) (s : State) : (invalidate st s).pl = s.pl := by cases st <;> rfl
@[simp] theorem invalidate_arena (st : Stage) (s : State) : (invalidate st s).arena = s.arena := by cases st <;> rfl
@[simp] theorem invalidate_root (st : Stage) (s : State) : (invalidate st s).root = s.root := by cases st <;> rfl
@[simp] theorem invalidate_ct (st : Stage) (s : State) : (invalidate st s).ct = s.ct := by cases st <;> rfl
@[simp] theorem invalidate_src (st : Stage) (s : State) : (invalidate st s).src = s.src := by cases st <;> rfl
@[simp] theorem invalidate_srcNext (st : Stage) (s : State) : (invalidate st s).srcNext = s.srcNext := by cases st <;> rfl
@[simp] theorem invalidate_snk (st : Stage) (s : State) : (invalidate st s).snk = s.snk := by cases st <;> rfl
@[simp] theorem invalidate_snkNext (st : Stage) (s : State) : (invalidate st s).snkNext = s.snkNext := by cases st <;> rfl
@[simp] theorem invalidate_objects (st : Stage) (s : State) : (invalidate st s).objects = s.objects := by cases st <;> rfl
@[simp] theorem invalidate_headerEnd (st : Stage) (s : State) : (invalidate st s).headerEnd = s.headerEnd := by cases st <;> rfl
@[simp] theorem invalidate_script (st : Stage) (s : State) : (invalidate st s).script = s.script := by cases st <;> rfl
@[simp] theorem invalidate_rdata (st : Stage) (s : State) : (invalidate st s).rdata = s.rdata := by cases st <;> rfl
@[simp] theorem invalidate_draws (st : Stage) (s : State) : (invalidate st s).draws = s.draws := by cases st <;> rfl

/-! ### the flags set on success (R135) -/

@[simp] theorem setOnSuccess_ieDone (st : Stage) (s : State) : (setOnSuccess st s).ieDone = s.ieDone := by cases st <;> rfl
@[simp] theorem setOnSuccess_ieErr (st : Stage) (s : State) : (setOnSuccess st s).ieErr = s.ieErr := by cases st <;> rfl
@[simp] theorem setOnSuccess_cmd (st : Stage) (s : State) : (setOnSuccess st s).cmd = s.cmd := by cases st <;> rfl
@[simp] theorem setOnSuccess_run (st : Stage) (s : State) : (setOnSuccess st s).run = s.run := by cases st <;> rfl
@[simp] theorem setOnSuccess_done (st : Stage) (s : State) : (setOnSuccess st s).done = s.done := by cases st <;> rfl
@[simp] theorem setOnSuccess_err (st : Stage) (s : State) : (setOnSuccess st s).err = s.err := by cases st <;> rfl
@[simp] theorem setOnSuccess_overrun (st : Stage) (s : State) : (setOnSuccess st s).overrun = s.overrun := by cases st <;> rfl
@[simp] theorem setOnSuccess_curOp (st : Stage) (s : State) : (setOnSuccess st s).curOp = s.curOp := by cases st <;> rfl
@[simp] theorem setOnSuccess_errInfo (st : Stage) (s : State) : (setOnSuccess st s).errInfo = s.errInfo := by cases st <;> rfl
@[simp] theorem setOnSuccess_total (st : Stage) (s : State) : (setOnSuccess st s).total = s.total := by cases st <;> rfl
@[simp] theorem setOnSuccess_nsym (st : Stage) (s : State) : (setOnSuccess st s).nsym = s.nsym := by cases st <;> rfl
@[simp] theorem setOnSuccess_decNsym (st : Stage) (s : State) : (setOnSuccess st s).decNsym = s.decNsym := by cases st <;> rfl
@[simp] theorem setOnSuccess_payloadStart (st : Stage) (s : State) : (setOnSuccess st s).payloadStart = s.payloadStart := by cases st <;> rfl
@[simp] theorem setOnSuccess_lastBits (st : Stage) (s : State) : (setOnSuccess st s).lastBits = s.lastBits := by cases st <;> rfl
@[simp] theorem setOnSuccess_srcPos (st : Stage) (s : State) : (setOnSuccess st s).srcPos = s.srcPos := by cases st <;> rfl
@[simp] theorem setOnSuccess_snkPos (st : Stage) (s : State) : (setOnSuccess st s).snkPos = s.snkPos := by cases st <;> rfl
@[simp] theorem setOnSuccess_index (st : Stage) (s : State) : (setOnSuccess st s).index = s.index := by cases st <;> rfl
@[simp] theorem setOnSuccess_w (st : Stage) (s : State) : (setOnSuccess st s).w = s.w := by cases st <;> rfl
@[simp] theorem setOnSuccess_pl (st : Stage) (s : State) : (setOnSuccess st s).pl = s.pl := by cases st <;> rfl
@[simp] theorem setOnSuccess_arena (st : Stage) (s : State) : (setOnSuccess st s).arena = s.arena := by cases st <;> rfl
@[simp] theorem setOnSuccess_root (st : Stage) (s : State) : (setOnSuccess st s).root = s.root := by cases st <;> rfl
@[simp] theorem setOnSuccess_ct (st : Stage) (s : State) : (setOnSuccess st s).ct = s.ct := by cases st <;> rfl
@[simp] theorem setOnSuccess_src (st : Stage) (s : State) : (setOnSuccess st s).src = s.src := by cases st <;> rfl
@[simp] theorem setOnSuccess_srcNext (st : Stage) (s : State) : (setOnSuccess st s).srcNext = s.srcNext := by cases st <;> rfl
@[simp] theorem setOnSuccess_snk (st : Stage) (s : State) : (setOnSuccess st s).snk = s.snk := by cases st <;> rfl
@[simp] theorem setOnSuccess_snkNext (st : Stage) (s : State) : (setOnSuccess st s).snkNext = s.snkNext := by cases st <;> rfl
@[simp] theorem setOnSuccess_objects (st : Stage) (s : State) : (setOnSuccess st s).objects = s.objects := by cases st <;> rfl
@[simp] theorem setOnSuccess_headerEnd (st : Stage) (s : State) : (setOnSuccess st s).headerEnd = s.headerEnd := by cases st <;> rfl
@[simp] theorem setOnSuccess_script (st : Stage) (s : State) : (setOnSuccess st s).script = s.script := by cases st <;> rfl
@[simp] theorem setOnSuccess_rdata (st : Stage) (s : State) : (setOnSuccess st s).rdata = s.rdata := by cases st <;> rfl
@[simp] theorem setOnSuccess_draws (st : Stage) (s : State) : (setOnSuccess st s).draws = s.draws := by cases st <;> rfl

/-! ### the flags cleared at the end (R135) -/

@[simp] theorem clearAtEnd_ieDone (st : Stage) (s : State) : (clearAtEnd st s).ieDone = s.ieDone := by cases st <;> rfl
@[simp] theorem clearAtEnd_ieErr (st : Stage) (s : State) : (clearAtEnd st s).ieErr = s.ieErr := by cases st <;> rfl
@[simp] theorem clearAtEnd_cmd (st : Stage) (s : State) : (clearAtEnd st s).cmd = s.cmd := by cases st <;> rfl
@[simp] theorem clearAtEnd_run (st : Stage) (s : State) : (clearAtEnd st s).run = s.run := by cases st <;> rfl
@[simp] theorem clearAtEnd_done (st : Stage) (s : State) : (clearAtEnd st s).done = s.done := by cases st <;> rfl
@[simp] theorem clearAtEnd_err (st : Stage) (s : State) : (clearAtEnd st s).err = s.err := by cases st <;> rfl
@[simp] theorem clearAtEnd_overrun (st : Stage) (s : State) : (clearAtEnd st s).overrun = s.overrun := by cases st <;> rfl
@[simp] theorem clearAtEnd_fw (st : Stage) (s : State) : (clearAtEnd st s).fw = s.fw := by cases st <;> rfl
@[simp] theorem clearAtEnd_ft (st : Stage) (s : State) : (clearAtEnd st s).ft = s.ft := by cases st <;> rfl
@[simp] theorem clearAtEnd_fc (st : Stage) (s : State) : (clearAtEnd st s).fc = s.fc := by cases st <;> rfl
@[simp] theorem clearAtEnd_curOp (st : Stage) (s : State) : (clearAtEnd st s).curOp = s.curOp := by cases st <;> rfl
@[simp] theorem clearAtEnd_errInfo (st : Stage) (s : State) : (clearAtEnd st s).errInfo = s.errInfo := by cases st <;> rfl
@[simp] theorem clearAtEnd_total (st : Stage) (s : State) : (clearAtEnd st s).total = s.total := by cases st <;> rfl
@[simp] theorem clearAtEnd_nsym (st : Stage) (s : State) : (clearAtEnd st s).nsym = s.nsym := by cases st <;> rfl
@[simp] theorem clearAtEnd_decNsym (st : Stage) (s : State) : (clearAtEnd st s).decNsym = s.decNsym := by cases st <;> rfl
@[simp] theorem clearAtEnd_payloadStart (st : Stage) (s : State) : (clearAtEnd st s).payloadStart = s.payloadStart := by cases st <;> rfl
@[simp] theorem clearAtEnd_lastBits (st : Stage) (s : State) : (clearAtEnd st s).lastBits = s.lastBits := by cases st <;> rfl
@[simp] theorem clearAtEnd_srcPos (st : Stage) (s : State) : (clearAtEnd st s).srcPos = s.srcPos := by cases st <;> rfl
@[simp] theorem clearAtEnd_snkPos (st : Stage) (s : State) : (clearAtEnd st s).snkPos = s.snkPos := by cases st <;> rfl
@[simp] theorem clearAtEnd_index (st : Stage) (s : State) : (clearAtEnd st s).index = s.index := by cases st <;> rfl
@[simp] theorem clearAtEnd_w (st : Stage) (s : State) : (clearAtEnd st s).w = s.w := by cases st <;> rfl
@[simp] theorem clearAtEnd_pl (st : Stage) (s : State) : (clearAtEnd st s).pl = s.pl := by cases st <;> rfl
@[simp] theorem clearAtEnd_arena (st : Stage) (s : State) : (clearAtEnd st s).arena = s.arena := by cases st <;> rfl
@[simp] theorem clearAtEnd_root (st : Stage) (s : State) : (clearAtEnd st s).root = s.root := by cases st <;> rfl
@[simp] theorem clearAtEnd_ct (st : Stage) (s : State) : (clearAtEnd st s).ct = s.ct := by cases st <;> rfl
@[simp] theorem clearAtEnd_src (st : Stage) (s : State) : (clearAtEnd st s).src = s.src := by cases st <;> rfl
@[simp] theorem clearAtEnd_srcNext (st : Stage) (s : State) : (clearAtEnd st s).srcNext = s.srcNext := by cases st <;> rfl
@[simp] theorem clearAtEnd_snk (st : Stage) (s : State) : (clearAtEnd st s).snk = s.snk := by cases st <;> rfl
@[simp] theorem clearAtEnd_snkNext (st : Stage) (s : State) : (clearAtEnd st s).snkNext = s.snkNext := by cases st <;> rfl
@[simp] theorem clearAtEnd_objects (st : Stage) (s : State) : (clearAtEnd st s).objects = s.objects := by cases st <;> rfl
@[simp] theorem clearAtEnd_headerEnd (st : Stage) (s : State) : (clearAtEnd st s).headerEnd = s.headerEnd := by cases st <;> rfl
@[simp] theorem clearAtEnd_script (st : Stage) (s : State) : (clearAtEnd st s).script = s.script := by cases st <;> rfl
@[simp] theorem clearAtEnd_rdata (st : Stage) (s : State) : (clearAtEnd st s).rdata = s.rdata := by cases st <;> rfl
@[simp] theorem clearAtEnd_draws (st : Stage) (s : State) : (clearAtEnd st s).draws = s.draws := by cases st <;> rfl

/-! ### the flag columns of a finish (R136) -/

@[simp] theorem finishStage_ieDone (st : Stage) (s : State) : (finishStage st s).ieDone = s.ieDone := by cases st <;> rfl
@[simp] theorem finishStage_ieErr (st : Stage) (s : State) : (finishStage st s).ieErr = s.ieErr := by cases st <;> rfl
@[simp] theorem finishStage_cmd (st : Stage) (s : State) : (finishStage st s).cmd = s.cmd := by cases st <;> rfl
@[simp] theorem finishStage_run (st : Stage) (s : State) : (finishStage st s).run = s.run := by cases st <;> rfl
@[simp] theorem finishStage_done (st : Stage) (s : State) : (finishStage st s).done = s.done := by cases st <;> rfl
@[simp] theorem finishStage_err (st : Stage) (s : State) : (finishStage st s).err = s.err := by cases st <;> rfl
@[simp] theorem finishStage_overrun (st : Stage) (s : State) : (finishStage st s).overrun = s.overrun := by cases st <;> rfl
@[simp] theorem finishStage_curOp (st : Stage) (s : State) : (finishStage st s).curOp = s.curOp := by cases st <;> rfl
@[simp] theorem finishStage_errInfo (st : Stage) (s : State) : (finishStage st s).errInfo = s.errInfo := by cases st <;> rfl
@[simp] theorem finishStage_total (st : Stage) (s : State) : (finishStage st s).total = s.total := by cases st <;> rfl
@[simp] theorem finishStage_nsym (st : Stage) (s : State) : (finishStage st s).nsym = s.nsym := by cases st <;> rfl
@[simp] theorem finishStage_decNsym (st : Stage) (s : State) : (finishStage st s).decNsym = s.decNsym := by cases st <;> rfl
@[simp] theorem finishStage_payloadStart (st : Stage) (s : State) : (finishStage st s).payloadStart = s.payloadStart := by cases st <;> rfl
@[simp] theorem finishStage_lastBits (st : Stage) (s : State) : (finishStage st s).lastBits = s.lastBits := by cases st <;> rfl
@[simp] theorem finishStage_srcPos (st : Stage) (s : State) : (finishStage st s).srcPos = s.srcPos := by cases st <;> rfl
@[simp] theorem finishStage_snkPos (st : Stage) (s : State) : (finishStage st s).snkPos = s.snkPos := by cases st <;> rfl
@[simp] theorem finishStage_index (st : Stage) (s : State) : (finishStage st s).index = s.index := by cases st <;> rfl
@[simp] theorem finishStage_w (st : Stage) (s : State) : (finishStage st s).w = s.w := by cases st <;> rfl
@[simp] theorem finishStage_pl (st : Stage) (s : State) : (finishStage st s).pl = s.pl := by cases st <;> rfl
@[simp] theorem finishStage_arena (st : Stage) (s : State) : (finishStage st s).arena = s.arena := by cases st <;> rfl
@[simp] theorem finishStage_root (st : Stage) (s : State) : (finishStage st s).root = s.root := by cases st <;> rfl
@[simp] theorem finishStage_ct (st : Stage) (s : State) : (finishStage st s).ct = s.ct := by cases st <;> rfl
@[simp] theorem finishStage_src (st : Stage) (s : State) : (finishStage st s).src = s.src := by cases st <;> rfl
@[simp] theorem finishStage_srcNext (st : Stage) (s : State) : (finishStage st s).srcNext = s.srcNext := by cases st <;> rfl
@[simp] theorem finishStage_snk (st : Stage) (s : State) : (finishStage st s).snk = s.snk := by cases st <;> rfl
@[simp] theorem finishStage_snkNext (st : Stage) (s : State) : (finishStage st s).snkNext = s.snkNext := by cases st <;> rfl
@[simp] theorem finishStage_objects (st : Stage) (s : State) : (finishStage st s).objects = s.objects := by cases st <;> rfl
@[simp] theorem finishStage_headerEnd (st : Stage) (s : State) : (finishStage st s).headerEnd = s.headerEnd := by cases st <;> rfl
@[simp] theorem finishStage_script (st : Stage) (s : State) : (finishStage st s).script = s.script := by cases st <;> rfl
@[simp] theorem finishStage_rdata (st : Stage) (s : State) : (finishStage st s).rdata = s.rdata := by cases st <;> rfl
@[simp] theorem finishStage_draws (st : Stage) (s : State) : (finishStage st s).draws = s.draws := by cases st <;> rfl

/-! ### a stage started (R132) -/

/-- The state in which a stage's body starts: CUR_OP written, its flags invalidated. -/
def started (st : Stage) (s : State) : State := invalidate st { s with curOp := st.op }

@[simp] theorem started_ieDone (st : Stage) (s : State) : (started st s).ieDone = s.ieDone := by cases st <;> rfl
@[simp] theorem started_ieErr (st : Stage) (s : State) : (started st s).ieErr = s.ieErr := by cases st <;> rfl
@[simp] theorem started_cmd (st : Stage) (s : State) : (started st s).cmd = s.cmd := by cases st <;> rfl
@[simp] theorem started_run (st : Stage) (s : State) : (started st s).run = s.run := by cases st <;> rfl
@[simp] theorem started_done (st : Stage) (s : State) : (started st s).done = s.done := by cases st <;> rfl
@[simp] theorem started_err (st : Stage) (s : State) : (started st s).err = s.err := by cases st <;> rfl
@[simp] theorem started_overrun (st : Stage) (s : State) : (started st s).overrun = s.overrun := by cases st <;> rfl
@[simp] theorem started_curOp (st : Stage) (s : State) : (started st s).curOp = st.op := by cases st <;> rfl
@[simp] theorem started_errInfo (st : Stage) (s : State) : (started st s).errInfo = s.errInfo := by cases st <;> rfl
@[simp] theorem started_total (st : Stage) (s : State) : (started st s).total = s.total := by cases st <;> rfl
@[simp] theorem started_nsym (st : Stage) (s : State) : (started st s).nsym = s.nsym := by cases st <;> rfl
@[simp] theorem started_decNsym (st : Stage) (s : State) : (started st s).decNsym = s.decNsym := by cases st <;> rfl
@[simp] theorem started_payloadStart (st : Stage) (s : State) : (started st s).payloadStart = s.payloadStart := by cases st <;> rfl
@[simp] theorem started_lastBits (st : Stage) (s : State) : (started st s).lastBits = s.lastBits := by cases st <;> rfl
@[simp] theorem started_srcPos (st : Stage) (s : State) : (started st s).srcPos = s.srcPos := by cases st <;> rfl
@[simp] theorem started_snkPos (st : Stage) (s : State) : (started st s).snkPos = s.snkPos := by cases st <;> rfl
@[simp] theorem started_index (st : Stage) (s : State) : (started st s).index = s.index := by cases st <;> rfl
@[simp] theorem started_w (st : Stage) (s : State) : (started st s).w = s.w := by cases st <;> rfl
@[simp] theorem started_pl (st : Stage) (s : State) : (started st s).pl = s.pl := by cases st <;> rfl
@[simp] theorem started_arena (st : Stage) (s : State) : (started st s).arena = s.arena := by cases st <;> rfl
@[simp] theorem started_root (st : Stage) (s : State) : (started st s).root = s.root := by cases st <;> rfl
@[simp] theorem started_ct (st : Stage) (s : State) : (started st s).ct = s.ct := by cases st <;> rfl
@[simp] theorem started_src (st : Stage) (s : State) : (started st s).src = s.src := by cases st <;> rfl
@[simp] theorem started_srcNext (st : Stage) (s : State) : (started st s).srcNext = s.srcNext := by cases st <;> rfl
@[simp] theorem started_snk (st : Stage) (s : State) : (started st s).snk = s.snk := by cases st <;> rfl
@[simp] theorem started_snkNext (st : Stage) (s : State) : (started st s).snkNext = s.snkNext := by cases st <;> rfl
@[simp] theorem started_objects (st : Stage) (s : State) : (started st s).objects = s.objects := by cases st <;> rfl
@[simp] theorem started_headerEnd (st : Stage) (s : State) : (started st s).headerEnd = s.headerEnd := by cases st <;> rfl
@[simp] theorem started_script (st : Stage) (s : State) : (started st s).script = s.script := by cases st <;> rfl
@[simp] theorem started_rdata (st : Stage) (s : State) : (started st s).rdata = s.rdata := by cases st <;> rfl
@[simp] theorem started_draws (st : Stage) (s : State) : (started st s).draws = s.draws := by cases st <;> rfl

/-! ### a raise (R243) -/

@[simp] theorem raiseError_ieDone (st : Stage) (e : ErrKind) (s : State) :
    (raiseError st e s).ieDone = s.ieDone := by cases st <;> rfl
@[simp] theorem raiseError_ieErr (st : Stage) (e : ErrKind) (s : State) :
    (raiseError st e s).ieErr = s.ieErr := by cases st <;> rfl
@[simp] theorem raiseError_cmd (st : Stage) (e : ErrKind) (s : State) :
    (raiseError st e s).cmd = s.cmd := by cases st <;> rfl
@[simp] theorem raiseError_run (st : Stage) (e : ErrKind) (s : State) :
    (raiseError st e s).run = .idle := by cases st <;> rfl
@[simp] theorem raiseError_done (st : Stage) (e : ErrKind) (s : State) :
    (raiseError st e s).done = false := by cases st <;> rfl
@[simp] theorem raiseError_err (st : Stage) (e : ErrKind) (s : State) :
    (raiseError st e s).err = true := by cases st <;> rfl
@[simp] theorem raiseError_overrun (st : Stage) (e : ErrKind) (s : State) :
    (raiseError st e s).overrun = s.overrun := by cases st <;> rfl
@[simp] theorem raiseError_fw (st : Stage) (e : ErrKind) (s : State) :
    (raiseError st e s).fw = s.fw := by cases st <;> rfl
@[simp] theorem raiseError_ft (st : Stage) (e : ErrKind) (s : State) :
    (raiseError st e s).ft = s.ft := by cases st <;> rfl
@[simp] theorem raiseError_fc (st : Stage) (e : ErrKind) (s : State) :
    (raiseError st e s).fc = s.fc := by cases st <;> rfl
@[simp] theorem raiseError_curOp (st : Stage) (e : ErrKind) (s : State) :
    (raiseError st e s).curOp = s.curOp := by cases st <;> rfl
@[simp] theorem raiseError_errInfo (st : Stage) (e : ErrKind) (s : State) :
    (raiseError st e s).errInfo = errWord s.curOp e := by cases st <;> rfl
@[simp] theorem raiseError_total (st : Stage) (e : ErrKind) (s : State) :
    (raiseError st e s).total = s.total := by cases st <;> rfl
@[simp] theorem raiseError_nsym (st : Stage) (e : ErrKind) (s : State) :
    (raiseError st e s).nsym = s.nsym := by cases st <;> rfl
@[simp] theorem raiseError_decNsym (st : Stage) (e : ErrKind) (s : State) :
    (raiseError st e s).decNsym = s.decNsym := by cases st <;> rfl
@[simp] theorem raiseError_payloadStart (st : Stage) (e : ErrKind) (s : State) :
    (raiseError st e s).payloadStart = s.payloadStart := by cases st <;> rfl
@[simp] theorem raiseError_lastBits (st : Stage) (e : ErrKind) (s : State) :
    (raiseError st e s).lastBits = s.lastBits := by cases st <;> rfl
@[simp] theorem raiseError_srcPos (st : Stage) (e : ErrKind) (s : State) :
    (raiseError st e s).srcPos = s.srcPos := by cases st <;> rfl
@[simp] theorem raiseError_snkPos (st : Stage) (e : ErrKind) (s : State) :
    (raiseError st e s).snkPos = s.snkPos := by cases st <;> rfl
@[simp] theorem raiseError_index (st : Stage) (e : ErrKind) (s : State) :
    (raiseError st e s).index = s.index := by cases st <;> rfl
@[simp] theorem raiseError_w (st : Stage) (e : ErrKind) (s : State) :
    (raiseError st e s).w = s.w := by cases st <;> rfl
@[simp] theorem raiseError_pl (st : Stage) (e : ErrKind) (s : State) :
    (raiseError st e s).pl = s.pl := by cases st <;> rfl
@[simp] theorem raiseError_arena (st : Stage) (e : ErrKind) (s : State) :
    (raiseError st e s).arena = s.arena := by cases st <;> rfl
@[simp] theorem raiseError_root (st : Stage) (e : ErrKind) (s : State) :
    (raiseError st e s).root = s.root := by cases st <;> rfl
@[simp] theorem raiseError_ct (st : Stage) (e : ErrKind) (s : State) :
    (raiseError st e s).ct = s.ct := by cases st <;> rfl
@[simp] theorem raiseError_src (st : Stage) (e : ErrKind) (s : State) :
    (raiseError st e s).src = s.src := by cases st <;> rfl
@[simp] theorem raiseError_srcNext (st : Stage) (e : ErrKind) (s : State) :
    (raiseError st e s).srcNext = s.srcNext := by cases st <;> rfl
@[simp] theorem raiseError_snk (st : Stage) (e : ErrKind) (s : State) :
    (raiseError st e s).snk = s.snk := by cases st <;> rfl
@[simp] theorem raiseError_snkNext (st : Stage) (e : ErrKind) (s : State) :
    (raiseError st e s).snkNext = s.snkNext := by cases st <;> rfl
@[simp] theorem raiseError_objects (st : Stage) (e : ErrKind) (s : State) :
    (raiseError st e s).objects = s.objects := by cases st <;> rfl
@[simp] theorem raiseError_headerEnd (st : Stage) (e : ErrKind) (s : State) :
    (raiseError st e s).headerEnd = s.headerEnd := by cases st <;> rfl
@[simp] theorem raiseError_script (st : Stage) (e : ErrKind) (s : State) :
    (raiseError st e s).script = s.script := by cases st <;> rfl
@[simp] theorem raiseError_rdata (st : Stage) (e : ErrKind) (s : State) :
    (raiseError st e s).rdata = s.rdata := by cases st <;> rfl
@[simp] theorem raiseError_draws (st : Stage) (e : ErrKind) (s : State) :
    (raiseError st e s).draws = s.draws := by cases st <;> rfl

end Sys2Proof.Machine
end

