-- ==== Sys2Proof/Laws/Flow.lean ====
section
/-! SUPPORT. Lemmas about `Flow`, about how a stage starts and ends, and about the outcome of a command. -/

namespace Sys2Proof.Machine

@[simp] theorem bind_done {α β : Type} (a : α) (s : State) (k : α → State → Flow β) : (Flow.done a s).bind k = k a s := rfl
@[simp] theorem bind_wait {α β : Type} (p : Point) (s : State) (k : α → State → Flow β) :
    (Flow.wait p s : Flow α).bind k = .wait p s := rfl
@[simp] theorem bind_raise {α β : Type} (e : ErrKind) (s : State) (k : α → State → Flow β) :
    (Flow.raise e s : Flow α).bind k = .raise e s := rfl
@[simp] theorem bind_fault {α β : Type} (f : Fault) (k : α → State → Flow β) : (Flow.fault f : Flow α).bind k = .fault f := rfl

theorem bind_assoc {α β γ : Type} (m : Flow α) (k : α → State → Flow β) (l : β → State → Flow γ) :
    (m.bind k).bind l = m.bind fun a s => (k a s).bind l := by
  cases m <;> rfl

/-- A property of every value and state a piece can be done with, every waiting point, every error and every fault. -/
def Flow.All {α : Type} (done : α → State → Prop) (wait : Point → State → Prop) (raise : ErrKind → State → Prop)
    (fault : Fault → Prop) : Flow α → Prop
  | .done a s => done a s
  | .wait p s => wait p s
  | .raise e s => raise e s
  | .fault f => fault f

/-- What holds of a sequence: the first piece's own outcomes, and the second's after the first is done. -/
theorem all_bind {α β : Type} {D : β → State → Prop} {W : Point → State → Prop} {R : ErrKind → State → Prop}
    {F : Fault → Prop} {m : Flow α} {k : α → State → Flow β}
    (h : m.All (fun a s => (k a s).All D W R F) W R F) : (m.bind k).All D W R F := by
  cases m <;> exact h

theorem all_mono {α : Type} {D D' : α → State → Prop} {W W' : Point → State → Prop} {R R' : ErrKind → State → Prop}
    {F F' : Fault → Prop} {m : Flow α} (h : m.All D W R F) (hd : ∀ a s, D a s → D' a s) (hw : ∀ p s, W p s → W' p s)
    (hr : ∀ e s, R e s → R' e s) (hf : ∀ f, F f → F' f) : m.All D' W' R' F' := by
  cases m
  · exact hd _ _ h
  · exact hw _ _ h
  · exact hr _ _ h
  · exact hf _ h

@[simp] theorem settle_done (st : Stage) (rest : List Stage) (k : State → Host.Outcome State Fault Refusal) (u : Unit)
    (s : State) : settle st rest k (.done u s) = k (finishStage st s) := rfl
@[simp] theorem settle_wait (st : Stage) (rest : List Stage) (k : State → Host.Outcome State Fault Refusal) (p : Point)
    (s : State) : settle st rest k (.wait p s) = .next { s with run := .waiting st p rest } := rfl
@[simp] theorem settle_raise (st : Stage) (rest : List Stage) (k : State → Host.Outcome State Fault Refusal)
    (e : ErrKind) (s : State) : settle st rest k (.raise e s) = .next (raiseError st e s) := rfl
@[simp] theorem settle_fault (st : Stage) (rest : List Stage) (k : State → Host.Outcome State Fault Refusal) (f : Fault) :
    settle st rest k (.fault f) = .fault f := rfl

/-- A stage whose precondition holds starts its body with CUR_OP written and its flags invalidated (R132). -/
theorem performStage_pre {st : Stage} {body : State → Flow Unit} {s : State} (h : pre st s = true) :
    performStage st body s = body (invalidate st { s with curOp := st.op }) := by
  simp [performStage, h]

/-- A stage whose precondition fails raises SEQUENCE_ERROR (R134). -/
theorem performStage_not_pre {st : Stage} {body : State → Flow Unit} {s : State} (h : pre st s = false) :
    performStage st body s = .raise .sequenceError { s with curOp := st.op } := by
  simp [performStage, h]

/-- A command whose precondition holds is its body, run from the started state (R132). -/
theorem runStage_pre {st : Stage} {body : State → Flow Unit} {s : State} (h : pre st s = true) :
    runStage st body s = settle st [] (fun t => .next (endRun t)) (body (started st s)) := by
  rw [runStage, performStage_pre h]; rfl

/-- A single-stage command is the pipeline of its one stage. -/
theorem runStage_eq (st : Stage) (s : State) : runStage st (stageBody st) s = performAll [st] s := rfl

/-- How a command goes on from one stage to the rest of its stages, in its four cases. -/
theorem settle_cases (st : Stage) (rest : List Stage) (k : State → Host.Outcome State Fault Refusal) (m : Flow Unit) :
    (∃ s, m = .done () s ∧ settle st rest k m = k (finishStage st s)) ∨
    (∃ p s, m = .wait p s ∧ settle st rest k m = .next { s with run := .waiting st p rest }) ∨
    (∃ e s, m = .raise e s ∧ settle st rest k m = .next (raiseError st e s)) ∨
    (∃ f, m = .fault f ∧ settle st rest k m = .fault f) := by
  cases m with
  | done a s => exact .inl ⟨s, rfl, rfl⟩
  | wait p s => exact .inr (.inl ⟨p, s, rfl, rfl⟩)
  | raise e s => exact .inr (.inr (.inl ⟨e, s, rfl, rfl⟩))
  | fault f => exact .inr (.inr (.inr ⟨f, rfl, rfl⟩))

end Sys2Proof.Machine
end

