-- ==== Sys2Proof/Laws/Tables.lean ====
section
/-! SUPPORT. Lemmas about the tables indexed by a byte, the list of symbols, and bytes as bits. -/

namespace Sys2Proof.Machine

theorem tget_tset_self {α : Type} (t : Table α) (s : Byte) (a : α) : tget (tset t s a) s = a := by
  simp [tget, tset]

theorem tget_tset_ne {α : Type} (t : Table α) {s b : Byte} (a : α) (h : b ≠ s) :
    tget (tset t s a) b = tget t b := by
  have : s.toNat ≠ b.toNat := fun e => h (BitVec.eq_of_toNat_eq e.symm)
  simp [tget, tset, this]

theorem tget_tset {α : Type} (t : Table α) (s b : Byte) (a : α) :
    tget (tset t s a) b = if b = s then a else tget t b := by
  split
  · subst b; exact tget_tset_self t s a
  · exact tget_tset_ne t a ‹_›

/-- Two tables with the same entries are the same table. -/
theorem table_ext {α : Type} {t u : Table α} (h : ∀ b, tget t b = tget u b) : t = u := by
  apply Vector.ext
  intro i hi
  have := h (BitVec.ofNat 8 i)
  simpa [tget, Nat.mod_eq_of_lt hi] using this

@[simp] theorem tget_replicate {α : Type} (a : α) (b : Byte) : tget (Vector.replicate 256 a) b = a := by
  simp [tget]

theorem tget_ofFn {α : Type} (f : Fin 256 → α) (b : Byte) : tget (Vector.ofFn f) b = f ⟨b.toNat, b.isLt⟩ := by
  simp [tget]

@[simp] theorem mem_symbols (b : Byte) : b ∈ symbols := by
  simp only [symbols, List.mem_map, List.mem_range]
  exact ⟨b.toNat, b.isLt, by simp⟩

theorem symbols_length : symbols.length = 256 := by simp [symbols]

/-- The symbols are listed in ascending order. -/
theorem symbols_sorted : symbols.Pairwise (· < ·) := by
  rw [symbols, List.pairwise_map]
  refine List.Pairwise.imp_of_mem ?_ (List.pairwise_lt_range (n := 256))
  intro a b ha hb h
  simp only [List.mem_range] at ha hb
  simp only [BitVec.lt_def, BitVec.toNat_ofNat]
  omega

theorem symbols_nodup : symbols.Nodup := symbols_sorted.imp fun h => BitVec.ne_of_lt h

theorem tget_countsOf (bs : List Byte) (b : Byte) : tget (countsOf bs) b = BitVec.ofNat 32 (bs.count b) := by
  simp [countsOf, tget_ofFn]

theorem countsOf_nil : countsOf [] = Vector.replicate 256 0 := by
  apply table_ext; intro b; simp [tget_countsOf]

/-- One more byte counted (R150). -/
theorem countsOf_append (bs : List Byte) (b : Byte) :
    tset (countsOf bs) b (tget (countsOf bs) b + 1) = countsOf (bs ++ [b]) := by
  apply table_ext
  intro x
  rw [tget_tset]
  by_cases h : x = b
  · subst h; simp [tget_countsOf, BitVec.ofNat_add]
  · have : (b == x) = false := by simpa using fun e => h e.symm
    simp [tget_countsOf, h, List.count_append, List.count_cons, this]

theorem count_lt {bs : List Byte} (h : bs.length < 2 ^ 32) (b : Byte) : bs.count b < 2 ^ 32 :=
  lt_of_le_of_lt List.count_le_length h

/-- The distinct symbols of a count are those of the bytes counted (R152). -/
theorem distinct_countsOf {bs : List Byte} (h : bs.length < 2 ^ 32) : distinct (countsOf bs) = bs.dedup.length := by
  apply List.Perm.length_eq
  rw [List.perm_ext_iff_of_nodup (symbols_nodup.filter _) (List.nodup_dedup bs)]
  intro b
  have hc : bs.count b < 4294967296 := count_lt h b
  simp only [List.mem_filter, mem_symbols, true_and, List.mem_dedup, tget_countsOf, bne_iff_ne, ne_eq]
  rw [← BitVec.toNat_inj]
  simp [Nat.mod_eq_of_lt hc, List.count_eq_zero]

theorem distinct_le (w : Table Word) : distinct w ≤ 256 := by
  unfold distinct
  exact (List.length_filter_le _ _).trans symbols_length.le

end Sys2Proof.Machine
end

