-- ==== Sys2Proof/Laws/Counter.lean ====
section
/-! SUPPORT. What COUNT does with a session (41_frequency_counter.md R150 to R153). -/

namespace Sys2Proof.Machine

/-- The state after `bs` have been counted, the items `rest` being left in the session. -/
def counted (bs : List Byte) (rest : List SrcItem) (s : State) : State :=
  { s with
    w := countsOf bs, total := BitVec.ofNat 32 bs.length, srcPos := BitVec.ofNat 64 bs.length, src := some rest }

/-- The reading loop over bytes that may all be counted goes on with the items after them. -/
theorem countLoop_bytes (more : List Byte) (rest : List SrcItem) (bs : List Byte) (s : State)
    (h : bs.length + more.length < 2 ^ 32) :
    countLoop (more.map SrcItem.byte ++ rest) (counted bs (more.map SrcItem.byte ++ rest) s)
      = countLoop rest (counted (bs ++ more) rest s) := by
  induction more generalizing bs with
  | nil => simp
  | cons b more ih =>
    simp only [List.length_cons] at h
    have hn : (counted bs ((b :: more).map SrcItem.byte ++ rest) s).total ≠ Config.maxTotal := by
      have : (BitVec.toNat (4294967295 : Word)) = 4294967295 := rfl
      simp only [counted, Config.maxTotal, ne_eq, ← BitVec.toNat_inj, BitVec.toNat_ofNat]
      omega
    have hs : tally b (tookByte (more.map SrcItem.byte ++ rest) (counted bs ((b :: more).map SrcItem.byte ++ rest) s))
        = counted (bs ++ [b]) (more.map SrcItem.byte ++ rest) s := by
      simp only [tally, tookByte, counted, countsOf_append, List.length_append, List.length_cons, List.length_nil,
        Nat.zero_add, BitVec.ofNat_add]
      rfl
    simp only [List.map_cons, List.cons_append, countLoop] at hn hs ⊢
    rw [if_neg hn, hs, ih (bs ++ [b]) (by simp; omega)]
    simp

/-- The body of COUNT up to the first item that is not a byte to count. -/
theorem countBody_bytes {s : State} {bs : List Byte} {rest : List SrcItem} {sess : List (List SrcItem)}
    (h : s.srcNext = (bs.map SrcItem.byte ++ rest) :: sess) (hb : bs.length < 2 ^ 32) :
    countBody s = countLoop rest (counted bs rest { s with nsym := 0, srcNext := sess }) := by
  have := countLoop_bytes bs rest [] { s with nsym := 0, srcNext := sess } (by simpa using hb)
  rw [List.nil_append] at this
  rw [← this]
  simp [countBody, srcOpen, srcItems, h, counted, countsOf_nil]

end Sys2Proof.Machine
end

