-- ==== Sys2Proof/Laws/Ports.lean ====
section
/-! SUPPORT. What an append and a patch can do (20_memory.md R79, R80). -/

set_option autoImplicit false

namespace Sys2Proof.Machine

/-- The state after an append that was answered Ok. -/
def appended (v : Byte) (rest : List SnkAnswer) (s : State) : State :=
  { s with objects := (curObject s ++ [v]) :: s.objects.tail, snk := some rest, snkPos := s.snkPos + 1 }

theorem put_ok {s : State} {rest : List SnkAnswer} (v : Byte) (p : Point) (h : s.snk = some (.ok :: rest)) :
    put v p s = .done () (appended v rest s) := by
  simp only [put, h]; rfl

theorem put_fail {s : State} {rest : List SnkAnswer} (v : Byte) (p : Point) (h : s.snk = some (.fail :: rest)) :
    put v p s = .raise .sinkUnavailable { s with snk := some rest } := by
  simp only [put, h]

theorem put_wait {s : State} (v : Byte) (p : Point) (h : s.snk = none ∨ s.snk = some []) : put v p s = .wait p s := by
  rcases h with h | h <;> simp only [put, h]

/-- All that an append can do. -/
theorem put_cases (v : Byte) (p : Point) (s : State) :
    (∃ rest, s.snk = some (.ok :: rest) ∧ put v p s = .done () (appended v rest s)) ∨
    (∃ rest, s.snk = some (.fail :: rest) ∧ put v p s = .raise .sinkUnavailable { s with snk := some rest }) ∨
    ((s.snk = none ∨ s.snk = some []) ∧ put v p s = .wait p s) := by
  rcases h : s.snk with _ | ⟨_ | ⟨_ | _, rest⟩⟩
  · exact .inr (.inr ⟨.inl rfl, put_wait v p (.inl h)⟩)
  · exact .inr (.inr ⟨.inr rfl, put_wait v p (.inr h)⟩)
  · exact .inl ⟨rest, rfl, put_ok v p h⟩
  · exact .inr (.inl ⟨rest, rfl, put_fail v p h⟩)

/-- The state after the patch was answered Ok: one byte of the object is another, its length unchanged (R80). -/
def patchedState (v : Byte) (rest : List SnkAnswer) (s : State) : State :=
  { s with objects := (curObject s).set (patchOffset s) v :: s.objects.tail, snk := some rest }

theorem patchInside_iff (s : State) :
    patchInside s = true ↔ s.headerEnd ≠ 0 ∧ s.headerEnd.toNat ≤ (curObject s).length := by
  have h : s.headerEnd ≠ 0 ↔ s.headerEnd.toNat ≠ 0 := (BitVec.toNat_inj (y := 0#32)).symm.not
  simp only [patchInside, Bool.and_eq_true, bne_iff_ne, decide_eq_true_eq]
  rw [h, patchOffset]
  omega

theorem snkPatch_ok {s : State} {rest : List SnkAnswer} (v : Byte) (p : Point) (hp : patchInside s = true)
    (h : s.snk = some (.ok :: rest)) : snkPatch v p s = .done () (patchedState v rest s) := by
  simp only [snkPatch, hp, h]; rfl

theorem snkPatch_fail {s : State} {rest : List SnkAnswer} (v : Byte) (p : Point) (hp : patchInside s = true)
    (h : s.snk = some (.fail :: rest)) : snkPatch v p s = .raise .sinkUnavailable { s with snk := some rest } := by
  simp only [snkPatch, hp, h]; rfl

theorem snkPatch_wait {s : State} (v : Byte) (p : Point) (hp : patchInside s = true)
    (h : s.snk = none ∨ s.snk = some []) : snkPatch v p s = .wait p s := by
  rcases h with h | h <;> simp only [snkPatch, hp, h] <;> rfl

/-- All that the patch can do where its offset is the object's. -/
theorem snkPatch_cases (v : Byte) (p : Point) {s : State} (hp : patchInside s = true) :
    (∃ rest, s.snk = some (.ok :: rest) ∧ snkPatch v p s = .done () (patchedState v rest s)) ∨
    (∃ rest, s.snk = some (.fail :: rest) ∧ snkPatch v p s = .raise .sinkUnavailable { s with snk := some rest }) ∨
    ((s.snk = none ∨ s.snk = some []) ∧ snkPatch v p s = .wait p s) := by
  rcases h : s.snk with _ | ⟨_ | ⟨_ | _, rest⟩⟩
  · exact .inr (.inr ⟨.inl rfl, snkPatch_wait v p hp (.inl h)⟩)
  · exact .inr (.inr ⟨.inr rfl, snkPatch_wait v p hp (.inr h)⟩)
  · exact .inl ⟨rest, rfl, snkPatch_ok v p hp h⟩
  · exact .inr (.inl ⟨rest, rfl, snkPatch_fail v p hp h⟩)

/-- A patch keeps the length of every object (R80). -/
theorem patchedState_lengths (v : Byte) (rest : List SnkAnswer) {s : State} (h : s.objects ≠ []) :
    (patchedState v rest s).objects.map List.length = s.objects.map List.length := by
  obtain ⟨o, old, h⟩ := List.exists_cons_of_ne_nil h
  simp [patchedState, curObject, h]

/-- The sink side after bytes were appended one after another, each answered Ok. -/
def appendedAll (bs : List Byte) (rest : List SnkAnswer) (s : State) : State :=
  { s with
    objects := (curObject s ++ bs) :: s.objects.tail, snk := some rest, snkPos := s.snkPos + BitVec.ofNat 64 bs.length }

@[simp] theorem appended_curObject (v : Byte) (rest : List SnkAnswer) (s : State) :
    curObject (appended v rest s) = curObject s ++ [v] := rfl

theorem appendedAll_cons (v : Byte) (bs : List Byte) (r rest : List SnkAnswer) (s : State) :
    appendedAll bs rest (appended v r s) = appendedAll (v :: bs) rest s := by
  simp [appendedAll, appended, curObject, BitVec.ofNat_add, BitVec.add_assoc, BitVec.add_comm 1#64]

theorem appendedAll_appendedAll (as bs : List Byte) (r rest : List SnkAnswer) (s : State) :
    appendedAll bs rest (appendedAll as r s) = appendedAll (as ++ bs) rest s := by
  simp [appendedAll, curObject, BitVec.ofNat_add, BitVec.add_assoc]

theorem okThen_zero (later : List SnkAnswer) : okThen 0 later = later := rfl

theorem okThen_succ (n : Nat) (later : List SnkAnswer) : okThen (n + 1) later = .ok :: okThen n later := by
  simp [okThen, List.replicate_succ]

theorem okThen_add (m n : Nat) (later : List SnkAnswer) : okThen (m + n) later = okThen m (okThen n later) := by
  simp only [okThen, List.replicate_add, List.append_assoc]

end Sys2Proof.Machine
end

