-- ==== Sys2Proof/Laws/Packer.lean ====
section
/-! SUPPORT. What PACK appends (45_bit_packer.md R210 to R213). -/

set_option autoImplicit false

namespace Sys2Proof.Machine

/-- The source side after `n` bytes were taken and `tail` remains. -/
def tookAll (n : Nat) (tail : List SrcItem) (s : State) : State :=
  { s with src := some tail, srcPos := s.srcPos + BitVec.ofNat 64 n }

theorem tookAll_zero {tail : List SrcItem} {s : State} (h : s.src = some tail) : tookAll 0 tail s = s := by
  cases s; simp_all [tookAll]

theorem tookAll_tookByte (n : Nat) (tail r : List SrcItem) (s : State) :
    tookAll n tail (tookByte r s) = tookAll (n + 1) tail s := by
  simp [tookAll, tookByte, BitVec.ofNat_add, BitVec.add_assoc, BitVec.add_comm 1#64]

theorem appendedAll_nil {rest : List SnkAnswer} {s : State} (ho : s.objects ≠ []) (h : s.snk = some rest) :
    appendedAll [] rest s = s := by
  obtain ⟨o, old, ho⟩ := List.exists_cons_of_ne_nil ho
  cases s; simp_all [appendedAll, curObject]

/-- The accumulator that holds the bits `l`. -/
def accOf (l : Bits) : Byte := BitVec.ofNat 8 (msbNat l)

/-- What is left in the accumulator after the whole bytes of `code` have gone out. -/
def heldBits (code : Bits) : Bits := code.drop (8 * (code.length / 8))

/-- The whole bytes of `code`. -/
def wholeBytes (code : Bits) : List Byte := codeField (code.take (8 * (code.length / 8)))

theorem wholeBytes_length (code : Bits) : (wholeBytes code).length = code.length / 8 := by
  simp only [wholeBytes, codeField_length, List.length_take]; omega

theorem heldBits_length (code : Bits) : (heldBits code).length = code.length % 8 := by
  simp only [heldBits, List.length_drop]; omega

theorem heldBits_short {code : Bits} (h : code.length < 8) : heldBits code = code := by
  simp [heldBits, Nat.div_eq_of_lt h]

theorem wholeBytes_short {code : Bits} (h : code.length < 8) : wholeBytes code = [] := by
  simp [wholeBytes, Nat.div_eq_of_lt h]

theorem heldBits_append {a b : Bits} (h : a.length = 8) : heldBits (a ++ b) = heldBits b := by
  simp only [heldBits, List.length_append, h]
  rw [show 8 * ((8 + b.length) / 8) = a.length + 8 * (b.length / 8) by omega, List.drop_append]
  simp

theorem wholeBytes_append {a b : Bits} (h : a.length = 8) : wholeBytes (a ++ b) = packByte a :: wholeBytes b := by
  simp only [wholeBytes, List.length_append, h]
  rw [show 8 * ((8 + b.length) / 8) = a.length + 8 * (b.length / 8) by omega, List.take_append,
    List.take_of_length_le (by omega), codeField_append (by omega)]
  have ha : a ≠ [] := by rintro rfl; simp at h
  rw [codeField_cons ha, List.drop_of_length_le (by omega)]
  simp

theorem heldBits_heldBits (a b : Bits) : heldBits (heldBits a ++ b) = heldBits (a ++ b) := by
  have h : 8 * (a.length / 8) ≤ a.length := by omega
  simp only [heldBits, List.length_append, List.length_drop]
  rw [← List.drop_append_of_le_length h, List.drop_drop]
  congr 1; omega

theorem wholeBytes_heldBits (a b : Bits) : wholeBytes a ++ wholeBytes (heldBits a ++ b) = wholeBytes (a ++ b) := by
  have h : 8 * (a.length / 8) ≤ a.length := by omega
  simp only [wholeBytes, heldBits, List.length_append, List.length_drop]
  rw [← codeField_append (by simp only [List.length_take]; omega)]
  congr 1
  rw [← List.drop_append_of_le_length h, ← List.take_append_of_le_length (l₂ := b) h]
  generalize a ++ b = l
  rw [show (8 * ((a.length + b.length) / 8)) = 8 * (a.length / 8) + 8 * ((a.length - 8 * (a.length / 8) + b.length) / 8) by
    omega, List.take_add]

/-- The bits of a code go out byte by byte, the rest staying in the accumulator (R210, R211). -/
theorem packBits_ok (code l : Bits) {rest : List SnkAnswer} {s : State} (hl : l.length < 8) (ho : s.objects ≠ [])
    (h : s.snk = some (okThen ((l ++ code).length / 8) rest)) :
    packBits code (accOf l) l.length s
      = .done (accOf (heldBits (l ++ code)), (heldBits (l ++ code)).length)
          (appendedAll (wholeBytes (l ++ code)) rest s) := by
  induction code generalizing l s with
  | nil =>
    rw [List.append_nil, Nat.div_eq_of_lt hl, okThen_zero] at h
    rw [List.append_nil, heldBits_short hl, wholeBytes_short hl, appendedAll_nil ho h, packBits]
  | cons b code ih =>
    have hassoc : l ++ b :: code = (l ++ [b]) ++ code := by simp
    rw [packBits, accOf, ← ofNat_msbNat_concat]
    split
    · rename_i h8
      have hlen : (l ++ [b]).length = 8 := by simpa using h8
      have hn : (l ++ b :: code).length / 8 = ([] ++ code : Bits).length / 8 + 1 := by
        rw [hassoc, List.length_append, hlen, List.nil_append]; omega
      rw [hn, okThen_succ] at h
      rw [put_ok _ _ h, bind_done, hassoc, heldBits_append hlen, wholeBytes_append hlen, ofNat_msbNat_full _ hlen]
      have := ih [] (s := appended (packByte (l ++ [b])) (okThen (([] ++ code : Bits).length / 8) rest) s) (by simp)
        (by simp [appended]) rfl
      simp only [List.nil_append] at this ⊢
      rw [← appendedAll_cons]
      exact this
    · rename_i h8
      have hlen : (l ++ [b]).length < 8 := by simp; omega
      have := ih (l ++ [b]) hlen ho (by rw [← hassoc]; exact h)
      rw [List.length_append, List.length_singleton] at this
      rw [hassoc]
      exact this

/-- The bits of a code go out up to an append that answers Fail, the `k`-th from 0 (R210, R244). -/
theorem packBits_fail (code l : Bits) {k : Nat} {rest : List SnkAnswer} {s : State} (hl : l.length < 8)
    (ho : s.objects ≠ []) (hk : 8 * (k + 1) ≤ (l ++ code).length) (h : s.snk = some (okThen k (.fail :: rest))) :
    packBits code (accOf l) l.length s
      = .raise .sinkUnavailable (appendedAll ((wholeBytes (l ++ code)).take k) rest s) := by
  induction code generalizing l k s with
  | nil => rw [List.append_nil] at hk; omega
  | cons b code ih =>
    have hassoc : l ++ b :: code = (l ++ [b]) ++ code := by simp
    rw [packBits, accOf, ← ofNat_msbNat_concat]
    split
    · rename_i h8
      have hlen : (l ++ [b]).length = 8 := by simpa using h8
      rw [hassoc, wholeBytes_append hlen]
      cases k with
      | zero =>
        rw [okThen_zero] at h
        rw [put_fail _ _ h, bind_raise, List.take_zero]
        obtain ⟨o, old, ho⟩ := List.exists_cons_of_ne_nil ho
        simp [appendedAll, curObject, ho]
      | succ k =>
        rw [okThen_succ] at h
        rw [hassoc, List.length_append, hlen] at hk
        have := ih [] (k := k) (s := appended (packByte (l ++ [b])) (okThen k (.fail :: rest)) s) (by simp)
          (by simp [appended]) (by rw [List.nil_append]; omega) rfl
        rw [ofNat_msbNat_full _ hlen, put_ok _ _ h, bind_done, List.take_succ_cons, ← appendedAll_cons]
        rw [List.nil_append] at this
        exact this
    · rename_i h8
      have hlen : (l ++ [b]).length < 8 := by simp; omega
      have := ih (l ++ [b]) hlen ho (by rw [← hassoc]; exact hk) h
      rw [List.length_append, List.length_singleton] at this
      rw [hassoc]
      exact this

theorem payloadBits_cons (ct : Table (Option Bits)) (b : Byte) (bs : List Byte) :
    payloadBits ct (b :: bs) = (tget ct b).getD [] ++ payloadBits ct bs := rfl

theorem tookAll_appendedAll (n : Nat) (tail : List SrcItem) (bs : List Byte) (rest : List SnkAnswer) (s : State) :
    tookAll n tail (appendedAll bs rest s) = appendedAll bs rest (tookAll n tail s) := rfl

/-- The reading loop of PACK over bytes that all have a code. -/
theorem packLoop_bytes (bs : List Byte) (l : Bits) {tail : List SrcItem} {rest : List SnkAnswer} {s : State}
    (hl : l.length < 8) (ho : s.objects ≠ []) (hsrc : s.src = some (bs.map SrcItem.byte ++ tail))
    (hc : ∀ b ∈ bs, tget s.ct b ≠ none)
    (h : s.snk = some (okThen ((l ++ payloadBits s.ct bs).length / 8) rest)) :
    packLoop (bs.map SrcItem.byte ++ tail) (accOf l) l.length s
      = packLoop tail (accOf (heldBits (l ++ payloadBits s.ct bs))) (heldBits (l ++ payloadBits s.ct bs)).length
          (appendedAll (wholeBytes (l ++ payloadBits s.ct bs)) rest (tookAll bs.length tail s)) := by
  induction bs generalizing l s with
  | nil =>
    simp only [payloadBits, List.flatMap_nil, List.append_nil, Nat.div_eq_of_lt hl, okThen_zero] at h ⊢
    rw [heldBits_short hl, wholeBytes_short hl]
    simp only [List.map_nil, List.nil_append, List.length_nil] at hsrc ⊢
    rw [tookAll_zero hsrc, appendedAll_nil ho h]
  | cons b bs ih =>
    obtain ⟨code, hcode⟩ := Option.ne_none_iff_exists'.mp (hc b (by simp))
    have hp : payloadBits s.ct (b :: bs) = code ++ payloadBits s.ct bs := by rw [payloadBits_cons, hcode]; rfl
    have hn : (l ++ payloadBits s.ct (b :: bs)).length / 8
        = (l ++ code).length / 8 + (heldBits (l ++ code) ++ payloadBits s.ct bs).length / 8 := by
      rw [hp]
      simp only [List.length_append, heldBits_length]
      omega
    rw [hn, okThen_add] at h
    rw [List.map_cons, List.cons_append, packLoop, hcode]
    simp only
    rw [packBits_ok code l (s := tookByte (bs.map SrcItem.byte ++ tail) s) hl ho h, bind_done]
    simp only
    have := ih (heldBits (l ++ code))
      (s := appendedAll (wholeBytes (l ++ code))
        (okThen ((heldBits (l ++ code) ++ payloadBits s.ct bs).length / 8) rest)
        (tookByte (bs.map SrcItem.byte ++ tail) s))
      (by rw [heldBits_length]; omega) (by simp [appendedAll]) rfl (fun x hx => hc x (by simp [hx])) rfl
    rw [this]
    simp only [show ∀ r : List SnkAnswer, (appendedAll (wholeBytes (l ++ code)) r
      (tookByte (bs.map SrcItem.byte ++ tail) s)).ct = s.ct from fun _ => rfl]
    rw [heldBits_heldBits, tookAll_appendedAll, appendedAll_appendedAll, wholeBytes_heldBits, tookAll_tookByte, hp,
      List.append_assoc, List.length_cons]

theorem wholeBytes_codeField (code : Bits) : wholeBytes code ++ codeField (heldBits code) = codeField code := by
  rw [wholeBytes, heldBits, ← codeField_append (by simp only [List.length_take]; omega), List.take_append_drop]

theorem lastBitsFor_heldBits (code : Bits) : lastBitsFor (heldBits code).length = lastBitsFor code.length := by
  simp only [lastBitsFor, heldBits_length, Nat.mod_mod]

/-- After EOF the held bits go out at the top of one byte, LAST_BITS is set, and the patch follows (R212). -/
theorem packEnd_ok (l : Bits) {rest : List SnkAnswer} {s : State} (hl : l.length < 8) (ho : s.objects ≠ [])
    (h : s.snk = some (okThen ((l.length + 7) / 8) rest)) :
    packEnd (accOf l) l.length s
      = packPatch { appendedAll (codeField l) rest s with lastBits := BitVec.ofNat 4 (lastBitsFor l.length) } := by
  rw [packEnd]
  split
  · rename_i h0
    rw [show (l.length + 7) / 8 = 0 + 1 by omega, okThen_succ, okThen_zero] at h
    have hne : l ≠ [] := by rintro rfl; simp at h0
    rw [packFlush, accOf, flushByte_msbNat l hl, put_ok _ _ h, bind_done, codeField_cons hne,
      List.drop_of_length_le (by omega), codeField_nil, lastBitsFor, Nat.mod_eq_of_lt hl, if_neg (by omega)]
    congr 1
  · have : l = [] := List.eq_nil_of_length_eq_zero (by omega)
    subst this
    rw [codeField_nil, appendedAll_nil (rest := rest) ho h]
    rfl

/-- PACK's loop over a whole second pass, up to the patch (R210 to R212, R221). -/
theorem packLoop_eof (bs : List Byte) {later : List SrcItem} {rest : List SnkAnswer} {s : State} (ho : s.objects ≠ [])
    (hsrc : s.src = some (deliver bs .eof later)) (hc : ∀ b ∈ bs, tget s.ct b ≠ none)
    (h : s.snk = some (okThen (((payloadBits s.ct bs).length + 7) / 8) rest)) :
    packLoop (deliver bs .eof later) 0 0 s
      = packPatch { appendedAll (codeField (payloadBits s.ct bs)) rest (tookAll bs.length later s) with
          lastBits := BitVec.ofNat 4 (lastBitsFor (payloadBits s.ct bs).length) } := by
  have hn : ((payloadBits s.ct bs).length + 7) / 8
      = (payloadBits s.ct bs).length / 8 + ((heldBits (payloadBits s.ct bs)).length + 7) / 8 := by
    rw [heldBits_length]; omega
  rw [hn, okThen_add] at h
  have h1 := packLoop_bytes bs [] (tail := .eof :: later) (by simp) ho hsrc hc (by rw [List.nil_append]; exact h)
  rw [List.nil_append] at h1
  have h2 := packEnd_ok (heldBits (payloadBits s.ct bs))
    (s := appendedAll (wholeBytes (payloadBits s.ct bs))
      (okThen (((heldBits (payloadBits s.ct bs)).length + 7) / 8) rest) (tookAll bs.length later s))
    (rest := rest) (by rw [heldBits_length]; omega) (by simp [appendedAll]) rfl
  rw [appendedAll_appendedAll, wholeBytes_codeField, lastBitsFor_heldBits] at h2
  rw [← h2]
  exact h1

/-- The body of PACK over a whole second pass, up to the patch. -/
theorem packBody_eof (bs : List Byte) {later : List SrcItem} {sess : List (List SrcItem)} {rest : List SnkAnswer}
    {s : State} (ho : s.objects ≠ []) (hsrc : s.srcNext = deliver bs .eof later :: sess)
    (hc : ∀ b ∈ bs, tget s.ct b ≠ none)
    (h : s.snk = some (okThen (((payloadBits s.ct bs).length + 7) / 8) rest)) :
    packBody s
      = packPatch { appendedAll (codeField (payloadBits s.ct bs)) rest s with
          src := some later, srcNext := sess, srcPos := BitVec.ofNat 64 bs.length
          lastBits := BitVec.ofNat 4 (lastBitsFor (payloadBits s.ct bs).length) } := by
  have := packLoop_eof bs (s := { s with lastBits := 0, src := some (deliver bs .eof later), srcNext := sess, srcPos := 0 })
    ho rfl hc h
  simp only [packBody, srcOpen, srcItems, hsrc, List.headD_cons, List.tail_cons, Option.getD_some]
  rw [this]
  simp [appendedAll, tookAll, curObject]

/-- The body of PACK up to the first item after bytes that all have a code. -/
theorem packBody_bytes (bs : List Byte) {tail : List SrcItem} {sess : List (List SrcItem)} {rest : List SnkAnswer}
    {s : State} (ho : s.objects ≠ []) (hsrc : s.srcNext = (bs.map SrcItem.byte ++ tail) :: sess)
    (hc : ∀ b ∈ bs, tget s.ct b ≠ none)
    (h : s.snk = some (okThen ((payloadBits s.ct bs).length / 8) rest)) :
    packBody s
      = packLoop tail (accOf (heldBits (payloadBits s.ct bs))) (heldBits (payloadBits s.ct bs)).length
          { appendedAll (wholeBytes (payloadBits s.ct bs)) rest s with
            src := some tail, srcNext := sess, srcPos := BitVec.ofNat 64 bs.length, lastBits := 0 } := by
  have := packLoop_bytes bs [] (tail := tail) (rest := rest)
    (s := { s with lastBits := 0, src := some (bs.map SrcItem.byte ++ tail), srcNext := sess, srcPos := 0 })
    (by simp) ho rfl hc (by rw [List.nil_append]; exact h)
  rw [List.nil_append] at this
  simp only [packBody, srcOpen, srcItems, hsrc, List.headD_cons, List.tail_cons, Option.getD_some]
  rw [show packLoop (bs.map SrcItem.byte ++ tail) 0 0 _ = packLoop (bs.map SrcItem.byte ++ tail) (accOf []) ([] : Bits).length _
    from rfl, this]
  simp [appendedAll, tookAll, curObject]

end Sys2Proof.Machine
end

