-- ==== Sys2Proof/Laws/HeaderWriter.lean ====
section
/-! SUPPORT. What WRITE_HDR appends, and the sizes of headers (44_header_codec.md R190, 30_encoding.md R115). -/

set_option autoImplicit false

namespace Sys2Proof.Machine

/-- The appends of WRITE_HDR with every answer Ok. -/
theorem hdrPutLoop_ok (bs : List Byte) {rest : List SnkAnswer} {s : State} (ho : s.objects ≠ [])
    (h : s.snk = some (okThen bs.length rest)) :
    hdrPutLoop bs s
      = .done () { appendedAll bs rest s with
          payloadStart := (s.snkPos + BitVec.ofNat 64 bs.length).extractLsb' 0 32
          headerEnd := (s.snkPos + BitVec.ofNat 64 bs.length).extractLsb' 0 32 } := by
  induction bs generalizing s with
  | nil =>
    rw [appendedAll_nil (rest := rest) ho h]
    simp [hdrPutLoop]
  | cons v bs ih =>
    rw [List.length_cons, okThen_succ] at h
    have := ih (s := appended v (okThen bs.length rest) s) (by simp [appended]) rfl
    rw [hdrPutLoop, put_ok _ _ h, bind_done, this, appendedAll_cons]
    simp [appended, BitVec.ofNat_add, BitVec.add_assoc, BitVec.add_comm 1#64]

/-- The appends of WRITE_HDR up to a Fail. -/
theorem hdrPutLoop_fail (bs : List Byte) {k : Nat} (hk : k < bs.length) {rest : List SnkAnswer} {s : State}
    (ho : s.objects ≠ []) (h : s.snk = some (okThen k (.fail :: rest))) :
    hdrPutLoop bs s = .raise .sinkUnavailable (appendedAll (bs.take k) rest s) := by
  induction bs generalizing k s with
  | nil => simp at hk
  | cons v bs ih =>
    cases k with
    | zero =>
      rw [okThen_zero] at h
      rw [hdrPutLoop, put_fail _ _ h, bind_raise, List.take_zero]
      obtain ⟨o, old, ho⟩ := List.exists_cons_of_ne_nil ho
      simp [appendedAll, curObject, ho]
    | succ k =>
      rw [okThen_succ] at h
      have := ih (k := k) (s := appended v (okThen k (.fail :: rest)) s) (by simpa using hk) (by simp [appended]) rfl
      rw [hdrPutLoop, put_ok _ _ h, bind_done, this, appendedAll_cons]
      rfl

theorem countBytes_length (n : Nat) : (countBytes n).length = 2 := rfl

theorem recordBytes_length (s : Byte) (code : Bits) : (recordBytes s code).length = 2 + (code.length + 7) / 8 := by
  simp [recordBytes]; omega

/-- The size of the records (R110, R115). -/
theorem recordsOf_length (ct : Table (Option Bits)) :
    (recordsOf ct).length = ((symbols.filterMap (tget ct)).map fun code => 2 + (code.length + 7) / 8).sum := by
  rw [recordsOf]
  induction symbols with
  | nil => rfl
  | cons b bs ih =>
    rw [List.flatMap_cons, List.length_append, ih, List.filterMap_cons]
    cases h : tget ct b with
    | none => simp
    | some code => simp [recordBytes_length]

theorem headerBytes_length (ct : Table (Option Bits)) : (headerBytes ct).length = 3 + (recordsOf ct).length := by
  simp [headerBytes, countBytes_length]; omega

theorem containerOf_length (ct : Table (Option Bits)) (bs : List Byte) :
    (containerOf ct bs).length = (headerBytes ct).length + ((payloadBits ct bs).length + 7) / 8 := by
  simp [containerOf, headerBytes, countBytes_length]; omega

/-- The bound on a header's size (R115). -/
theorem headerBytes_le {ct : Table (Option Bits)} (h : CodesBounded ct) : (headerBytes ct).length ≤ 8707 := by
  rw [headerBytes_length, recordsOf_length]
  have h34 : ∀ x ∈ (symbols.filterMap (tget ct)).map fun code => 2 + (code.length + 7) / 8, x ≤ 34 := by
    intro x hx
    obtain ⟨code, hc, rfl⟩ := List.mem_map.mp hx
    obtain ⟨b, -, hb⟩ := List.mem_filterMap.mp hc
    have := (h b code hb).2
    omega
  have h1 := List.sum_le_card_nsmul _ 34 h34
  have h2 : (symbols.filterMap (tget ct)).length ≤ 256 := (List.length_filterMap_le _ _).trans symbols_length.le
  rw [List.length_map, smul_eq_mul] at h1
  omega

end Sys2Proof.Machine
end

