-- ==== Sys2Proof/Laws/PerInstr.lean ====
section
/-! SUPPORT. What is stated and proved per command, as syntax: its word is well formed and decodes to it, as a word and
as the opcode table numbers it (30_encoding.md R100 to R105). -/

namespace Sys2Proof.Laws.Encoding

/-- The command's word is well formed, decodes to the command, and is read so from the opcode table's numbering. -/
def Statement (i : Instr) : Prop :=
  i.wellFormed = true ∧ decode (encode i) = .command i ∧ decodeTableWord 32 (encode i).toNat = some i

theorem nop : Statement .nop := by unfold Statement; decide
theorem count : Statement .count := by unfold Statement; decide
theorem build : Statement .build := by unfold Statement; decide
theorem assign : Statement .assign := by unfold Statement; decide
theorem writeHdr : Statement .writeHdr := by unfold Statement; decide
theorem pack : Statement .pack := by unfold Statement; decide
theorem readHdr : Statement .readHdr := by unfold Statement; decide
theorem unpack : Statement .unpack := by unfold Statement; decide
theorem compress : Statement .compress := by unfold Statement; decide
theorem decompress : Statement .decompress := by unfold Statement; decide

/-- Every command's word reads back as the command. -/
theorem all (i : Instr) : Statement i := by
  cases i
  · exact nop
  · exact count
  · exact build
  · exact assign
  · exact writeHdr
  · exact pack
  · exact readHdr
  · exact unpack
  · exact compress
  · exact decompress

end Sys2Proof.Laws.Encoding
end

