-- ==== Sys2Proof/Laws/Trees.lean ====
section
/-! SUPPORT. The priority list and the node arena: what an insertion does to the list (42_tree_builder.md R160) and what
`Insert` does to the arena (44_header_codec.md R197). -/

set_option autoImplicit false

namespace Sys2Proof.Machine

theorem insertOrdered_perm (arena : List Node) (i : Nat) (pl : List Nat) : (insertOrdered arena i pl).Perm (i :: pl) := by
  induction pl with
  | nil => exact .refl _
  | cons x pl ih =>
    rw [insertOrdered]
    split
    · exact .refl _
    · exact (ih.cons x).trans (.swap i x pl)

theorem insertOrdered_length (arena : List Node) (i : Nat) (pl : List Nat) :
    (insertOrdered arena i pl).length = pl.length + 1 := by
  simpa using (insertOrdered_perm arena i pl).length_eq

theorem mem_insertOrdered {arena : List Node} {i x : Nat} {pl : List Nat} :
    x ∈ insertOrdered arena i pl ↔ x = i ∨ x ∈ pl := by
  simpa using (insertOrdered_perm arena i pl).mem_iff (a := x)

theorem nodeWeight_append {arena more : List Node} {i : Nat} (h : i < arena.length) :
    nodeWeight (arena ++ more) i = nodeWeight arena i := by
  simp [nodeWeight, List.getElem?_append_left h]

theorem child_setChild (wt : Word) (l r : Option Nat) (b d : Bool) (j : Nat) :
    ((Node.inner wt l r).setChild b j).child d = if d = b then some j else (Node.inner wt l r).child d := by
  cases b <;> cases d <;> rfl

/-- An arena stays linked within itself when a leaf replaces a record. -/
theorem linksInRange_set_leaf {arena : List Node} (h : LinksInRange arena) (x : Nat) (sym : Byte) (wt : Word) :
    LinksInRange (arena.set x (.leaf sym wt)) := by
  intro i n b j hi hc
  rw [List.length_set]
  rw [List.getElem?_set] at hi
  split at hi
  · split at hi
    · cases hi; cases hc
    · cases hi
  · exact h i n b j hi hc

/-- An arena stays linked within itself when an empty record is allocated and linked. -/
theorem linksInRange_allocate {arena : List Node} (h : LinksInRange arena) {x : Nat} {wt : Word} {l r : Option Nat}
    (b : Bool) (hx : arena[x]? = some (.inner wt l r)) :
    LinksInRange ((arena ++ [emptyNode]).set x ((Node.inner wt l r).setChild b arena.length)) := by
  intro i n d j hi hc
  have hlt : x < arena.length := (List.getElem?_eq_some_iff.mp hx).1
  simp only [List.length_set, List.length_append, List.length_singleton]
  rw [List.getElem?_set] at hi
  split at hi
  · rw [if_pos (by simp; omega), Option.some.injEq] at hi
    subst hi
    rw [child_setChild] at hc
    split at hc
    · cases hc; omega
    · exact Nat.lt_succ_of_lt (h x _ d j hx hc)
  · rw [List.getElem?_append] at hi
    split at hi
    · exact Nat.lt_succ_of_lt (h i n d j hi hc)
    · rw [List.getElem?_singleton] at hi
      split at hi
      · cases hi; cases d <;> cases hc
      · cases hi

/-- What `Insert` can do in an arena linked within itself (R197): it never meets a missing record, and whether it places
the leaf or finds an overlap, the arena stays linked, keeps its records' number or grows by at most the code's bits. -/
theorem insertCode_cases (sym : Byte) (code : Bits) {x : Nat} {arena : List Node} (h : LinksInRange arena)
    (hx : x < arena.length) :
    ∃ arena', (insertCode sym code x arena = .placed arena' ∨ insertCode sym code x arena = .overlap arena') ∧
      LinksInRange arena' ∧ arena.length ≤ arena'.length ∧ arena'.length ≤ arena.length + code.length := by
  induction code generalizing x arena with
  | nil =>
    have hg := List.getElem?_eq_getElem hx
    rw [insertCode]
    rcases hn : arena[x] with ⟨s, wt⟩ | ⟨wt, _ | l, _ | r⟩ <;> rw [hn] at hg <;> simp only [hg]
    · exact ⟨arena, .inr rfl, h, Nat.le_refl _, by simp⟩
    · exact ⟨_, .inl rfl, linksInRange_set_leaf h x sym wt, by simp, by simp⟩
    · exact ⟨arena, .inr rfl, h, Nat.le_refl _, by simp⟩
    · exact ⟨arena, .inr rfl, h, Nat.le_refl _, by simp⟩
    · exact ⟨arena, .inr rfl, h, Nat.le_refl _, by simp⟩
  | cons b code ih =>
    have hg := List.getElem?_eq_getElem hx
    rw [insertCode]
    rcases hn : arena[x] with ⟨s, wt⟩ | ⟨wt, l, r⟩ <;> rw [hn] at hg <;> simp only [hg]
    · exact ⟨arena, .inr rfl, h, Nat.le_refl _, by simp⟩
    · cases hc : (Node.inner wt l r).child b with
      | some y =>
        obtain ⟨a, h1, h2, h3, h4⟩ := ih h (h x _ b y hg hc)
        exact ⟨a, h1, h2, h3, by rw [List.length_cons]; omega⟩
      | none =>
        obtain ⟨a, h1, h2, h3, h4⟩ := ih (linksInRange_allocate h b hg) (x := arena.length) (by simp)
        simp only [List.length_set, List.length_append, List.length_singleton] at h3 h4
        exact ⟨a, h1, h2, by omega, by rw [List.length_cons]; omega⟩

end Sys2Proof.Machine
end

