-- ==== Sys2Proof/Laws/Walker.lean ====
section
/-! SUPPORT. What UNPACK's walk does: the walk without its port, and the loop over the payload bytes (45_bit_packer.md
R215 to R218). -/

set_option autoImplicit false

namespace Sys2Proof.Machine

/-! ### Trees in the arena -/

theorem isTrie_node {arena : List Node} {i : Nat} {tl tr : Trie} (h : IsTrie arena (some i) (.node tl tr)) :
    ∃ wt l r, arena[i]? = some (Node.inner wt l r) ∧ IsTrie arena l tl ∧ IsTrie arena r tr := by
  cases h with
  | node h hl hr => exact ⟨_, _, _, h, hl, hr⟩

theorem isTrie_leaf {arena : List Node} {i : Nat} {sym : Byte} (h : IsTrie arena (some i) (.leaf sym)) :
    ∃ wt, arena[i]? = some (Node.leaf sym wt) := by
  cases h with
  | leaf h => exact ⟨_, h⟩

theorem isTrie_some {arena : List Node} {o : Option Nat} {tl tr : Trie} (h : IsTrie arena o (.node tl tr)) :
    ∃ i, o = some i := by
  cases h; exact ⟨_, rfl⟩

/-- The arena holds one tree under a link. -/
theorem isTrie_unique {arena : List Node} {o : Option Nat} {t t' : Trie} (h : IsTrie arena o t) (h' : IsTrie arena o t') :
    t = t' := by
  induction h generalizing t' with
  | none => cases h'; rfl
  | leaf h =>
    cases h' with
    | leaf h₂ => rw [h] at h₂; simp_all
    | node h₂ _ _ => rw [h] at h₂; simp at h₂
  | node h _ _ ihl ihr =>
    cases h' with
    | leaf h₂ => rw [h] at h₂; simp at h₂
    | node h₂ hl₂ hr₂ =>
      rw [h] at h₂
      simp only [Option.some.injEq, Node.inner.injEq] at h₂
      obtain ⟨-, rfl, rfl⟩ := h₂
      rw [ihl hl₂, ihr hr₂]

theorem descend_nodes_le (t : Trie) (code : Bits) : (t.descend code).nodes ≤ t.nodes := by
  induction t generalizing code with
  | none => cases code <;> simp [Trie.descend, Trie.nodes]
  | leaf s => cases code <;> simp [Trie.descend, Trie.nodes]
  | node l r ihl ihr =>
    cases code with
    | nil => simp [Trie.descend]
    | cons b code =>
      have := ihl code
      have := ihr code
      cases b <;> simp only [Trie.descend, Trie.nodes, if_true, if_false, Bool.false_eq_true] <;> omega

/-- What stands below a node is smaller than it. -/
theorem descend_ne_self {l r : Trie} {code : Bits} (h : code ≠ []) :
    (Trie.node l r).descend code ≠ .node l r := by
  intro e
  cases code with
  | nil => exact h rfl
  | cons b code =>
    have e' := congrArg Trie.nodes e
    have := descend_nodes_le l code
    have := descend_nodes_le r code
    cases b <;> simp only [Trie.descend, Trie.nodes, if_true, if_false, Bool.false_eq_true] at e' <;> omega

/-! ### The walk without its port -/

/-- The symbols the walk reaches over the bits, and where it stands after them; none where it leaves the tree. -/
def walkTo (arena : List Node) (root : Nat) : Bits → Nat → Option (List Byte × Nat)
  | [], cur => some ([], cur)
  | b :: bs, cur =>
    match arena[cur]? with
    | none => none
    | some n =>
      match n.child b with
      | none => none
      | some x =>
        match arena[x]? with
        | none => none
        | some (.leaf sym _) => (walkTo arena root bs root).map fun r => (sym :: r.1, r.2)
        | some (.inner _ _ _) => walkTo arena root bs x

theorem walkTo_append (arena : List Node) (root : Nat) (a b : Bits) (cur : Nat) {sa sb : List Byte} {ca cb : Nat}
    (ha : walkTo arena root a cur = some (sa, ca)) (hb : walkTo arena root b ca = some (sb, cb)) :
    walkTo arena root (a ++ b) cur = some (sa ++ sb, cb) := by
  induction a generalizing cur sa with
  | nil => simp only [walkTo, Option.some.injEq, Prod.mk.injEq] at ha; obtain ⟨rfl, rfl⟩ := ha; exact hb
  | cons x a ih =>
    rw [List.cons_append, walkTo]
    rw [walkTo] at ha
    split at ha
    · cases ha
    · rename_i n hn
      split at ha
      · cases ha
      · rename_i y hy
        split at ha
        · cases ha
        · rename_i sym wt hl
          rw [Option.map_eq_some_iff] at ha
          obtain ⟨⟨ss, cc⟩, h1, h2⟩ := ha
          simp only [Prod.mk.injEq] at h2
          obtain ⟨rfl, rfl⟩ := h2
          rw [ih root h1]; rfl
        · rename_i wt l r hl
          exact ih y ha

/-- A walk over two pieces is a walk over the first and then over the second. -/
theorem walkTo_split (arena : List Node) (root : Nat) (a b : Bits) (cur : Nat) {ss : List Byte} {c₂ : Nat}
    (h : walkTo arena root (a ++ b) cur = some (ss, c₂)) :
    ∃ sa ca sb, walkTo arena root a cur = some (sa, ca) ∧ walkTo arena root b ca = some (sb, c₂) ∧ ss = sa ++ sb := by
  induction a generalizing cur ss with
  | nil => exact ⟨[], cur, ss, rfl, h, rfl⟩
  | cons x a ih =>
    rw [List.cons_append, walkTo] at h
    rw [walkTo]
    split at h
    · cases h
    · rename_i n hn
      split at h
      · cases h
      · rename_i y hy
        split at h
        · cases h
        · rename_i sym wt hl
          rw [Option.map_eq_some_iff] at h
          obtain ⟨⟨ss', cc⟩, h1, h2⟩ := h
          simp only [Prod.mk.injEq] at h2
          obtain ⟨rfl, rfl⟩ := h2
          obtain ⟨sa, ca, sb, h3, h4, rfl⟩ := ih root h1
          exact ⟨sym :: sa, ca, sb, by simp [h3], h4, rfl⟩
        · rename_i wt l r hl
          exact ih y h

/-- With an Ok answer for every symbol, the walk of UNPACK appends them and stands where `walkTo` says. -/
theorem walkBits_ok {root : Nat} (ahead : Option Byte) (bits : Bits) {cur c₂ : Nat} {syms : List Byte}
    {rest : List SnkAnswer} {s : State} (hw : walkTo s.arena root bits cur = some (syms, c₂)) (ho : s.objects ≠ [])
    (h : s.snk = some (okThen syms.length rest)) :
    walkBits root ahead bits cur s = .done c₂ (appendedAll syms rest s) := by
  induction bits generalizing cur syms s with
  | nil =>
    simp only [walkTo, Option.some.injEq, Prod.mk.injEq] at hw
    obtain ⟨rfl, rfl⟩ := hw
    rw [walkBits, appendedAll_nil (rest := rest) ho h]
  | cons b bits ih =>
    rw [walkTo] at hw
    rw [walkBits]
    cases hn : s.arena[cur]? with
    | none => simp [hn] at hw
    | some n =>
      cases hy : n.child b with
      | none => simp [hn, hy] at hw
      | some y =>
        rcases hl : s.arena[y]? with _ | (⟨sym, wt⟩ | ⟨wt, l, r⟩)
        · simp [hn, hy, hl] at hw
        · simp only [hn, hy, hl] at hw ⊢
          rw [Option.map_eq_some_iff] at hw
          obtain ⟨⟨ss', cc⟩, h1, h2⟩ := hw
          simp only [Prod.mk.injEq] at h2
          obtain ⟨rfl, rfl⟩ := h2
          rw [List.length_cons, okThen_succ] at h
          rw [put_ok _ _ h, bind_done, ← appendedAll_cons]
          exact ih (s := appended sym (okThen ss'.length rest) s) h1 (by simp [appended]) rfl
        · simp only [hn, hy, hl] at hw ⊢
          exact ih hw ho h

/-- The walk of UNPACK up to an append that answers Fail, the `k`-th from 0 (R215, R244). -/
theorem walkBits_fail {root : Nat} (ahead : Option Byte) (bits : Bits) {cur c₂ k : Nat} {syms : List Byte}
    {rest : List SnkAnswer} {s : State} (hw : walkTo s.arena root bits cur = some (syms, c₂)) (ho : s.objects ≠ [])
    (hk : k < syms.length) (h : s.snk = some (okThen k (.fail :: rest))) :
    walkBits root ahead bits cur s = .raise .sinkUnavailable (appendedAll (syms.take k) rest s) := by
  induction bits generalizing cur syms k s with
  | nil =>
    simp only [walkTo, Option.some.injEq, Prod.mk.injEq] at hw
    obtain ⟨rfl, rfl⟩ := hw
    simp at hk
  | cons b bits ih =>
    rw [walkTo] at hw
    rw [walkBits]
    cases hn : s.arena[cur]? with
    | none => simp [hn] at hw
    | some n =>
      cases hy : n.child b with
      | none => simp [hn, hy] at hw
      | some y =>
        rcases hl : s.arena[y]? with _ | (⟨sym, wt⟩ | ⟨wt, l, r⟩)
        · simp [hn, hy, hl] at hw
        · simp only [hn, hy, hl] at hw ⊢
          rw [Option.map_eq_some_iff] at hw
          obtain ⟨⟨ss', cc⟩, h1, h2⟩ := hw
          simp only [Prod.mk.injEq] at h2
          obtain ⟨rfl, rfl⟩ := h2
          cases k with
          | zero =>
            rw [okThen_zero] at h
            rw [put_fail _ _ h, bind_raise, List.take_zero]
            obtain ⟨o, old, ho⟩ := List.exists_cons_of_ne_nil ho
            simp [appendedAll, curObject, ho]
          | succ k =>
            rw [okThen_succ] at h
            rw [put_ok _ _ h, bind_done, List.take_succ_cons, ← appendedAll_cons]
            exact ih (s := appended sym (okThen k (.fail :: rest)) s) h1 (by simp [appended]) (by simpa using hk) rfl
        · simp only [hn, hy, hl] at hw ⊢
          exact ih hw ho hk h

/-- A bit that leads to no child ends the walk with UNDEFINED_CODE, after the symbols before it (R216). -/
theorem walkBits_undefined {root : Nat} (ahead : Option Byte) (bits more : Bits) (b : Bool) {cur c₂ : Nat} {n : Node}
    {syms : List Byte} {rest : List SnkAnswer} {s : State} (hw : walkTo s.arena root bits cur = some (syms, c₂))
    (hn : s.arena[c₂]? = some n) (hb : n.child b = none) (ho : s.objects ≠ [])
    (h : s.snk = some (okThen syms.length rest)) :
    walkBits root ahead (bits ++ b :: more) cur s = .raise .undefinedCode (appendedAll syms rest s) := by
  induction bits generalizing cur syms s with
  | nil =>
    simp only [walkTo, Option.some.injEq, Prod.mk.injEq] at hw
    obtain ⟨rfl, rfl⟩ := hw
    rw [List.nil_append, walkBits, appendedAll_nil (rest := rest) ho h]
    simp only [hn, hb]
  | cons x bits ih =>
    rw [walkTo] at hw
    rw [List.cons_append, walkBits]
    cases hn' : s.arena[cur]? with
    | none => simp [hn'] at hw
    | some n' =>
      cases hy : n'.child x with
      | none => simp [hn', hy] at hw
      | some y =>
        rcases hl : s.arena[y]? with _ | (⟨sym, wt⟩ | ⟨wt, l, r⟩)
        · simp [hn', hy, hl] at hw
        · simp only [hn', hy, hl] at hw ⊢
          rw [Option.map_eq_some_iff] at hw
          obtain ⟨⟨ss', cc⟩, h1, h2⟩ := hw
          simp only [Prod.mk.injEq] at h2
          obtain ⟨rfl, rfl⟩ := h2
          rw [List.length_cons, okThen_succ] at h
          rw [put_ok _ _ h, bind_done, ← appendedAll_cons]
          exact ih (s := appended sym (okThen ss'.length rest) s) h1 hn (by simp [appended]) rfl
        · simp only [hn', hy, hl] at hw ⊢
          exact ih hw hn ho h

/-! ### Walks along a tree -/

/-- A path to an inner node is walked without reaching a symbol. -/
theorem walkTo_inner {arena : List Node} (root : Nat) {i : Nat} {t l r : Trie} {code : Bits}
    (ht : IsTrie arena (some i) t) (h : t.descend code = .node l r) :
    ∃ x, IsTrie arena (some x) (.node l r) ∧ walkTo arena root code i = some ([], x) := by
  induction code generalizing i t with
  | nil =>
    simp only [Trie.descend] at h
    subst h
    exact ⟨i, ht, rfl⟩
  | cons b code ih =>
    cases t with
    | none => simp [Trie.descend] at h
    | leaf s => simp [Trie.descend] at h
    | node tl tr =>
      obtain ⟨wt, ll, rr, hi, hl, hr⟩ := isTrie_node ht
      have hch : ∃ y t', (Node.inner wt ll rr).child b = some y ∧ IsTrie arena (some y) t' ∧
          t'.descend code = .node l r := by
        cases b
        · simp only [Trie.descend, Bool.false_eq_true, if_false] at h
          cases hl with
          | none => cases code <;> simp [Trie.descend] at h
          | leaf h' => exact ⟨_, _, rfl, .leaf h', h⟩
          | node h' h1 h2 => exact ⟨_, _, rfl, .node h' h1 h2, h⟩
        · simp only [Trie.descend, if_true] at h
          cases hr with
          | none => cases code <;> simp [Trie.descend] at h
          | leaf h' => exact ⟨_, _, rfl, .leaf h', h⟩
          | node h' h1 h2 => exact ⟨_, _, rfl, .node h' h1 h2, h⟩
      obtain ⟨y, t', hy, ht', hd⟩ := hch
      obtain ⟨x, hx, hw⟩ := ih ht' hd
      refine ⟨x, hx, ?_⟩
      rw [walkTo]
      simp only [hi, hy]
      cases t' with
      | none => cases code <;> simp [Trie.descend] at hd
      | leaf s => cases code <;> simp [Trie.descend] at hd
      | node a b =>
        obtain ⟨wt', l', r', hi', -, -⟩ := isTrie_node ht'
        simp only [hi', hw]

/-- A path from an inner node to a leaf reaches its symbol, and the walk is back at the root. -/
theorem walkTo_leaf {arena : List Node} (root : Nat) {i : Nat} {tl tr : Trie} {code : Bits} {sym : Byte}
    (ht : IsTrie arena (some i) (.node tl tr)) (h : (Trie.node tl tr).descend code = .leaf sym) :
    walkTo arena root code i = some ([sym], root) := by
  induction code generalizing i tl tr with
  | nil => simp [Trie.descend] at h
  | cons b code ih =>
    obtain ⟨wt, ll, rr, hi, hl, hr⟩ := isTrie_node ht
    have hch : ∃ y t', (Node.inner wt ll rr).child b = some y ∧ IsTrie arena (some y) t' ∧
        t'.descend code = .leaf sym := by
      cases b
      · simp only [Trie.descend, Bool.false_eq_true, if_false] at h
        cases hl with
        | none => cases code <;> simp [Trie.descend] at h
        | leaf h' => exact ⟨_, _, rfl, .leaf h', h⟩
        | node h' h1 h2 => exact ⟨_, _, rfl, .node h' h1 h2, h⟩
      · simp only [Trie.descend, if_true] at h
        cases hr with
        | none => cases code <;> simp [Trie.descend] at h
        | leaf h' => exact ⟨_, _, rfl, .leaf h', h⟩
        | node h' h1 h2 => exact ⟨_, _, rfl, .node h' h1 h2, h⟩
    obtain ⟨y, t', hy, ht', hd⟩ := hch
    rw [walkTo]
    simp only [hi, hy]
    cases t' with
    | none => cases code <;> simp [Trie.descend] at hd
    | leaf s' =>
      obtain ⟨wt', hi'⟩ := isTrie_leaf ht'
      cases code with
      | nil => simp only [Trie.descend, Trie.leaf.injEq] at hd; simp [hi', walkTo, hd]
      | cons b c => simp [Trie.descend] at hd
    | node a b =>
      obtain ⟨wt', l', r', hi', -, -⟩ := isTrie_node ht'
      simp only [hi']
      exact ih ht' hd

theorem lookup_eq_some {t : Trie} {code : Bits} {sym : Byte} :
    t.lookup code = some sym ↔ t.descend code = .leaf sym := by
  unfold Trie.lookup
  split <;> simp_all

/-- Codes one after another, walked from the root. -/
theorem walkTo_coded {arena : List Node} {root : Nat} {tl tr : Trie} (ht : IsTrie arena (some root) (.node tl tr))
    (coded : List (Byte × Bits)) (h : ∀ p ∈ coded, (Trie.node tl tr).lookup p.2 = some p.1) :
    walkTo arena root (coded.flatMap Prod.snd) root = some (coded.map Prod.fst, root) := by
  induction coded with
  | nil => rfl
  | cons p coded ih =>
    rw [List.flatMap_cons, List.map_cons]
    exact walkTo_append _ _ _ _ _ (walkTo_leaf root ht (lookup_eq_some.mp (h p (by simp))))
      (ih fun q hq => h q (by simp [hq]))

/-! ### The loop over the payload -/

/-- The loop over bytes that are not the last: the held byte and all but the last of those after it are walked whole
(R215, R217). -/
theorem unpackLoop_bytes (root : Nat) (bs : List Byte) (held : Byte) {tail : List SrcItem} {cur c₂ : Nat}
    {syms : List Byte} {rest : List SnkAnswer} {s : State} (ho : s.objects ≠ [])
    (hsrc : s.src = some (bs.map SrcItem.byte ++ tail))
    (hw : walkTo s.arena root ((held :: bs).dropLast.flatMap byteBits) cur = some (syms, c₂))
    (h : s.snk = some (okThen syms.length rest)) :
    unpackLoop root (bs.map SrcItem.byte ++ tail) held cur s
      = unpackLoop root tail ((held :: bs).getLast (by simp)) c₂ (appendedAll syms rest (tookAll bs.length tail s)) := by
  induction bs generalizing held cur syms s with
  | nil =>
    simp only [List.dropLast_singleton, List.flatMap_nil, walkTo, Option.some.injEq, Prod.mk.injEq] at hw
    obtain ⟨rfl, rfl⟩ := hw
    simp only [List.map_nil, List.nil_append, List.length_nil] at hsrc ⊢
    rw [tookAll_zero hsrc, appendedAll_nil (rest := rest) ho h]
    rfl
  | cons v bs ih =>
    rw [List.dropLast_cons_of_ne_nil (by simp), List.flatMap_cons] at hw
    obtain ⟨sa, ca, sb, h1, h2, rfl⟩ := walkTo_split _ _ _ _ _ hw
    rw [List.length_append, okThen_add] at h
    rw [List.map_cons, List.cons_append, unpackLoop,
      walkBits_ok (some v) (byteBits held) (s := tookByte (bs.map SrcItem.byte ++ tail) s) h1 ho h, bind_done]
    have := ih v (cur := ca) (syms := sb)
      (s := appendedAll sa (okThen sb.length rest) (tookByte (bs.map SrcItem.byte ++ tail) s))
      (by simp [appendedAll]) rfl h2 rfl
    rw [this, tookAll_appendedAll, appendedAll_appendedAll, tookAll_tookByte, List.length_cons,
      List.getLast_cons (List.cons_ne_nil v bs)]

theorem meaningfulBits_eq {payload : List Byte} (h : payload ≠ []) (m : Nat) :
    meaningfulBits payload m
      = payload.dropLast.flatMap byteBits ++ (byteBits (payload.getLast h)).take m := by
  have hl : (payload.dropLast.flatMap byteBits).length = 8 * (payload.length - 1) := by
    simp [List.length_flatMap, Nat.mul_comm]
  conv_lhs => rw [meaningfulBits, ← List.dropLast_append_getLast h]
  rw [List.flatMap_append, List.flatMap_singleton, List.take_append, hl,
    List.take_of_length_le (by rw [hl]; simp)]
  congr 2
  simp

/-- The source side after the loop stopped in the byte at place `q` of the one it holds and those that follow: that byte
and the lookahead are taken. -/
def stoppedAt (bs : List Byte) (later : List SrcItem) (q : Nat) (s : State) : State :=
  { s with src := some ((deliver bs .eof later).drop (q + 1)), srcPos := s.srcPos + BitVec.ofNat 64 (min (q + 1) bs.length) }

theorem stoppedAt_nil (later : List SrcItem) (s : State) : stoppedAt [] later 0 s = tookFinal later s := by
  simp [stoppedAt, deliver, tookFinal]

theorem stoppedAt_zero (v : Byte) (bs : List Byte) (later : List SrcItem) (s : State) :
    stoppedAt (v :: bs) later 0 s = tookByte (deliver bs .eof later) s := by
  simp [stoppedAt, deliver, tookByte]

theorem stoppedAt_succ (v : Byte) (bs : List Byte) (later : List SrcItem) (q : Nat) (s : State) :
    stoppedAt bs later q (tookByte (deliver bs .eof later) s) = stoppedAt (v :: bs) later (q + 1) s := by
  simp only [stoppedAt, tookByte, deliver, List.map_cons, List.cons_append, List.drop_succ_cons, List.length_cons]
  rw [Nat.add_min_add_right, BitVec.ofNat_add, BitVec.add_assoc, BitVec.add_comm 1]
  rfl

/-- The loop meets a bit that leads to no child, in whatever byte it stands: that byte and the lookahead are the last
taken (R216, R217). -/
theorem unpackLoop_undefined (root : Nat) (bs : List Byte) (held : Byte) (bits more : Bits) (b : Bool)
    {later : List SrcItem} {cur c₂ : Nat} {n : Node} {syms : List Byte} {rest : List SnkAnswer} {s : State}
    (ho : s.objects ≠ [])
    (hbits : meaningfulBits (held :: bs) s.lastBits.toNat = bits ++ b :: more)
    (hw : walkTo s.arena root bits cur = some (syms, c₂)) (hn : s.arena[c₂]? = some n) (hb : n.child b = none)
    (h : s.snk = some (okThen syms.length rest)) :
    unpackLoop root (deliver bs .eof later) held cur s
      = .raise .undefinedCode (appendedAll syms rest (stoppedAt bs later (bits.length / 8) s)) := by
  induction bs generalizing held cur bits syms s with
  | nil =>
    rw [meaningfulBits_eq (by simp)] at hbits
    simp only [List.dropLast_singleton, List.flatMap_nil, List.nil_append, List.getLast_singleton] at hbits
    have h0 : bits.length / 8 = 0 := by
      have := congrArg List.length hbits
      simp at this
      omega
    rw [deliver, List.map_nil, List.nil_append, unpackLoop, hbits,
      walkBits_undefined none bits more b (s := tookFinal later s) hw hn hb ho h, h0, stoppedAt_nil]
    rfl
  | cons v bs ih =>
    rw [meaningfulBits_eq (by simp), List.dropLast_cons_of_ne_nil (by simp), List.flatMap_cons,
      List.getLast_cons (List.cons_ne_nil v bs), List.append_assoc, ← meaningfulBits_eq] at hbits
    rw [show deliver (v :: bs) .eof later = .byte v :: deliver bs .eof later from rfl, unpackLoop]
    have inLater : ∀ as, bits = byteBits held ++ as →
        meaningfulBits (v :: bs) s.lastBits.toNat = as ++ b :: more →
        ((walkBits root (some v) (byteBits held) cur (tookByte (deliver bs .eof later) s)).bind fun cur s =>
            unpackLoop root (deliver bs .eof later) v cur s)
          = .raise .undefinedCode (appendedAll syms rest (stoppedAt (v :: bs) later (bits.length / 8) s)) := by
      rintro as rfl h2
      obtain ⟨sa, ca, sb, hwa, hwb, rfl⟩ := walkTo_split _ _ _ _ _ hw
      rw [List.length_append, okThen_add] at h
      have := ih v as (cur := ca) (syms := sb)
        (s := appendedAll sa (okThen sb.length rest) (tookByte (deliver bs .eof later) s))
        (by simp [appendedAll]) h2 hwb hn rfl
      rw [walkBits_ok (some v) (byteBits held) (s := tookByte (deliver bs .eof later) s) hwa ho h, bind_done, this,
        show ∀ q r u, stoppedAt bs later q (appendedAll sa r u) = appendedAll sa r (stoppedAt bs later q u) from
          fun _ _ _ => rfl,
        appendedAll_appendedAll, stoppedAt_succ, List.length_append, byteBits_length,
        show (8 + as.length) / 8 = as.length / 8 + 1 by omega]
    rcases List.append_eq_append_iff.mp hbits with ⟨as, h1, h2⟩ | ⟨as, h1, h2⟩
    · exact inLater as h1 h2
    · cases as with
      | nil => exact inLater [] (by simpa using h1.symm) (by simpa using h2.symm)
      | cons x as =>
        simp only [List.cons_append, List.cons.injEq] at h2
        obtain ⟨rfl, -⟩ := h2
        have h0 : bits.length / 8 = 0 := by
          have := congrArg List.length h1
          simp at this
          omega
        rw [h1, walkBits_undefined (some v) bits as b (s := tookByte (deliver bs .eof later) s) hw hn hb ho h, h0,
          stoppedAt_zero]
        rfl

/-- The loop meets a bit that leads to no child in the last byte of `held :: bs`, the byte `v` standing after it, however the
session goes on: `v`, the lookahead, is the last byte taken (R216, R217). -/
theorem unpackLoop_undefined_ahead (root : Nat) (bs : List Byte) (held v : Byte) (bits more : Bits) (b : Bool)
    {tail : List SrcItem} {cur c₂ : Nat} {n : Node} {syms : List Byte} {rest : List SnkAnswer} {s : State}
    (ho : s.objects ≠ []) (hsrc : s.src = some (bs.map SrcItem.byte ++ .byte v :: tail))
    (hbits : (held :: bs).flatMap byteBits = bits ++ b :: more) (hlen : bits.length / 8 = bs.length)
    (hw : walkTo s.arena root bits cur = some (syms, c₂)) (hn : s.arena[c₂]? = some n) (hb : n.child b = none)
    (h : s.snk = some (okThen syms.length rest)) :
    unpackLoop root (bs.map SrcItem.byte ++ .byte v :: tail) held cur s
      = .raise .undefinedCode (appendedAll syms rest (tookAll (bs.length + 1) tail s)) := by
  have hd : ((held :: bs).dropLast.flatMap byteBits).length = 8 * bs.length := by
    simp [List.length_flatMap, Nat.mul_comm]
  rw [← List.dropLast_append_getLast (List.cons_ne_nil held bs), List.flatMap_append, List.flatMap_singleton] at hbits
  obtain ⟨as, rfl, hlast⟩ : ∃ as, bits = (held :: bs).dropLast.flatMap byteBits ++ as ∧
      byteBits ((held :: bs).getLast (by simp)) = as ++ b :: more := by
    rcases List.append_eq_append_iff.mp hbits with ⟨as, h1, h2⟩ | ⟨as, h1, h2⟩
    · exact ⟨as, h1, h2⟩
    · have : as = [] := by
        have := congrArg List.length h1
        simp only [List.length_append, hd] at this
        exact List.length_eq_zero_iff.mp (by omega)
      subst this
      exact ⟨[], by simpa using h1.symm, by simpa using h2.symm⟩
  obtain ⟨sa, ca, sb, hwa, hwb, rfl⟩ := walkTo_split _ _ _ _ _ hw
  rw [List.length_append, okThen_add] at h
  rw [unpackLoop_bytes root bs held ho hsrc hwa h, unpackLoop, hlast,
    walkBits_undefined (some v) as more b
      (s := tookByte tail (appendedAll sa (okThen sb.length rest) (tookAll bs.length (.byte v :: tail) s)))
      hwb hn hb (by simp [appendedAll, tookByte]) rfl,
    show ∀ u, tookByte tail (appendedAll sa (okThen sb.length rest) u)
      = appendedAll sa (okThen sb.length rest) (tookByte tail u) from fun _ => rfl,
    appendedAll_appendedAll]
  simp [Flow.bind, tookByte, tookAll, BitVec.ofNat_add, BitVec.add_assoc]

theorem tookFinal_appendedAll_tookAll (n : Nat) (r later : List SrcItem) (bs : List Byte) (rest : List SnkAnswer)
    (s : State) :
    tookFinal later (appendedAll bs rest (tookAll n r s)) = appendedAll bs rest (tookAll n later s) := rfl

/-- The loop over a whole payload, up to the check at its end (R215, R217, R218). -/
theorem unpackLoop_eof (root : Nat) (bs : List Byte) (held : Byte) {later : List SrcItem} {cur c₂ : Nat}
    {syms : List Byte} {rest : List SnkAnswer} {s : State} (ho : s.objects ≠ [])
    (hsrc : s.src = some (deliver bs .eof later))
    (hw : walkTo s.arena root (meaningfulBits (held :: bs) s.lastBits.toNat) cur = some (syms, c₂))
    (h : s.snk = some (okThen syms.length rest)) :
    unpackLoop root (deliver bs .eof later) held cur s
      = unpackEnd root c₂ (appendedAll syms rest (tookAll bs.length later s)) := by
  rw [meaningfulBits_eq (by simp)] at hw
  obtain ⟨sa, ca, sb, h1, h2, rfl⟩ := walkTo_split _ _ _ _ _ hw
  rw [List.length_append, okThen_add] at h
  have e1 := unpackLoop_bytes root bs held (tail := .eof :: later) ho hsrc h1 h
  have e2 := walkBits_ok none ((byteBits ((held :: bs).getLast (by simp))).take s.lastBits.toNat) (rest := rest)
    (s := appendedAll sa (okThen sb.length rest) (tookAll bs.length later s)) h2 (by simp [appendedAll]) rfl
  rw [deliver, e1, unpackLoop, tookFinal_appendedAll_tookAll,
    show (appendedAll sa (okThen sb.length rest) (tookAll bs.length (.eof :: later) s)).lastBits = s.lastBits from rfl,
    e2, bind_done, appendedAll_appendedAll]

/-- The loop whose lookahead answers Fail: the byte it holds is not walked (R217). -/
theorem unpackLoop_fail (root : Nat) (bs : List Byte) (held : Byte) {later : List SrcItem} {cur c₂ : Nat}
    {syms : List Byte} {rest : List SnkAnswer} {s : State} (ho : s.objects ≠ [])
    (hsrc : s.src = some (deliver bs .fail later))
    (hw : walkTo s.arena root ((held :: bs).dropLast.flatMap byteBits) cur = some (syms, c₂))
    (h : s.snk = some (okThen syms.length rest)) :
    unpackLoop root (deliver bs .fail later) held cur s
      = .raise .sourceUnavailable (appendedAll syms rest (tookAll bs.length later s)) := by
  rw [deliver, unpackLoop_bytes root bs held (tail := .fail :: later) ho hsrc hw h, unpackLoop,
    tookFinal_appendedAll_tookAll]

/-- The body of UNPACK on a payload that has a byte (R215). -/
theorem unpackBody_bytes {s : State} {root : Nat} {v : Byte} {tail : List SrcItem} (hn : s.decNsym ≠ 0)
    (hr : s.root = some root) (hsrc : s.src = some (.byte v :: tail)) :
    unpackBody s = unpackLoop root tail v root (tookByte tail (snkOpen s)) := by
  simp only [unpackBody, snkOpen_decNsym, hn, if_false, withRoot, snkOpen_root, hr, srcItems, snkOpen_src, hsrc,
    Option.getD_some, unpackFirst]

end Sys2Proof.Machine
end

