-- ==== Sys2Proof/Tests/Slice0.lean ====
section
/-! SUPPORT. Tests of the model on the worked examples of spec/ (each names its rule or vector), the words of the opcode
map, the refusals of WellFormed, and a witness for the hypotheses of each statement. -/

set_option autoImplicit false

namespace Sys2Proof.Tests

open Sys2Proof.Machine

/-! ### Helpers -/

/-- The state after one step that runs the command's word. -/
def after (i : Instr) (s : State) : Option State :=
  match step (s.withFetchWord 32 (encode i).toNat) with
  | .next t => some t
  | _ => none

/-- The state after one step. -/
def stepped (s : State) : Option State :=
  match step s with
  | .next t => some t
  | _ => none

/-- A source session of bytes that ends with EOF. -/
def session (bs : List Byte) : List SrcItem := deliver bs .eof []

/-- The bytes of "AAAABBBCCD" (00_scope.md R14). -/
def scenario : List Byte := [0x41, 0x41, 0x41, 0x41, 0x42, 0x42, 0x42, 0x43, 0x43, 0x44]

/-- Its tree (R163's example). -/
def scenarioArena : List Node :=
  [.leaf 0x44 1, .leaf 0x43 2, .leaf 0x42 3, .leaf 0x41 4, .inner 3 (some 0) (some 1), .inner 6 (some 2) (some 4),
    .inner 10 (some 3) (some 5)]

/-- Its codes (R180's example). -/
def scenarioCodes : Table (Option Bits) :=
  tset (tset (tset (tset (Vector.replicate 256 none) 0x41 (some [false])) 0x42 (some [true, false]))
    0x43 (some [true, true, true])) 0x44 (some [true, true, false])

/-- Its header (R190's example). -/
def scenarioHeader : List Byte :=
  [0x04, 0x00, 0x41, 0x01, 0x00, 0x42, 0x02, 0x80, 0x43, 0x03, 0xE0, 0x44, 0x03, 0xC0, 0x00]

/-- Its container (R210's example). -/
def scenarioContainer : List Byte :=
  [0x04, 0x00, 0x41, 0x01, 0x00, 0x42, 0x02, 0x80, 0x43, 0x03, 0xE0, 0x44, 0x03, 0xC0, 0x03, 0x0A, 0xBF, 0xC0]

/-- Its decoder tree (R192's example). -/
def decoderArena : List Node :=
  [.inner 0 (some 1) (some 2), .leaf 0x41 0, .inner 0 (some 3) (some 4), .leaf 0x42 0, .inner 0 (some 6) (some 5),
    .leaf 0x43 0, .leaf 0x44 0]

/-! ### Decoding: each command's word written out from R100 and R102 -/

theorem test_decode_nop : decode 0b00000000000000000000000000000000 = .command .nop := by decide
theorem test_decode_count : decode 0b00000000000000000000000000000001 = .command .count := by decide
theorem test_decode_build : decode 0b00000000000000000000000000000010 = .command .build := by decide
theorem test_decode_assign : decode 0b00000000000000000000000000000011 = .command .assign := by decide
theorem test_decode_writeHdr : decode 0b00000000000000000000000000000100 = .command .writeHdr := by decide
theorem test_decode_pack : decode 0b00000000000000000000000000000101 = .command .pack := by decide
theorem test_decode_readHdr : decode 0b00000000000000000000000000000110 = .command .readHdr := by decide
theorem test_decode_unpack : decode 0b00000000000000000000000000000111 = .command .unpack := by decide
theorem test_decode_compress : decode 0b00000000000000000000000000001000 = .command .compress := by decide
theorem test_decode_decompress : decode 0b00000000000000000000000000001001 = .command .decompress := by decide
theorem test_decode_table_word : decodeTableWord 32 9 = some .decompress ∧ decodeTableWord 32 0x80000009 = none := by decide

/-! ### WellFormed: an ill-formed term for each check -/

theorem test_wf_reserved_op : wellFormedWord 0x0000000A = false := by decide
theorem test_wf_must_be_zero : wellFormedWord 0x00000011 = false := by decide
theorem test_wf_accepts : wellFormedWord 0x00000009 = true := by decide
theorem test_wf_commands :
    [Instr.nop, .count, .build, .assign, .writeHdr, .pack, .readHdr, .unpack, .compress, .decompress].all
      Instr.wellFormed = true := by decide
theorem test_wf_session_without_final : completeSession [.byte 1, .byte 2] = false := by decide
theorem test_wf_session_past_final : completeSession [.byte 1, .eof, .byte 2] = false := by decide
theorem test_wf_session : completeSession [.byte 1, .fail] = true := by decide

/-! ### The register port -/

/-- R273's example: `srst ; rd STATUS == 0 ; rd ID == 0x48550001`. -/
theorem test_soft_reset :
    (stepped { State.reset with cmd := 5, overrun := true, script := [.hostWrite 1 1] }).map
      (fun s => (regRead 3 s, regRead 0 s)) = some (0x00000000, 0x48550001) := by decide +kernel

/-- R133's example: `wr CMD, 0x10` gives ERR = 1 and ERRINFO = 0x0000000A. -/
theorem test_illegal_word :
    (stepped { State.reset.withFetchWord 32 0x10 with ieDone := true }).map
      (fun s => (regRead 3 s, regRead 4 s)) = some (0x00000004, 0x0000000A) := by decide +kernel

/-- R131: a CMD write while BUSY sets OVERRUN only. -/
theorem test_overrun :
    (stepped { State.reset with run := .accepted, cmd := 1, script := [.hostWrite 2 5] }).map
      (fun s => (regRead 2 s, s.overrun, s.run)) = some (1, true, .accepted) := by decide +kernel

/-! ### One step of each command -/

/-- R137's example: STATUS == 0x00000002. -/
theorem test_nop : (after .nop State.reset).map (regRead 3) = some 0x00000002 := by decide +kernel

/-- R150's example. -/
theorem test_count :
    (after .count { State.reset with srcNext := [session scenario] }).map
      (fun s => [regRead 5 s, regRead 6 s, tget s.w 0x41, tget s.w 0x42, tget s.w 0x43, tget s.w 0x44])
      = some [10, 4, 4, 3, 2, 1] := by decide +kernel

/-- R153: the partial counts after a source failure. -/
theorem test_count_fails :
    (after .count { State.reset with srcNext := [[.byte 7, .byte 7, .fail]] }).map
      (fun s => (regRead 5 s, tget s.w 7, regRead 6 s, s.fw, regRead 4 s)) = some (2, 2, 0, false, 0x101) := by
  decide +kernel

/-- R163's example, from its initial list on. -/
theorem test_merges : mergeLoop 3 (scenarioArena.take 4) [0, 1, 2, 3] = .ok (scenarioArena, [6]) := by decide +kernel

/-- R163 with two symbols of equal weight: the lower symbol is picked first and becomes the left child (R162, R164). -/
theorem test_build :
    (after .build { State.reset with fw := true, w := tset (tset (Vector.replicate 256 0) 0x42 1) 0x41 1 }).map
      (fun s => (s.arena, s.root, s.ft))
      = some ([.leaf 0x41 1, .leaf 0x42 1, .inner 2 (some 0) (some 1)], some 2, true) := by decide +kernel

/-- R180's example, with its reads of CODE_LEN and CODE_BITS0. -/
theorem test_assign :
    (after .assign { State.reset with ft := true, arena := scenarioArena, root := some 6, index := 0x43 }).map
      (fun s => (tget s.ct 0x41, tget s.ct 0x42, tget s.ct 0x44, regRead 16 s, regRead 17 s))
      = some (some [false], some [true, false], some [true, true, false], 0x103, 0xE0000000) := by decide +kernel

/-- R181: a single leaf has the code "0". -/
theorem test_assign_single :
    (after .assign { State.reset with ft := true, arena := [.leaf 0x5A 9], root := some 0 }).map
      (fun s => (tget s.ct 0x5A, tget s.ct 0x5B)) = some (some [false], none) := by decide +kernel

/-- R190's example. -/
theorem test_write_hdr :
    (after .writeHdr { State.reset with
        fc := true, ct := scenarioCodes, snkNext := [List.replicate 15 .ok] }).map
      (fun s => (s.objects, regRead 8 s, s.fh)) = some ([scenarioHeader], 15, true) := by decide +kernel

/-- R245: the third append fails. -/
theorem test_write_hdr_fails :
    (after .writeHdr { State.reset with fc := true, ct := scenarioCodes, snkNext := [[.ok, .ok, .fail]] }).map
      (fun s => (s.objects, regRead 8 s, s.fh, regRead 4 s)) = some ([[0x04, 0x00]], 0, false, 0x402) := by
  decide +kernel

/-- R210's example. -/
theorem test_pack :
    (after .pack { State.reset with
        fh := true, ct := scenarioCodes, headerEnd := 15, snkPos := 15, objects := [scenarioHeader]
        srcNext := [session scenario], snk := some (List.replicate 4 .ok) }).map
      (fun s => (s.objects, regRead 9 s, regRead 12 s)) = some ([scenarioContainer], 3, 18) := by decide +kernel

/-- R214: a byte with no code. -/
theorem test_pack_unknown_byte :
    (after .pack { State.reset with
        fh := true, ct := scenarioCodes, headerEnd := 15, snkPos := 15, objects := [scenarioHeader]
        srcNext := [session [0x41, 0x45]], snk := some (List.replicate 4 .ok) }).map
      (fun s => (s.objects, s.fh, regRead 4 s)) = some ([scenarioHeader], false, 0x507) := by decide +kernel

/-- R81, R280: a READ_HDR between WRITE_HDR and PACK, which leaves PAYLOAD_START = 3, does not move the patch. -/
theorem test_pack_after_read_hdr :
    (after .pack { State.reset with
        fh := true, ct := scenarioCodes, headerEnd := 15, payloadStart := 3, snkPos := 15, objects := [scenarioHeader]
        srcNext := [session scenario], snk := some (List.replicate 4 .ok) }).map
      (fun s => (s.objects, regRead 8 s)) = some ([scenarioContainer], 3) := by decide +kernel

/-- R192's example. -/
theorem test_read_hdr :
    (after .readHdr { State.reset with srcNext := [session scenarioContainer] }).map
      (fun s => (s.arena, regRead 7 s, regRead 9 s, regRead 8 s, regRead 10 s)) = some (decoderArena, 4, 3, 15, 15) := by
  decide +kernel

/-- R197: the code "0" and then "01" overlap. -/
theorem test_read_hdr_overlap :
    (after .readHdr { State.reset with srcNext := [session [0x02, 0x00, 0x41, 0x01, 0x00, 0x42, 0x02, 0x40, 0x08]] }).map
      (fun s => (regRead 4 s, s.fd)) = some (0x604, false) := by decide +kernel

/-- R215's example. -/
theorem test_unpack :
    (after .unpack { State.reset with
        fd := true, decNsym := 4, lastBits := 3, arena := decoderArena, root := some 0, srcPos := 15
        src := some (session [0x0A, 0xBF, 0xC0]), snkNext := [List.replicate 10 .ok] }).map
      (fun s => (s.objects, regRead 12 s, regRead 10 s)) = some ([scenario], 10, 18) := by decide +kernel

/-- R216: with the one code "0", a 1 bit has no child. -/
theorem test_unpack_undefined :
    (after .unpack { State.reset with
        fd := true, decNsym := 1, lastBits := 8, arena := [.inner 0 (some 1) none, .leaf 0x41 0], root := some 0
        src := some (session [0x20]), snkNext := [List.replicate 10 .ok] }).map
      (fun s => (s.objects, regRead 4 s)) = some ([[0x41, 0x41]], 0x706) := by decide +kernel

/-- R230 on a single repeated byte: the code is "0" (R181), three payload bits stand in one byte (R210). -/
theorem test_compress :
    (after .compress { State.reset with
        srcNext := [session [0x41, 0x41, 0x41], session [0x41, 0x41, 0x41]], snkNext := [List.replicate 8 .ok] }).map
      (fun s => (s.objects, regRead 3 s, regRead 5 s))
      = some ([[0x01, 0x00, 0x41, 0x01, 0x00, 0x03, 0x00]], 0x00050702, 3) := by decide +kernel

/-- R231's example, with its reads. -/
theorem test_decompress :
    (after .decompress { State.reset with
        srcNext := [session scenarioContainer], snkNext := [List.replicate 10 .ok] }).map
      (fun s => (s.objects, regRead 3 s, regRead 7 s)) = some ([scenario], 0x00070002, 4) := by decide +kernel

/-- R135, 90_conflicts.md C12: a DECOMPRESS whose header is refused clears F_T and F_D, and keeps F_H and F_C. -/
theorem test_decompress_refused :
    (after .decompress { State.reset with
        fw := true, fc := true, fh := true, fd := true, srcNext := [session [0, 0, 9]] }).map
      (fun s => (s.fc, s.ft, s.fh, s.fd, regRead 4 s)) = some (true, false, true, false, 0x603) := by decide +kernel

/-! ### Witnesses: concrete states and operands that meet each statement's hypotheses, at the ends of their ranges -/

/-- An idle state, and one that is BUSY. -/
def idleState : State := State.reset
def busyState : State := accept 8 State.reset

theorem witness_CodeFieldReadsBack :
    (List.replicate 255 true).length = (255 : Byte).toNat ∧
      (List.replicate 32 (0xFF : Byte)).length = ((List.replicate 255 true).length + 7) / 8 ∧
      ([] : Bits).length = (0 : Byte).toNat ∧ ([] : List Byte).length = (([] : Bits).length + 7) / 8 := by
  decide +kernel

theorem witness_StepRunsTheAcceptedCommand :
    busyState.run = .accepted ∧ decode busyState.cmd = .command .compress ∧ busyState.script = [] ∧
      (State.reset.withFetchWord 32 8).run = .accepted ∧ decode (State.reset.withFetchWord 32 8).cmd = .command .compress ∧
      (State.reset.withFetchWord 32 8).script = [.engine] := by decide +kernel

theorem witness_CommandWrites : idleState.busy = false ∧ busyState.busy = true := by decide

theorem witness_IllegalWordRaises_mustBeZero :
    ∃ s : State, s.busy = false ∧ (0x10 : Word).extractLsb' 4 28 ≠ 0 ∧ s.script = [.hostWrite 2 0x10, .engine] :=
  ⟨{ State.reset with script := [.hostWrite 2 0x10, .engine] }, by decide, by decide, rfl⟩

theorem witness_IllegalWordRaises_reservedOp :
    ∃ s : State, s.busy = false ∧ 10 ≤ ((0xA : Word).extractLsb' 0 4).toNat ∧ s.script = [.hostWrite 2 0xA, .engine] :=
  ⟨{ State.reset with script := [.hostWrite 2 0xA, .engine] }, by decide, by decide, rfl⟩

theorem witness_SequenceErrors :
    State.reset.fw = false ∧ State.reset.ft = false ∧ State.reset.fc = false ∧ State.reset.fh = false ∧
      State.reset.fd = false := by decide

theorem witness_ReservedAndReadOnlyWords :
    (0 : BitVec 6) ≠ 1 ∧ (0 : BitVec 6) ≠ 2 ∧ (0 : BitVec 6) ≠ 3 ∧ (0 : BitVec 6) ≠ 14 ∧
      (63 : BitVec 6) ≠ 14 ∧ 25 ≤ (25 : BitVec 6).toNat ∧ 25 ≤ (63 : BitVec 6).toNat ∧ idleState.busy = false := by decide

theorem witness_ControlStatusIndexWrites :
    (6 : Word).getLsbD 0 = false ∧ (0xFFFFFFFF : Word).getLsbD 0 = true := by decide

theorem witness_StatusReadsItsFields : ({ State.reset with done := true, ieDone := true } : State).busy = false := by decide

theorem witness_RegistersReadTheirState :
    ∃ (s t : State) (code : Bits), s.busy = false ∧ tget s.ct s.index = some code ∧ code.length = 255 ∧
      t.busy = false ∧ tget t.ct t.index = none :=
  ⟨{ State.reset with index := 3, ct := tset State.reset.ct 3 (some (List.replicate 255 true)) }, State.reset,
    List.replicate 255 true, by decide, by decide +kernel, List.length_replicate, by decide, by decide +kernel⟩

theorem witness_CodeBitsReadTheCode : idleState.busy = false ∧ 7 < 8 ∧ 31 < 32 := by decide

theorem witness_ReadsHaveNoSideEffect : idleState.busy = false := by decide

theorem witness_HostWritesKeepTheTables :
    ¬ ((1 : BitVec 6) = 1 ∧ (6 : Word).getLsbD 0 = true) ∧ ¬ ((2 : BitVec 6) = 1 ∧ (1 : Word).getLsbD 0 = true) := by decide

theorem witness_ResetAbortsTheRun : ∃ t, step { busyState with script := [.rst] } = .next t := ⟨_, rfl⟩

theorem witness_CountCompletes :
    ∃ (s : State) (bs : List Byte), s.srcNext = deliver bs .eof [] :: [] ∧ bs.length < 2 ^ 32 :=
  ⟨{ State.reset with srcNext := [session scenario] }, scenario, rfl, by decide⟩

theorem witness_CountSourceFails :
    ∃ (s : State) (bs : List Byte), s.srcNext = deliver bs .fail [] :: [] ∧ bs.length < 2 ^ 32 :=
  ⟨{ State.reset with srcNext := [[.byte 7, .fail]] }, [7], rfl, by decide⟩

theorem witness_CountOverflows :
    ∃ (s : State) (bs : List Byte), s.srcNext = (bs.map SrcItem.byte ++ .byte 1 :: []) :: [] ∧ bs.length = 2 ^ 32 - 1 :=
  ⟨{ State.reset with srcNext := [(List.replicate (2 ^ 32 - 1) 0).map SrcItem.byte ++ [.byte 1]] },
    List.replicate (2 ^ 32 - 1) 0, rfl, List.length_replicate⟩

theorem witness_MergeStep :
    (nodeWeight scenarioArena 5).toNat + (nodeWeight scenarioArena 3).toNat < 2 ^ 32 ∧
      (nodeWeight [.leaf 1 0xFFFFFFFE, .leaf 2 1] 0).toNat + (nodeWeight [.leaf 1 0xFFFFFFFE, .leaf 2 1] 1).toNat
        < 2 ^ 32 := by decide

/-- A weight table with one weight at its largest value. -/
def oneWeight : Table Word := tset (Vector.replicate 256 0) 0x41 0xFFFFFFFF

theorem witness_BuildCompletes :
    ∃ s t : State, s.fw = true ∧ weightSum s.w < 2 ^ 32 ∧ weighted s.w ≠ [] ∧
      t.fw = true ∧ weightSum t.w < 2 ^ 32 ∧ weighted t.w = [] :=
  ⟨{ State.reset with fw := true, w := oneWeight }, { State.reset with fw := true }, rfl, by decide +kernel,
    by decide +kernel, rfl, by decide +kernel, by decide +kernel⟩

/-- The tree of `scenarioArena`. -/
def scenarioTree : Trie := .node (.leaf 0x41) (.node (.leaf 0x42) (.node (.leaf 0x44) (.leaf 0x43)))

theorem scenario_isTrie : IsTrie scenarioArena (some 6) scenarioTree :=
  .node rfl (.leaf rfl) (.node rfl (.leaf rfl) (.node rfl (.leaf rfl) (.leaf rfl)))

theorem witness_AssignCompletes :
    ∃ s t : State, s.ft = true ∧ IsTrie s.arena s.root scenarioTree ∧ scenarioTree.full = true ∧
      scenarioTree.nodes ≤ s.arena.length ∧ scenarioTree.depth ≤ 255 ∧ scenarioTree.symbols.Nodup ∧
      t.ft = true ∧ IsTrie t.arena t.root .none ∧ Trie.none.nodes ≤ t.arena.length ∧ Trie.none.symbols.Nodup :=
  ⟨{ State.reset with ft := true, arena := scenarioArena, root := some 6 }, { State.reset with ft := true }, rfl,
    scenario_isTrie, by decide, by decide, by decide, by decide, rfl, .none, by decide, by decide⟩

theorem witness_AssignCompletes_singleLeaf :
    ∃ s : State, s.ft = true ∧ IsTrie s.arena s.root (.leaf 9) ∧ (Trie.leaf 9).full = true ∧
      (Trie.leaf 9).nodes ≤ s.arena.length ∧ (Trie.leaf 9).depth ≤ 255 ∧ (Trie.leaf 9).symbols.Nodup :=
  ⟨{ State.reset with ft := true, arena := [.leaf 9 1], root := some 0 }, rfl, .leaf rfl, by decide, by decide, by decide,
    by decide⟩

theorem witness_AssignedCodesArePrefixFree :
    ∃ s : State, s.ft = true ∧ IsTrie s.arena s.root scenarioTree ∧ scenarioTree.full = true ∧
      scenarioTree.nodes ≤ s.arena.length ∧ scenarioTree.depth ≤ 255 ∧ scenarioTree.symbols.Nodup :=
  ⟨{ State.reset with ft := true, arena := scenarioArena, root := some 6 }, rfl, scenario_isTrie, by decide, by decide,
    by decide, by decide⟩

theorem scenario_headerBytes : headerBytes scenarioCodes = scenarioHeader := by decide +kernel

theorem witness_WriteHdrCompletes :
    ∃ s : State, s.fc = true ∧ 4 = (symbols.filter fun b => (tget s.ct b).isSome).length ∧
      scenarioHeader = BitVec.ofNat 8 (4 % 256) :: BitVec.ofNat 8 (4 / 256) ::
        (symbols.flatMap fun b => match tget s.ct b with
          | some code => b :: BitVec.ofNat 8 code.length :: codeField code
          | none => []) ++ [0x00] ∧
      s.snkNext = okThen scenarioHeader.length [] :: [] :=
  ⟨{ State.reset with fc := true, ct := scenarioCodes, snkNext := [okThen 15 []] }, rfl, by decide +kernel,
    by decide +kernel, rfl⟩

theorem witness_WriteHdrSinkFails :
    ∃ s : State, s.fc = true ∧ 14 < (headerBytes s.ct).length ∧ 0 < (headerBytes s.ct).length ∧
      s.snkNext = okThen 14 (.fail :: []) :: [] := by
  refine ⟨{ State.reset with fc := true, ct := scenarioCodes, snkNext := [okThen 14 [.fail]] }, rfl, ?_, ?_, rfl⟩ <;>
    simp only [scenario_headerBytes] <;> decide

/-- The records of `scenarioHeader`. -/
def scenarioRecords : List HdrRecord :=
  [⟨0x41, 1, [0x00]⟩, ⟨0x42, 2, [0x80]⟩, ⟨0x43, 3, [0xE0]⟩, ⟨0x44, 3, [0xC0]⟩]

theorem scenario_records : GoodRecords scenarioRecords := ⟨by decide, by decide, by decide, by decide +kernel⟩

theorem no_records : GoodRecords [] := ⟨by decide, by decide, by decide, by decide⟩

theorem scenario_header : headerOf scenarioRecords 3 = scenarioContainer.take 15 := by decide

theorem witness_ReadHdrCompletes :
    ∃ s t : State, GoodRecords scenarioRecords ∧ 1 ≤ (1 : Byte).toNat ∧ (8 : Byte).toNat ≤ 8 ∧
      s.srcNext = ((headerOf scenarioRecords 8).map SrcItem.byte ++ [.byte 0, .eof]) :: [] ∧
      GoodRecords [] ∧ t.srcNext = ((headerOf [] 1).map SrcItem.byte ++ []) :: [] :=
  ⟨{ State.reset with srcNext := [(headerOf scenarioRecords 8).map SrcItem.byte ++ [.byte 0, .eof]] },
    { State.reset with srcNext := [(headerOf [] 1).map SrcItem.byte] }, scenario_records, by decide, by decide, rfl,
    no_records, rfl⟩

theorem witness_ReadHdrRefusesTheCount :
    ∃ s : State, 256 < countOfBytes 1 1 ∧ ¬ 256 < countOfBytes 0 1 ∧ s.srcNext = (.byte 1 :: .byte 1 :: []) :: [] :=
  ⟨{ State.reset with srcNext := [[.byte 1, .byte 1]] }, by decide, by decide, rfl⟩

theorem witness_ReadHdrRefusesTheRecord :
    ∃ s t : State, GoodRecords scenarioRecords ∧ scenarioRecords.length < 5 ∧ 5 ≤ 256 ∧ (0 : Byte) = 0 ∧
      s.srcNext = ((countBytes 5 ++ scenarioRecords.flatMap HdrRecord.bytes ++ [0x45, 0]).map SrcItem.byte ++ []) :: [] ∧
      (0x44 : Byte) ∈ scenarioRecords.map HdrRecord.sym ∧
      t.srcNext
        = ((countBytes 256 ++ scenarioRecords.flatMap HdrRecord.bytes ++ [0x44, 7]).map SrcItem.byte ++ []) :: [] :=
  ⟨{ State.reset with
      srcNext := [(countBytes 5 ++ scenarioRecords.flatMap HdrRecord.bytes ++ [0x45, 0]).map SrcItem.byte ++ []] },
    { State.reset with
      srcNext := [(countBytes 256 ++ scenarioRecords.flatMap HdrRecord.bytes ++ [0x44, 7]).map SrcItem.byte ++ []] },
    scenario_records, by decide, by decide, rfl, rfl, by decide, rfl⟩

theorem witness_ReadHdrDetectsOverlap :
    ∃ (s : State) (r q : HdrRecord), GoodRecords scenarioRecords ∧ scenarioRecords.length < 5 ∧ r.ok = true ∧
      r.sym ∉ scenarioRecords.map HdrRecord.sym ∧ q ∈ scenarioRecords ∧ q.code <+: r.code ∧
      s.srcNext
        = ((countBytes 5 ++ scenarioRecords.flatMap HdrRecord.bytes ++ r.bytes).map SrcItem.byte ++ []) :: [] :=
  ⟨{ State.reset with
      srcNext := [(countBytes 5 ++ scenarioRecords.flatMap HdrRecord.bytes ++ [0x45, 2, 0x7F]).map SrcItem.byte ++ []] },
    ⟨0x45, 2, [0x7F]⟩, ⟨0x41, 1, [0x00]⟩, scenario_records, by decide, by decide, by decide, by decide, by decide, rfl⟩

theorem witness_ReadHdrDetectsOverlap_shorter :
    ∃ (s : State) (r q : HdrRecord), GoodRecords [q] ∧ [q].length < 2 ∧ r.ok = true ∧ r.sym ∉ [q].map HdrRecord.sym ∧
      r.code <+: q.code ∧ r.code ≠ q.code ∧
      s.srcNext = ((countBytes 2 ++ [q].flatMap HdrRecord.bytes ++ r.bytes).map SrcItem.byte ++ []) :: [] :=
  ⟨{ State.reset with
      srcNext := [(countBytes 2 ++ [1, 9, 0xFF, 0x80] ++ [2, 8, 0xFF]).map SrcItem.byte ++ []] },
    ⟨2, 8, [0xFF]⟩, ⟨1, 9, [0xFF, 0x80]⟩, ⟨by decide, by decide, by decide, by decide⟩, by decide, by decide, by decide,
    by decide, by decide, rfl⟩

theorem witness_ReadHdrRefusesTheMeaningfulBits :
    ∃ s t : State, GoodRecords scenarioRecords ∧ (0 : Byte).toNat < 1 ∧ 8 < (9 : Byte).toNat ∧
      s.srcNext = ((headerOf scenarioRecords 0).map SrcItem.byte ++ []) :: [] ∧
      t.srcNext = ((headerOf scenarioRecords 9).map SrcItem.byte ++ []) :: [] :=
  ⟨{ State.reset with srcNext := [(headerOf scenarioRecords 0).map SrcItem.byte ++ []] },
    { State.reset with srcNext := [(headerOf scenarioRecords 9).map SrcItem.byte ++ []] },
    scenario_records, by decide, by decide, rfl, rfl⟩

theorem witness_ReadHdrCutShort :
    ∃ s t : State, CutHeader [0x03] ∧ CutHeader [] ∧ CutHeader ([0x00, 0x00] ++ [] ++ []) ∧
      CutHeader ([3, 0] ++ [1, 1, 0x00, 2, 1, 0x80] ++ []) ∧ CutHeader ([3, 0] ++ [1, 1, 0x00, 2, 1, 0x80] ++ [5]) ∧
      CutHeader ([0, 1] ++ [1, 1, 0x00, 2, 1, 0x80] ++ [5, 9, 0xFF]) ∧
      s.srcNext = deliver [0x03] .eof [] :: [] ∧ t.srcNext = deliver [] .fail [] :: [] := by
  have two : GoodRecords [⟨1, 1, [0x00]⟩, ⟨2, 1, [0x80]⟩] := ⟨by decide, by decide, by decide, by decide⟩
  exact ⟨{ State.reset with srcNext := [deliver [0x03] .eof []] }, { State.reset with srcNext := [deliver [] .fail []] },
    .inl (by decide), .inl (by decide), .inr ⟨0, [], [], no_records, by decide, rfl, .inl ⟨rfl, by decide⟩⟩,
    .inr ⟨3, _, [], two, by decide, rfl, .inl ⟨rfl, by decide⟩⟩,
    .inr ⟨3, _, [5], two, by decide, rfl, .inr ⟨.inl ⟨5, rfl⟩, by decide⟩⟩,
    .inr ⟨256, _, [5, 9, 0xFF], two, by decide, rfl,
      .inr ⟨.inr ⟨5, 9, [0xFF], rfl, by decide, by decide, by decide⟩, by decide⟩⟩,
    rfl, rfl⟩

/-- Whether an outcome is the end of a run with success, and the state after it. -/
def ends (o : Host.Outcome State Fault Refusal) : Bool :=
  match o with
  | .next t => !t.busy && t.done
  | _ => false

def nextOf (o : Host.Outcome State Fault Refusal) : State :=
  match o with
  | .next t => t
  | _ => State.reset

theorem of_ends {o : Host.Outcome State Fault Refusal} (h : ends o = true) :
    o = .next (nextOf o) ∧ (nextOf o).busy = false ∧ (nextOf o).done = true := by
  cases o <;> simp_all [ends, nextOf]

theorem of_nextOf {o : Host.Outcome State Fault Refusal}
    (h : (match o with | .next t => !t.busy | _ => false) = true) : o = .next (nextOf o) ∧ (nextOf o).busy = false := by
  cases o <;> simp_all [nextOf]

/-- A state in which PACK may run on `scenario`, with the header's object and the given `headerEnd`. -/
def packState (start : Word) (answers : List SnkAnswer) : State :=
  { State.reset with
    fh := true, ct := scenarioCodes, headerEnd := start, snkPos := 15, objects := [scenarioHeader]
    srcNext := [session scenario], snk := some answers }

theorem scenario_coded : ∀ b ∈ scenario, tget scenarioCodes b ≠ none := by decide +kernel

theorem scenario_bits : (payloadBits scenarioCodes scenario).length = 19 := by decide +kernel

theorem witness_PackCompletes :
    ∃ s : State, s.fh = true ∧ s.srcNext = deliver scenario .eof [] :: [] ∧ (∀ b ∈ scenario, tget s.ct b ≠ none) ∧
      s.objects = scenarioHeader :: [] ∧
      s.snk = some (okThen (((payloadBits s.ct scenario).length + 7) / 8 + 1) []) ∧ s.headerEnd ≠ 0 ∧
      s.headerEnd.toNat = scenarioHeader.length + ((payloadBits s.ct scenario).length + 7) / 8 := by
  refine ⟨packState 18 (okThen 4 []), rfl, rfl, scenario_coded, rfl, ?_, by decide, ?_⟩
  · simp only [packState, scenario_bits]
  · simp only [packState, scenario_bits]; decide

/-- A state in which WRITE_HDR may run, with a header that READ_HDR refuses to come. -/
def headerState : State :=
  { State.reset with
    fc := true, ct := scenarioCodes, snkNext := [okThen 19 []], srcNext := [session [0, 0, 9], session scenario] }

/-- The states after WRITE_HDR and after the READ_HDR that follows. -/
def headerWritten : State := nextOf (exec .writeHdr headerState)
def headerRefused : State := nextOf (exec .readHdr (accept (encode .readHdr) headerWritten))

theorem scenario_bounded : CodesBounded scenarioCodes := by
  have h : ∀ b : Byte, ((tget scenarioCodes b).all fun c => decide (1 ≤ c.length ∧ c.length ≤ 255)) = true := by
    decide +kernel
  intro b c hc
  have := h b
  rw [hc] at this
  exact of_decide_eq_true this

theorem witness_PackAfterReadHdr :
    headerState.fc = true ∧ CodesBounded headerState.ct ∧
      headerState.snkNext = okThen ((headerBytes headerState.ct).length
        + (((payloadBits headerState.ct scenario).length + 7) / 8 + 1)) [] :: [] ∧
      exec .writeHdr headerState = .next headerWritten ∧
      exec .readHdr (accept (encode .readHdr) headerWritten) = .next headerRefused ∧
      headerRefused.busy = false ∧ headerRefused.payloadStart = 0 ∧
      headerRefused.srcNext = deliver scenario .eof [] :: [] ∧ (∀ b ∈ scenario, tget headerState.ct b ≠ none) := by
  refine ⟨rfl, scenario_bounded, ?_, (of_nextOf (by decide +kernel)).1, (of_nextOf (by decide +kernel)).1,
    by decide +kernel, by decide +kernel, by decide +kernel, scenario_coded⟩
  simp only [headerState, scenario_headerBytes, scenario_bits]; rfl

theorem witness_PackStopsInTheSecondPass :
    ∃ s t : State, s.fh = true ∧ (∀ b ∈ scenario, tget s.ct b ≠ none) ∧ s.objects = scenarioHeader :: [] ∧
      s.snk = some (okThen ((payloadBits s.ct scenario).length / 8) []) ∧ tget s.ct 0x45 = none ∧
      s.srcNext = (scenario.map SrcItem.byte ++ .byte 0x45 :: []) :: [] ∧
      t.srcNext = deliver scenario .fail [] :: [] := by
  refine ⟨{ packState 15 (okThen 2 []) with srcNext := [scenario.map SrcItem.byte ++ [.byte 0x45]] },
    { packState 15 (okThen 2 []) with srcNext := [deliver scenario .fail []] }, rfl, scenario_coded, rfl, ?_,
    by decide +kernel, rfl, rfl⟩
  simp only [packState, scenario_bits]

theorem witness_PackSinkFails :
    ∃ s t u : State, s.fh = true ∧ (∀ b ∈ [0x41, 0x41, 0x42, 0x42], tget s.ct b ≠ none) ∧ s.objects = scenarioHeader :: [] ∧
      tget s.ct 0x43 = some [true, true, true] ∧
      (payloadBits s.ct [0x41, 0x41, 0x42, 0x42]).length / 8 ≤ 0 ∧
      8 * (0 + 1) ≤ (payloadBits s.ct [0x41, 0x41, 0x42, 0x42]).length + [true, true, true].length ∧
      s.srcNext = (([0x41, 0x41, 0x42, 0x42] : List Byte).map SrcItem.byte ++ .byte 0x43 :: []) :: [] ∧
      s.snk = some (okThen 0 (.fail :: [])) ∧
      t.srcNext = deliver scenario .eof [] :: [] ∧ (payloadBits t.ct scenario).length % 8 ≠ 0 ∧
      t.snk = some (okThen ((payloadBits t.ct scenario).length / 8) (.fail :: [])) ∧
      u.srcNext = deliver scenario .eof [] :: [] ∧
      u.snk = some (okThen (((payloadBits u.ct scenario).length + 7) / 8) (.fail :: [])) ∧
      u.headerEnd ≠ 0 ∧ u.headerEnd.toNat = scenarioHeader.length + ((payloadBits u.ct scenario).length + 7) / 8 := by
  refine ⟨{ packState 15 [.fail] with srcNext := [[.byte 0x41, .byte 0x41, .byte 0x42, .byte 0x42, .byte 0x43]] },
    packState 15 (okThen 2 [.fail]), packState 18 (okThen 3 [.fail]), rfl, by decide +kernel, rfl,
    by decide +kernel, by decide +kernel, by decide +kernel, rfl, rfl, rfl, ?_, ?_, rfl, ?_, by decide, ?_⟩ <;>
    simp only [packState, scenario_bits] <;> decide

/-- The decoder tree of `decoderArena`. -/
def decoderTree : Trie := .node (.leaf 0x41) (.node (.leaf 0x42) (.node (.leaf 0x44) (.leaf 0x43)))

theorem decoder_isTrie : IsTrie decoderArena (some 0) decoderTree :=
  .node rfl (.leaf rfl) (.node rfl (.leaf rfl) (.node rfl (.leaf rfl) (.leaf rfl)))

/-- The one-code tree: only "0" leads to a leaf. -/
def oneCodeArena : List Node := [.inner 0 (some 1) none, .leaf 0x41 0]

theorem oneCode_isTrie : IsTrie oneCodeArena (some 0) (.node (.leaf 0x41) .none) := .node rfl (.leaf rfl) .none

/-- A state in which UNPACK may run. -/
def unpackState (arena : List Node) (m : BitVec 4) (src : List SrcItem) (answers : List SnkAnswer) : State :=
  { State.reset with
    fd := true, decNsym := 1, lastBits := m, arena := arena, root := some 0, src := some src, snkNext := [answers] }

theorem witness_UnpackCompletes :
    ∃ (s : State) (coded : List (Byte × Bits)), s.fd = true ∧ s.decNsym ≠ 0 ∧ IsTrie s.arena s.root decoderTree ∧
      (∀ p ∈ coded, decoderTree.lookup p.2 = some p.1) ∧
      meaningfulBits [0x0A, 0xBF, 0xC0] s.lastBits.toNat = coded.flatMap Prod.snd ∧
      1 ≤ s.lastBits.toNat ∧ s.lastBits.toNat ≤ 8 ∧
      s.src = some (deliver [0x0A, 0xBF, 0xC0] .eof []) ∧ s.snkNext = okThen coded.length [] :: [] :=
  ⟨unpackState decoderArena 3 (session [0x0A, 0xBF, 0xC0]) (okThen 10 []),
    [(0x41, [false]), (0x41, [false]), (0x41, [false]), (0x41, [false]), (0x42, [true, false]), (0x42, [true, false]),
      (0x42, [true, false]), (0x43, [true, true, true]), (0x43, [true, true, true]), (0x44, [true, true, false])],
    rfl, by decide, decoder_isTrie, by decide, by decide, by decide, by decide, rfl, rfl⟩

theorem witness_UnpackOfNothing :
    ∃ s t : State, s.fd = true ∧ s.decNsym = 0 ∧
      t.fd = true ∧ t.decNsym ≠ 0 ∧ t.root = some 0 ∧ t.src = some (.eof :: []) :=
  ⟨{ State.reset with fd := true }, unpackState oneCodeArena 8 [.eof] [], rfl, rfl, rfl, by decide, rfl, rfl⟩

theorem witness_UnpackUndefinedPath :
    ∃ (s t : State) (coded : List (Byte × Bits)), s.fd = true ∧ s.decNsym ≠ 0 ∧
      IsTrie s.arena s.root (.node (.leaf 0x41) .none) ∧
      (∀ p ∈ coded, (Trie.node (.leaf 0x41) .none).lookup p.2 = some p.1) ∧
      (Trie.node (.leaf 0x41) .none).descend [] = .node (.leaf 0x41) .none ∧
      (if true then Trie.none else .leaf 0x41) = Trie.none ∧
      meaningfulBits [0x20] s.lastBits.toNat = coded.flatMap Prod.snd ++ [] ++ true :: List.replicate 5 false ∧
      1 ≤ s.lastBits.toNat ∧ s.lastBits.toNat ≤ 8 ∧ 0 = (coded.flatMap Prod.snd ++ []).length / 8 ∧
      s.src = some (deliver [0x20] .eof []) ∧ s.snkNext = okThen coded.length [] :: [] ∧
      t.fd = true ∧ t.decNsym ≠ 0 ∧ IsTrie t.arena t.root (.node (.leaf 0x41) .none) ∧
      ([0x20, 0xFF] : List Byte).flatMap byteBits
        = coded.flatMap Prod.snd ++ [] ++ true :: (List.replicate 5 false ++ List.replicate 8 true) ∧
      t.src = some (([0x20, 0xFF] : List Byte).map SrcItem.byte ++ [.fail]) ∧
      0 + 1 < ([0x20, 0xFF] : List Byte).length ∧ t.snkNext = okThen coded.length [] :: [] :=
  ⟨unpackState oneCodeArena 8 (session [0x20]) (okThen 2 []),
    unpackState oneCodeArena 8 [.byte 0x20, .byte 0xFF, .fail] (okThen 2 []), [(0x41, [false]), (0x41, [false])], rfl,
    by decide, oneCode_isTrie, by decide, rfl, rfl, by decide, by decide, by decide, by decide, rfl, rfl, rfl, by decide,
    oneCode_isTrie, by decide, rfl, by decide, rfl⟩

theorem witness_UnpackTruncated :
    ∃ (s : State) (coded : List (Byte × Bits)), s.fd = true ∧ s.decNsym ≠ 0 ∧ IsTrie s.arena s.root decoderTree ∧
      (∀ p ∈ coded, decoderTree.lookup p.2 = some p.1) ∧
      decoderTree.descend [true, true] = .node (.leaf 0x44) (.leaf 0x43) ∧
      meaningfulBits [0x60] s.lastBits.toNat = coded.flatMap Prod.snd ++ [true, true] ∧
      1 ≤ s.lastBits.toNat ∧ s.lastBits.toNat ≤ 8 ∧
      s.src = some (deliver [0x60] .eof []) ∧ s.snkNext = okThen coded.length [] :: [] :=
  ⟨unpackState decoderArena 3 (session [0x60]) (okThen 1 []), [(0x41, [false])], rfl, by decide, decoder_isTrie,
    by decide, rfl, by decide, by decide, by decide, rfl, rfl⟩

theorem witness_UnpackPortFails :
    ∃ (s t u v : State) (coded : List (Byte × Bits)), s.fd = true ∧ s.decNsym ≠ 0 ∧ IsTrie s.arena s.root decoderTree ∧
      (∀ p ∈ coded, decoderTree.lookup p.2 = some p.1) ∧
      decoderTree.descend [true] = .node (.leaf 0x42) (.node (.leaf 0x44) (.leaf 0x43)) ∧
      ([0x01] : List Byte).flatMap byteBits = coded.flatMap Prod.snd ++ [true] ∧
      s.src = some (deliver ([0x01] ++ [0xFF]) .fail []) ∧ s.snkNext = okThen coded.length [] :: [] ∧
      t.fd = true ∧ t.decNsym ≠ 0 ∧ IsTrie t.arena t.root decoderTree ∧ t.src = some (.fail :: []) ∧
      u.fd = true ∧ u.decNsym ≠ 0 ∧ IsTrie u.arena u.root decoderTree ∧ 6 < coded.length ∧
      meaningfulBits [0x01] u.lastBits.toNat = coded.flatMap Prod.snd ++ [true] ∧
      1 ≤ u.lastBits.toNat ∧ u.lastBits.toNat ≤ 8 ∧
      u.src = some (deliver [0x01] .eof []) ∧ u.snkNext = okThen 6 (.fail :: []) :: [] ∧
      0 = (((coded.take (6 + 1)).flatMap Prod.snd).length - 1) / 8 ∧
      v.fd = true ∧ v.decNsym ≠ 0 ∧ IsTrie v.arena v.root decoderTree ∧
      ([0x01, 0xFF] : List Byte).flatMap byteBits = coded.flatMap Prod.snd ++ List.replicate 9 true ∧
      v.src = some (([0x01, 0xFF] : List Byte).map SrcItem.byte ++ [.fail]) ∧ v.snkNext = okThen 6 (.fail :: []) :: [] ∧
      0 + 1 < ([0x01, 0xFF] : List Byte).length :=
  ⟨unpackState decoderArena 3 [.byte 0x01, .byte 0xFF, .fail] (okThen 7 []), unpackState decoderArena 3 [.fail] [],
    unpackState decoderArena 8 [.byte 0x01, .eof] (okThen 6 [.fail]),
    unpackState decoderArena 8 [.byte 0x01, .byte 0xFF, .fail] (okThen 6 [.fail]), List.replicate 7 (0x41, [false]), rfl,
    by decide, decoder_isTrie, by decide, rfl, by decide, rfl, rfl, rfl, by decide, decoder_isTrie, rfl, rfl, by decide,
    decoder_isTrie, by decide, by decide, by decide, by decide, rfl, rfl, by decide, rfl, by decide, decoder_isTrie,
    by decide, rfl, rfl, by decide⟩

theorem witness_CompressCompletes :
    ∃ s t : State,
      s.srcNext = deliver scenario .eof [] :: deliver scenario .eof [] :: [] ∧ scenario.length < 2 ^ 32 ∧
      s.snkNext = okThen 9028 [] :: [] ∧ 8708 + 32 * scenario.length ≤ 9028 ∧
      t.srcNext = deliver [] .eof [] :: deliver [] .eof [] :: [] ∧ t.snkNext = okThen 8708 [] :: [] ∧
      8708 + 32 * ([] : List Byte).length ≤ 8708 :=
  ⟨{ State.reset with srcNext := [session scenario, session scenario], snkNext := [okThen 9028 []] },
    { State.reset with srcNext := [session [], session []], snkNext := [okThen 8708 []] },
    rfl, by decide, rfl, by decide, rfl, rfl, by decide⟩

theorem witness_HeaderAndContainerSize : CodesBounded State.reset.ct := by
  intro b c h; simp [State.reset, tget] at h

theorem witness_DecompressCompletes :
    ∃ (s t : State) (coded : List HdrRecord), GoodRecords scenarioRecords ∧ 1 ≤ (3 : Byte).toNat ∧ (3 : Byte).toNat ≤ 8 ∧
      (∀ r ∈ coded, r ∈ scenarioRecords) ∧ meaningfulBits [0x0A, 0xBF, 0xC0] 3 = coded.flatMap HdrRecord.code ∧
      s.srcNext = deliver (headerOf scenarioRecords 3 ++ [0x0A, 0xBF, 0xC0]) .eof [] :: [] ∧
      s.snkNext = okThen coded.length [] :: [] ∧
      GoodRecords [] ∧ t.srcNext = deliver (headerOf [] 8 ++ [0xFF]) .eof [] :: [] ∧ t.snkNext = okThen 0 [] :: [] :=
  ⟨{ State.reset with
      srcNext := [deliver (headerOf scenarioRecords 3 ++ [0x0A, 0xBF, 0xC0]) .eof []], snkNext := [okThen 10 []] },
    { State.reset with srcNext := [deliver (headerOf [] 8 ++ [0xFF]) .eof []], snkNext := [okThen 0 []] },
    [⟨0x41, 1, [0x00]⟩, ⟨0x41, 1, [0x00]⟩, ⟨0x41, 1, [0x00]⟩, ⟨0x41, 1, [0x00]⟩, ⟨0x42, 2, [0x80]⟩, ⟨0x42, 2, [0x80]⟩,
      ⟨0x42, 2, [0x80]⟩, ⟨0x43, 3, [0xE0]⟩, ⟨0x43, 3, [0xE0]⟩, ⟨0x44, 3, [0xC0]⟩],
    scenario_records, by decide, by decide, by decide, by decide, rfl, rfl, no_records, rfl, rfl⟩

/-- An empty input, ready for a COMPRESS or its stages. -/
def emptyInput : State :=
  { State.reset with srcNext := [session [], session []], snkNext := [okThen 8708 []] }

/-- The container of the empty input (R230), ready for a DECOMPRESS or its stages. -/
def emptyContainer : State :=
  { State.reset with srcNext := [session [0, 0, 8]], snkNext := [okThen 8 []] }

theorem witness_PipelinesAreTheirStages :
    (∃ t, oneByOne [.count, .build, .assign, .writeHdr, .pack] emptyInput = some t) ∧
      (∃ t, oneByOne [.readHdr, .unpack] emptyContainer = some t) :=
  ⟨Option.isSome_iff_exists.mp (by decide +kernel), Option.isSome_iff_exists.mp (by decide +kernel)⟩

/-- Stages of which one ends with an error: the third append of WRITE_HDR, and the meaningful-bits byte. -/
theorem witness_PipelinesAreTheirStages_error :
    (∃ t, oneByOne [.count, .build, .assign, .writeHdr, .pack] { emptyInput with snkNext := [[.ok, .ok, .fail]] } = some t ∧
      t.done = false) ∧
    (∃ t, oneByOne [.readHdr, .unpack] { emptyContainer with srcNext := [session [0, 0, 9]] } = some t ∧
      t.done = false) := by
  have of_some : ∀ {o : Option State}, (o.map State.done) = some false → ∃ t, o = some t ∧ t.done = false := by
    intro o h
    simpa using h
  exact ⟨of_some (by decide +kernel), of_some (by decide +kernel)⟩

theorem witness_RoundTrip :
    ∃ s t u : State,
      s.srcNext = deliver [] .eof [] :: deliver [] .eof [] :: [] ∧ ([] : List Byte).length < 2 ^ 32 ∧
      s.snkNext = okThen 8708 [] :: [] ∧ 8708 + 32 * ([] : List Byte).length ≤ 8708 ∧
      exec .compress s = .next t ∧ t.busy = false ∧ t.done = true ∧
      u.srcNext = deliver (curObject t) .eof [] :: [] ∧ u.snkNext = okThen 0 [] :: [] := by
  have h := of_ends (o := exec .compress emptyInput) (by decide +kernel)
  exact ⟨emptyInput, _, { State.reset with
      srcNext := [deliver (curObject (nextOf (exec .compress emptyInput))) .eof []], snkNext := [okThen 0 []] },
    rfl, by decide, rfl, by decide, h.1, h.2.1, h.2.2, rfl, rfl⟩

theorem witness_PipelinesDependOnTheirSessions :
    ∃ s s' t u u' v : State,
      (s ≠ s' ∧ s.srcNext = s'.srcNext ∧ s.snkNext = s'.snkNext ∧
        exec .compress (accept (encode .compress) s) = .next t ∧ t.busy = false) ∧
      (u ≠ u' ∧ u.srcNext = u'.srcNext ∧ u.snkNext = u'.snkNext ∧
        exec .decompress (accept (encode .decompress) u) = .next v ∧ v.busy = false) :=
  ⟨emptyInput, { emptyInput with fd := true, total := 5 }, _, emptyContainer, { emptyContainer with fh := true }, _,
    ⟨by decide +kernel, rfl, rfl, of_nextOf (by decide +kernel)⟩,
    ⟨by decide +kernel, rfl, rfl, of_nextOf (by decide +kernel)⟩⟩

theorem witness_ErrorsOfEachCommand :
    ∃ s t : State, s.errInfo = 0 ∧ exec .build s = .next t ∧ t.errInfo ≠ 0 := ⟨State.reset, _, rfl, rfl, by decide⟩

theorem witness_CommandFrames : ∃ s t : State, exec .nop s = .next t := ⟨State.reset, _, rfl⟩

/-- A state in which COUNT waits for a source item, one byte being ready. -/
def countingState : State :=
  { State.reset with run := .waiting .count .countRead [], curOp := 1, cmd := 1, src := some [.byte 7] }

theorem countingState_coherent : Coherent countingState where
  doneOrErr := by decide
  busyClear := by decide
  doneInfo := by decide
  infoReserved := by decide
  listEmpty := by decide
  treeCounted := by decide
  codesCounted := by decide
  headerCoded := by decide
  oneTree := by decide
  nsymRange := by decide
  decNsymRange := by decide
  lastBitsRange := by decide
  waiting := by
    intro st p rest h
    simp only [countingState, Run.waiting.injEq] at h
    obtain ⟨rfl, rfl, rfl⟩ := h
    exact ⟨rfl, trivial, ⟨rfl, rfl, rfl, rfl, rfl⟩, rfl, .count, by decide, by decide⟩

theorem countingState_sound : Sound countingState where
  coherent := countingState_coherent
  counted := fun _ => by decide +kernel
  encoder := fun h => absurd h (by decide)
  codes := fun h => absurd h (by decide)
  decoder := by
    rintro (h | ⟨p, h, h'⟩)
    · simp [countingState, State.reset] at h
    · simp only [countingState, Run.point, Option.some.injEq] at h
      subst h
      simp [Point.stage] at h'
  walk := by
    intro b cur h
    simp [countingState, Run.point] at h
  patch := fun h => absurd h (by decide)
  header := by
    intro todo h
    simp [countingState, Run.point] at h

theorem witness_BusyReadsThatAreExact : countingState.busy = true ∧ Coherent countingState :=
  ⟨by decide, countingState_coherent⟩

theorem witness_StepKeepsCoherent : ∃ s t : State, Coherent s ∧ step s = .next t :=
  ⟨countingState, _, countingState_coherent, rfl⟩

theorem witness_StepKeepsSound : ∃ s : State, Sound s := ⟨countingState, countingState_sound⟩

/-- A state in which every answer is ready. -/
def readyState : State :=
  { countingState with
    run := .idle, srcNext := [session scenario, session scenario], snkNext := [okThen 10000 []] }

theorem witness_EveryRunEnds : ∃ s : State, Sound s ∧ Answered s := by
  refine ⟨readyState, ?_, ?_⟩
  · exact {
      coherent := { countingState_coherent with
        busyClear := by decide
        waiting := by intro st p rest h; simp [readyState] at h }
      counted := fun _ => by decide +kernel
      encoder := fun h => absurd h (by decide)
      codes := fun h => absurd h (by decide)
      decoder := by
        rintro (h | ⟨p, h, h'⟩)
        · simp [readyState, countingState, State.reset] at h
        · simp [readyState, Run.point] at h
      walk := by intro b cur h; simp [readyState, Run.point] at h
      patch := fun h => absurd h (by decide)
      header := by intro todo h; simp [readyState, Run.point] at h }
  · exact {
      sessions := by decide
      complete := by decide
      current := by decide
      sinkNext := ⟨okThen 10000 [], [], rfl, by
        simp only [okThen, List.append_nil, List.length_replicate]; decide⟩
      sinkCurrent := by decide }

theorem of_waits {o : Host.Outcome State Fault Refusal} {f : State → Bool}
    (h : (match o with | .next t => t.busy && f t | _ => false) = true) :
    ∃ u, o = .next u ∧ u.busy = true ∧ f u = true := by
  cases o <;> simp_all

/-- The first source item of a COUNT, of an UNPACK, and of the PACK of a COMPRESS are still to come. -/
theorem witness_AnItemMayArriveLate :
    (∃ u, engineTurn countingState = .next u ∧ u.busy = true ∧ countingState.run = .waiting .count .countRead [] ∧
      Stage.count = Point.countRead.stage ∧ countingState.src = some ([7].map SrcItem.byte)) ∧
    (∃ s u, engineTurn s = .next u ∧ u.busy = true ∧ s.run = .accepted ∧ decode s.cmd = .command .count ∧
      s.srcNext = ([] : List Byte).map SrcItem.byte :: []) ∧
    (∃ s u, engineTurn s = .next u ∧ u.busy = true ∧ s.run = .accepted ∧ decode s.cmd = .command .unpack ∧
      s.src = some (([] : List Byte).map SrcItem.byte)) ∧
    (∃ s u, engineTurn s = .next u ∧ u.busy = true ∧ s.run = .accepted ∧ decode s.cmd = .command .compress ∧
      s.srcNext = session [] :: ([] : List Byte).map SrcItem.byte :: [] ∧ u.srcNext = []) := by
  refine ⟨⟨_, rfl, by decide, rfl, rfl, rfl⟩, ?_, ?_, ?_⟩
  · obtain ⟨u, h, hb, -⟩ := of_waits (f := fun _ => true)
      (o := engineTurn (accept (encode .count) { State.reset with srcNext := [[]] })) (by decide +kernel)
    exact ⟨_, u, h, hb, rfl, by decide, rfl⟩
  · obtain ⟨u, h, hb, -⟩ := of_waits (f := fun _ => true)
      (o := engineTurn (accept (encode .unpack) (unpackState oneCodeArena 8 [] []))) (by decide +kernel)
    exact ⟨_, u, h, hb, rfl, by decide, rfl⟩
  · obtain ⟨u, h, hb, hn⟩ := of_waits (f := fun u => decide (u.srcNext = []))
      (o := engineTurn (accept (encode .compress) { emptyInput with srcNext := [session [], []] })) (by decide +kernel)
    exact ⟨_, u, h, hb, rfl, by decide, rfl, of_decide_eq_true hn⟩

/-- The second answer of a WRITE_HDR is still to come, and the first of a PACK. -/
theorem witness_AnAnswerMayArriveLate :
    (∃ s u, engineTurn s = .next u ∧ u.busy = true ∧ s.run = .waiting .writeHdr (.hdrPut [0, 0]) [.pack] ∧
      Stage.writeHdr = (Point.hdrPut [0, 0]).stage ∧ s.snk = some [.ok]) ∧
    (∃ s u, engineTurn s = .next u ∧ u.busy = true ∧ s.run = .accepted ∧ decode s.cmd = .command .writeHdr ∧
      s.snkNext = [.ok] :: [] ∧ u.snkNext = []) ∧
    (∃ s u, engineTurn s = .next u ∧ u.busy = true ∧ s.run = .accepted ∧ decode s.cmd = .command .pack ∧
      s.snk = some []) := by
  refine ⟨⟨{ State.reset with
      fc := true, run := .waiting .writeHdr (.hdrPut [0, 0]) [.pack], snk := some [.ok], objects := [[0]] }, _,
    rfl, by decide, rfl, rfl, rfl⟩, ?_, ?_⟩
  · obtain ⟨u, h, hb, hn⟩ := of_waits (f := fun u => decide (u.snkNext = []))
      (o := engineTurn (accept (encode .writeHdr) { State.reset with fc := true, snkNext := [[.ok]] })) (by decide +kernel)
    exact ⟨_, u, h, hb, rfl, by decide, rfl, of_decide_eq_true hn⟩
  · obtain ⟨u, h, hb, -⟩ := of_waits (f := fun _ => true)
      (o := engineTurn (accept (encode .pack) (packState 15 []))) (by decide +kernel)
    exact ⟨_, u, h, hb, rfl, by decide, rfl⟩

end Sys2Proof.Tests
end

section
/-! PROOFS. The register port (10_state.md): what each register of an idle block reads (R21 to R45), and what the writes
to CTRL, STATUS and INDEX do (R23, R24, R33, R42). -/

set_option autoImplicit false

namespace Sys2Proof.Machine

/-! ### Which register a word index names (R20) -/

@[simp] theorem ofIndex_wordIndex (r : Reg) : Reg.ofIndex r.wordIndex = some r := by
  cases r with
  | codeBits j => revert j; decide
  | _ => rfl

theorem regRead_wordIndex {s : State} (r : Reg) (h : s.busy = false) : regRead r.wordIndex s = regValue r s := by
  simp [regRead, idleRead, h]

/-- R46: a register that reads exactly while BUSY reads its value in every state. -/
theorem regRead_wordIndex_exact {r : Reg} (h : exactWhileBusy (some r) = true) (s : State) :
    regRead r.wordIndex s = regValue r s := by
  simp [regRead, busyRead, idleRead, h]

/-! ### The fields of the STATUS word (R26 to R32) -/

theorem statusWord_conditions (s : State) :
    (statusWord s).getLsbD 0 = s.busy ∧ (statusWord s).getLsbD 1 = s.done ∧
    (statusWord s).getLsbD 2 = s.err ∧ (statusWord s).getLsbD 3 = s.overrun := by
  simp only [statusWord, BitVec.getLsbD_append]
  simp

theorem statusWord_flags (s : State) :
    (statusWord s).getLsbD 8 = s.fw ∧ (statusWord s).getLsbD 9 = s.ft ∧ (statusWord s).getLsbD 10 = s.fc ∧
    (statusWord s).getLsbD 11 = s.fh ∧ (statusWord s).getLsbD 12 = s.fd := by
  simp only [statusWord, BitVec.getLsbD_append]
  simp

theorem statusWord_irq (s : State) : (statusWord s).getLsbD 20 = s.irq := by
  simp only [statusWord, BitVec.getLsbD_append]
  simp

theorem statusWord_curOp (s : State) : (statusWord s).extractLsb' 16 4 = s.curOp := by
  simp (disch := decide) only [statusWord, BitVec.extractLsb'_append_eq_of_le, BitVec.extractLsb'_append_eq_of_add_le]
  exact BitVec.extractLsb'_eq_self

theorem statusWord_reserved (s : State) :
    (statusWord s).extractLsb' 4 4 = 0 ∧ (statusWord s).extractLsb' 13 3 = 0 ∧
    (statusWord s).extractLsb' 21 11 = 0 := by
  simp (disch := decide) only [statusWord, BitVec.extractLsb'_append_eq_of_le, BitVec.extractLsb'_append_eq_of_add_le]
  decide

/-! ### The registers wider or narrower than their field (R40 to R45, R85) -/

/-- R40, R41, R85: a position is read as two words, the HI word above the LO word. -/
theorem position_of_words (p : Pos) :
    (p.extractLsb' 32 32).toNat * 2 ^ 32 + (p.extractLsb' 0 32).toNat = p.toNat := by
  simp only [BitVec.extractLsb'_toNat]
  omega

theorem regValue_codeLen_of_present {s : State} {code : Bits} (h : tget s.ct s.index = some code)
    (hlen : code.length ≤ 255) : (regValue .codeLen s).toNat = 256 + code.length := by
  have hlt : code.length < 2 ^ 8 := by omega
  rw [regValue, h, BitVec.toNat_append, BitVec.toNat_ofNat, Nat.mod_eq_of_lt hlt, ← Nat.shiftLeft_add_eq_or_of_lt hlt]
  rfl

theorem regValue_codeLen_of_absent {s : State} (h : tget s.ct s.index = none) : regValue .codeLen s = 0 := by
  rw [regValue, h]

theorem getLsbD_regValue_codeBits (s : State) (j : Fin 8) {b : Nat} (hb : b < 32) :
    (regValue (.codeBits j) s).getLsbD (31 - b) = (((tget s.ct s.index).getD [])[32 * j.val + b]?).getD false := by
  rw [regValue]
  cases tget s.ct s.index with
  | some code => exact getLsbD_codeWord code j hb
  | none => simp

/-! ### The writes to CTRL, STATUS and INDEX (R23, R24, R33, R42) -/

theorem regWrite_ctrl (v : Word) (s : State) : regWrite 1 v s = writeCtrl v s := rfl

theorem writeCtrl_enables {v : Word} (h : v.getLsbD 0 = false) (s : State) :
    writeCtrl v s = { s with ieDone := v.getLsbD 1, ieErr := v.getLsbD 2 } :=
  if_neg (Bool.eq_false_iff.mp h)

theorem writeCtrl_reset {v : Word} (h : v.getLsbD 0 = true) (s : State) : writeCtrl v s = applyReset s :=
  if_pos h

/-- R24: CTRL reads the enables in bits 1 and 2 and 0 in every other bit. -/
theorem regValue_ctrl {s : State} {v : Word} (hd : s.ieDone = v.getLsbD 1) (he : s.ieErr = v.getLsbD 2) :
    regValue .ctrl s = v &&& 0x6 := by
  rw [regValue, hd, he]
  ext i hi
  simp only [BitVec.getElem_append]
  interval_cases i <;> simp

/-- R42: INDEX reads the byte that was stored, the bits of `v` above it 0. -/
theorem setWidth_extractLsb'_byte (v : Word) : (v.extractLsb' 0 8).setWidth 32 = v &&& 0xFF := by
  apply BitVec.eq_of_toNat_eq
  have hlow : v.toNat &&& 255 = v.toNat % 2 ^ 8 := Nat.and_two_pow_sub_one_eq_mod v.toNat 8
  rw [BitVec.toNat_setWidth, BitVec.extractLsb'_toNat, BitVec.toNat_and, show (0xFF : Word).toNat = 255 from rfl, hlow]
  omega

end Sys2Proof.Machine

/-! ### The obligations -/

namespace Sys2Proof.Proofs

open Sys2Proof.Machine

/-- Settles O13: word 3 of an idle block reads the STATUS word, whose fields the `statusWord_…` lemmas give. -/
theorem statusReadsItsFields : Obligations.StatusReadsItsFields := by
  unfold Obligations.StatusReadsItsFields
  refine ⟨by decide, fun s hidle => ?_⟩
  rw [show regRead 3 s = statusWord s from regRead_wordIndex .status hidle]
  obtain ⟨hbusy, hdone, herr, hoverrun⟩ := statusWord_conditions s
  obtain ⟨hfw, hft, hfc, hfh, hfd⟩ := statusWord_flags s
  obtain ⟨hlow, hmid, hhigh⟩ := statusWord_reserved s
  exact ⟨hbusy.trans hidle, hdone, herr, hoverrun, hlow, hfw, hft, hfc, hfh, hfd, hmid, statusWord_curOp s,
    statusWord_irq s, hhigh⟩

/-- Settles O14: each word of an idle block reads its register's value; the positions are read in two words, and
CODE_LEN by whether the entry is present. -/
theorem registersReadTheirState : Obligations.RegistersReadTheirState := by
  unfold Obligations.RegistersReadTheirState
  intro s hidle
  have hread (r : Reg) : regRead r.wordIndex s = regValue r s := regRead_wordIndex r hidle
  have hnsym : regRead 6 s = s.nsym.setWidth 32 := hread .nsym
  have hdecNsym : regRead 7 s = s.decNsym.setWidth 32 := hread .decNsym
  have hlastBits : regRead 9 s = s.lastBits.setWidth 32 := hread .lastBits
  have hindex : regRead 14 s = s.index.setWidth 32 := hread .index
  have hsrcLo : regRead 10 s = s.srcPos.extractLsb' 0 32 := hread .srcPosLo
  have hsrcHi : regRead 11 s = s.srcPos.extractLsb' 32 32 := hread .srcPosHi
  have hsnkLo : regRead 12 s = s.snkPos.extractLsb' 0 32 := hread .snkPosLo
  have hsnkHi : regRead 13 s = s.snkPos.extractLsb' 32 32 := hread .snkPosHi
  have hcodeLen : regRead 16 s = regValue .codeLen s := hread .codeLen
  rw [hnsym, hdecNsym, hlastBits, hindex, hsrcLo, hsrcHi, hsnkLo, hsnkHi, hcodeLen]
  have widened {n : Nat} (x : BitVec n) (h : n ≤ 32) : (x.setWidth 32).toNat = x.toNat :=
    BitVec.toNat_setWidth_of_le h
  exact ⟨hread .id, hread .cmd, hread .errInfo, hread .total, widened s.nsym (by decide), widened s.decNsym (by decide),
    hread .payloadStart, widened s.lastBits (by decide), position_of_words s.srcPos, position_of_words s.snkPos,
    widened s.index (by decide), hread .weight, fun _ => regValue_codeLen_of_present, regValue_codeLen_of_absent⟩

/-- Settles O15: word 17 + j of an idle block reads the j-th window of the code. -/
theorem codeBitsReadTheCode : Obligations.CodeBitsReadTheCode := by
  unfold Obligations.CodeBitsReadTheCode
  intro s j b hidle hj hb
  have hread : regRead (BitVec.ofNat 6 (17 + j)) s = regValue (.codeBits ⟨j, hj⟩) s :=
    regRead_wordIndex (.codeBits ⟨j, hj⟩) hidle
  rw [hread]
  exact getLsbD_regValue_codeBits s ⟨j, hj⟩ hb

/-- Settles O12: CTRL and INDEX read exactly in every state, so what was written reads back, BUSY or not. -/
theorem controlStatusIndexWrites : Obligations.ControlStatusIndexWrites := by
  unfold Obligations.ControlStatusIndexWrites
  intro s v
  have hctrl (t : State) : regRead 1 t = regValue .ctrl t := regRead_wordIndex_exact (r := .ctrl) rfl t
  have hindex (t : State) : regRead 14 t = regValue .index t := regRead_wordIndex_exact (r := .index) rfl t
  refine ⟨fun h0 => ?enables, fun h1 => ?reset, rfl, rfl, ?index⟩
  case enables =>
    rw [regWrite_ctrl, writeCtrl_enables h0, hctrl]
    exact ⟨rfl, regValue_ctrl rfl rfl⟩
  case reset =>
    rw [regWrite_ctrl, writeCtrl_reset h1, hctrl]
    exact ⟨rfl, (regValue_ctrl (v := 0) rfl rfl).trans BitVec.zero_and⟩
  case index => exact (hindex _).trans (setWidth_extractLsb'_byte v)

end Sys2Proof.Proofs
end

section
/-! PROOFS. The opcode map (30_encoding.md R100 to R104): the words that decode to a command, and the run of a word that
is illegal (R133). -/

set_option autoImplicit false

namespace Sys2Proof

/-! ### The fields of a command word (R100 to R102) -/

theorem instrOfOp_eq_some_iff {op : BitVec 4} {i : Instr} : instrOfOp op = some i ↔ op = i.opcode := by
  cases i <;> revert op <;> decide

/-- R103: the OPs from 0xA on are no command's. -/
theorem opcode_toNat_lt (i : Instr) : i.opcode.toNat < 10 := by
  cases i <;> decide

theorem mbzField_append_opField (v : Word) : mbzField v ++ opField v = v :=
  (BitVec.extractLsb'_append_extractLsb'_eq_extractLsb' rfl).trans BitVec.extractLsb'_eq_self

/-- MBZ and OP are all the bits of a word, so they fix it. -/
theorem eq_encode_of_fields {v : Word} {i : Instr} (hmbz : mbzField v = 0) (hop : opField v = i.opcode) :
    v = encode i := by
  rw [← mbzField_append_opField v, hmbz, hop, encode]

/-! ### The decoder (R102 to R104) -/

/-- R104, checked before the OP is looked at. -/
theorem decode_of_mbzField_ne_zero {v : Word} (h : mbzField v ≠ 0) : decode v = .illegal .mustBeZero :=
  if_pos h

theorem fields_of_decode_eq_command {v : Word} {i : Instr} (h : decode v = .command i) :
    mbzField v = 0 ∧ opField v = i.opcode := by
  by_cases hmbz : mbzField v = 0
  · rw [decode, if_neg (not_not_intro hmbz)] at h
    cases hop : instrOfOp (opField v) with
    | none => simp [hop] at h
    | some j =>
      obtain rfl : j = i := by simpa [hop] using h
      exact ⟨hmbz, instrOfOp_eq_some_iff.mp hop⟩
  · simp [decode_of_mbzField_ne_zero hmbz] at h

/-- R102: the match of a command's row is its whole word. -/
theorem decode_eq_command_iff {v : Word} {i : Instr} : decode v = .command i ↔ v = encode i := by
  constructor
  · intro hdec
    obtain ⟨hmbz, hop⟩ := fields_of_decode_eq_command hdec
    exact eq_encode_of_fields hmbz hop
  · rintro rfl
    obtain ⟨-, hdec, -⟩ := Laws.Encoding.all i
    exact hdec

/-- R103, R104: a word outside the opcode map is no command's, whichever field puts it there. -/
theorem exists_decode_eq_illegal {v : Word} (h : mbzField v ≠ 0 ∨ 10 ≤ (opField v).toNat) :
    ∃ why, decode v = .illegal why := by
  cases hdec : decode v with
  | illegal why => exact ⟨why, rfl⟩
  | command i =>
    obtain ⟨hmbz, hop⟩ := fields_of_decode_eq_command hdec
    have hlt : (opField v).toNat < 10 := hop ▸ opcode_toNat_lt i
    rcases h with hbits | hreserved
    · exact absurd hmbz hbits
    · omega

end Sys2Proof

namespace Sys2Proof.Machine

/-! ### The moves of an illegal word's run (R130, R133) -/

theorem step_of_script_cons {s : State} {e : Event} {rest : List Event} (h : s.script = e :: rest) :
    step s = applyEvent e { s with script := rest } := by
  rw [step, stepScript, h]

theorem regWrite_cmd_of_idle {s : State} (h : s.busy = false) (v : Word) : regWrite 2 v s = accept v s :=
  if_neg (Bool.eq_false_iff.mp h)

theorem step_cmd_write_of_idle {s : State} {v : Word} {rest : List Event} (hidle : s.busy = false)
    (hscript : s.script = .hostWrite 2 v :: rest) : step s = .next (accept v { s with script := rest }) := by
  rw [step_of_script_cons hscript, applyEvent, regWrite_cmd_of_idle]
  exact hidle

theorem engineTurn_of_illegal {s : State} {why : Illegal} (hrun : s.run = .accepted)
    (hdec : decode s.cmd = .illegal why) : engineTurn s = .next (recordError .illegalCommand s) := by
  rw [engineTurn, hrun, runAccepted, hdec, raiseIllegal]

theorem step_engine_of_illegal {s : State} {why : Illegal} {rest : List Event} (hrun : s.run = .accepted)
    (hdec : decode s.cmd = .illegal why) (hscript : s.script = .engine :: rest) :
    step s = .next (recordError .illegalCommand { s with script := rest }) :=
  (step_of_script_cons hscript).trans (engineTurn_of_illegal hrun hdec)

end Sys2Proof.Machine

/-! ### The obligations -/

namespace Sys2Proof.Proofs

open Sys2Proof.Machine

/-- Settles O1: MBZ and OP make up the whole word, so the decoder answers a command on that command's word alone. -/
theorem decodeReadsTheEncoding : Obligations.DecodeReadsTheEncoding := by
  unfold Obligations.DecodeReadsTheEncoding
  exact fun v i => ⟨decode_eq_command_iff, by cases i <;> rfl⟩

/-- Settles O8: the write is an acceptance, which puts OP into CUR_OP, and the engine's move after it records the error
from there. -/
theorem illegalWordRaises : Obligations.IllegalWordRaises := by
  unfold Obligations.IllegalWordRaises
  intro s v rest hidle hillegal hscript
  obtain ⟨why, hdec⟩ := exists_decode_eq_illegal hillegal
  exact ⟨_, step_cmd_write_of_idle hidle hscript, rfl, step_engine_of_illegal rfl hdec rfl⟩

end Sys2Proof.Proofs
end

section
/-! PROOFS. The writes to CMD (40_command_control.md R130, R131). -/

set_option autoImplicit false

namespace Sys2Proof.Machine

/-- R131: the write that does not start a command. -/
theorem regWrite_cmd_of_busy {s : State} (h : s.busy = true) (v : Word) : regWrite 2 v s = { s with overrun := true } :=
  if_pos h

/-- R46: CMD reads exactly in every state, so also in the BUSY one an acceptance leaves. -/
theorem regRead_cmd (s : State) : regRead 2 s = s.cmd :=
  regRead_wordIndex_exact (r := .cmd) rfl s

@[simp] theorem accept_busy (v : Word) (s : State) : (accept v s).busy = true := rfl

/-- R249: the interrupt output does not depend on OVERRUN. -/
@[simp] theorem irq_with_overrun (s : State) (b : Bool) : State.irq { s with overrun := b } = s.irq := rfl

end Sys2Proof.Machine

/-! ### The obligations -/

namespace Sys2Proof.Proofs

open Sys2Proof.Machine

/-- Settles O7: the write is an acceptance when idle, and CMD reads back while the command runs; while BUSY it sets
OVERRUN, which the interrupt output does not see. -/
theorem commandWrites : Obligations.CommandWrites := by
  unfold Obligations.CommandWrites
  refine fun s v => ⟨fun hidle => ?idle, fun hbusy => ?busy⟩
  case idle =>
    rw [regWrite_cmd_of_idle hidle]
    exact ⟨rfl, accept_busy v s, (regRead_cmd _).trans (accept_cmd v s)⟩
  case busy =>
    rw [regWrite_cmd_of_busy hbusy]
    exact ⟨rfl, irq_with_overrun s true⟩

end Sys2Proof.Proofs
end

section
/-! PROOFS. The priority list of the tree builder (42_tree_builder.md R160): where an insertion cuts the list, and that a
list sorted by weight stays sorted. -/

set_option autoImplicit false

namespace Sys2Proof.Machine

/-- The order of the priority list (R160): each node weighs at most as much as every later one. -/
def SortedByWeight (arena : List Node) (pl : List Nat) : Prop :=
  pl.Pairwise fun x y => nodeWeight arena x ≤ nodeWeight arena y

theorem sortedByWeight_cons {arena : List Node} {x : Nat} {pl : List Nat} :
    SortedByWeight arena (x :: pl) ↔
      (∀ y ∈ pl, nodeWeight arena x ≤ nodeWeight arena y) ∧ SortedByWeight arena pl :=
  List.pairwise_cons

/-- The first place of `pl` whose weight is strictly greater than that of `i`, the end of the list when there is none. -/
def heavierIdx (arena : List Node) (i : Nat) (pl : List Nat) : Nat :=
  pl.findIdx fun x => decide (nodeWeight arena i < nodeWeight arena x)

theorem heavierIdx_cons_of_lt {arena : List Node} {i x : Nat} (h : nodeWeight arena i < nodeWeight arena x)
    (pl : List Nat) : heavierIdx arena i (x :: pl) = 0 := by
  simp [heavierIdx, List.findIdx_cons, h]

theorem heavierIdx_cons_of_not_lt {arena : List Node} {i x : Nat} (h : ¬ nodeWeight arena i < nodeWeight arena x)
    (pl : List Nat) : heavierIdx arena i (x :: pl) = heavierIdx arena i pl + 1 := by
  simp [heavierIdx, List.findIdx_cons, h]

theorem insertOrdered_cons_of_lt {arena : List Node} {i x : Nat} (h : nodeWeight arena i < nodeWeight arena x)
    (pl : List Nat) : insertOrdered arena i (x :: pl) = i :: x :: pl :=
  if_pos h

theorem insertOrdered_cons_of_not_lt {arena : List Node} {i x : Nat} (h : ¬ nodeWeight arena i < nodeWeight arena x)
    (pl : List Nat) : insertOrdered arena i (x :: pl) = x :: insertOrdered arena i pl :=
  if_neg h

theorem insertOrdered_eq_take_drop (arena : List Node) (i : Nat) (pl : List Nat) :
    insertOrdered arena i pl = pl.take (heavierIdx arena i pl) ++ i :: pl.drop (heavierIdx arena i pl) := by
  induction pl with
  | nil => rfl
  | cons x pl ih =>
    by_cases h : nodeWeight arena i < nodeWeight arena x
    · rw [insertOrdered_cons_of_lt h, heavierIdx_cons_of_lt h, List.take_zero, List.drop_zero, List.nil_append]
    · rw [insertOrdered_cons_of_not_lt h, heavierIdx_cons_of_not_lt h, ih, List.take_succ_cons, List.drop_succ_cons,
        List.cons_append]

/-- The node put in is no heavier than the head it goes before, so than anything behind it; passed over, the head is no
heavier than the node, and was no heavier than the rest. -/
theorem sortedByWeight_insertOrdered {arena : List Node} {pl : List Nat} (hpl : SortedByWeight arena pl) (i : Nat) :
    SortedByWeight arena (insertOrdered arena i pl) := by
  induction pl with
  | nil => exact List.pairwise_singleton _ i
  | cons x pl ih =>
    obtain ⟨hx, htail⟩ := sortedByWeight_cons.mp hpl
    by_cases h : nodeWeight arena i < nodeWeight arena x
    · rw [insertOrdered_cons_of_lt h]
      refine sortedByWeight_cons.mpr ⟨fun y hy => ?_, hpl⟩
      obtain rfl | hy := List.mem_cons.mp hy
      · exact BitVec.le_of_lt h
      · exact BitVec.le_trans (BitVec.le_of_lt h) (hx y hy)
    · rw [insertOrdered_cons_of_not_lt h]
      refine sortedByWeight_cons.mpr ⟨fun y hy => ?_, ih htail⟩
      obtain rfl | hy := mem_insertOrdered.mp hy
      · exact BitVec.not_lt.mp h
      · exact hx y hy

end Sys2Proof.Machine

/-! ### The obligations -/

namespace Sys2Proof.Proofs

open Sys2Proof.Machine

/-- Settles O24: the recursion stops at the first strictly heavier node, which is the cut, and each turn keeps the order
by weight. -/
theorem insertionIsStable : Obligations.InsertionIsStable := by
  unfold Obligations.InsertionIsStable
  exact fun arena i pl => ⟨insertOrdered_eq_take_drop arena i pl, fun hpl => sortedByWeight_insertOrdered hpl i⟩

end Sys2Proof.Proofs
end

section
/-! PROOFS. The code fields as READ_HDR takes them (44_header_codec.md R196). -/

set_option autoImplicit false

namespace Sys2Proof.Machine

/-- R196: bit `i` of the code that is read, whatever bits stand after it. -/
theorem getElem?_codeOfField {len : Byte} (f : List Byte) {i : Nat} (h : i < len.toNat) :
    (codeOfField len f)[i]? = (f[i / 8]?).map fun b => b.getLsbD (7 - i % 8) := by
  rw [codeOfField, List.getElem?_take_of_lt h, getElem?_flatMap_byteBits]

end Sys2Proof.Machine

namespace Sys2Proof.Proofs

open Sys2Proof.Machine

/-- Settles O4: the two strings have one length, and their bits agree where the field's do; the field's bits past the
length are in neither. -/
theorem codeFieldReadsBack : Obligations.CodeFieldReadsBack := by
  unfold Obligations.CodeFieldReadsBack
  intro code len f hlen hf
  constructor
  · intro hread i bit hi
    have hlt : i < len.toNat := hlen ▸ (List.getElem?_eq_some_iff.mp hi).1
    rw [← getElem?_codeOfField f hlt, hread, hi]
  · intro hbits
    have hfield : (codeOfField len f).length = code.length :=
      (codeOfField_length (by rw [hf, hlen, bytesFor_eq])).trans hlen.symm
    apply List.ext_getElem?
    intro i
    by_cases hi : i < code.length
    · rw [getElem?_codeOfField f (hlen ▸ hi), hbits i code[i] (List.getElem?_eq_getElem hi),
        List.getElem?_eq_getElem hi]
    · rw [List.getElem?_eq_none (by omega), List.getElem?_eq_none (by omega)]

end Sys2Proof.Proofs
end

section
/-! PROOFS. The decoder's tree (44_header_codec.md R197): an insertion into a tree without its arena, the tree that an
arena holds in records of its own, and that `Insert` does to the one what the insertion does to the other. -/

set_option autoImplicit false

namespace Sys2Proof.Machine

/-! ### An insertion into a tree -/

/-- The subtree below a tree for a code bit, 0 for left and 1 for right (R11). -/
def Trie.sub (b : Bool) : Trie → Trie
  | .node l r => if b then r else l
  | _ => .none

/-- The tree with the subtree for a code bit set, an inner node being made where the tree is absent. -/
def Trie.setSub (b : Bool) (t u : Trie) : Trie :=
  .node (if b then t.sub false else u) (if b then u else t.sub true)

/-- What `Insert` does to a tree (R197): none where the code overlaps an earlier one. -/
def Trie.insert (sym : Byte) : Bits → Trie → Option Trie
  | [], .none => some (.leaf sym)
  | [], _ => Option.none
  | _ :: _, .leaf _ => Option.none
  | b :: code, t => (Trie.insert sym code (t.sub b)).map fun u => t.setSub b u

theorem insert_cons_eq_some {sym : Byte} {b : Bool} {code : Bits} {t t' : Trie} :
    t.insert sym (b :: code) = some t' ↔
      (∀ x, t ≠ .leaf x) ∧ ∃ u, (t.sub b).insert sym code = some u ∧ t.setSub b u = t' := by
  cases t <;> simp [Trie.insert]

theorem insert_cons_eq_none {sym : Byte} {b : Bool} {code : Bits} {t : Trie} :
    t.insert sym (b :: code) = Option.none ↔ (∃ x, t = .leaf x) ∨ (t.sub b).insert sym code = Option.none := by
  cases t <;> simp [Trie.insert]

theorem insert_nil_eq_some {sym : Byte} {t t' : Trie} :
    t.insert sym [] = some t' ↔ t = .none ∧ t' = .leaf sym := by
  cases t <;> simp [Trie.insert, eq_comm]

@[simp] theorem sub_setSub (b d : Bool) (t u : Trie) : (t.setSub b u).sub d = if d = b then u else t.sub d := by
  cases b <;> cases d <;> rfl

@[simp] theorem lookup_cons (t : Trie) (b : Bool) (code : Bits) : t.lookup (b :: code) = (t.sub b).lookup code := by
  cases t with
  | node l r => cases b <;> rfl
  | _ => cases code <;> rfl

@[simp] theorem lookup_none (code : Bits) : Trie.none.lookup code = Option.none := by
  cases code <;> rfl

/-- An insertion adds its code and no other. -/
theorem lookup_of_insert {sym : Byte} {code : Bits} {t t' : Trie} (h : t.insert sym code = some t') (path : Bits) :
    t'.lookup path = if path = code then some sym else t.lookup path := by
  induction code generalizing t t' path with
  | nil =>
    obtain ⟨rfl, rfl⟩ := insert_nil_eq_some.mp h
    cases path <;> simp [Trie.lookup, Trie.descend]
  | cons b code ih =>
    obtain ⟨hleaf, u, hu, rfl⟩ := insert_cons_eq_some.mp h
    cases path with
    | nil => cases t with
      | leaf x => exact absurd rfl (hleaf x)
      | _ => rfl
    | cons d path =>
      by_cases hd : d = b
      · subst hd; simp [ih hu]
      · simp [hd]

/-! ### When an insertion finds no overlap -/

/-- Every inner node has a child: the decoder's tree as insertions make it, an absent tree standing for the empty
root. -/
def Trie.live : Trie → Bool
  | .none => true
  | .leaf _ => true
  | .node l r => l.live && r.live && (l != .none || r != .none)

theorem live_sub {t : Trie} (h : t.live = true) (b : Bool) : (t.sub b).live = true := by
  cases t with
  | node l r =>
    obtain ⟨⟨hl, hr⟩, -⟩ : (l.live = true ∧ r.live = true) ∧ _ := by simpa [Trie.live] using h
    cases b
    · exact hl
    · exact hr
  | _ => rfl

theorem live_setSub {t u : Trie} (b : Bool) (ht : t.live = true) (hu : u.live = true) (hne : u ≠ .none) :
    (t.setSub b u).live = true := by
  have := live_sub ht
  cases b <;> simp [Trie.setSub, Trie.live, hu, hne, this]

theorem insert_ne_none {sym : Byte} {code : Bits} {t t' : Trie} (h : t.insert sym code = some t') : t' ≠ .none := by
  cases code with
  | nil => obtain ⟨-, rfl⟩ := insert_nil_eq_some.mp h; nofun
  | cons b code => obtain ⟨-, u, -, rfl⟩ := insert_cons_eq_some.mp h; nofun

theorem live_of_insert {sym : Byte} {code : Bits} {t t' : Trie} (ht : t.live = true)
    (h : t.insert sym code = some t') : t'.live = true := by
  induction code generalizing t t' with
  | nil => obtain ⟨-, rfl⟩ := insert_nil_eq_some.mp h; rfl
  | cons b code ih =>
    obtain ⟨-, u, hu, rfl⟩ := insert_cons_eq_some.mp h
    exact live_setSub b ht (ih (live_sub ht b) hu) (insert_ne_none hu)

theorem exists_lookup_of_live {t : Trie} (ht : t.live = true) (hne : t ≠ .none) :
    ∃ path x, t.lookup path = some x := by
  induction t with
  | none => exact absurd rfl hne
  | leaf x => exact ⟨[], x, rfl⟩
  | node l r ihl ihr =>
    obtain ⟨⟨hl, hr⟩, hchild⟩ : (l.live = true ∧ r.live = true) ∧ (l ≠ .none ∨ r ≠ .none) := by
      simpa [Trie.live] using ht
    rcases hchild with hchild | hchild
    · obtain ⟨path, x, h⟩ := ihl hl hchild
      exact ⟨false :: path, x, h⟩
    · obtain ⟨path, x, h⟩ := ihr hr hchild
      exact ⟨true :: path, x, h⟩

/-- R197: an insertion stops only at an earlier code that lies on the new one's path, or the other way round. -/
theorem exists_overlap_of_insert_eq_none {sym : Byte} {code : Bits} {t : Trie} (ht : t.live = true)
    (h : t.insert sym code = Option.none) : ∃ path x, t.lookup path = some x ∧ (path <+: code ∨ code <+: path) := by
  induction code generalizing t with
  | nil =>
    have hne : t ≠ .none := by rintro rfl; cases h
    obtain ⟨path, x, hx⟩ := exists_lookup_of_live ht hne
    exact ⟨path, x, hx, .inr List.nil_prefix⟩
  | cons b code ih =>
    obtain ⟨x, rfl⟩ | hsub := insert_cons_eq_none.mp h
    · exact ⟨[], x, rfl, .inl List.nil_prefix⟩
    · obtain ⟨path, x, hx, hpre⟩ := ih (live_sub ht b) hsub
      exact ⟨b :: path, x, by rw [lookup_cons, hx], by simpa using hpre⟩

/-! ### The tree in an arena -/

/-- The tree as the arena holds it under a record of its own: where it is absent, the record is the empty inner one. -/
def Trie.rooted : Trie → Trie
  | .none => .node .none .none
  | t => t

@[simp] theorem lookup_rooted (t : Trie) (code : Bits) : t.rooted.lookup code = t.lookup code := by
  cases t with
  | none => cases code with
    | nil => rfl
    | cons b code => rw [lookup_cons, lookup_none]; cases b <;> exact lookup_none code
  | _ => rfl

theorem rooted_of_ne_none {t : Trie} (h : t ≠ .none) : t.rooted = t := by
  cases t with
  | none => exact absurd rfl h
  | _ => rfl

/-- The arena holds a tree under a link, in records among `own` that no two of its nodes share. -/
inductive OwnTrie (arena : List Node) : Set Nat → Option Nat → Trie → Prop where
  | none {own : Set Nat} : OwnTrie arena own none .none
  | leaf {own : Set Nat} {i : Nat} {sym : Byte} {wt : Word} (hi : i ∈ own) (h : arena[i]? = some (.leaf sym wt)) :
      OwnTrie arena own (some i) (.leaf sym)
  | node {own left right : Set Nat} {i : Nat} {wt : Word} {l r : Option Nat} {tl tr : Trie} (hi : i ∈ own)
      (h : arena[i]? = some (.inner wt l r)) (hl : OwnTrie arena left l tl) (hr : OwnTrie arena right r tr)
      (hleft : left ⊆ own \ {i}) (hright : right ⊆ own \ {i}) (hdis : Disjoint left right) :
      OwnTrie arena own (some i) (.node tl tr)

theorem OwnTrie.isTrie {arena : List Node} {own : Set Nat} {o : Option Nat} {t : Trie} (h : OwnTrie arena own o t) :
    IsTrie arena o t := by
  induction h with
  | none => exact .none
  | leaf _ h => exact .leaf h
  | node _ h _ _ _ _ _ ihl ihr => exact .node h ihl ihr

/-- A tree stays where its records do. -/
theorem OwnTrie.frame {arena arena' : List Node} {own : Set Nat} {o : Option Nat} {t : Trie}
    (h : OwnTrie arena own o t) (hsame : ∀ i ∈ own, arena'[i]? = arena[i]?) : OwnTrie arena' own o t := by
  induction h with
  | none => exact .none
  | leaf hi h => exact .leaf hi ((hsame _ hi).trans h)
  | node hi h _ _ hleft hright hdis ihl ihr =>
    exact .node hi ((hsame _ hi).trans h) (ihl fun i hil => hsame i (hleft hil).1)
      (ihr fun i hir => hsame i (hright hir).1) hleft hright hdis

theorem OwnTrie.mono {arena : List Node} {own own' : Set Nat} {o : Option Nat} {t : Trie} (h : OwnTrie arena own o t)
    (hsub : own ⊆ own') : OwnTrie arena own' o t := by
  cases h with
  | none => exact .none
  | leaf hi h => exact .leaf (hsub hi) h
  | node hi h hl hr hleft hright hdis =>
    exact .node (hsub hi) h hl hr (hleft.trans (Set.sdiff_subset_sdiff_left hsub))
      (hright.trans (Set.sdiff_subset_sdiff_left hsub)) hdis

@[simp] theorem ownTrie_none_link {arena : List Node} {own : Set Nat} {t : Trie} :
    OwnTrie arena own none t ↔ t = .none :=
  ⟨fun h => by cases h; rfl, fun h => h ▸ .none⟩

@[simp] theorem ownTrie_absent {arena : List Node} {own : Set Nat} {o : Option Nat} :
    OwnTrie arena own o .none ↔ o = none :=
  ⟨fun h => by cases h; rfl, fun h => h ▸ .none⟩

/-- A record that is no leaf's, seen from one of its links: what hangs there, and what hangs beside it. -/
theorem OwnTrie.focus {arena : List Node} {own : Set Nat} {x : Nat} {t : Trie}
    (h : OwnTrie arena own (some x) t.rooted) (hleaf : ∀ sym, t ≠ .leaf sym) (b : Bool) :
    ∃ wt l r below beside, x ∈ own ∧ arena[x]? = some (.inner wt l r) ∧
      OwnTrie arena below ((Node.inner wt l r).child b) (t.sub b) ∧
      OwnTrie arena beside ((Node.inner wt l r).child !b) (t.sub !b) ∧
      below ⊆ own \ {x} ∧ beside ⊆ own \ {x} ∧ Disjoint below beside := by
  have hnode : t.rooted = .node (t.sub false) (t.sub true) := by
    cases t with
    | leaf sym => exact absurd rfl (hleaf sym)
    | _ => rfl
  rw [hnode] at h
  cases h with
  | node hx hrec hl hr hleft hright hdis =>
    cases b
    · exact ⟨_, _, _, _, _, hx, hrec, hl, hr, hleft, hright, hdis⟩
    · exact ⟨_, _, _, _, _, hx, hrec, hr, hl, hright, hleft, hdis.symm⟩

/-- The same record put together again, with another tree on the link. -/
theorem OwnTrie.unfocus {arena : List Node} {own below beside : Set Nat} {x : Nat} {t u : Trie} {wt : Word}
    {l r : Option Nat} {b : Bool} (hx : x ∈ own) (hrec : arena[x]? = some (.inner wt l r))
    (hbelow : OwnTrie arena below ((Node.inner wt l r).child b) u)
    (hbeside : OwnTrie arena beside ((Node.inner wt l r).child !b) (t.sub !b))
    (hbelowOwn : below ⊆ own \ {x}) (hbesideOwn : beside ⊆ own \ {x}) (hdis : Disjoint below beside) :
    OwnTrie arena own (some x) (t.setSub b u) := by
  cases b
  · exact .node hx hrec hbelow hbeside hbelowOwn hbesideOwn hdis
  · exact .node hx hrec hbeside hbelow hbesideOwn hbelowOwn hdis.symm

/-! ### `Insert` in an arena (R197) -/

/-- `arena'` is `arena` with at most `k` records allocated and no records changed but those of `own`. -/
structure Grows (arena arena' : List Node) (own : Set Nat) (k : Nat) : Prop where
  le : arena.length ≤ arena'.length
  bound : arena'.length ≤ arena.length + k
  same : ∀ i < arena.length, i ∉ own → arena'[i]? = arena[i]?

/-- The records of a tree after its arena has grown: its own, and those allocated. -/
def grownOwn (own : Set Nat) (arena arena' : List Node) : Set Nat := own ∪ Set.Ico arena.length arena'.length

theorem mem_of_mem_grownOwn {own : Set Nat} {arena arena' : List Node} {i : Nat} (h : i ∈ grownOwn own arena arena')
    (hi : i < arena.length) : i ∈ own :=
  h.elim id fun hnew => absurd hi (Nat.not_lt.mpr hnew.1)

theorem grownOwn_grownOwn {own : Set Nat} {arena arena₁ arena₂ : List Node} (h₁ : arena.length ≤ arena₁.length)
    (h₂ : arena₁.length ≤ arena₂.length) :
    grownOwn (grownOwn own arena arena₁) arena₁ arena₂ = grownOwn own arena arena₂ := by
  rw [grownOwn, grownOwn, Set.union_assoc, Set.Ico_union_Ico_eq_Ico h₁ h₂, grownOwn]

theorem Grows.trans {arena arena₁ arena₂ : List Node} {own own₁ own₂ : Set Nat} {j k : Nat}
    (h₁ : Grows arena arena₁ own₁ j) (h₂ : Grows arena₁ arena₂ own₂ k) (hown₁ : own₁ ⊆ own)
    (hown₂ : own₂ ⊆ grownOwn own arena arena₁) : Grows arena arena₂ own (k + j) where
  le := h₁.le.trans h₂.le
  bound := by have := h₁.bound; have := h₂.bound; omega
  same i hi hnot := by
    rw [h₂.same i (hi.trans_le h₁.le) fun h => hnot (mem_of_mem_grownOwn (hown₂ h) hi),
      h₁.same i hi fun h => hnot (hown₁ h)]

/-- One bit of `Insert` from an inner record: it goes on at the record that the link leads to, which is an empty one
just allocated where there was none. -/
theorem insertCode_cons_descends (sym : Byte) (b : Bool) (code : Bits) {arena : List Node} {x : Nat} {wt : Word}
    {l r : Option Nat} {below : Set Nat} {t : Trie} (hrec : arena[x]? = some (.inner wt l r))
    (ht : OwnTrie arena below ((Node.inner wt l r).child b) t) :
    ∃ arena' y l' r', insertCode sym (b :: code) x arena = insertCode sym code y arena' ∧
      arena'[x]? = some (.inner wt l' r') ∧ (Node.inner wt l' r').child b = some y ∧
      (Node.inner wt l' r').child (!b) = (Node.inner wt l r).child (!b) ∧
      OwnTrie arena' (grownOwn below arena arena') (some y) t.rooted ∧ Grows arena arena' {x} 1 := by
  cases hchild : (Node.inner wt l r).child b with
  | some y =>
    rw [hchild] at ht
    have hne : t ≠ .none := by rintro rfl; cases ht
    have ht' : OwnTrie arena (grownOwn below arena arena) (some y) t.rooted := by
      rw [rooted_of_ne_none hne]
      exact ht.mono Set.subset_union_left
    exact ⟨arena, y, l, r, by simp [insertCode, hrec, hchild], hrec, hchild, rfl, ht', le_rfl, by simp,
      fun _ _ _ => rfl⟩
  | none =>
    have hx : x < arena.length := (List.getElem?_eq_some_iff.mp hrec).1
    obtain rfl : t = .none := by rwa [hchild, ownTrie_none_link] at ht
    obtain ⟨l', r', hset⟩ : ∃ l' r', (Node.inner wt l r).setChild b arena.length = .inner wt l' r' := by
      cases b <;> exact ⟨_, _, rfl⟩
    have hother (d : Bool) := child_setChild wt l r b d arena.length
    rw [hset] at hother
    have hnew : ((arena ++ [emptyNode]).set x (.inner wt l' r'))[arena.length]? = some emptyNode := by
      rw [List.getElem?_set_ne hx.ne, List.getElem?_concat_length]
    refine ⟨(arena ++ [emptyNode]).set x (.inner wt l' r'), arena.length, l', r',
      by simp [insertCode, hrec, hchild, hset], List.getElem?_set_self (by simp; omega), by simp [hother],
      by simp [hother], .node (.inr (by simp)) hnew .none .none (Set.empty_subset _) (Set.empty_subset _)
        (Set.disjoint_empty _), by simp, by simp, fun i hi hne => ?_⟩
    rw [List.getElem?_set_ne fun e => hne e.symm, List.getElem?_append_left hi]

/-- `Insert` does to the tree in the arena what the insertion does to the tree. -/
theorem insertCode_of_insert {sym : Byte} {code : Bits} {arena : List Node} {own : Set Nat} {x : Nat} {t t' : Trie}
    (ht : OwnTrie arena own (some x) t.rooted) (hown : ∀ i ∈ own, i < arena.length)
    (hins : t.insert sym code = some t') :
    ∃ arena', insertCode sym code x arena = .placed arena' ∧ Grows arena arena' own code.length ∧
      OwnTrie arena' (grownOwn own arena arena') (some x) t' := by
  induction code generalizing arena own x t t' with
  | nil =>
    obtain ⟨rfl, rfl⟩ := insert_nil_eq_some.mp hins
    obtain ⟨wt, l, r, below, beside, hx, hrec, hl, hr, -⟩ := ht.focus nofun false
    obtain rfl : l = none := ownTrie_absent.mp hl
    obtain rfl : r = none := ownTrie_absent.mp hr
    refine ⟨arena.set x (.leaf sym wt), by simp [insertCode, hrec], ⟨by simp, by simp, fun i _ hi => ?_⟩,
      .leaf (.inl hx) (List.getElem?_set_self (hown x hx))⟩
    exact List.getElem?_set_ne fun e : x = i => hi (e ▸ hx)
  | cons b code ih =>
    obtain ⟨hleaf, u, hu, rfl⟩ := insert_cons_eq_some.mp hins
    obtain ⟨wt, l, r, below, beside, hx, hrec, hbelow, hbeside, hbelowOwn, hbesideOwn, hdis⟩ := ht.focus hleaf b
    obtain ⟨arena₁, y, l', r', hstep, hrec₁, hy, hother, ht₁, hgrow₁⟩ :=
      insertCode_cons_descends sym b code hrec hbelow
    have hsub : below ⊆ own := fun i hi => (hbelowOwn hi).1
    have hlt : ∀ i ∈ grownOwn below arena arena₁, i < arena₁.length := fun i hi =>
      hi.elim (fun h => (hown i (hsub h)).trans_le hgrow₁.le) And.right
    obtain ⟨arena₂, hplaced, hgrow₂, ht₂⟩ := ih ht₁ hlt hu
    have hlinked : arena₂[x]? = some (.inner wt l' r') := by
      rw [hgrow₂.same x ((hown x hx).trans_le hgrow₁.le) fun h =>
        (hbelowOwn (mem_of_mem_grownOwn h (hown x hx))).2 rfl, hrec₁]
    have hkept : ∀ i ∈ beside, arena₂[i]? = arena[i]? := fun i hi => by
      have hi' : i < arena.length := hown i (hbesideOwn hi).1
      rw [hgrow₂.same i (hi'.trans_le hgrow₁.le) fun h =>
        Set.disjoint_left.mp hdis (mem_of_mem_grownOwn h hi') hi, hgrow₁.same i hi' (hbesideOwn hi).2]
    rw [grownOwn_grownOwn hgrow₁.le hgrow₂.le] at ht₂
    refine ⟨arena₂, hstep.trans hplaced, hgrow₁.trans hgrow₂ (Set.singleton_subset_iff.mpr hx)
      (Set.union_subset_union_left _ hsub),
      .unfocus (.inl hx) hlinked (hy ▸ ht₂) (hother ▸ hbeside.frame hkept) (fun i hi => ⟨?_, ?_⟩)
        (fun i hi => ⟨.inl (hbesideOwn hi).1, (hbesideOwn hi).2⟩) (Set.disjoint_left.mpr fun i hi hi' => ?_)⟩
    · exact Set.union_subset_union_left _ hsub hi
    · rintro rfl
      exact (hbelowOwn (mem_of_mem_grownOwn hi (hown i hx))).2 rfl
    · exact Set.disjoint_left.mp hdis (mem_of_mem_grownOwn hi (hown i (hbesideOwn hi').1)) hi'

end Sys2Proof.Machine
end

section
/-! PROOFS. The reading of a header by READ_HDR (44_header_codec.md R192 to R201): the tree that good records leave, the
loop over their bytes, and what stops it. -/

set_option autoImplicit false

namespace Sys2Proof.Machine

/-! ### The records of a header -/

theorem ok_iff {r : HdrRecord} : r.ok = true ↔ r.len ≠ 0 ∧ r.field.length = bytesFor r.len.toNat := by
  simp [HdrRecord.ok]

theorem bytesFor_pos {len : Byte} (h : len ≠ 0) : 0 < bytesFor len.toNat := by
  have : len.toNat ≠ 0 := fun e => h (BitVec.eq_of_toNat_eq e)
  rw [bytesFor]
  omega

theorem code_length_le {r : HdrRecord} (h : r.ok = true) : r.code.length ≤ 255 := by
  rw [HdrRecord.code, codeOfField_length (ok_iff.mp h).2]
  exact Nat.le_of_lt_succ r.len.isLt

/-- The records before the last of a good header, and what the last one adds: form, a new symbol, a code apart. -/
theorem goodRecords_concat {recs : List HdrRecord} {r : HdrRecord} (h : GoodRecords (recs ++ [r])) :
    GoodRecords recs ∧ r.ok = true ∧ r.sym ∉ recs.map HdrRecord.sym ∧
      ∀ q ∈ recs, ¬ q.code <+: r.code ∧ ¬ r.code <+: q.code := by
  obtain ⟨hcount, hform, honce, hfree⟩ := h
  rw [List.length_append, List.length_singleton] at hcount
  rw [List.map_append, List.map_singleton, List.nodup_append] at honce
  rw [List.pairwise_append] at hfree
  obtain ⟨honce, -, hnew⟩ := honce
  obtain ⟨hfree, -, hapart⟩ := hfree
  exact ⟨⟨by omega, fun q hq => hform q (by simp [hq]), honce, hfree⟩, hform r (by simp),
    fun hmem => hnew _ hmem _ (by simp) rfl, fun q hq => hapart q hq r (by simp)⟩

/-- The arena after some records of a header: all of it is one tree under record 0, with the records' codes. -/
structure RecordsTree (arena : List Node) (recs : List HdrRecord) (t : Trie) : Prop where
  live : t.live = true
  held : OwnTrie arena (Set.Iio arena.length) (some 0) t.rooted
  records : HoldsRecords t recs
  bound : arena.length ≤ 1 + 255 * recs.length

theorem recordsTree_nil : RecordsTree [emptyNode] [] .none where
  live := rfl
  held := .node (Set.mem_Iio.mpr Nat.zero_lt_one) rfl .none .none (Set.empty_subset _) (Set.empty_subset _)
    (Set.disjoint_empty _)
  records := by simp [HoldsRecords]
  bound := Nat.le_refl 1

theorem holdsRecords_of_insert {t t' : Trie} {recs : List HdrRecord} {r : HdrRecord} (h : HoldsRecords t recs)
    (hins : t.insert r.sym r.code = some t') (hnew : ∀ q ∈ recs, q.code ≠ r.code) : HoldsRecords t' (recs ++ [r]) := by
  intro path x
  simp only [lookup_of_insert hins, List.mem_append, List.mem_singleton, or_and_right, exists_or, exists_eq_left]
  by_cases hpath : path = r.code
  · subst hpath
    have hold : ¬ ∃ q ∈ recs, q.sym = x ∧ q.code = r.code := fun ⟨q, hq, _, hcode⟩ => hnew q hq hcode
    simp [hold]
  · rw [if_neg hpath, h path x]
    exact ⟨.inl, fun hmem => hmem.elim id fun hlast => absurd hlast.2.symm hpath⟩

/-- R201: a further record's code overlaps none in the tree, so `Insert` places it. -/
theorem recordsTree_concat {arena : List Node} {recs : List HdrRecord} {r : HdrRecord} {t : Trie}
    (h : RecordsTree arena recs t) (hgood : GoodRecords (recs ++ [r])) :
    ∃ arena' t', insertCode r.sym r.code 0 arena = .placed arena' ∧ RecordsTree arena' (recs ++ [r]) t' := by
  obtain ⟨-, hok, -, hapart⟩ := goodRecords_concat hgood
  obtain ⟨hlive, hheld, hrecs, hbound⟩ := h
  obtain ⟨t', hins⟩ : ∃ t', t.insert r.sym r.code = some t' := by
    refine Option.ne_none_iff_exists'.mp fun hnone => ?_
    obtain ⟨path, x, hx, hoverlap⟩ := exists_overlap_of_insert_eq_none hlive hnone
    obtain ⟨q, hq, -, rfl⟩ := (hrecs path x).mp hx
    exact hoverlap.elim (hapart q hq).1 (hapart q hq).2
  obtain ⟨arena', hplaced, hgrow, hheld'⟩ := insertCode_of_insert hheld (fun _ => id) hins
  refine ⟨arena', t', hplaced, live_of_insert hlive hins, ?_,
    holdsRecords_of_insert hrecs hins fun q hq e => (hapart q hq).1 (e ▸ List.prefix_rfl), ?_⟩
  · rw [rooted_of_ne_none (insert_ne_none hins)]
    exact hheld'.mono fun i hi => hi.elim (fun h => h.trans_le hgrow.le) And.right
  · have := code_length_le hok
    have := hgrow.bound
    simp only [List.length_append, List.length_singleton]
    omega

/-! ### The reading of a header (R192, R193) -/

/-- READ_HDR in the session `items :: sess` of `s`, having taken `k` bytes and built the arena; `items` are left. -/
def readingHdr (s : State) (sess : List (List SrcItem)) (arena : List Node) (k : Nat) (items : List SrcItem) : State :=
  { started .readHdr s with
    decNsym := 0, lastBits := 0, payloadStart := 0, arena := arena, root := some 0
    src := some items, srcNext := sess, srcPos := BitVec.ofNat 64 k }

section

variable {s : State} {sess : List (List SrcItem)} {arena : List Node} {k : Nat} {items : List SrcItem}

@[simp] theorem tookByte_readingHdr (rest : List SrcItem) :
    tookByte rest (readingHdr s sess arena k items) = readingHdr s sess arena (k + 1) rest := by
  simp [tookByte, readingHdr, BitVec.ofNat_add]

/-- The run of READ_HDR is its reading loop from the opened session. -/
theorem exec_readHdr (h : s.srcNext = items :: sess) :
    exec .readHdr s = settle .readHdr [] (fun t => .next (endRun t))
      (hdrLoop items .countLo (readingHdr s sess [emptyNode] 0 items)) := by
  have hsrc : srcOpen { started .readHdr s with decNsym := 0, lastBits := 0, payloadStart := 0 }
      = { started .readHdr s with
          decNsym := 0, lastBits := 0, payloadStart := 0, src := some items, srcNext := sess, srcPos := 0 } := by
    simp [srcOpen, h]
  refine (runStage_pre rfl).trans ?_
  rw [readHdrBody, hsrc]
  rfl

/-- A run of READ_HDR whose reading loop raises (R243). -/
theorem exec_readHdr_of_raise {e : ErrKind} {later : List SrcItem} (h : s.srcNext = items :: sess)
    (hloop : hdrLoop items .countLo (readingHdr s sess [emptyNode] 0 items)
      = .raise e (readingHdr s sess arena k later)) :
    exec .readHdr s = .next { s with
      arena := arena, root := some 0, decNsym := 0, lastBits := 0, payloadStart := 0
      src := some later, srcNext := sess, srcPos := BitVec.ofNat 64 k, ft := false, fd := false
      curOp := 0x6, errInfo := errWord 0x6 e, err := true, done := false, run := .idle } := by
  rw [exec_readHdr h, hloop]
  rfl

/-! ### What one byte of the header does to the loop -/

theorem hdrLoop_of_next {v : Byte} {h h' : HdrAt} {arena' : List Node} {ready : List SrcItem}
    (hbyte : hdrByte h v (readingHdr s sess arena (k + 1) items)
      = .done (some h') (readingHdr s sess arena' (k + 1) items)) :
    hdrLoop (.byte v :: items) h (readingHdr s sess arena k ready)
      = hdrLoop items h' (readingHdr s sess arena' (k + 1) items) := by
  rw [hdrLoop, tookByte_readingHdr, hbyte, bind_done]

theorem hdrLoop_of_complete {v : Byte} {h : HdrAt} {t : State} {ready : List SrcItem}
    (hbyte : hdrByte h v (readingHdr s sess arena (k + 1) items) = .done none t) :
    hdrLoop (.byte v :: items) h (readingHdr s sess arena k ready) = .done () t := by
  rw [hdrLoop, tookByte_readingHdr, hbyte, bind_done]

theorem hdrLoop_of_refused {v : Byte} {h : HdrAt} {e : ErrKind} {t : State} {ready : List SrcItem}
    (hbyte : hdrByte h v (readingHdr s sess arena (k + 1) items) = .raise e t) :
    hdrLoop (.byte v :: items) h (readingHdr s sess arena k ready) = .raise e t := by
  rw [hdrLoop, tookByte_readingHdr, hbyte, bind_raise]

/-! ### The parts of a header, read one after another -/

theorem countOfBytes_countBytes {n : Nat} (h : n ≤ 256) :
    countOfBytes (BitVec.ofNat 8 n) (BitVec.ofNat 8 (n / 256)) = n := by
  simp only [countOfBytes, BitVec.toNat_ofNat]
  omega

theorem hdrLoop_countBytes {n : Nat} (h : n ≤ 256) {ready : List SrcItem} :
    hdrLoop ((countBytes n).map SrcItem.byte ++ items) .countLo (readingHdr s sess arena k ready)
      = hdrLoop items (afterRecord n n []) (readingHdr s sess arena (k + 2) items) := by
  refine (hdrLoop_of_next (h' := .countHi (BitVec.ofNat 8 n)) rfl).trans (hdrLoop_of_next ?_)
  rw [hdrByte, countOfBytes_countBytes h]
  exact if_neg (Nat.not_lt.mpr h)

/-- A record's symbol and length that R195 does not refuse. -/
theorem hdrLoop_recordHead {n left : Nat} {seen : List Byte} {sym len : Byte} {ready : List SrcItem} (hlen : len ≠ 0)
    (hsym : sym ∉ seen) :
    hdrLoop (.byte sym :: .byte len :: items) (.symbol n left seen) (readingHdr s sess arena k ready)
      = hdrLoop items (.code n left seen sym len []) (readingHdr s sess arena (k + 2) items) :=
  (hdrLoop_of_next (h' := .length n left seen sym) rfl).trans
    (hdrLoop_of_next ((if_neg hlen).trans (if_neg hsym)))

/-- Code bytes that leave the field unfinished. -/
theorem hdrLoop_code {n left : Nat} {seen : List Byte} {sym len : Byte} (f got : List Byte)
    (h : got.length + f.length < bytesFor len.toNat) :
    hdrLoop (f.map SrcItem.byte ++ items) (.code n left seen sym len got)
        (readingHdr s sess arena k (f.map SrcItem.byte ++ items))
      = hdrLoop items (.code n left seen sym len (got ++ f)) (readingHdr s sess arena (k + f.length) items) := by
  induction f generalizing got k with
  | nil => simp
  | cons v f ih =>
    rw [List.length_cons] at h
    have hmore : (got ++ [v]).length < bytesFor len.toNat := by
      rw [List.length_append, List.length_singleton]; omega
    have hbyte (t : State) : hdrByte (.code n left seen sym len got) v t
        = .done (some (.code n left seen sym len (got ++ [v]))) t := if_pos hmore
    rw [List.map_cons, List.cons_append, hdrLoop_of_next (hbyte _),
      ih (got ++ [v]) (by rw [List.length_append, List.length_singleton]; omega), List.append_assoc,
      List.singleton_append, List.length_cons, Nat.add_right_comm, Nat.add_assoc]

theorem recordRead_of_placed {n left : Nat} {seen : List Byte} {sym len : Byte} {f : List Byte} {arena' : List Node}
    (hplaced : insertCode sym (codeOfField len f) 0 arena = .placed arena') :
    recordRead n left seen sym len f (readingHdr s sess arena k items)
      = .done (some (afterRecord n (left - 1) (sym :: seen))) (readingHdr s sess arena' k items) := by
  simp only [recordRead, readingHdr, hplaced]

/-- A whole record whose code `Insert` places. -/
theorem hdrLoop_record {n left : Nat} {seen : List Byte} {r : HdrRecord} {arena' : List Node} {ready : List SrcItem}
    (hok : r.ok = true) (hsym : r.sym ∉ seen) (hplaced : insertCode r.sym r.code 0 arena = .placed arena') :
    hdrLoop (r.bytes.map SrcItem.byte ++ items) (.symbol n left seen) (readingHdr s sess arena k ready)
      = hdrLoop items (afterRecord n (left - 1) (r.sym :: seen))
          (readingHdr s sess arena' (k + r.bytes.length) items) := by
  obtain ⟨hlen, hfield⟩ := ok_iff.mp hok
  have hpos := bytesFor_pos hlen
  obtain ⟨f, v, hf⟩ : ∃ f v, r.field = f ++ [v] :=
    (List.eq_nil_or_concat' r.field).resolve_left fun hnil => by rw [hnil, List.length_nil] at hfield; omega
  have hbytes : r.bytes.map SrcItem.byte ++ items
      = .byte r.sym :: .byte r.len :: (f.map SrcItem.byte ++ .byte v :: items) := by
    simp [HdrRecord.bytes, hf]
  have hlength : k + r.bytes.length = k + 2 + f.length + 1 := by
    simp only [HdrRecord.bytes, hf, List.length_cons, List.length_append, List.length_nil]
    omega
  have hfull : (f ++ [v]).length = bytesFor r.len.toNat := hf ▸ hfield
  have hshort : ([] : List Byte).length + f.length < bytesFor r.len.toNat := by
    rw [List.length_append, List.length_singleton] at hfull
    rw [List.length_nil]
    omega
  have hlast (j : Nat) : hdrByte (.code n left seen r.sym r.len f) v (readingHdr s sess arena j items)
      = .done (some (afterRecord n (left - 1) (r.sym :: seen))) (readingHdr s sess arena' j items) :=
    (if_neg hfull.not_lt).trans (recordRead_of_placed (hf ▸ hplaced))
  rw [hbytes, hlength, hdrLoop_recordHead hlen hsym, hdrLoop_code f [] hshort, List.nil_append,
    hdrLoop_of_next (hlast _)]

/-- The places where READ_HDR stands after `recs` of `n` records. -/
def afterRecords (n : Nat) (recs : List HdrRecord) : HdrAt :=
  afterRecord n (n - recs.length) (recs.map HdrRecord.sym).reverse

theorem afterRecords_of_lt {n : Nat} {recs : List HdrRecord} (h : recs.length < n) :
    afterRecords n recs = .symbol n (n - recs.length) (recs.map HdrRecord.sym).reverse :=
  if_neg (by omega)

theorem afterRecords_length (recs : List HdrRecord) : afterRecords recs.length recs = .meaningful recs.length :=
  if_pos (Nat.sub_self _)

/-- R192, R201: good records are read one after another, and their codes stand in the tree. -/
theorem hdrLoop_records {n : Nat} {recs : List HdrRecord} (hgood : GoodRecords recs) (hn : recs.length ≤ n)
    (items : List SrcItem) :
    ∃ arena t, RecordsTree arena recs t ∧
      hdrLoop ((recs.flatMap HdrRecord.bytes).map SrcItem.byte ++ items) (afterRecord n n [])
          (readingHdr s sess [emptyNode] k ((recs.flatMap HdrRecord.bytes).map SrcItem.byte ++ items))
        = hdrLoop items (afterRecords n recs)
            (readingHdr s sess arena (k + (recs.flatMap HdrRecord.bytes).length) items) := by
  induction recs using List.reverseRecOn generalizing items with
  | nil => exact ⟨[emptyNode], .none, recordsTree_nil, rfl⟩
  | append_singleton recs r ih =>
    obtain ⟨hbefore, hok, hnew, -⟩ := goodRecords_concat hgood
    rw [List.length_append, List.length_singleton] at hn
    obtain ⟨arena, t, htree, hread⟩ := ih hbefore (by omega) (r.bytes.map SrcItem.byte ++ items)
    obtain ⟨arena', t', hplaced, htree'⟩ := recordsTree_concat htree hgood
    refine ⟨arena', t', htree', ?_⟩
    rw [afterRecords_of_lt (by omega), hdrLoop_record hok (by simpa using hnew) hplaced] at hread
    simpa [afterRecords, Nat.sub_sub, Nat.add_assoc] using hread

/-- The same from the header's first byte on. -/
theorem hdrLoop_header {n : Nat} {recs : List HdrRecord} (hgood : GoodRecords recs) (hn : recs.length ≤ n)
    (hmax : n ≤ 256) (items : List SrcItem) (ready : List SrcItem) :
    ∃ arena t, RecordsTree arena recs t ∧
      hdrLoop ((countBytes n ++ recs.flatMap HdrRecord.bytes).map SrcItem.byte ++ items) .countLo
          (readingHdr s sess [emptyNode] 0 ready)
        = hdrLoop items (afterRecords n recs)
            (readingHdr s sess arena (2 + (recs.flatMap HdrRecord.bytes).length) items) := by
  obtain ⟨arena, t, htree, hread⟩ := hdrLoop_records (s := s) (sess := sess) (k := 2) hgood hn items
  refine ⟨arena, t, htree, ?_⟩
  rw [List.map_append, List.append_assoc, hdrLoop_countBytes hmax]
  exact hread

/-- R193: a record that is cut short is read to the cut. -/
theorem hdrLoop_cutRecord {n left : Nat} {seen cut : List Byte} (hcut : CutRecord seen cut) {ready : List SrcItem} :
    ∃ h, hdrLoop (cut.map SrcItem.byte ++ items) (.symbol n left seen) (readingHdr s sess arena k ready)
      = hdrLoop items h (readingHdr s sess arena (k + cut.length) items) := by
  rcases hcut with ⟨sym, rfl⟩ | ⟨sym, len, f, rfl, hsym, hlen, hf⟩
  · exact ⟨.length n left seen sym, hdrLoop_of_next rfl⟩
  · refine ⟨.code n left seen sym len f, ?_⟩
    rw [List.map_cons, List.map_cons, List.cons_append, List.cons_append, hdrLoop_recordHead hlen hsym,
      hdrLoop_code f [] (by simpa [bytesFor] using hf), List.nil_append, List.length_cons, List.length_cons,
      Nat.add_assoc, Nat.add_comm 2]

/-- R193: a header that is cut short is read to the cut. -/
theorem hdrLoop_cutHeader {p : List Byte} (hcut : CutHeader p) (items : List SrcItem) :
    ∃ arena h, hdrLoop (p.map SrcItem.byte ++ items) .countLo
        (readingHdr s sess [emptyNode] 0 (p.map SrcItem.byte ++ items))
      = hdrLoop items h (readingHdr s sess arena p.length items) := by
  rcases hcut with hshort | ⟨n, recs, cut, hgood, hmax, rfl, hrest⟩
  · match p, hshort with
    | [], _ => exact ⟨_, _, rfl⟩
    | [lo], _ => exact ⟨_, .countHi lo, hdrLoop_of_next rfl⟩
  · have hn : recs.length ≤ n := hrest.elim And.right fun h => h.2.le
    rw [List.map_append (l₂ := cut), List.append_assoc]
    obtain ⟨arena, t, -, hread⟩ :=
      hdrLoop_header (s := s) (sess := sess) hgood hn hmax (cut.map SrcItem.byte ++ items) _
    rw [hread, List.length_append, List.length_append, countBytes_length]
    rcases hrest with ⟨rfl, -⟩ | ⟨hrecord, hlt⟩
    · exact ⟨arena, _, rfl⟩
    · rw [afterRecords_of_lt hlt]
      exact ⟨arena, hdrLoop_cutRecord (by simpa [CutRecord] using hrecord)⟩

theorem headerOf_length (recs : List HdrRecord) (m : Byte) :
    (headerOf recs m).length = 2 + (recs.flatMap HdrRecord.bytes).length + 1 := by
  rw [headerOf, List.length_append, List.length_append, countBytes_length, List.length_singleton]

/-- R115: a header of good records has at most 2 + 256 × 34 + 1 bytes. -/
theorem headerOf_length_le {recs : List HdrRecord} (h : GoodRecords recs) (m : Byte) :
    (headerOf recs m).length ≤ 8707 := by
  have h34 : ∀ x ∈ recs.map fun r => r.bytes.length, x ≤ 34 := by
    intro x hx
    obtain ⟨r, hr, rfl⟩ := List.mem_map.mp hx
    have hfield := (ok_iff.mp (h.form r hr)).2
    have hlt : r.len.toNat < 256 := r.len.isLt
    simp only [HdrRecord.bytes, List.length_cons, hfield, bytesFor]
    omega
  have hsum := List.sum_le_card_nsmul _ 34 h34
  have hcount := h.count
  rw [List.length_map, smul_eq_mul] at hsum
  rw [headerOf_length, List.length_flatMap]
  omega

end

end Sys2Proof.Machine

/-! ### The obligations -/

namespace Sys2Proof.Proofs

open Sys2Proof.Machine

/-- Settles O33: the second count byte is refused, and no record has been read. -/
theorem readHdrRefusesTheCount : Obligations.ReadHdrRefusesTheCount := by
  unfold Obligations.ReadHdrRefusesTheCount
  intro s lo hi later sess hcount hsess
  have hrefused (t : State) : hdrByte (.countHi lo) hi t = .raise .malformedHeader t := if_pos hcount
  exact exec_readHdr_of_raise (e := .malformedHeader) (k := 2) hsess
    ((hdrLoop_of_next rfl).trans (hdrLoop_of_refused (hrefused _)))

/-- Settles O34: the good records and the new one's symbol are read, and its length byte is refused. -/
theorem readHdrRefusesTheRecord : Obligations.ReadHdrRefusesTheRecord := by
  unfold Obligations.ReadHdrRefusesTheRecord
  intro s n recs sym len later sess hgood hlt hmax hbad hsess
  have hrefused (t : State) : hdrByte (.length n (n - recs.length) (recs.map HdrRecord.sym).reverse sym) len t
      = .raise .malformedHeader t := by
    by_cases hlen : len = 0
    · exact if_pos hlen
    · exact (if_neg hlen).trans (if_pos (List.mem_reverse.mpr (hbad.resolve_left hlen)))
  rw [List.map_append, List.append_assoc] at hsess
  obtain ⟨arena, t, -, hread⟩ := hdrLoop_header hgood hlt.le hmax (.byte sym :: .byte len :: later) _
  rw [afterRecords_of_lt hlt, Nat.add_comm 2] at hread
  exact ⟨arena, exec_readHdr_of_raise (e := .malformedHeader) hsess
    (hread.trans ((hdrLoop_of_next rfl).trans (hdrLoop_of_refused (hrefused _))))⟩

/-- Settles O36: the good records are read, and the byte after the last is refused. -/
theorem readHdrRefusesTheMeaningfulBits : Obligations.ReadHdrRefusesTheMeaningfulBits := by
  unfold Obligations.ReadHdrRefusesTheMeaningfulBits
  intro s recs m later sess hgood hbad hsess
  have hrefused (t : State) : hdrByte (.meaningful recs.length) m t = .raise .malformedHeader t := if_pos hbad
  rw [headerOf, List.map_append, List.append_assoc] at hsess
  obtain ⟨arena, t, -, hread⟩ := hdrLoop_header hgood le_rfl hgood.count (.byte m :: later) _
  rw [afterRecords_length] at hread
  rw [headerOf_length]
  exact ⟨arena, exec_readHdr_of_raise (e := .malformedHeader) hsess
    (hread.trans (hdrLoop_of_refused (hrefused _)))⟩

/-- Settles O37: the bytes before the cut are read, and the final item is taken after them. -/
theorem readHdrCutShort : Obligations.ReadHdrCutShort := by
  unfold Obligations.ReadHdrCutShort
  intro s p later sess hcut
  refine ⟨fun hsess => ?eof, fun hsess => ?fail⟩
  case eof =>
    obtain ⟨arena, h, hread⟩ := hdrLoop_cutHeader hcut (.eof :: later)
    exact ⟨arena, exec_readHdr_of_raise (e := .malformedHeader) hsess (hread.trans rfl)⟩
  case fail =>
    obtain ⟨arena, h, hread⟩ := hdrLoop_cutHeader hcut (.fail :: later)
    exact ⟨arena, exec_readHdr_of_raise (e := .sourceUnavailable) hsess (hread.trans rfl)⟩

/-- Settles O32: the good records are read into the tree, the byte after the last is accepted, and the run ends. -/
theorem readHdrCompletes : Obligations.ReadHdrCompletes := by
  unfold Obligations.ReadHdrCompletes
  intro s recs m payload sess hgood hlow hhigh hsess
  have haccepted (t : State) : hdrByte (.meaningful recs.length) m t = .done none { t with
      lastBits := m.extractLsb' 0 4, decNsym := BitVec.ofNat 9 recs.length
      payloadStart := t.srcPos.extractLsb' 0 32 } := if_neg (by omega)
  have hstart : BitVec.ofNat 32 (headerOf recs m).length
      = (BitVec.ofNat 64 (headerOf recs m).length).extractLsb' 0 32 :=
    (BitVec.setWidth_ofNat_of_le (by decide) _).symm.trans (BitVec.setWidth_eq_extractLsb' (by decide))
  have hsmall := headerOf_length_le hgood m
  rw [headerOf_length] at hstart hsmall ⊢
  rw [headerOf, List.map_append, List.append_assoc] at hsess
  obtain ⟨arena, t, ⟨hlive, hheld, hrecs, hbound⟩, hread⟩ :=
    hdrLoop_header hgood le_rfl hgood.count (.byte m :: payload) _
  rw [afterRecords_length, hdrLoop_of_complete (haccepted _)] at hread
  have hcount := hgood.count
  refine ⟨arena, t.rooted, ?_, hheld.isTrie, fun path x => ?_, by omega, hsmall⟩
  · rw [hstart]
    exact (exec_readHdr hsess).trans (congrArg _ hread)
  · rw [lookup_rooted]
    exact hrecs path x

end Sys2Proof.Proofs
end

section
/-! PROOFS. UNPACK of a decoder table with no symbol and of an empty payload (45_bit_packer.md R218, R219): no symbol is
decoded, and the run ends with success. -/

set_option autoImplicit false

namespace Sys2Proof.Machine

section
variable {s t : State} {r : Nat} {later : List SrcItem}

/-- With DEC_NSYM = 0 the sink session is opened and nothing else is done (R219). -/
theorem unpackBody_of_decNsym_eq_zero (h : s.decNsym = 0) : unpackBody s = .done () (snkOpen s) :=
  if_pos h

/-- The body of UNPACK on a payload that has no byte (R218). -/
theorem unpackBody_eof (hn : s.decNsym ≠ 0) (hr : s.root = some r) (hsrc : s.src = some (.eof :: later)) :
    unpackBody s = .done () (tookFinal later (snkOpen s)) := by
  simp only [unpackBody, snkOpen_decNsym, hn, if_false, withRoot, snkOpen_root, hr, srcItems, snkOpen_src, hsrc,
    Option.getD_some, unpackFirst]

/-- An UNPACK whose precondition holds and whose body is done ends its run with success (R132, R136). -/
theorem exec_unpack_of_done (h : s.fd = true) (hbody : unpackBody (started .unpack s) = .done () t) :
    exec .unpack s = .next (endRun (finishStage .unpack t)) :=
  (runStage_pre (st := .unpack) h).trans (congrArg _ hbody)

end

end Sys2Proof.Machine

/-! ### The obligations -/

namespace Sys2Proof.Proofs

open Sys2Proof.Machine

/-- Settles O43: in both cases the body is done with the new object empty, no item or only the final one being taken. -/
theorem unpackOfNothing : Obligations.UnpackOfNothing := by
  unfold Obligations.UnpackOfNothing
  intro s hfd
  constructor
  · intro hn
    exact exec_unpack_of_done hfd (unpackBody_of_decNsym_eq_zero hn)
  · intro later r hn hr hsrc
    exact exec_unpack_of_done hfd (unpackBody_eof hn hr hsrc)

end Sys2Proof.Proofs
end

section
/-! PROOFS. The tree that BUILD makes (42_tree_builder.md R162 to R166): the records in the priority list are the roots
of full trees that fill the arena, which each allocation keeps; in the end one tree is left, with a leaf for each
symbol of nonzero weight. -/

set_option autoImplicit false

namespace Sys2Proof.Machine

/-! ### Weights -/

theorem mem_weighted {w : Table Word} {b : Byte} : b ∈ weighted w ↔ tget w b ≠ 0 := by
  simp [weighted]

theorem weighted_nodup (w : Table Word) : (weighted w).Nodup := symbols_nodup.filter _

/-- The symbols of weight 0 add nothing. -/
theorem weightSum_eq_sum_weighted (w : Table Word) :
    weightSum w = ((weighted w).map fun b => (tget w b).toNat).sum := by
  rw [weightSum, weighted]
  induction symbols with
  | nil => rfl
  | cons b l ih =>
    rw [List.map_cons, List.sum_cons, ih, List.filter_cons]
    by_cases hb : tget w b = 0
    · rw [hb, if_neg (by decide)]
      exact Nat.zero_add _
    · rw [if_pos (bne_iff_ne.mpr hb), List.map_cons, List.sum_cons]

theorem weightSum_eq_zero {w : Table Word} (h : weighted w = []) : weightSum w = 0 := by
  rw [weightSum_eq_sum_weighted, h, List.map_nil, List.sum_nil]

theorem weighted_countsOf_perm {bs : List Byte} (h : bs.length < 2 ^ 32) : (weighted (countsOf bs)).Perm bs.dedup := by
  rw [List.perm_ext_iff_of_nodup (weighted_nodup _) (List.nodup_dedup bs)]
  intro b
  have hcount := count_lt h b
  rw [mem_weighted, List.mem_dedup, tget_countsOf, ← List.count_pos_iff, Ne, ← BitVec.toNat_inj, BitVec.toNat_ofNat,
    Nat.mod_eq_of_lt hcount]
  exact Nat.pos_iff_ne_zero.symm

/-- R151: the weights of a count add up to the number of bytes counted. -/
theorem weightSum_countsOf {bs : List Byte} (h : bs.length < 2 ^ 32) : weightSum (countsOf bs) = bs.length := by
  have hcount (b : Byte) : (tget (countsOf bs) b).toNat = bs.count b := by
    rw [tget_countsOf, BitVec.toNat_ofNat, Nat.mod_eq_of_lt (count_lt h b)]
  rw [weightSum_eq_sum_weighted, ((weighted_countsOf_perm h).map _).sum_eq]
  simp only [hcount]
  exact List.sum_map_count_dedup_eq_length bs

theorem weighted_perm_cons {tmp : Table Word} {b : Byte} (h : tget tmp b ≠ 0) :
    (weighted tmp).Perm (b :: weighted (tset tmp b 0)) := by
  have hnew : b ∉ weighted (tset tmp b 0) := by simp [mem_weighted, tget_tset_self]
  rw [List.perm_ext_iff_of_nodup (weighted_nodup _) (List.nodup_cons.mpr ⟨hnew, weighted_nodup _⟩)]
  intro x
  rw [List.mem_cons, mem_weighted, mem_weighted, tget_tset]
  by_cases hx : x = b
  · simpa [hx] using h
  · simp [hx]

theorem weightSum_tset_zero {tmp : Table Word} {b : Byte} (h : tget tmp b ≠ 0) :
    weightSum tmp = (tget tmp b).toNat + weightSum (tset tmp b 0) := by
  rw [weightSum_eq_sum_weighted, ((weighted_perm_cons h).map _).sum_eq, List.map_cons, List.sum_cons,
    weightSum_eq_sum_weighted]
  congr 2
  refine List.map_congr_left fun x hx => ?_
  have hne : x ≠ b := by rintro rfl; exact mem_weighted.mp hx (tget_tset_self _ _ _)
  rw [tget_tset_ne _ _ hne]

/-! ### The scan for the smallest weight (R162) -/

/-- What a scan of the symbols `l` may have found: a symbol of nonzero weight, or nothing, where there is none. -/
def ScanFinds (tmp : Table Word) (l : List Byte) : Option Byte → Prop
  | some b => tget tmp b ≠ 0
  | none => ∀ b ∈ l, tget tmp b = 0

theorem scanFinds_foldl (tmp : Table Word) (l : List Byte) :
    ScanFinds tmp l (l.foldl (fun best s => if betterThan tmp best s then some s else best) none) := by
  induction l using List.reverseRecOn with
  | nil => exact fun _ h => absurd h List.not_mem_nil
  | append_singleton l s ih =>
    rw [List.foldl_append]
    generalize l.foldl (fun best s => if betterThan tmp best s then some s else best) none = best at ih ⊢
    rw [List.foldl_cons, List.foldl_nil]
    split
    case isTrue hbetter =>
      exact bne_iff_ne.mp (Bool.and_eq_true_iff.mp hbetter).1
    case isFalse hkept =>
      cases best with
      | some b => exact ih
      | none =>
        have hzero : tget tmp s = 0 := by simpa [betterThan] using hkept
        intro b hb
        rcases List.mem_append.mp hb with hb | hb
        · exact ih b hb
        · rw [List.mem_singleton.mp hb, hzero]

theorem scanFinds_pickMin (tmp : Table Word) : ScanFinds tmp symbols (pickMin tmp) := scanFinds_foldl tmp symbols

theorem weighted_eq_nil_of_pickMin {tmp : Table Word} (h : pickMin tmp = none) : weighted tmp = [] := by
  have hzero : ScanFinds tmp symbols none := h ▸ scanFinds_pickMin tmp
  exact List.eq_nil_iff_forall_not_mem.mpr fun b hb => mem_weighted.mp hb (hzero b (mem_symbols b))

theorem tget_ne_zero_of_pickMin {tmp : Table Word} {b : Byte} (h : pickMin tmp = some b) : tget tmp b ≠ 0 := by
  have hfound : ScanFinds tmp symbols (some b) := h ▸ scanFinds_pickMin tmp
  exact hfound

/-! ### The trees under the priority list -/

theorem isTrie_append {arena : List Node} {o : Option Nat} {t : Trie} (h : IsTrie arena o t) (more : List Node) :
    IsTrie (arena ++ more) o t := by
  have hkeep {i : Nat} {n : Node} (hi : arena[i]? = some n) : (arena ++ more)[i]? = some n := by
    rw [List.getElem?_append_left (List.getElem?_eq_some_iff.mp hi).1, hi]
  induction h with
  | none => exact .none
  | leaf hi => exact .leaf (hkeep hi)
  | node hi _ _ ihl ihr => exact .node (hkeep hi) ihl ihr

theorem lt_length_of_isTrie {arena : List Node} {i : Nat} {t : Trie} (h : IsTrie arena (some i) t) :
    i < arena.length := by
  cases h with
  | leaf hi => exact (List.getElem?_eq_some_iff.mp hi).1
  | node hi _ _ => exact (List.getElem?_eq_some_iff.mp hi).1

/-- The records in a priority list are the roots of the trees `ts`, in order; the trees are full, and they are as large
as the arena (R166 (a), (b)). -/
structure Forest (arena : List Node) (pl : List Nat) (ts : List Trie) : Prop where
  held : List.Forall₂ (fun i t => IsTrie arena (some i) t) pl ts
  full : ∀ t ∈ ts, t.full = true
  nodes : (ts.map Trie.nodes).sum = arena.length

theorem forest_nil : Forest [] [] [] where
  held := .nil
  full := nofun
  nodes := rfl

/-- A record is allocated for the root of `t`, and goes into the list. -/
theorem forest_insertOrdered {arena : List Node} {pl : List Nat} {ts : List Trie} {n : Node} {t : Trie}
    (hheld : List.Forall₂ (fun i t => IsTrie arena (some i) t) pl ts) (hfull : ∀ u ∈ t :: ts, u.full = true)
    (hnodes : ((t :: ts).map Trie.nodes).sum = arena.length + 1)
    (ht : IsTrie (arena ++ [n]) (some arena.length) t) :
    ∃ ts', ts'.Perm (t :: ts) ∧ Forest (arena ++ [n]) (insertOrdered (arena ++ [n]) arena.length pl) ts' := by
  have hcons : List.Forall₂ (fun i t => IsTrie (arena ++ [n]) (some i) t) (arena.length :: pl) (t :: ts) :=
    .cons ht (hheld.imp fun _ _ h => isTrie_append h [n])
  obtain ⟨ts', hheld', hperm⟩ := List.perm_comp_forall₂ (insertOrdered_perm (arena ++ [n]) arena.length pl) hcons
  refine ⟨ts', hperm, hheld', fun u hu => hfull u (hperm.mem_iff.mp hu), ?_⟩
  rw [(hperm.map _).sum_eq, hnodes, List.length_append, List.length_singleton]

/-- The sum of the weights in a priority list. -/
def listWeight (arena : List Node) (pl : List Nat) : Nat := (pl.map fun i => (nodeWeight arena i).toNat).sum

@[simp] theorem listWeight_cons (arena : List Node) (i : Nat) (pl : List Nat) :
    listWeight arena (i :: pl) = (nodeWeight arena i).toNat + listWeight arena pl := by
  simp [listWeight]

theorem listWeight_insertOrdered {arena : List Node} {pl : List Nat} {ts : List Trie}
    (h : List.Forall₂ (fun i t => IsTrie arena (some i) t) pl ts) (n : Node) :
    listWeight (arena ++ [n]) (insertOrdered (arena ++ [n]) arena.length pl)
      = n.weight.toNat + listWeight arena pl := by
  have hnew : nodeWeight (arena ++ [n]) arena.length = n.weight := by simp [nodeWeight]
  have hold : listWeight (arena ++ [n]) pl = listWeight arena pl := by
    induction h with
    | nil => rfl
    | cons hi _ ih => rw [listWeight_cons, listWeight_cons, ih, nodeWeight_append (lt_length_of_isTrie hi)]
  rw [listWeight, ((insertOrdered_perm _ _ _).map _).sum_eq, ← listWeight, listWeight_cons, hnew, hold]

/-! ### The initial list and the merges -/

/-- R162: the symbols that are left get a leaf each. -/
theorem listInitLoop_forest {n : Nat} {tmp : Table Word} {arena : List Node} {pl : List Nat} {ts : List Trie}
    (hn : (weighted tmp).length ≤ n) (h : Forest arena pl ts) :
    ∃ arena' pl' ts', listInitLoop n tmp arena pl = (arena', pl') ∧ Forest arena' pl' ts' ∧
      (ts'.flatMap Trie.symbols).Perm (weighted tmp ++ ts.flatMap Trie.symbols) ∧
      listWeight arena' pl' = weightSum tmp + listWeight arena pl := by
  induction n generalizing tmp arena pl ts with
  | zero =>
    refine ⟨arena, pl, ts, rfl, h, ?_⟩
    have hnone : weighted tmp = [] := List.eq_nil_of_length_eq_zero (Nat.le_zero.mp hn)
    rw [hnone, weightSum_eq_zero hnone, List.nil_append, Nat.zero_add]
    exact ⟨.rfl, rfl⟩
  | succ n ih =>
    rw [listInitLoop]
    cases hpick : pickMin tmp with
    | none =>
      refine ⟨arena, pl, ts, rfl, h, ?_⟩
      have hnone := weighted_eq_nil_of_pickMin hpick
      rw [hnone, weightSum_eq_zero hnone, List.nil_append, Nat.zero_add]
      exact ⟨.rfl, rfl⟩
    | some b =>
      have hb := tget_ne_zero_of_pickMin hpick
      have hperm := weighted_perm_cons hb
      have hleaf : IsTrie (arena ++ [.leaf b (tget tmp b)]) (some arena.length) (.leaf b) :=
        .leaf List.getElem?_concat_length
      have hfull : ∀ u ∈ Trie.leaf b :: ts, u.full = true := List.forall_mem_cons.mpr ⟨rfl, h.full⟩
      obtain ⟨ts₁, hts₁, h₁⟩ := forest_insertOrdered h.held hfull
        (by rw [List.map_cons, List.sum_cons, h.nodes, Trie.nodes, Nat.add_comm]) hleaf
      have hlen : (weighted (tset tmp b 0)).length ≤ n := by
        rw [hperm.length_eq, List.length_cons] at hn
        exact Nat.le_of_succ_le_succ hn
      obtain ⟨arena', pl', ts', hloop, h', hsyms, hweight⟩ := ih hlen h₁
      refine ⟨arena', pl', ts', hloop, h', ?_, ?_⟩
      · calc ts'.flatMap Trie.symbols
          _ |>.Perm (weighted (tset tmp b 0) ++ ts₁.flatMap Trie.symbols) := hsyms
          _ |>.Perm (weighted (tset tmp b 0) ++ b :: ts.flatMap Trie.symbols) :=
            (hts₁.flatMap_right Trie.symbols).append_left _
          _ |>.Perm (weighted tmp ++ ts.flatMap Trie.symbols) :=
            List.perm_middle.trans (hperm.symm.append_right _)
      · rw [hweight, listWeight_insertOrdered h.held, weightSum_tset_zero hb, Node.weight]
        omega


theorem symbols_node (l r : Trie) : (Trie.node l r).symbols = l.symbols ++ r.symbols := by
  simp [Trie.symbols, Trie.codes, Function.comp_def]

/-- The record that a merge of `a` and `b` allocates (R164). -/
def mergedNode (arena : List Node) (a b : Nat) : Node :=
  .inner (nodeWeight arena a + nodeWeight arena b) (some a) (some b)

theorem mergeLoop_succ (n : Nat) {arena : List Node} {a b : Nat} (pl : List Nat)
    (h : (nodeWeight arena a).toNat + (nodeWeight arena b).toNat < 2 ^ 32) :
    mergeLoop (n + 1) arena (a :: b :: pl)
      = mergeLoop n (arena ++ [mergedNode arena a b])
          (insertOrdered (arena ++ [mergedNode arena a b]) arena.length pl) :=
  if_pos h

/-- R164: a merge makes one tree of the first two, and the weights of the list add up to the same. -/
theorem forest_merge {arena : List Node} {a b : Nat} {pl : List Nat} {ta tb : Trie} {ts : List Trie}
    (h : Forest arena (a :: b :: pl) (ta :: tb :: ts))
    (hsum : (nodeWeight arena a).toNat + (nodeWeight arena b).toNat < 2 ^ 32) :
    ∃ ts', ts'.Perm (.node ta tb :: ts) ∧
      Forest (arena ++ [mergedNode arena a b])
        (insertOrdered (arena ++ [mergedNode arena a b]) arena.length pl) ts' ∧
      listWeight (arena ++ [mergedNode arena a b])
          (insertOrdered (arena ++ [mergedNode arena a b]) arena.length pl)
        = listWeight arena (a :: b :: pl) := by
  obtain ⟨hheld, hfull, hnodes⟩ := h
  cases hheld with
  | cons ha hheld =>
  cases hheld with
  | cons hb hheld =>
    obtain ⟨hta, htb, hfull⟩ : ta.full = true ∧ tb.full = true ∧ ∀ u ∈ ts, u.full = true := by simpa using hfull
    have hnode : IsTrie (arena ++ [mergedNode arena a b]) (some arena.length) (.node ta tb) :=
      .node List.getElem?_concat_length (isTrie_append ha _) (isTrie_append hb _)
    obtain ⟨ts', hperm, h'⟩ := forest_insertOrdered hheld
      (List.forall_mem_cons.mpr ⟨by rw [Trie.full, hta, htb]; rfl, hfull⟩)
      (by simp only [List.map_cons, List.sum_cons, Trie.nodes] at hnodes ⊢; omega) hnode
    refine ⟨ts', hperm, h', ?_⟩
    rw [listWeight_insertOrdered hheld, mergedNode, Node.weight, BitVec.toNat_add, Nat.mod_eq_of_lt hsum,
      listWeight_cons, listWeight_cons, Nat.add_assoc]

/-- R164, R165: n - 1 merges leave one tree, with the leaves of all. -/
theorem mergeLoop_forest {n : Nat} {arena : List Node} {pl : List Nat} {ts : List Trie} (hlen : pl.length = n + 1)
    (h : Forest arena pl ts) (hweight : listWeight arena pl < 2 ^ 32) :
    ∃ arena' r t, mergeLoop n arena pl = .ok (arena', [r]) ∧ Forest arena' [r] [t] ∧
      t.symbols.Perm (ts.flatMap Trie.symbols) := by
  induction n generalizing arena pl ts with
  | zero =>
    obtain ⟨r, rfl⟩ := List.length_eq_one_iff.mp hlen
    obtain ⟨t, rfl⟩ := List.length_eq_one_iff.mp (h.held.length_eq.symm.trans hlen)
    exact ⟨arena, r, t, rfl, h, by simp⟩
  | succ n ih =>
    match pl, ts, h.held with
    | a :: b :: pl, ta :: tb :: ts, .cons _ (.cons _ _) =>
      have hsum : (nodeWeight arena a).toNat + (nodeWeight arena b).toNat < 2 ^ 32 := by
        rw [listWeight_cons, listWeight_cons] at hweight
        omega
      obtain ⟨ts₁, hperm, h₁, hsame⟩ := forest_merge h hsum
      obtain ⟨arena', r, t, hloop, h', hsyms⟩ :=
        ih (by rw [insertOrdered_length]; simpa using hlen) h₁ (hsame ▸ hweight)
      refine ⟨arena', r, t, (mergeLoop_succ n pl hsum).trans hloop, h', ?_⟩
      calc t.symbols
        _ |>.Perm (ts₁.flatMap Trie.symbols) := hsyms
        _ |>.Perm ((Trie.node ta tb :: ts).flatMap Trie.symbols) := hperm.flatMap_right _
        _ = (ta :: tb :: ts).flatMap Trie.symbols := by
          rw [List.flatMap_cons, List.flatMap_cons, List.flatMap_cons, symbols_node, List.append_assoc]

/-! ### The body of BUILD -/

/-- The arena holds an encoder's tree under its root, empty or full, and is no smaller than it (R163, R166). -/
structure EncoderTree (arena : List Node) (root : Option Nat) (t : Trie) : Prop where
  held : IsTrie arena root t
  full : t = .none ∨ t.full = true
  nodes : t.nodes ≤ arena.length

/-- R163: BUILD of weights whose sum is a word's leaves the tree of the symbols of nonzero weight. -/
theorem buildBody_tree {s : State} (h : weightSum s.w < 2 ^ 32) :
    ∃ arena root t, buildBody s = .done () { s with arena := arena, pl := [], root := root } ∧
      EncoderTree arena root t ∧ t.symbols.Perm (weighted s.w) := by
  have hbound : (weighted s.w).length ≤ 256 := (List.length_filter_le _ _).trans symbols_length.le
  obtain ⟨arena₀, pl₀, ts₀, hinit, h₀, hsyms₀, hweight₀⟩ := listInitLoop_forest hbound forest_nil
  rw [List.flatMap_nil, List.append_nil] at hsyms₀
  rw [show listWeight [] [] = 0 from rfl, Nat.add_zero] at hweight₀
  have hinit : listInit s.w = (arena₀, pl₀) := hinit
  simp only [buildBody, hinit]
  cases hpl : pl₀.length with
  | zero =>
    obtain rfl := List.eq_nil_of_length_eq_zero hpl
    obtain ⟨hheld, -, -⟩ := h₀
    cases hheld
    exact ⟨arena₀, none, .none, rfl, ⟨.none, .inl rfl, Nat.zero_le _⟩, hsyms₀⟩
  | succ n =>
    obtain ⟨arena, r, t, hloop, ⟨hheld, hfull, hnodes⟩, hsyms⟩ := mergeLoop_forest hpl h₀ (hweight₀ ▸ h)
    refine ⟨arena, some r, t, ?_, ⟨?_, .inr (hfull t (List.mem_singleton_self t)), ?_⟩, hsyms.trans hsyms₀⟩
    · rw [Nat.add_sub_cancel, hloop]
      rfl
    · cases hheld with
      | cons hr _ => exact hr
    · exact (by simpa using hnodes : t.nodes = arena.length).le

end Sys2Proof.Machine
end

section
/-! PROOFS. The codes that ASSIGN gives (43_code_assigner.md R180 to R182): the traversal writes each leaf's path, no
path of a tree goes on past a leaf, and a full tree is less deep than it has leaves. -/

set_option autoImplicit false

namespace Sys2Proof.Machine

/-! ### The paths of a tree -/

theorem mem_codes_node {l r : Trie} {b : Byte} {code : Bits} :
    (b, code) ∈ (Trie.node l r).codes ↔
      (∃ path, code = false :: path ∧ (b, path) ∈ l.codes) ∨ (∃ path, code = true :: path ∧ (b, path) ∈ r.codes) := by
  simp only [Trie.codes, List.mem_append, List.mem_map, Prod.mk.injEq, Prod.exists]
  constructor
  · rintro (⟨x, path, hmem, rfl, rfl⟩ | ⟨x, path, hmem, rfl, rfl⟩)
    · exact .inl ⟨path, rfl, hmem⟩
    · exact .inr ⟨path, rfl, hmem⟩
  · rintro (⟨path, rfl, hmem⟩ | ⟨path, rfl, hmem⟩)
    · exact .inl ⟨b, path, hmem, rfl, rfl⟩
    · exact .inr ⟨b, path, hmem, rfl, rfl⟩

/-- The path of a leaf is what `descend` follows to it. -/
theorem descend_of_mem_codes {t : Trie} {b : Byte} {code : Bits} (h : (b, code) ∈ t.codes) :
    t.descend code = .leaf b := by
  induction t generalizing code with
  | none => exact absurd h List.not_mem_nil
  | leaf s =>
    obtain ⟨rfl, rfl⟩ := Prod.mk.inj (List.mem_singleton.mp h)
    rfl
  | node l r ihl ihr =>
    rcases mem_codes_node.mp h with ⟨path, rfl, hmem⟩ | ⟨path, rfl, hmem⟩
    · exact ihl hmem
    · exact ihr hmem

theorem descend_append (t : Trie) (code more : Bits) : t.descend (code ++ more) = (t.descend code).descend more := by
  induction code generalizing t with
  | nil => rw [List.nil_append, Trie.descend]
  | cons x code ih =>
    cases t with
    | none => cases more <;> rfl
    | leaf s => cases more <;> rfl
    | node l r => cases x <;> exact ih _

/-- R182 (c): a path that ends at a leaf does not go on. -/
theorem eq_of_prefix_of_mem_codes {t : Trie} {a b : Byte} {c d : Bits} (ha : (a, c) ∈ t.codes) (hb : (b, d) ∈ t.codes)
    (h : c <+: d) : a = b := by
  obtain ⟨more, rfl⟩ := h
  have hleaf := descend_of_mem_codes hb
  rw [descend_append, descend_of_mem_codes ha] at hleaf
  cases more with
  | nil => exact Trie.leaf.inj hleaf
  | cons x more => cases hleaf

theorem length_le_depth {t : Trie} {b : Byte} {code : Bits} (h : (b, code) ∈ t.codes) : code.length ≤ t.depth := by
  induction t generalizing code with
  | none => exact absurd h List.not_mem_nil
  | leaf s =>
    obtain ⟨rfl, rfl⟩ := Prod.mk.inj (List.mem_singleton.mp h)
    exact le_rfl
  | node l r ihl ihr =>
    rw [Trie.depth]
    rcases mem_codes_node.mp h with ⟨path, rfl, hmem⟩ | ⟨path, rfl, hmem⟩
    · have := ihl hmem
      rw [List.length_cons]; omega
    · have := ihr hmem
      rw [List.length_cons]; omega

theorem ne_nil_of_mem_codes_node {l r : Trie} {b : Byte} {code : Bits} (h : (b, code) ∈ (Trie.node l r).codes) :
    code ≠ [] := by
  rcases mem_codes_node.mp h with ⟨path, rfl, -⟩ | ⟨path, rfl, -⟩ <;> exact List.cons_ne_nil _ _

theorem mem_trieSymbols {t : Trie} {b : Byte} : b ∈ t.symbols ↔ ∃ code, (b, code) ∈ t.codes := by
  simp [Trie.symbols]

/-- R166 (d): in a full tree each inner node has a leaf on either side. -/
theorem depth_lt_symbols_length {t : Trie} (h : t.full = true) : t.depth < t.symbols.length := by
  induction t with
  | none => cases h
  | leaf s => exact Nat.zero_lt_one
  | node l r ihl ihr =>
    obtain ⟨hl, hr⟩ := Bool.and_eq_true_iff.mp h
    have := ihl hl
    have := ihr hr
    rw [symbols_node, List.length_append, Trie.depth]
    omega

/-! ### The queue of ASSIGN (R180) -/

/-- An entry of the queue: a node, the code so far, and the tree that hangs there. -/
structure Queued where
  node : Nat
  code : Bits
  tree : Trie

/-- The entry as the queue has it. -/
def Queued.entry (e : Queued) : Nat × Bits := (e.node, e.code)

/-- The codes of the leaves below the entry. -/
def Queued.codes (e : Queued) : List (Byte × Bits) := e.tree.codes.map fun p => (p.1, e.code ++ p.2)

/-- The entry's tree is a full one of the arena, and not too deep. -/
structure Queued.Ok (arena : List Node) (e : Queued) : Prop where
  held : IsTrie arena (some e.node) e.tree
  full : e.tree.full = true
  short : e.code.length + e.tree.depth ≤ 255

/-- The codes of the queue's leaves. -/
def queueCodes (q : List Queued) : List (Byte × Bits) := q.flatMap Queued.codes

/-- The number of the queue's nodes, which is how often ASSIGN will dequeue (R182 (e)). -/
def queueNodes (q : List Queued) : Nat := (q.map fun e => e.tree.nodes).sum

theorem queueCodes_cons (e : Queued) (q : List Queued) : queueCodes (e :: q) = e.codes ++ queueCodes q := rfl

theorem queueCodes_leaf (x : Nat) (code : Bits) (s : Byte) (q : List Queued) :
    queueCodes (⟨x, code, .leaf s⟩ :: q) = (s, code) :: queueCodes q := by
  simp [queueCodes_cons, Queued.codes, Trie.codes]

theorem queueCodes_append (p q : List Queued) : queueCodes (p ++ q) = queueCodes p ++ queueCodes q :=
  List.flatMap_append

theorem queueNodes_cons (e : Queued) (q : List Queued) : queueNodes (e :: q) = e.tree.nodes + queueNodes q := by
  simp [queueNodes]

/-- The entries for the children of an inner node. -/
def Queued.children (x y : Nat) (code : Bits) (l r : Trie) : List Queued :=
  [⟨x, code ++ [false], l⟩, ⟨y, code ++ [true], r⟩]

theorem queueCodes_children (i x y : Nat) (code : Bits) (l r : Trie) :
    queueCodes (Queued.children x y code l r) = (Queued.mk i code (.node l r)).codes := by
  simp [queueCodes, Queued.children, Queued.codes, Trie.codes, Function.comp_def]

/-- The leaves' codes are written over the table. -/
def Writes (codes : List (Byte × Bits)) (ct ct' : Table (Option Bits)) : Prop :=
  ∀ b code, tget ct' b = some code ↔ (b, code) ∈ codes ∨ (b ∉ codes.map Prod.fst ∧ tget ct b = some code)

theorem writes_nil (ct : Table (Option Bits)) : Writes [] ct ct := by
  simp [Writes]

theorem writes_perm {codes codes' : List (Byte × Bits)} {ct ct' : Table (Option Bits)} (h : codes.Perm codes')
    (hw : Writes codes ct ct') : Writes codes' ct ct' := by
  intro b code
  rw [hw b code, h.mem_iff, (h.map Prod.fst).mem_iff]

theorem writes_cons {s : Byte} {code : Bits} {codes : List (Byte × Bits)} {ct ct' : Table (Option Bits)}
    (hnew : s ∉ codes.map Prod.fst) (hw : Writes codes (tset ct s (some code)) ct') :
    Writes ((s, code) :: codes) ct ct' := by
  intro b c
  rw [hw b c, tget_tset]
  by_cases hb : b = s
  · subst hb
    simp [hnew, eq_comm, or_comm]
  · simp [hb]

theorem nodes_pos_of_full {t : Trie} (h : t.full = true) : 0 < t.nodes := by
  cases t with
  | none => cases h
  | leaf s => exact Nat.zero_lt_one
  | node l r => exact Nat.succ_pos _

theorem assignLoop_leaf {arena : List Node} (n : Nat) {x : Nat} {code : Bits} {s : Byte} {wt : Word}
    (q : List (Nat × Bits)) (ct : Table (Option Bits)) (hx : arena[x]? = some (.leaf s wt))
    (hcode : code.length ≤ 255) :
    assignLoop arena (n + 1) ((x, code) :: q) ct = assignLoop arena n q (tset ct s (some code)) := by
  rw [assignLoop, hx]
  exact if_pos hcode

theorem assignLoop_inner {arena : List Node} (n : Nat) {x y z : Nat} {wt : Word} (code : Bits)
    (q : List (Nat × Bits)) (ct : Table (Option Bits)) (hx : arena[x]? = some (.inner wt (some y) (some z))) :
    assignLoop arena (n + 1) ((x, code) :: q) ct
      = assignLoop arena n (q ++ [(y, code ++ [false]), (z, code ++ [true])]) ct := by
  rw [assignLoop, hx]

/-- An inner node of an encoder's tree: its children are there, and its entry gives way to theirs (R180). -/
theorem Queued.Ok.children {arena : List Node} {x : Nat} {code : Bits} {l r : Trie}
    (h : (Queued.mk x code (.node l r)).Ok arena) :
    ∃ wt y z, arena[x]? = some (.inner wt (some y) (some z)) ∧ ∀ e ∈ Queued.children y z code l r, e.Ok arena := by
  obtain ⟨hheld, hfull, hshort⟩ := h
  obtain ⟨hl, hr⟩ := Bool.and_eq_true_iff.mp hfull
  obtain ⟨wt, oy, oz, hx, hy, hz⟩ := isTrie_node hheld
  have hlink {o : Option Nat} {t : Trie} (ht : IsTrie arena o t) (hf : t.full = true) : ∃ i, o = some i := by
    cases ht with
    | none => cases hf
    | leaf _ => exact ⟨_, rfl⟩
    | node _ _ _ => exact ⟨_, rfl⟩
  obtain ⟨y, rfl⟩ := hlink hy hl
  obtain ⟨z, rfl⟩ := hlink hz hr
  simp only [Trie.depth] at hshort
  have hlen (b : Bool) : (code ++ [b]).length = code.length + 1 := List.length_append
  refine ⟨wt, y, z, hx, List.forall_mem_cons.mpr ⟨⟨hy, hl, ?_⟩, List.forall_mem_singleton.mpr ⟨hz, hr, ?_⟩⟩⟩
  · simp only [hlen]; omega
  · simp only [hlen]; omega

/-- R180, R182 (e): the traversal ends, and writes the codes of the leaves under the queue. -/
theorem assignLoop_writes {arena : List Node} {n : Nat} {q : List Queued} {ct : Table (Option Bits)}
    (hq : ∀ e ∈ q, e.Ok arena) (hnodes : queueNodes q ≤ n) (hnodup : ((queueCodes q).map Prod.fst).Nodup) :
    ∃ ct', assignLoop arena n (q.map Queued.entry) ct = .ok ct' ∧ Writes (queueCodes q) ct ct' := by
  induction n generalizing q ct with
  | zero =>
    cases q with
    | nil => exact ⟨ct, rfl, writes_nil ct⟩
    | cons e q =>
      have hpos := nodes_pos_of_full (hq e List.mem_cons_self).full
      rw [queueNodes_cons] at hnodes
      omega
  | succ n ih =>
    match q with
    | [] => exact ⟨ct, rfl, writes_nil ct⟩
    | ⟨x, code, t⟩ :: q =>
      obtain ⟨hhead, htail⟩ := List.forall_mem_cons.mp hq
      rw [queueNodes_cons] at hnodes
      cases t with
      | none => cases hhead.full
      | leaf s =>
        obtain ⟨wt, hx⟩ := isTrie_leaf hhead.held
        rw [queueCodes_leaf] at hnodup ⊢
        obtain ⟨hnew, hnodup⟩ := List.nodup_cons.mp hnodup
        rw [Trie.nodes, Nat.add_comm] at hnodes
        obtain ⟨ct', hloop, hw⟩ := ih (ct := tset ct s (some code)) htail (Nat.le_of_succ_le_succ hnodes) hnodup
        exact ⟨ct', (assignLoop_leaf n _ ct hx (Nat.le_of_add_right_le hhead.short)).trans hloop, writes_cons hnew hw⟩
      | node l r =>
        obtain ⟨wt, y, z, hx, hchildren⟩ := hhead.children
        have hcodes : (queueCodes (q ++ Queued.children y z code l r)).Perm
            (queueCodes (⟨x, code, .node l r⟩ :: q)) := by
          rw [queueCodes_append, queueCodes_children x, queueCodes_cons]
          exact List.perm_append_comm
        have hfewer : queueNodes (q ++ Queued.children y z code l r) ≤ n := by
          simp only [Trie.nodes] at hnodes
          simp only [queueNodes, List.map_append, List.sum_append, Queued.children, List.map_cons, List.map_nil,
            List.sum_cons, List.sum_nil] at hnodes ⊢
          omega
        obtain ⟨ct', hloop, hw⟩ := ih (q := q ++ Queued.children y z code l r) (ct := ct)
          (List.forall_mem_append.mpr ⟨htail, hchildren⟩) hfewer ((hcodes.map Prod.fst).nodup_iff.mpr hnodup)
        rw [List.map_append] at hloop
        exact ⟨ct', (assignLoop_inner n code _ ct hx).trans hloop, writes_perm hcodes hw⟩

/-! ### The table ASSIGN leaves -/

/-- R51, R182 (a) to (c): exactly the symbols of a set have a code; each is of 1 to 255 bits, and none is a prefix of
another's. -/
structure CodesFor (ct : Table (Option Bits)) (present : Byte → Prop) : Prop where
  present_iff : ∀ b, (tget ct b).isSome = true ↔ present b
  free : PrefixFree ct
  bounded : CodesBounded ct

/-- R180: the table of the paths of a tree that is more than a leaf. -/
theorem codesFor_of_writes {ct : Table (Option Bits)} {l r : Trie} (hdepth : (Trie.node l r).depth ≤ 255)
    (hw : Writes (Trie.node l r).codes (Vector.replicate 256 none) ct) : CodesFor ct (· ∈ (Trie.node l r).symbols) := by
  have hcode (b : Byte) (code : Bits) : tget ct b = some code ↔ (b, code) ∈ (Trie.node l r).codes := by
    rw [hw b code, tget_replicate]
    simp
  refine ⟨fun b => ?_, fun a b c d hne ha hb hpre => ?_, fun b code hb => ⟨?_, ?_⟩⟩
  · rw [Option.isSome_iff_exists, mem_trieSymbols]
    exact exists_congr (hcode b)
  · exact hne (eq_of_prefix_of_mem_codes ((hcode a c).mp ha) ((hcode b d).mp hb) hpre)
  · exact List.length_pos_of_ne_nil (ne_nil_of_mem_codes_node ((hcode b code).mp hb))
  · exact (length_le_depth ((hcode b code).mp hb)).trans hdepth

/-- R163, R180: no tree, no code. -/
theorem codesFor_empty : CodesFor (Vector.replicate 256 none) (· ∈ Trie.none.symbols) where
  present_iff b := by simp [Trie.symbols, Trie.codes]
  free a b c d _ ha _ := by simp at ha
  bounded b code hb := by simp at hb

/-- R181: a single leaf has the code "0". -/
theorem codesFor_leaf (s : Byte) :
    CodesFor (tset (Vector.replicate 256 none) s (some [false])) (· ∈ (Trie.leaf s).symbols) := by
  have hcode (b : Byte) (code : Bits) :
      tget (tset (Vector.replicate 256 none) s (some [false])) b = some code ↔ b = s ∧ [false] = code := by
    rw [tget_tset, tget_replicate]
    split <;> simp [*]
  refine ⟨fun b => ?_, fun a b c d hne ha hb => ?_, fun b code hb => ?_⟩
  · simp [Option.isSome_iff_exists, hcode, Trie.symbols, Trie.codes]
  · exact absurd (((hcode a c).mp ha).1.trans ((hcode b d).mp hb).1.symm) hne
  · obtain ⟨-, rfl⟩ := (hcode b code).mp hb
    decide

/-- R180 to R182: ASSIGN gives codes to the symbols of an encoder's tree. -/
theorem assignTable_codesFor {arena : List Node} {root : Option Nat} {t : Trie} (h : EncoderTree arena root t)
    (hdepth : t.depth ≤ 255) (hnodup : t.symbols.Nodup) :
    ∃ ct, assignTable arena root = .ok ct ∧ CodesFor ct (· ∈ t.symbols) := by
  obtain ⟨hheld, hfull, hnodes⟩ := h
  cases t with
  | none =>
    cases hheld
    exact ⟨_, rfl, codesFor_empty⟩
  | leaf s =>
    cases hheld with
    | leaf hx => exact ⟨_, by simp only [assignTable, hx], codesFor_leaf s⟩
  | node l r =>
    obtain ⟨x, rfl⟩ := isTrie_some hheld
    obtain ⟨wt, y, z, hx, -, -⟩ := isTrie_node hheld
    have hfull : (Trie.node l r).full = true := hfull.resolve_left nofun
    have hcodes : queueCodes [⟨x, [], .node l r⟩] = (Trie.node l r).codes := by
      simp [queueCodes, Queued.codes]
    have hq : ∀ e ∈ [Queued.mk x [] (.node l r)], e.Ok arena :=
      List.forall_mem_singleton.mpr ⟨hheld, hfull, by simpa using hdepth⟩
    obtain ⟨ct, hloop, hw⟩ := assignLoop_writes (n := arena.length) (ct := Vector.replicate 256 none) hq
      (by simpa [queueNodes] using hnodes) (hcodes ▸ hnodup)
    refine ⟨ct, ?_, codesFor_of_writes hdepth (hcodes ▸ hw)⟩
    simp only [assignTable, hx]
    exact hloop

/-- The body of ASSIGN on the tree of a symbol set. -/
theorem assignBody_codesFor {s : State} {t : Trie} {syms : List Byte} (h : EncoderTree s.arena s.root t)
    (hsyms : t.symbols.Perm syms) (hnodup : syms.Nodup) :
    ∃ ct, assignBody s = .done () { s with ct := ct } ∧ CodesFor ct (· ∈ syms) := by
  have hle : t.symbols.length ≤ 256 :=
    symbols_length ▸ ((hsyms.nodup_iff.mpr hnodup).subperm fun b _ => mem_symbols b).length_le
  have hdepth : t.depth ≤ 255 := by
    rcases h.full with rfl | hfull
    · exact Nat.zero_le _
    · have := depth_lt_symbols_length hfull
      omega
  obtain ⟨ct, htable, hcodes⟩ := assignTable_codesFor h hdepth (hsyms.nodup_iff.mpr hnodup)
  refine ⟨ct, by rw [assignBody, htable], ?_⟩
  simpa only [hsyms.mem_iff] using hcodes

end Sys2Proof.Machine
end

section
/-! PROOFS. The container as READ_HDR and UNPACK take it (30_encoding.md R108 to R113): its header is one of good
records, which are the entries of the code table, and the meaningful bits of its payload are the codes of the input. -/

set_option autoImplicit false

namespace Sys2Proof.Machine

/-! ### The records of a code table -/

/-- The header record of a table entry (R110, R111). -/
def recordOf (b : Byte) (code : Bits) : HdrRecord := ⟨b, BitVec.ofNat 8 code.length, codeField code⟩

/-- The records of the present entries, in ascending symbol order (R190). -/
def tableRecords (ct : Table (Option Bits)) : List HdrRecord :=
  symbols.filterMap fun b => (tget ct b).map (recordOf b)

theorem mem_tableRecords {ct : Table (Option Bits)} {r : HdrRecord} :
    r ∈ tableRecords ct ↔ ∃ b code, tget ct b = some code ∧ recordOf b code = r := by
  simp [tableRecords]

theorem toNat_ofNat_length {code : Bits} (h : code.length ≤ 255) :
    (BitVec.ofNat 8 code.length).toNat = code.length := by
  rw [BitVec.toNat_ofNat, Nat.mod_eq_of_lt (by omega)]

theorem code_recordOf (b : Byte) {code : Bits} (h : code.length ≤ 255) : (recordOf b code).code = code :=
  codeOfField_codeField (toNat_ofNat_length h).symm

theorem ok_recordOf (b : Byte) {code : Bits} (h : 1 ≤ code.length ∧ code.length ≤ 255) :
    (recordOf b code).ok = true := by
  obtain ⟨hpos, hle⟩ := h
  have hlen := toNat_ofNat_length hle
  refine ok_iff.mpr ⟨fun hzero => ?_, ?_⟩
  · rw [show BitVec.ofNat 8 code.length = 0 from hzero] at hlen
    exact absurd hlen.symm (Nat.ne_of_gt hpos)
  · rw [show (recordOf b code).len.toNat = code.length from hlen, bytesFor_eq]
    exact codeField_length code

theorem flatMap_bytes_tableRecords (ct : Table (Option Bits)) :
    (tableRecords ct).flatMap HdrRecord.bytes = recordsOf ct := by
  rw [tableRecords, recordsOf]
  induction symbols with
  | nil => rfl
  | cons b l ih =>
    rw [List.flatMap_cons, List.filterMap_cons, ← ih]
    cases tget ct b <;> rfl

theorem map_sym_tableRecords (ct : Table (Option Bits)) :
    (tableRecords ct).map HdrRecord.sym = symbols.filter fun b => (tget ct b).isSome := by
  rw [tableRecords]
  induction symbols with
  | nil => rfl
  | cons b l ih =>
    rw [List.filterMap_cons, List.filter_cons, ← ih]
    cases tget ct b <;> rfl

theorem length_tableRecords (ct : Table (Option Bits)) : (tableRecords ct).length = presentCount ct := by
  rw [presentCount, ← map_sym_tableRecords, List.length_map]

/-- R116: the records of a prefix-free table are ones READ_HDR accepts. -/
theorem goodRecords_tableRecords {ct : Table (Option Bits)} (hfree : PrefixFree ct) (hbound : CodesBounded ct) :
    GoodRecords (tableRecords ct) := by
  have honce : ((tableRecords ct).map HdrRecord.sym).Nodup := by
    rw [map_sym_tableRecords]
    exact symbols_nodup.filter _
  refine ⟨?_, fun r hr => ?_, honce, ?_⟩
  · rw [length_tableRecords, ← symbols_length]
    exact List.length_filter_le _ _
  · obtain ⟨b, code, hcode, rfl⟩ := mem_tableRecords.mp hr
    exact ok_recordOf b (hbound b code hcode)
  · refine (List.pairwise_map.mp honce).imp_of_mem fun {q r} hq hr hne => ?_
    obtain ⟨a, c, ha, rfl⟩ := mem_tableRecords.mp hq
    obtain ⟨b, d, hb, rfl⟩ := mem_tableRecords.mp hr
    rw [code_recordOf a (hbound a c ha).2, code_recordOf b (hbound b d hb).2]
    exact ⟨hfree a b c d hne ha hb, hfree b a d c hne.symm hb ha⟩

/-- R199, R201: what the decoder's tree has at a table entry's code. -/
theorem lookup_of_holdsRecords {ct : Table (Option Bits)} {t : Trie} (h : HoldsRecords t (tableRecords ct))
    (hbound : CodesBounded ct) {b : Byte} {code : Bits} (hcode : tget ct b = some code) : t.lookup code = some b :=
  (h code b).mpr ⟨recordOf b code, mem_tableRecords.mpr ⟨b, code, hcode, rfl⟩, rfl,
    code_recordOf b (hbound b code hcode).2⟩

/-- R37: a table with a code in it has a nonzero DEC_NSYM, the count being at most 256. -/
theorem ofNat_length_tableRecords_ne_zero {ct : Table (Option Bits)} (hfree : PrefixFree ct) (hbound : CodesBounded ct)
    {b : Byte} {code : Bits} (hcode : tget ct b = some code) : BitVec.ofNat 9 (tableRecords ct).length ≠ 0 := by
  have hpos : 0 < (tableRecords ct).length := List.length_pos_of_mem (mem_tableRecords.mpr ⟨b, code, hcode, rfl⟩)
  have hmax := (goodRecords_tableRecords hfree hbound).count
  intro hzero
  have hmod := congrArg BitVec.toNat hzero
  rw [BitVec.toNat_ofNat, Nat.mod_eq_of_lt (by omega)] at hmod
  exact absurd hmod (Nat.ne_of_gt hpos)

theorem tableRecords_eq_nil {ct : Table (Option Bits)} (h : ∀ b, (tget ct b).isSome ≠ true) : tableRecords ct = [] := by
  refine List.eq_nil_iff_forall_not_mem.mpr fun r hr => ?_
  obtain ⟨b, code, hcode, -⟩ := mem_tableRecords.mp hr
  exact h b (Option.isSome_of_eq_some hcode)

/-! ### The container -/

/-- R108: the container is a header of the table's records, and the payload. -/
theorem containerOf_eq (ct : Table (Option Bits)) (bs : List Byte) :
    containerOf ct bs
      = headerOf (tableRecords ct) (BitVec.ofNat 8 (lastBitsFor (payloadBits ct bs).length))
        ++ codeField (payloadBits ct bs) := by
  rw [containerOf, headerOf, length_tableRecords, flatMap_bytes_tableRecords, List.append_assoc _ [_],
    List.singleton_append]

/-- R81, R213: the patched header with the payload after it. -/
theorem set_headerBytes (ct : Table (Option Bits)) (bs : List Byte) :
    (headerBytes ct ++ codeField (payloadBits ct bs)).set ((headerBytes ct).length - 1)
        (BitVec.ofNat 8 (lastBitsFor (payloadBits ct bs).length)) = containerOf ct bs := by
  rw [headerBytes, containerOf, List.append_assoc _ [_], List.length_append (bs := [_]), List.length_singleton,
    Nat.add_sub_cancel, List.set_append_right _ _ le_rfl, Nat.sub_self]
  rfl

theorem lastBitsFor_range (n : Nat) : 1 ≤ lastBitsFor n ∧ lastBitsFor n ≤ 8 := by
  rw [lastBitsFor]
  split <;> omega

/-- R113, R212: the padding of the last payload byte is left out. -/
theorem meaningfulBits_codeField {code : Bits} (h : code ≠ []) :
    meaningfulBits (codeField code) (lastBitsFor code.length) = code := by
  have hpos : 0 < code.length := List.length_pos_of_ne_nil h
  have hlen : 8 * ((codeField code).length - 1) + lastBitsFor code.length = code.length := by
    rw [codeField_length, lastBitsFor]
    split <;> omega
  rw [meaningfulBits, hlen, flatMap_byteBits_codeField, List.take_left']
  rfl

theorem payloadBits_length_le {ct : Table (Option Bits)} (h : CodesBounded ct) (bs : List Byte) :
    (payloadBits ct bs).length ≤ 255 * bs.length := by
  induction bs with
  | nil => exact Nat.zero_le _
  | cons b bs ih =>
    have hcode : ((tget ct b).getD []).length ≤ 255 := by
      cases hb : tget ct b with
      | none => exact Nat.zero_le _
      | some code => exact (h b code hb).2
    rw [payloadBits_cons, List.length_append, List.length_cons]
    omega

/-- The bytes of a sequence, each with its code. -/
def codedBytes (ct : Table (Option Bits)) (bs : List Byte) : List (Byte × Bits) :=
  bs.map fun b => (b, (tget ct b).getD [])

@[simp] theorem map_fst_codedBytes (ct : Table (Option Bits)) (bs : List Byte) :
    (codedBytes ct bs).map Prod.fst = bs := by
  simp [codedBytes, Function.comp_def]

@[simp] theorem flatMap_snd_codedBytes (ct : Table (Option Bits)) (bs : List Byte) :
    (codedBytes ct bs).flatMap Prod.snd = payloadBits ct bs := by
  simp [codedBytes, payloadBits, List.flatMap_map]

/-- Where every byte of the sequence has a code, the decoder's tree has its symbol there. -/
theorem lookup_of_mem_codedBytes {ct : Table (Option Bits)} {bs : List Byte} {t : Trie} {p : Byte × Bits}
    (hheld : HoldsRecords t (tableRecords ct)) (hbound : CodesBounded ct)
    (hpresent : ∀ b ∈ bs, (tget ct b).isSome = true)
    (hp : p ∈ codedBytes ct bs) : t.lookup p.2 = some p.1 := by
  obtain ⟨b, hb, rfl⟩ := List.mem_map.mp hp
  obtain ⟨code, hcode⟩ := Option.isSome_iff_exists.mp (hpresent b hb)
  rw [hcode]
  exact lookup_of_holdsRecords hheld hbound hcode

end Sys2Proof.Machine
end

section
/-! PROOFS. The round trip (46_pipelines.md R230, R231, R234): what each sub-step of COMPRESS leaves for the next, what
DECOMPRESS makes of the container, and the two put together. -/

set_option autoImplicit false

namespace Sys2Proof.Machine

/-! ### One sub-step after another (R232) -/

/-- A sub-step whose body is done gives way to the next. -/
theorem performAll_cons_of_done {st : Stage} {rest : List Stage} {s t : State} (hpre : pre st s = true)
    (hbody : stageBody st (started st s) = .done () t) :
    performAll (st :: rest) s = performAll rest (finishStage st t) := by
  rw [performAll, performStage_pre hpre]
  exact congrArg (settle st rest (performAll rest)) hbody

/-- A stage whose own run ends with DONE gives way, as a sub-step, to the next in the state before that end. -/
theorem performAll_cons_of_ended {st : Stage} {s t : State} (h : runStage st (stageBody st) s = .next t)
    (hbusy : t.busy = false) (hdone : t.done = true) (rest : List Stage) :
    ∃ u, endRun u = t ∧ performAll (st :: rest) s = performAll rest u := by
  rw [runStage] at h
  rcases settle_cases st [] (fun u => .next (endRun u)) (performStage st (stageBody st) s) with
    ⟨u, hflow, hend⟩ | ⟨p, u, -, hend⟩ | ⟨e, u, -, hend⟩ | ⟨f, -, hend⟩
  · exact ⟨finishStage st u, Host.Outcome.next.inj (hend.symm.trans h), by rw [performAll, hflow, settle_done]⟩
  · obtain rfl := Host.Outcome.next.inj (hend.symm.trans h)
    cases hbusy
  · obtain rfl := Host.Outcome.next.inj (hend.symm.trans h)
    rw [raiseError_done] at hdone
    cases hdone
  · cases hend.symm.trans h

/-! ### The sub-steps of COMPRESS -/

section
variable {s : State} {bs : List Byte} {later : List SrcItem} {sess : List (List SrcItem)} (rest : List Stage)

/-- R150: the first pass counts the input. -/
theorem performAll_count (hsrc : s.srcNext = deliver bs .eof later :: sess) (hlen : bs.length < 2 ^ 32) :
    ∃ t, performAll (.count :: rest) s = performAll rest t ∧ t.fw = true ∧ t.w = countsOf bs ∧
      t.srcNext = sess ∧ t.snkNext = s.snkNext := by
  have hbody := countBody_bytes (s := started .count s) hsrc hlen
  rw [countLoop] at hbody
  exact ⟨_, performAll_cons_of_done rfl hbody, rfl, rfl, rfl, rfl⟩

/-- R163 to R166: the tree of the symbols counted. -/
theorem performAll_build (hfw : s.fw = true) (hlen : bs.length < 2 ^ 32) (hw : s.w = countsOf bs) :
    ∃ t tree, performAll (.build :: rest) s = performAll rest t ∧ t.ft = true ∧
      EncoderTree t.arena t.root tree ∧ tree.symbols.Perm bs.dedup ∧
      t.srcNext = s.srcNext ∧ t.snkNext = s.snkNext := by
  have hstarted : (started .build s).w = countsOf bs := hw
  obtain ⟨arena, root, tree, hbody, htree, hsyms⟩ :=
    buildBody_tree (s := started .build s) (by rw [hstarted, weightSum_countsOf hlen]; exact hlen)
  rw [hstarted] at hsyms
  exact ⟨_, tree, performAll_cons_of_done hfw hbody, rfl, htree, hsyms.trans (weighted_countsOf_perm hlen), rfl, rfl⟩

/-- R180 to R182: the codes of that tree. -/
theorem performAll_assign {tree : Trie} (hft : s.ft = true) (htree : EncoderTree s.arena s.root tree)
    (hsyms : tree.symbols.Perm bs.dedup) :
    ∃ t, performAll (.assign :: rest) s = performAll rest t ∧ t.fc = true ∧ CodesFor t.ct (· ∈ bs) ∧
      t.srcNext = s.srcNext ∧ t.snkNext = s.snkNext := by
  obtain ⟨ct, hbody, hcodes⟩ := assignBody_codesFor (s := started .assign s) htree hsyms (List.nodup_dedup bs)
  simp only [List.mem_dedup] at hcodes
  exact ⟨_, performAll_cons_of_done hft hbody, rfl, hcodes, rfl, rfl⟩

/-- R190, R191: the header of that code table, and the patch's offset. -/
theorem performAll_writeHdr {answers : List SnkAnswer} {sess' : List (List SnkAnswer)} (hfc : s.fc = true)
    (hsnk : s.snkNext = okThen (headerBytes s.ct).length answers :: sess') :
    ∃ t, performAll (.writeHdr :: rest) s = performAll rest t ∧ t.fh = true ∧ t.ct = s.ct ∧
      t.objects = headerBytes s.ct :: s.objects ∧ t.headerEnd = BitVec.ofNat 32 (headerBytes s.ct).length ∧
      t.snk = some answers ∧ t.srcNext = s.srcNext := by
  have hopened : (snkOpen { started .writeHdr s with payloadStart := 0 }).snk
      = some (okThen (headerBytes s.ct).length answers) := by
    rw [snkOpen_snk]
    simp [hsnk]
  have hbody := hdrPutLoop_ok (headerBytes s.ct) (by simp) hopened
  have hend : (0#64 + BitVec.ofNat 64 (headerBytes s.ct).length).extractLsb' 0 32
      = BitVec.ofNat 32 (headerBytes s.ct).length := by
    rw [BitVec.zero_add, ← BitVec.setWidth_eq_extractLsb' (by decide),
      BitVec.setWidth_ofNat_of_le (by decide)]
  exact ⟨_, performAll_cons_of_done hfc hbody, rfl, rfl, rfl, hend, rfl, rfl⟩

/-- R210 to R212: PACK appends the payload, and sets LAST_BITS; what remains is the patch. -/
theorem packBody_reaches_patch {answers : List SnkAnswer} (ho : s.objects ≠ [])
    (hsrc : s.srcNext = deliver bs .eof later :: sess) (hcoded : ∀ b ∈ bs, tget s.ct b ≠ none)
    (hsnk : s.snk = some (okThen (((payloadBits s.ct bs).length + 7) / 8) answers)) :
    ∃ t, packBody s = packPatch t ∧ curObject t = curObject s ++ codeField (payloadBits s.ct bs) ∧
      t.headerEnd = s.headerEnd ∧ t.lastBits = BitVec.ofNat 4 (lastBitsFor (payloadBits s.ct bs).length) ∧
      t.snk = some answers :=
  ⟨_, packBody_eof bs ho hsrc hcoded hsnk, rfl, rfl, rfl, rfl⟩

/-- R213: the patch makes the container of the header and the payload. -/
theorem packPatch_container {t : State} {ct : Table (Option Bits)} {answers : List SnkAnswer} (hbound : CodesBounded ct)
    (hobj : curObject t = headerBytes ct ++ codeField (payloadBits ct bs))
    (hend : t.headerEnd = BitVec.ofNat 32 (headerBytes ct).length)
    (hlast : t.lastBits = BitVec.ofNat 4 (lastBitsFor (payloadBits ct bs).length))
    (hsnk : t.snk = some (.ok :: answers)) :
    ∃ t', packPatch t = .done () t' ∧ curObject t' = containerOf ct bs := by
  have hmin : 3 ≤ (headerBytes ct).length := headerBytes_length ct ▸ Nat.le_add_right 3 _
  have hmax := headerBytes_le hbound
  have hrange := lastBitsFor_range (payloadBits ct bs).length
  have hendNat : t.headerEnd.toNat = (headerBytes ct).length := by
    rw [hend, BitVec.toNat_ofNat, Nat.mod_eq_of_lt (by omega)]
  have hbyte : t.lastBits.setWidth 8 = BitVec.ofNat 8 (lastBitsFor (payloadBits ct bs).length) := by
    apply BitVec.eq_of_toNat_eq
    rw [hlast, BitVec.toNat_setWidth, BitVec.toNat_ofNat, BitVec.toNat_ofNat]
    omega
  have hinside : patchInside t = true := by
    refine (patchInside_iff t).mpr ⟨fun hzero => ?_, ?_⟩
    · rw [hzero] at hendNat
      exact absurd hendNat.symm (Nat.ne_of_gt (Nat.lt_of_lt_of_le (by decide) hmin))
    · rw [hendNat, hobj, List.length_append]
      exact Nat.le_add_right _ _
  refine ⟨_, snkPatch_ok _ _ hinside hsnk, ?_⟩
  calc curObject (patchedState (t.lastBits.setWidth 8) answers t)
    _ = (curObject t).set (patchOffset t) (t.lastBits.setWidth 8) := rfl
    _ = containerOf ct bs := by rw [hobj, patchOffset, hendNat, hbyte, set_headerBytes]

/-- R210 to R213: the payload, and the patch of the placeholder. -/
theorem performAll_pack {answers : List SnkAnswer} {old : List (List Byte)} (hfh : s.fh = true)
    (hcodes : CodesFor s.ct (· ∈ bs)) (hsrc : s.srcNext = deliver bs .eof later :: sess)
    (hobj : s.objects = headerBytes s.ct :: old) (hend : s.headerEnd = BitVec.ofNat 32 (headerBytes s.ct).length)
    (hsnk : s.snk = some (okThen (((payloadBits s.ct bs).length + 7) / 8 + 1) answers)) :
    ∃ t, performAll (.pack :: rest) s = performAll rest t ∧ curObject t = containerOf s.ct bs := by
  have hcoded : ∀ b ∈ bs, tget (started .pack s).ct b ≠ none := fun b hb =>
    Option.isSome_iff_ne_none.mp ((hcodes.present_iff b).mpr hb)
  rw [okThen_add, okThen_succ, okThen_zero] at hsnk
  obtain ⟨u, hbody, hpacked, hend', hlast, hsnk'⟩ := packBody_reaches_patch (s := started .pack s) (by simp [hobj])
    hsrc hcoded hsnk
  have hobject : curObject (started .pack s) = headerBytes s.ct := by simp [curObject, hobj]
  rw [hobject] at hpacked
  obtain ⟨t, hpatch, hcontainer⟩ := packPatch_container hcodes.bounded hpacked (hend'.trans hend) hlast hsnk'
  exact ⟨_, performAll_cons_of_done hfh (hbody.trans hpatch), hcontainer⟩

/-- R230: COMPRESS leaves the container of its input, under a prefix-free code of exactly its bytes. -/
theorem execCompress_container {later₂ : List SrcItem} {k : Nat} {snks : List (List SnkAnswer)}
    (hsrc : s.srcNext = deliver bs .eof later :: deliver bs .eof later₂ :: sess) (hlen : bs.length < 2 ^ 32)
    (hsnk : s.snkNext = okThen k [] :: snks) (hk : 8708 + 32 * bs.length ≤ k) :
    ∃ t ct, exec .compress s = .next t ∧ t.busy = false ∧ t.done = true ∧
      curObject t = containerOf ct bs ∧ CodesFor ct (· ∈ bs) := by
  obtain ⟨s₁, hrun₁, hfw, hw, hsrc₁, hsnk₁⟩ := performAll_count (s := { s with curOp := Instr.compress.opcode })
    [.build, .assign, .writeHdr, .pack] hsrc hlen
  obtain ⟨s₂, tree, hrun₂, hft, htree, hsyms, hsrc₂, hsnk₂⟩ := performAll_build [.assign, .writeHdr, .pack] hfw hlen hw
  obtain ⟨s₃, hrun₃, hfc, hcodes, hsrc₃, hsnk₃⟩ := performAll_assign [.writeHdr, .pack] hft htree hsyms
  have hheader := headerBytes_le hcodes.bounded
  have hpayload := payloadBits_length_le hcodes.bounded bs
  obtain ⟨more, rfl⟩ : ∃ more,
      k = (headerBytes s₃.ct).length + (((payloadBits s₃.ct bs).length + 7) / 8 + 1 + more) :=
    ⟨k - (headerBytes s₃.ct).length - (((payloadBits s₃.ct bs).length + 7) / 8 + 1), by omega⟩
  rw [okThen_add, okThen_add] at hsnk
  obtain ⟨s₄, hrun₄, hfh, hct, hobj, hend, hsnk₄, hsrc₄⟩ := performAll_writeHdr [.pack] hfc
    (hsnk₃.trans (hsnk₂.trans (hsnk₁.trans hsnk)))
  rw [← hct] at hcodes hobj hend hsnk₄
  obtain ⟨s₅, hrun₅, hcontainer⟩ := performAll_pack [] hfh hcodes
    (hsrc₄.trans (hsrc₃.trans (hsrc₂.trans hsrc₁))) hobj hend hsnk₄
  have hrun : exec .compress s = .next (endRun s₅) :=
    hrun₁.trans (hrun₂.trans (hrun₃.trans (hrun₄.trans hrun₅)))
  exact ⟨endRun s₅, s₄.ct, hrun, rfl, rfl, hcontainer, hcodes⟩

end

/-! ### DECOMPRESS of a container -/

/-- R215, R220: UNPACK of a payload of codes appends their symbols. -/
theorem unpackBody_coded {s : State} {root : Nat} {tl tr : Trie} {coded : List (Byte × Bits)} {payload : List Byte}
    {later : List SrcItem} {answers : List SnkAnswer} {sess : List (List SnkAnswer)} (hn : s.decNsym ≠ 0)
    (hroot : s.root = some root) (htree : IsTrie s.arena (some root) (.node tl tr))
    (hcoded : ∀ p ∈ coded, (Trie.node tl tr).lookup p.2 = some p.1) (hne : payload ≠ [])
    (hbits : meaningfulBits payload s.lastBits.toNat = coded.flatMap Prod.snd)
    (hsrc : s.src = some (deliver payload .eof later)) (hsnk : s.snkNext = okThen coded.length answers :: sess) :
    unpackBody s
      = .done () (appendedAll (coded.map Prod.fst) answers (tookAll payload.length later (snkOpen s))) := by
  obtain ⟨v, bs, rfl⟩ := List.exists_cons_of_ne_nil hne
  have hwalk := walkTo_coded htree coded hcoded
  rw [← hbits] at hwalk
  rw [unpackBody_bytes hn hroot hsrc]
  have hloop := unpackLoop_eof root bs v (later := later) (rest := answers)
    (s := tookByte (deliver bs .eof later) (snkOpen s)) (by simp) rfl hwalk (by simp [hsnk])
  rw [tookAll_tookByte, unpackEnd, if_pos rfl] at hloop
  exact hloop

/-- A leaf under a path that takes a bit hangs under an inner node. -/
theorem exists_node_of_lookup {t : Trie} {code : Bits} {b : Byte} (h : t.lookup code = some b) (hne : code ≠ []) :
    ∃ l r, t = .node l r := by
  obtain ⟨x, path, rfl⟩ := List.exists_cons_of_ne_nil hne
  rw [lookup_cons] at h
  cases t with
  | node l r => exact ⟨l, r, rfl⟩
  | none => cases (lookup_none path).symm.trans h
  | leaf s => cases (lookup_none path).symm.trans h

/-- UNPACK with the decoder tree of a container's table, its payload being ready: the sequence comes out. -/
theorem unpackBody_payload {s : State} {ct : Table (Option Bits)} {bs : List Byte} {t : Trie} {later : List SrcItem}
    {answers : List SnkAnswer} {sess : List (List SnkAnswer)} (hcodes : CodesFor ct (· ∈ bs))
    (hroot : s.root = some 0) (htree : IsTrie s.arena (some 0) t) (hheld : HoldsRecords t (tableRecords ct))
    (hn : s.decNsym = BitVec.ofNat 9 (tableRecords ct).length)
    (hlast : s.lastBits.toNat = lastBitsFor (payloadBits ct bs).length)
    (hsrc : s.src = some (deliver (codeField (payloadBits ct bs)) .eof later))
    (hsnk : s.snkNext = okThen bs.length answers :: sess) :
    ∃ v, unpackBody s = .done () v ∧ curObject v = bs := by
  obtain ⟨hpresent, hfree, hbound⟩ := hcodes
  cases bs with
  | nil =>
    have hnone : tableRecords ct = [] := tableRecords_eq_nil fun b hb => List.not_mem_nil ((hpresent b).mp hb)
    rw [hnone] at hn
    exact ⟨snkOpen s, unpackBody_of_decNsym_eq_zero hn, rfl⟩
  | cons b bs =>
    obtain ⟨code, hcode⟩ := Option.isSome_iff_exists.mp ((hpresent b).mpr List.mem_cons_self)
    have hne : code ≠ [] := List.ne_nil_of_length_pos (hbound b code hcode).1
    obtain ⟨tl, tr, rfl⟩ := exists_node_of_lookup (lookup_of_holdsRecords hheld hbound hcode) hne
    have hbits : payloadBits ct (b :: bs) ≠ [] := by
      rw [payloadBits_cons, hcode]
      exact List.append_ne_nil_of_left_ne_nil hne _
    have hpayload : codeField (payloadBits ct (b :: bs)) ≠ [] := by
      rw [codeField_cons hbits]
      exact List.cons_ne_nil _ _
    have hmeaning : meaningfulBits (codeField (payloadBits ct (b :: bs))) s.lastBits.toNat
        = (codedBytes ct (b :: bs)).flatMap Prod.snd := by
      rw [hlast, meaningfulBits_codeField hbits, flatMap_snd_codedBytes]
    exact ⟨_, unpackBody_coded (hn ▸ ofNat_length_tableRecords_ne_zero hfree hbound hcode) hroot htree
      (fun p => lookup_of_mem_codedBytes hheld hbound fun x => (hpresent x).mpr) hpayload hmeaning hsrc
      (by rw [hsnk, codedBytes, List.length_map]), map_fst_codedBytes ct (b :: bs)⟩

/-- R192, R201: the sub-step READ_HDR of a good header leaves its tree for UNPACK, and the session at the payload. -/
theorem performAll_readHdr {s : State} {recs : List HdrRecord} {m : Byte} {payload : List SrcItem}
    {sess : List (List SrcItem)} (rest : List Stage) (hgood : GoodRecords recs) (hlow : 1 ≤ m.toNat)
    (hhigh : m.toNat ≤ 8) (hsrc : s.srcNext = ((headerOf recs m).map SrcItem.byte ++ payload) :: sess) :
    ∃ u t, performAll (.readHdr :: rest) s = performAll rest u ∧ u.fd = true ∧ u.root = some 0 ∧
      IsTrie u.arena (some 0) t ∧ HoldsRecords t recs ∧ u.decNsym = BitVec.ofNat 9 recs.length ∧
      u.lastBits = m.extractLsb' 0 4 ∧ u.src = some payload ∧ u.snkNext = s.snkNext := by
  obtain ⟨arena, t, hread, htree, hheld, -, -⟩ := Proofs.readHdrCompletes s recs m payload sess hgood hlow hhigh hsrc
  obtain ⟨u, hend, hrest⟩ := performAll_cons_of_ended (st := .readHdr) hread rfl rfl rest
  have harena : u.arena = arena := congrArg State.arena hend
  rw [← harena] at htree
  exact ⟨u, t, hrest, congrArg State.fd hend, congrArg State.root hend, htree, hheld, congrArg State.decNsym hend,
    congrArg State.lastBits hend, congrArg State.src hend, (congrArg State.snkNext hend :)⟩

/-- R231, R234: DECOMPRESS of a container gives back the sequence it was made of. -/
theorem execDecompress_container {ct : Table (Option Bits)} {bs : List Byte} {s : State} {later : List SrcItem}
    {sess : List (List SrcItem)} {answers : List SnkAnswer} {snks : List (List SnkAnswer)}
    (hcodes : CodesFor ct (· ∈ bs)) (hsrc : s.srcNext = deliver (containerOf ct bs) .eof later :: sess)
    (hsnk : s.snkNext = okThen bs.length answers :: snks) :
    ∃ v, exec .decompress s = .next v ∧ v.busy = false ∧ v.done = true ∧ curObject v = bs := by
  obtain ⟨hlow, hhigh⟩ := lastBitsFor_range (payloadBits ct bs).length
  have hm : (BitVec.ofNat 8 (lastBitsFor (payloadBits ct bs).length)).toNat
      = lastBitsFor (payloadBits ct bs).length := by
    rw [BitVec.toNat_ofNat, Nat.mod_eq_of_lt (by omega)]
  rw [containerOf_eq, deliver, List.map_append, List.append_assoc] at hsrc
  obtain ⟨u, t, hread, hfd, hroot, htree, hheld, hn, hlast, hpayload, hsnk'⟩ :=
    performAll_readHdr (s := { s with curOp := Instr.decompress.opcode }) [.unpack]
      (goodRecords_tableRecords hcodes.free hcodes.bounded) (by rwa [hm]) (by rwa [hm]) hsrc
  have hlastNat : u.lastBits.toNat = lastBitsFor (payloadBits ct bs).length := by
    rw [hlast, BitVec.extractLsb'_toNat, hm, Nat.shiftRight_zero, Nat.mod_eq_of_lt (by omega)]
  obtain ⟨v, hbody, hobj⟩ := unpackBody_payload (s := started .unpack u) hcodes hroot htree hheld hn hlastNat hpayload
    (hsnk'.trans hsnk)
  exact ⟨_, hread.trans (performAll_cons_of_done hfd hbody), rfl, rfl, hobj⟩

end Sys2Proof.Machine

/-! ### The obligations -/

namespace Sys2Proof.Proofs

open Sys2Proof.Machine

/-- Settles O51: COMPRESS leaves a container under a prefix-free code of the input's bytes, and of such a container
DECOMPRESS rebuilds the input. -/
theorem roundTrip : Obligations.RoundTrip := by
  unfold Obligations.RoundTrip
  intro s bs later₁ later₂ sess k snks hsrc hlen hsnk hk
  obtain ⟨t, ct, hrun, hbusy, hdone, hobject, hcodes⟩ := execCompress_container hsrc hlen hsnk hk
  refine ⟨t, hrun, hbusy, hdone, fun u later₃ sess' k' snks' husrc husnk hk' => ?_⟩
  rw [← Nat.add_sub_cancel' hk', okThen_add] at husnk
  exact execDecompress_container hcodes (hobject ▸ husrc) husnk

end Sys2Proof.Proofs
end

section
/-! PROOFS. One rule for each loop of the command bodies: what holds where it starts, and is kept by each of its turns,
holds where it ends. -/

set_option autoImplicit false

namespace Sys2Proof.Machine

section
variable {D : Unit → State → Prop} {W : Point → State → Prop} {R : ErrKind → State → Prop} {F : Fault → Prop}

/-! ### The flows of the ports -/

theorem put_all {v : Byte} {p : Point} {s : State}
    (hok : ∀ rest, s.snk = some (.ok :: rest) → D () (appended v rest s))
    (hfail : ∀ rest, s.snk = some (.fail :: rest) → R .sinkUnavailable { s with snk := some rest })
    (hwait : s.snk = none ∨ s.snk = some [] → W p s) : (put v p s).All D W R F := by
  rcases put_cases v p s with ⟨rest, hsnk, hput⟩ | ⟨rest, hsnk, hput⟩ | ⟨hsnk, hput⟩ <;> rw [hput]
  · exact hok rest hsnk
  · exact hfail rest hsnk
  · exact hwait hsnk

theorem snkPatch_all {v : Byte} {p : Point} {s : State}
    (hok : ∀ rest, s.snk = some (.ok :: rest) → D () (patchedState v rest s))
    (hfail : ∀ rest, s.snk = some (.fail :: rest) → R .sinkUnavailable { s with snk := some rest })
    (hwait : s.snk = none ∨ s.snk = some [] → W p s)
    (hfault : patchInside s = false → F .patchOffset) : (snkPatch v p s).All D W R F := by
  cases hp : patchInside s with
  | false =>
    rw [snkPatch, if_neg (Bool.eq_false_iff.mp hp)]
    exact hfault hp
  | true =>
    rcases snkPatch_cases v p hp with ⟨rest, hsnk, hpatch⟩ | ⟨rest, hsnk, hpatch⟩ | ⟨hsnk, hpatch⟩ <;> rw [hpatch]
    · exact hok rest hsnk
    · exact hfail rest hsnk
    · exact hwait hsnk

/-! ### COUNT (R150, R151) -/

theorem countLoop_all {I : List SrcItem → State → Prop}
    (hnil : ∀ s, I [] s → W .countRead s)
    (hfail : ∀ rest s, I (.fail :: rest) s → R .sourceUnavailable (tookFinal rest s))
    (heof : ∀ rest s, I (.eof :: rest) s → D () { tookFinal rest s with nsym := BitVec.ofNat 9 (distinct s.w) })
    (hmax : ∀ b rest s, I (.byte b :: rest) s → s.total = Config.maxTotal → R .weightOverflow (tookByte rest s))
    (hbyte : ∀ b rest s, I (.byte b :: rest) s → s.total ≠ Config.maxTotal → I rest (tally b (tookByte rest s)))
    {items : List SrcItem} {s : State} (h : I items s) : (countLoop items s).All D W R F := by
  induction items generalizing s with
  | nil => exact hnil s h
  | cons it rest ih =>
    cases it with
    | fail => exact hfail rest s h
    | eof => exact heof rest s h
    | byte b =>
      rw [countLoop]
      split
      · exact hmax b rest s h ‹_›
      · exact ih (hbyte b rest s h ‹_›)

/-! ### WRITE_HDR (R190) -/

theorem hdrPutLoop_all {I : List Byte → State → Prop}
    (hdone : ∀ s, I [] s → D () { s with
      payloadStart := s.snkPos.extractLsb' 0 32, headerEnd := s.snkPos.extractLsb' 0 32 })
    (hok : ∀ v todo rest s, I (v :: todo) s → s.snk = some (.ok :: rest) → I todo (appended v rest s))
    (hfail : ∀ v todo rest s, I (v :: todo) s → s.snk = some (.fail :: rest) →
      R .sinkUnavailable { s with snk := some rest })
    (hwait : ∀ v todo s, I (v :: todo) s → s.snk = none ∨ s.snk = some [] → W (.hdrPut (v :: todo)) s)
    {todo : List Byte} {s : State} (h : I todo s) : (hdrPutLoop todo s).All D W R F := by
  induction todo generalizing s with
  | nil => exact hdone s h
  | cons v todo ih =>
    exact all_bind (put_all (D := fun _ t => (hdrPutLoop todo t).All D W R F)
      (fun rest hsnk => ih (hok v todo rest s h hsnk)) (fun rest => hfail v todo rest s h) (hwait v todo s h))

/-! ### READ_HDR (R192 to R199) -/

theorem afterRecord_ok {cnt left : Nat} {seen : List Byte} (hcnt : cnt ≤ 256) (hleft : left ≤ cnt) :
    (afterRecord cnt left seen).ok := by
  rw [afterRecord]
  split
  · exact hcnt
  · exact ⟨hcnt, Nat.pos_of_ne_zero ‹_›, hleft⟩

/-- What follows a header byte: the reading goes on where the byte leads, or the header is complete. -/
def AfterByte (I : HdrAt → State → Prop) (D : Unit → State → Prop) (next : Option HdrAt) (s : State) : Prop :=
  match next with
  | some h => I h s
  | none => D () s

theorem hdrLoop_all {I : List SrcItem → HdrAt → State → Prop}
    (hnil : ∀ h s, I [] h s → W (.hdrGet h) s)
    (hfail : ∀ rest h s, I (.fail :: rest) h s → R .sourceUnavailable (tookFinal rest s))
    (heof : ∀ rest h s, I (.eof :: rest) h s → R .malformedHeader (tookFinal rest s))
    (hbyte : ∀ v rest h s, I (.byte v :: rest) h s →
      (hdrByte h v (tookByte rest s)).All (AfterByte (I rest) D) W R F)
    {items : List SrcItem} {h : HdrAt} {s : State} (hI : I items h s) : (hdrLoop items h s).All D W R F := by
  induction items generalizing h s with
  | nil => exact hnil h s hI
  | cons it rest ih =>
    cases it with
    | fail => exact hfail rest h s hI
    | eof => exact heof rest h s hI
    | byte v =>
      refine all_bind (all_mono (hbyte v rest h s hI) (fun next t hnext => ?_) (fun _ _ => id) (fun _ _ => id)
        fun _ => id)
      cases next with
      | some h' => exact ih hnext
      | none => exact hnext

/-- All that a record with a complete code field can do (R197). -/
theorem recordRead_all {D : Option HdrAt → State → Prop} {cnt left : Nat} {seen : List Byte} {sym len : Byte}
    {f : List Byte} {s : State} (hroot : s.root = none → F .noNode)
    (hplaced : ∀ r arena, s.root = some r → insertCode sym (codeOfField len f) r s.arena = .placed arena →
      D (some (afterRecord cnt (left - 1) (sym :: seen))) { s with arena := arena })
    (hoverlap : ∀ r arena, s.root = some r → insertCode sym (codeOfField len f) r s.arena = .overlap arena →
      R .ambiguousCodeSet { s with arena := arena })
    (hfault : ∀ r e, s.root = some r → insertCode sym (codeOfField len f) r s.arena = .fault e → F e) :
    (recordRead cnt left seen sym len f s).All D W R F := by
  rw [recordRead]
  split
  case h_1 hr => exact hroot hr
  case h_2 r hr =>
    split
    case h_1 arena hins => exact hplaced r arena hr hins
    case h_2 arena hins => exact hoverlap r arena hr hins
    case h_3 e hins => exact hfault r e hr hins

/-- All that a header byte can do: it is refused, or the reading goes on at another place, or it completes a record's
code field, or it is the last. -/
theorem hdrByte_all {D : Option HdrAt → State → Prop} {h : HdrAt} {v : Byte} {s : State}
    (hrefused : R .malformedHeader s) (hnext : ∀ h' : HdrAt, (h.ok → h'.ok) → D (some h') s)
    (hrecord : ∀ cnt left seen sym len f, (h.ok → cnt ≤ 256 ∧ left ≤ cnt) →
      (recordRead cnt left seen sym len f s).All D W R F)
    (hlast : ∀ cnt, (h.ok → cnt ≤ 256) → v.toNat ≤ 8 → D none { s with
      lastBits := v.extractLsb' 0 4, decNsym := BitVec.ofNat 9 cnt, payloadStart := s.srcPos.extractLsb' 0 32 }) :
    (hdrByte h v s).All D W R F := by
  cases h with
  | countLo => exact hnext _ id
  | countHi lo =>
    simp only [hdrByte]
    split
    case isTrue => exact hrefused
    case isFalse hcount => exact hnext _ fun _ => afterRecord_ok (Nat.not_lt.mp hcount) le_rfl
  | symbol cnt left seen => exact hnext _ id
  | length cnt left seen sym =>
    simp only [hdrByte]
    split
    case isTrue => exact hrefused
    case isFalse hlen =>
      split
      · exact hrefused
      · exact hnext _ fun ⟨hcnt, hpos, hleft⟩ => ⟨hcnt, hpos, hleft, hlen, bytesFor_pos hlen⟩
  | code cnt left seen sym len got =>
    simp only [hdrByte]
    split
    case isTrue hmore => exact hnext _ fun ⟨hcnt, hpos, hleft, hlen, _⟩ => ⟨hcnt, hpos, hleft, hlen, hmore⟩
    case isFalse => exact hrecord _ _ _ _ _ _ fun ⟨hcnt, _, hleft, _⟩ => ⟨hcnt, hleft⟩
  | meaningful cnt =>
    simp only [hdrByte]
    split
    · exact hrefused
    · exact hlast cnt id (by omega)

/-! ### BUILD (R163, R165) -/

theorem buildBody_all {s : State}
    (hfault : ∀ f, mergeLoop ((listInit s.w).2.length - 1) (listInit s.w).1 (listInit s.w).2 = .error f → F f)
    (hnone : ∀ arena,
      mergeLoop ((listInit s.w).2.length - 1) (listInit s.w).1 (listInit s.w).2 = .ok (arena, []) →
        D () { s with arena := arena, pl := [], root := none })
    (hroot : ∀ arena r pl,
      mergeLoop ((listInit s.w).2.length - 1) (listInit s.w).1 (listInit s.w).2 = .ok (arena, r :: pl) →
        D () { s with arena := arena, pl := pl, root := some r }) : (buildBody s).All D W R F := by
  simp only [buildBody]
  split
  case h_1 f hmerge => exact hfault f hmerge
  case h_2 arena pl hmerge =>
    cases pl with
    | nil => exact hnone arena hmerge
    | cons r pl => exact hroot arena r pl hmerge

/-! ### ASSIGN (R180) -/

theorem assignBody_all {s : State} (hfault : ∀ f, assignTable s.arena s.root = .error f → F f)
    (hdone : ∀ ct, assignTable s.arena s.root = .ok ct → D () { s with ct := ct }) : (assignBody s).All D W R F := by
  rw [assignBody]
  split
  case h_1 ct htable => exact hdone ct htable
  case h_2 f htable => exact hfault f htable

/-! ### PACK (R210 to R213) -/

theorem packBits_all {D : Byte × Nat → State → Prop} {J : Bits → Nat → State → Prop}
    (hdone : ∀ acc held s, J [] held s → D (acc, held) s)
    (hshift : ∀ b todo held s, J (b :: todo) held s → held + 1 ≠ 8 → J todo (held + 1) s)
    (hok : ∀ v b todo held rest s, J (b :: todo) held s → held + 1 = 8 → s.snk = some (.ok :: rest) →
      J todo 0 (appended v rest s))
    (hfail : ∀ b todo held rest s, J (b :: todo) held s → s.snk = some (.fail :: rest) →
      R .sinkUnavailable { s with snk := some rest })
    (hwait : ∀ acc b todo held s, J (b :: todo) held s → held + 1 = 8 → s.snk = none ∨ s.snk = some [] →
      W (.packByte acc todo) s)
    {todo : Bits} {acc : Byte} {held : Nat} {s : State} (h : J todo held s) :
    (packBits todo acc held s).All D W R F := by
  induction todo generalizing acc held s with
  | nil => exact hdone acc held s h
  | cons b todo ih =>
    rw [packBits]
    split
    · exact all_bind (put_all (D := fun _ t => (packBits todo 0 0 t).All D W R F)
        (fun rest hsnk => ih (hok _ b todo held rest s h ‹_› hsnk)) (fun rest => hfail b todo held rest s h)
        (hwait _ b todo held s h ‹_›))
    · exact ih (hshift b todo held s h ‹_›)

theorem packLoop_all {I : List SrcItem → Nat → State → Prop}
    (hnil : ∀ acc held s, I [] held s → W (.packRead acc held) s)
    (hfail : ∀ rest held s, I (.fail :: rest) held s → R .sourceUnavailable (tookFinal rest s))
    (heof : ∀ rest acc held s, I (.eof :: rest) held s → (packEnd acc held (tookFinal rest s)).All D W R F)
    (hnone : ∀ v rest held s, I (.byte v :: rest) held s → tget s.ct v = none →
      R .symbolNotInTable (tookByte rest s))
    (hbyte : ∀ v code rest acc held s, I (.byte v :: rest) held s → tget s.ct v = some code →
      (packBits code acc held (tookByte rest s)).All (fun ah t => I rest ah.2 t) W R F)
    {items : List SrcItem} {acc : Byte} {held : Nat} {s : State} (h : I items held s) :
    (packLoop items acc held s).All D W R F := by
  induction items generalizing acc held s with
  | nil => exact hnil acc held s h
  | cons it rest ih =>
    cases it with
    | fail => exact hfail rest held s h
    | eof => exact heof rest acc held s h
    | byte v =>
      rw [packLoop]
      cases hv : tget s.ct v with
      | none => exact hnone v rest held s h hv
      | some code =>
        exact all_bind (all_mono (hbyte v code rest acc held s h hv) (fun _ _ => ih) (fun _ _ => id) (fun _ _ => id)
          fun _ => id)

/-! ### UNPACK (R215 to R218) -/

theorem withRoot_all {k : Nat → Flow Unit} {s : State} (hnone : s.root = none → F .noNode)
    (hroot : ∀ r, s.root = some r → (k r).All D W R F) : (withRoot s k).All D W R F := by
  rw [withRoot]
  split
  case h_1 hr => exact hnone hr
  case h_2 r hr => exact hroot r hr

theorem walkBits_all {D : Nat → State → Prop} {root : Nat} {ahead : Option Byte} {J : Bits → Nat → State → Prop}
    (hdone : ∀ cur s, J [] cur s → D cur s)
    (hmissing : ∀ b bits cur s, J (b :: bits) cur s →
      (s.arena[cur]? = none ∨ ∃ n x, s.arena[cur]? = some n ∧ n.child b = some x ∧ s.arena[x]? = none) → F .noNode)
    (hundefined : ∀ b bits cur s, J (b :: bits) cur s → R .undefinedCode s)
    (hinner : ∀ b bits cur x n wt l r s, J (b :: bits) cur s → s.arena[cur]? = some n → n.child b = some x →
      s.arena[x]? = some (.inner wt l r) → J bits x s)
    (hok : ∀ sym b bits cur rest s, J (b :: bits) cur s → s.snk = some (.ok :: rest) →
      J bits root (appended sym rest s))
    (hfail : ∀ b bits cur rest s, J (b :: bits) cur s → s.snk = some (.fail :: rest) →
      R .sinkUnavailable { s with snk := some rest })
    (hwait : ∀ sym b bits cur s, J (b :: bits) cur s → s.snk = none ∨ s.snk = some [] →
      W (.unpackPut sym bits ahead) s)
    {bits : Bits} {cur : Nat} {s : State} (h : J bits cur s) : (walkBits root ahead bits cur s).All D W R F := by
  induction bits generalizing cur s with
  | nil => exact hdone cur s h
  | cons b bits ih =>
    rw [walkBits]
    cases hcur : s.arena[cur]? with
    | none => exact hmissing b bits cur s h (.inl hcur)
    | some n =>
      cases hx : n.child b with
      | none =>
        simp only [hx]
        exact hundefined b bits cur s h
      | some x =>
        rcases hrec : s.arena[x]? with _ | ⟨sym, wt⟩ | ⟨wt, l, r⟩ <;> simp only [hx, hrec]
        · exact hmissing b bits cur s h (.inr ⟨n, x, hcur, hx, hrec⟩)
        · exact all_bind (put_all (D := fun _ t => (walkBits root ahead bits root t).All D W R F)
            (fun rest hsnk => ih (hok sym b bits cur rest s h hsnk)) (fun rest => hfail b bits cur rest s h)
            (hwait sym b bits cur s h))
        · exact ih (hinner b bits cur x n wt l r s h hcur hx hrec)

theorem unpackEnd_all {root cur : Nat} {s : State} (hroot : cur = root → D () s)
    (hinside : cur ≠ root → R .truncatedPayload s) : (unpackEnd root cur s).All D W R F := by
  rw [unpackEnd]
  split
  · exact hroot ‹_›
  · exact hinside ‹_›

theorem unpackLoop_all {root : Nat} {I : List SrcItem → Nat → State → Prop}
    (hnil : ∀ b cur s, I [] cur s → W (.unpackAhead b cur) s)
    (hfail : ∀ rest cur s, I (.fail :: rest) cur s → R .sourceUnavailable (tookFinal rest s))
    (heof : ∀ rest b cur s, I (.eof :: rest) cur s →
      (walkBits root none ((byteBits b).take s.lastBits.toNat) cur (tookFinal rest s)).All
        (fun c t => (unpackEnd root c t).All D W R F) W R F)
    (hbyte : ∀ v rest b cur s, I (.byte v :: rest) cur s →
      (walkBits root (some v) (byteBits b) cur (tookByte rest s)).All (I rest) W R F)
    {items : List SrcItem} {b : Byte} {cur : Nat} {s : State} (h : I items cur s) :
    (unpackLoop root items b cur s).All D W R F := by
  induction items generalizing b cur s with
  | nil => exact hnil b cur s h
  | cons it rest ih =>
    cases it with
    | fail => exact hfail rest cur s h
    | eof => exact all_bind (heof rest b cur s h)
    | byte v =>
      exact all_bind (all_mono (hbyte v rest b cur s h) (fun _ _ => ih) (fun _ _ => id) (fun _ _ => id) fun _ => id)

end

end Sys2Proof.Machine
end

section
/-! PROOFS. What the body of each stage leaves unchanged, the point it waits at, and the errors it raises
(10_state.md R47 to R55, 60_exceptions.md R242). -/

set_option autoImplicit false

namespace Sys2Proof.Machine

/-- The state without what the body of a stage may write once its ports are open: of two states that are equal so,
neither has changed anything else of the other. Of the objects a sink stage writes the latest only. -/
def outside (st : Stage) (s : State) : State :=
  match st with
  | .nop => s
  | .count => { s with w := State.reset.w, total := 0, nsym := 0, src := none, srcPos := 0 }
  | .build => { s with arena := [], pl := [], root := none }
  | .assign => { s with ct := State.reset.ct }
  | .writeHdr =>
    { s with payloadStart := 0, headerEnd := 0, snk := none, snkPos := 0, objects := s.objects.tail }
  | .pack =>
    { s with lastBits := 0, src := none, srcPos := 0, snk := none, snkPos := 0, objects := s.objects.tail }
  | .readHdr =>
    { s with decNsym := 0, lastBits := 0, payloadStart := 0, arena := [], root := none, src := none, srcPos := 0 }
  | .unpack => { s with src := none, srcPos := 0, snk := none, snkPos := 0, objects := s.objects.tail }

/-- The state with the sessions and the object that the stage begins (R75, R78). -/
def portsOpened (st : Stage) (s : State) : State :=
  match st with
  | .count => { s with srcNext := s.srcNext.tail }
  | .writeHdr => { s with snkNext := s.snkNext.tail, objects := [] :: s.objects }
  | .pack => { s with srcNext := s.srcNext.tail }
  | .readHdr => { s with srcNext := s.srcNext.tail }
  | .unpack => { s with snkNext := s.snkNext.tail, objects := [] :: s.objects }
  | _ => s

/-- The errors that the body of a stage raises (R242). -/
def bodyErrors : Stage → List ErrKind
  | .nop => []
  | .count => [.sourceUnavailable, .weightOverflow]
  | .build => []
  | .assign => []
  | .writeHdr => [.sinkUnavailable]
  | .pack => [.sourceUnavailable, .sinkUnavailable, .symbolNotInTable]
  | .readHdr => [.sourceUnavailable, .malformedHeader, .ambiguousCodeSet]
  | .unpack => [.sourceUnavailable, .sinkUnavailable, .truncatedPayload, .undefinedCode]

/-- The piece of stage `st`'s body that starts in `s` changes nothing outside the stage, waits at one of the stage's own
transactions, and raises one of its errors. -/
def Framed {α : Type} (st : Stage) (s : State) (m : Flow α) : Prop :=
  m.All (fun _ t => outside st t = outside st s) (fun p t => p.stage = st ∧ outside st t = outside st s)
    (fun e t => e ∈ bodyErrors st ∧ outside st t = outside st s) (fun _ => True)

section
variable {s : State}

theorem countLoop_framed (items : List SrcItem) : Framed .count s (countLoop items s) := by
  refine countLoop_all (I := fun _ t => outside .count t = outside .count s) (fun _ h => ⟨rfl, h⟩)
    (fun _ _ h => ⟨by decide, h⟩) (fun _ _ h => h) (fun _ _ _ h _ => ⟨by decide, h⟩) (fun _ _ _ h _ => h) rfl

theorem buildBody_framed : Framed .build s (buildBody s) :=
  buildBody_all (fun _ _ => trivial) (fun _ _ => rfl) fun _ _ _ _ => rfl

theorem assignBody_framed : Framed .assign s (assignBody s) :=
  assignBody_all (fun _ _ => trivial) fun _ _ => rfl

theorem hdrPutLoop_framed (todo : List Byte) : Framed .writeHdr s (hdrPutLoop todo s) :=
  hdrPutLoop_all (I := fun _ t => outside .writeHdr t = outside .writeHdr s) (fun _ h => h) (fun _ _ _ _ h _ => h)
    (fun _ _ _ _ h _ => ⟨by decide, h⟩) (fun _ _ _ h _ => ⟨rfl, h⟩) rfl

theorem recordRead_framed (cnt left : Nat) (seen : List Byte) (sym len : Byte) (f : List Byte) :
    Framed .readHdr s (recordRead cnt left seen sym len f s) :=
  recordRead_all (D := fun _ t => outside .readHdr t = outside .readHdr s) (fun _ => trivial) (fun _ _ _ _ => rfl)
    (fun _ _ _ _ => ⟨by decide, rfl⟩) fun _ _ _ _ => trivial

theorem hdrByte_framed (h : HdrAt) (v : Byte) : Framed .readHdr s (hdrByte h v s) :=
  hdrByte_all ⟨by decide, rfl⟩ (fun _ _ => rfl) (fun _ _ _ _ _ _ _ => recordRead_framed _ _ _ _ _ _)
    fun _ _ _ => rfl

theorem hdrLoop_framed (items : List SrcItem) (h : HdrAt) : Framed .readHdr s (hdrLoop items h s) := by
  refine hdrLoop_all (I := fun _ _ t => outside .readHdr t = outside .readHdr s) (fun _ _ h => ⟨rfl, h⟩)
    (fun _ _ _ h => ⟨by decide, h⟩) (fun _ _ _ h => ⟨by decide, h⟩) (fun v rest h t ht => ?_) rfl
  have ht : outside .readHdr (tookByte rest t) = outside .readHdr s := ht
  refine all_mono (hdrByte_framed h v) (fun next u hu => ?_) (fun _ _ hu => ⟨hu.1, hu.2.trans ht⟩)
    (fun _ _ hu => ⟨hu.1, hu.2.trans ht⟩) fun _ => id
  cases next <;> exact hu.trans ht

theorem packBits_framed (todo : Bits) (acc : Byte) (held : Nat) : Framed .pack s (packBits todo acc held s) :=
  packBits_all (J := fun _ _ t => outside .pack t = outside .pack s) (fun _ _ _ h => h) (fun _ _ _ _ h _ => h)
    (fun _ _ _ _ _ _ h _ _ => h) (fun _ _ _ _ _ h _ => ⟨by decide, h⟩) (fun _ _ _ _ _ h _ _ => ⟨rfl, h⟩) rfl

/-- A piece that goes on where another ended: both leave the same outside. -/
theorem Framed.of_outside {α : Type} {st : Stage} {t : State} {m : Flow α} (h : Framed st t m)
    (ht : outside st t = outside st s) : Framed st s m :=
  all_mono h (fun _ _ hu => hu.trans ht) (fun _ _ hu => ⟨hu.1, hu.2.trans ht⟩) (fun _ _ hu => ⟨hu.1, hu.2.trans ht⟩)
    fun _ => id

theorem Framed.bind {α β : Type} {st : Stage} {m : Flow α} {k : α → State → Flow β} (h : Framed st s m)
    (hk : ∀ a t, Framed st t (k a t)) : Framed st s (m.bind k) :=
  all_bind (all_mono h (fun a t ht => (hk a t).of_outside ht) (fun _ _ => id) (fun _ _ => id) fun _ => id)

theorem put_framed {st : Stage} (v : Byte) {p : Point} (hst : st = .writeHdr ∨ st = .pack ∨ st = .unpack)
    (hp : p.stage = st) : Framed st s (put v p s) := by
  refine put_all (fun rest _ => ?_) (fun rest _ => ?_) fun _ => ⟨hp, rfl⟩
  · rcases hst with rfl | rfl | rfl <;> rfl
  · rcases hst with rfl | rfl | rfl <;> exact ⟨by decide, rfl⟩

theorem packPatch_framed : Framed .pack s (packPatch s) :=
  snkPatch_all (fun _ _ => rfl) (fun _ _ => ⟨by decide, rfl⟩) (fun _ => ⟨rfl, rfl⟩) fun _ => trivial

theorem packFlush_framed (acc : Byte) (held : Nat) : Framed .pack s (packFlush acc held s) :=
  (put_framed _ (.inr (.inl rfl)) rfl).bind fun _ _ => packPatch_framed.of_outside rfl

theorem packEnd_framed (acc : Byte) (held : Nat) : Framed .pack s (packEnd acc held s) := by
  rw [packEnd]
  split
  · exact packFlush_framed acc held
  · exact packPatch_framed.of_outside rfl

theorem packLoop_framed (items : List SrcItem) (acc : Byte) (held : Nat) : Framed .pack s (packLoop items acc held s) :=
  packLoop_all (I := fun _ _ t => outside .pack t = outside .pack s) (fun _ _ _ h => ⟨rfl, h⟩)
    (fun _ _ _ h => ⟨by decide, h⟩) (fun _ acc held _ h => (packEnd_framed acc held).of_outside h)
    (fun _ _ _ _ h _ => ⟨by decide, h⟩) (fun _ code _ acc held _ h _ => (packBits_framed code acc held).of_outside h)
    rfl

theorem packResume_framed (acc : Byte) (todo : Bits) : Framed .pack s (packResume acc todo s) :=
  (put_framed _ (.inr (.inl rfl)) rfl).bind fun _ _ => (packBits_framed todo 0 0).bind fun _ _ => packLoop_framed _ _ _

theorem walkBits_framed (root : Nat) (ahead : Option Byte) (bits : Bits) (cur : Nat) :
    Framed .unpack s (walkBits root ahead bits cur s) :=
  walkBits_all (J := fun _ _ t => outside .unpack t = outside .unpack s) (fun _ _ h => h)
    (fun _ _ _ _ _ _ => trivial) (fun _ _ _ _ h => ⟨by decide, h⟩) (fun _ _ _ _ _ _ _ _ _ h _ _ _ => h)
    (fun _ _ _ _ _ _ h _ => h) (fun _ _ _ _ _ h _ => ⟨by decide, h⟩) (fun _ _ _ _ _ h _ => ⟨rfl, h⟩) rfl

theorem unpackEnd_framed (root cur : Nat) : Framed .unpack s (unpackEnd root cur s) :=
  unpackEnd_all (fun _ => rfl) fun _ => ⟨by decide, rfl⟩

theorem unpackLoop_framed (root : Nat) (items : List SrcItem) (b : Byte) (cur : Nat) :
    Framed .unpack s (unpackLoop root items b cur s) :=
  unpackLoop_all (I := fun _ _ t => outside .unpack t = outside .unpack s) (fun _ _ _ h => ⟨rfl, h⟩)
    (fun _ _ _ h => ⟨by decide, h⟩)
    (fun rest _ _ t h => all_mono ((walkBits_framed root none _ _).of_outside (s := s) h)
      (fun _ _ hu => (unpackEnd_framed root _).of_outside hu) (fun _ _ => id) (fun _ _ => id) fun _ => id)
    (fun rest v _ _ t h => (walkBits_framed root _ _ _).of_outside (s := s) h) rfl

theorem unpackFirst_framed (root : Nat) (items : List SrcItem) : Framed .unpack s (unpackFirst root items s) := by
  match items with
  | [] => exact ⟨rfl, rfl⟩
  | .fail :: rest => exact ⟨by decide, rfl⟩
  | .eof :: rest => exact rfl
  | .byte v :: rest => exact (unpackLoop_framed root rest v root).of_outside rfl

theorem unpackResume_framed (root : Nat) (sym : Byte) (todo : Bits) (ahead : Option Byte) :
    Framed .unpack s (unpackResume root sym todo ahead s) := by
  refine (put_framed _ (.inr (.inr rfl)) rfl).bind fun _ _ => (walkBits_framed root ahead todo root).bind
    fun cur t => ?_
  cases ahead with
  | none => exact unpackEnd_framed root cur
  | some v => exact unpackLoop_framed root _ v cur

theorem withRoot_framed {k : Nat → Flow Unit} (hk : ∀ r, Framed .unpack s (k r)) : Framed .unpack s (withRoot s k) :=
  withRoot_all (fun _ => trivial) fun r _ => hk r

end

/-- What the body of a stage leaves unchanged, where it waits and what it raises. -/
theorem stageBody_framed (st : Stage) (s : State) : Framed st (portsOpened st s) (stageBody st s) := by
  cases st with
  | nop => exact rfl
  | count => exact (countLoop_framed _).of_outside rfl
  | build => exact buildBody_framed
  | assign => exact assignBody_framed
  | writeHdr => exact (hdrPutLoop_framed _).of_outside rfl
  | pack => exact (packLoop_framed _ _ _).of_outside rfl
  | readHdr => exact (hdrLoop_framed _ _).of_outside rfl
  | unpack =>
    simp only [stageBody, unpackBody]
    split
    · exact rfl
    · exact (withRoot_framed fun r => unpackFirst_framed r _).of_outside rfl

/-- The same of a stage that goes on from a transaction. -/
theorem resumeBody_framed (p : Point) (s : State) : Framed p.stage s (resumeBody p s) := by
  cases p with
  | countRead => exact countLoop_framed _
  | hdrPut todo => exact hdrPutLoop_framed todo
  | hdrGet h => exact hdrLoop_framed _ h
  | packRead acc held => exact packLoop_framed _ acc held
  | packByte acc todo => exact packResume_framed acc todo
  | packFlush acc held => exact packFlush_framed acc held
  | packPatch => exact packPatch_framed
  | unpackFirst => exact withRoot_framed fun r => unpackFirst_framed r _
  | unpackAhead b cur => exact withRoot_framed fun r => unpackLoop_framed r _ b cur
  | unpackPut sym todo ahead => exact withRoot_framed fun r => unpackResume_framed r sym todo ahead

end Sys2Proof.Machine
end

section
/-! PROOFS. The status side of the machine (10_state.md R26 to R39, R48; 40_command_control.md R134 to R136): what a
stage starts from, what its body keeps, and what is left when it ends, so that every step keeps the invariant
`Coherent`. -/

set_option autoImplicit false

namespace Sys2Proof.Machine

/-! ### What is outside every stage -/

section
variable (st : Stage) (s : State)

@[simp] theorem outside_ieDone : (outside st s).ieDone = s.ieDone := by cases st <;> rfl
@[simp] theorem outside_ieErr : (outside st s).ieErr = s.ieErr := by cases st <;> rfl
@[simp] theorem outside_cmd : (outside st s).cmd = s.cmd := by cases st <;> rfl
@[simp] theorem outside_run : (outside st s).run = s.run := by cases st <;> rfl
@[simp] theorem outside_done : (outside st s).done = s.done := by cases st <;> rfl
@[simp] theorem outside_err : (outside st s).err = s.err := by cases st <;> rfl
@[simp] theorem outside_overrun : (outside st s).overrun = s.overrun := by cases st <;> rfl
@[simp] theorem outside_fw : (outside st s).fw = s.fw := by cases st <;> rfl
@[simp] theorem outside_ft : (outside st s).ft = s.ft := by cases st <;> rfl
@[simp] theorem outside_fc : (outside st s).fc = s.fc := by cases st <;> rfl
@[simp] theorem outside_fh : (outside st s).fh = s.fh := by cases st <;> rfl
@[simp] theorem outside_fd : (outside st s).fd = s.fd := by cases st <;> rfl
@[simp] theorem outside_curOp : (outside st s).curOp = s.curOp := by cases st <;> rfl
@[simp] theorem outside_errInfo : (outside st s).errInfo = s.errInfo := by cases st <;> rfl
@[simp] theorem outside_index : (outside st s).index = s.index := by cases st <;> rfl
@[simp] theorem outside_script : (outside st s).script = s.script := by cases st <;> rfl
@[simp] theorem outside_rdata : (outside st s).rdata = s.rdata := by cases st <;> rfl
@[simp] theorem outside_draws : (outside st s).draws = s.draws := by cases st <;> rfl

end

/-- Two states that are equal outside a stage have the same value in a field that is outside it. -/
theorem eq_of_outside {α : Type} {st : Stage} {s t : State} (g : State → α) (hg : ∀ u, g (outside st u) = g u)
    (h : outside st t = outside st s) : g t = g s := by
  rw [← hg t, h, hg s]

theorem flagsWhile_of_eq {st : Stage} {s t : State} (h : flagsWhile st s) (hfw : t.fw = s.fw) (hft : t.ft = s.ft)
    (hfc : t.fc = s.fc) (hfh : t.fh = s.fh) (hfd : t.fd = s.fd) : flagsWhile st t := by
  cases st with
  | nop => trivial
  | _ => simpa only [flagsWhile, hfw, hft, hfc, hfh, hfd] using h

/-! ### The ranges (R36, R37, R39, R48) -/

/-- NSYM, DEC_NSYM and LAST_BITS are in range, and the priority list is empty. -/
def InRange (s : State) : Prop :=
  s.pl = [] ∧ s.nsym.toNat ≤ 256 ∧ s.decNsym.toNat ≤ 256 ∧ s.lastBits.toNat ≤ 8

/-- A piece keeps the ranges, and waits at a point that is in its own. -/
def KeepsRange {α : Type} (m : Flow α) : Prop :=
  m.All (fun _ t => InRange t) (fun p t => p.ok ∧ InRange t) (fun _ t => InRange t) fun _ => True

theorem toNat_ofNat_count {n : Nat} (h : n ≤ 256) : (BitVec.ofNat 9 n).toNat ≤ 256 := by
  rw [BitVec.toNat_ofNat]
  omega

section
variable {s : State}

theorem KeepsRange.bind {α β : Type} {m : Flow α} {k : α → State → Flow β} (h : KeepsRange m)
    (hk : ∀ a t, InRange t → KeepsRange (k a t)) : KeepsRange (m.bind k) :=
  all_bind (all_mono h hk (fun _ _ => id) (fun _ _ => id) fun _ => id)

theorem put_keepsRange {v : Byte} {p : Point} (hp : p.ok) (h : InRange s) : KeepsRange (put v p s) :=
  put_all (fun _ _ => h) (fun _ _ => h) fun _ => ⟨hp, h⟩

theorem countLoop_keepsRange (items : List SrcItem) (h : InRange s) : KeepsRange (countLoop items s) :=
  countLoop_all (I := fun _ => InRange) (fun _ h => ⟨trivial, h⟩) (fun _ _ h => h)
    (fun _ _ ⟨hpl, _, hdec, hlast⟩ => ⟨hpl, toNat_ofNat_count (distinct_le _), hdec, hlast⟩) (fun _ _ _ h _ => h)
    (fun _ _ _ h _ => h) h

/-- Each merge takes two records from the list and puts one in (R164). -/
theorem mergeLoop_length {n : Nat} {arena arena' : List Node} {pl pl' : List Nat}
    (h : mergeLoop n arena pl = .ok (arena', pl')) (hn : n + 1 ≤ pl.length) : pl'.length + n = pl.length := by
  induction n generalizing arena pl with
  | zero =>
    rw [mergeLoop] at h
    cases h
    rfl
  | succ n ih =>
    match pl, hn with
    | a :: b :: pl, hn =>
      simp only [mergeLoop, popMin] at h
      split at h
      · have := ih h (by rw [insertOrdered_length]; simpa using hn)
        rw [insertOrdered_length] at this
        simp only [List.length_cons]
        omega
      · cases h

theorem buildBody_keepsRange (h : InRange s) : KeepsRange (buildBody s) := by
  obtain ⟨-, hranges⟩ := h
  refine buildBody_all (fun _ _ => trivial) (fun _ _ => ⟨rfl, hranges⟩) fun arena r pl hmerge => ⟨?_, hranges⟩
  cases hlen : (listInit s.w).2.length with
  | zero =>
    rw [hlen, mergeLoop, List.eq_nil_of_length_eq_zero hlen] at hmerge
    cases hmerge
  | succ n =>
    have := mergeLoop_length hmerge (by omega)
    rw [List.length_cons] at this
    exact List.eq_nil_of_length_eq_zero (l := pl) (by omega)

theorem assignBody_keepsRange (h : InRange s) : KeepsRange (assignBody s) :=
  assignBody_all (fun _ _ => trivial) fun _ _ => h

theorem hdrPutLoop_keepsRange (todo : List Byte) (h : InRange s) : KeepsRange (hdrPutLoop todo s) :=
  hdrPutLoop_all (I := fun _ => InRange) (fun _ h => h) (fun _ _ _ _ h _ => h) (fun _ _ _ _ h _ => h)
    (fun _ _ _ h _ => ⟨trivial, h⟩) h

/-- A header byte leads from a place in its range to another, and the last one sets its two registers in theirs. -/
theorem hdrByte_keepsRange {h : HdrAt} (v : Byte) (hh : h.ok) (hs : InRange s) :
    (hdrByte h v s).All (AfterByte (fun h' t => h'.ok ∧ InRange t) fun _ t => InRange t) (fun p t => p.ok ∧ InRange t)
      (fun _ t => InRange t) fun _ => True := by
  refine hdrByte_all hs (fun h' hok => ⟨hok hh, hs⟩) (fun cnt left seen sym len f hok => ?_) fun cnt hok hv => ?_
  · obtain ⟨hcnt, hleft⟩ := hok hh
    exact recordRead_all (fun _ => trivial) (fun _ _ _ _ => ⟨afterRecord_ok hcnt (by omega), hs⟩) (fun _ _ _ _ => hs)
      fun _ _ _ _ => trivial
  · obtain ⟨hpl, hnsym, -, -⟩ := hs
    refine ⟨hpl, hnsym, toNat_ofNat_count (hok hh), ?_⟩
    rw [BitVec.extractLsb'_toNat]
    omega

theorem hdrLoop_keepsRange (items : List SrcItem) {h : HdrAt} (hh : h.ok) (hs : InRange s) :
    KeepsRange (hdrLoop items h s) :=
  hdrLoop_all (I := fun _ h t => h.ok ∧ InRange t) (fun _ _ h => h) (fun _ _ _ h => h.2) (fun _ _ _ h => h.2)
    (fun v _ _ t ht => hdrByte_keepsRange (s := tookByte _ t) v ht.1 ht.2) ⟨hh, hs⟩

theorem packBits_keepsRange (todo : Bits) (acc : Byte) {held : Nat} (hheld : held < 8) (h : InRange s) :
    (packBits todo acc held s).All (fun ah t => ah.2 < 8 ∧ InRange t) (fun p t => p.ok ∧ InRange t)
      (fun _ t => InRange t) fun _ => True :=
  packBits_all (J := fun _ held t => held < 8 ∧ InRange t) (fun _ _ _ h => h)
    (fun _ _ _ _ h hne => ⟨by omega, h.2⟩) (fun _ _ _ _ _ _ h _ _ => ⟨by decide, h.2⟩) (fun _ _ _ _ _ h _ => h.2)
    (fun _ _ _ _ _ h _ _ => ⟨trivial, h.2⟩) ⟨hheld, h⟩

theorem packPatch_keepsRange (h : InRange s) : KeepsRange (packPatch s) :=
  snkPatch_all (fun _ _ => h) (fun _ _ => h) (fun _ => ⟨trivial, h⟩) fun _ => trivial

theorem packFlush_keepsRange (acc : Byte) {held : Nat} (hpos : 0 < held) (hheld : held < 8) (h : InRange s) :
    KeepsRange (packFlush acc held s) := by
  refine (put_keepsRange (p := .packFlush acc held) ⟨hpos, hheld⟩ h).bind fun _ t ⟨hpl, hnsym, hdec, _⟩ => ?_
  refine packPatch_keepsRange ⟨hpl, hnsym, hdec, ?_⟩
  rw [BitVec.toNat_ofNat]
  omega

theorem packEnd_keepsRange (acc : Byte) {held : Nat} (hheld : held < 8) (h : InRange s) :
    KeepsRange (packEnd acc held s) := by
  rw [packEnd]
  split
  · exact packFlush_keepsRange acc ‹_› hheld h
  · obtain ⟨hpl, hnsym, hdec, -⟩ := h
    exact packPatch_keepsRange ⟨hpl, hnsym, hdec, le_refl 8⟩

theorem packLoop_keepsRange (items : List SrcItem) (acc : Byte) {held : Nat} (hheld : held < 8) (h : InRange s) :
    KeepsRange (packLoop items acc held s) :=
  packLoop_all (I := fun _ held t => held < 8 ∧ InRange t) (fun _ _ _ h => h) (fun _ _ _ h => h.2)
    (fun _ acc _ _ h => packEnd_keepsRange acc h.1 h.2) (fun _ _ _ _ h _ => h.2)
    (fun _ code _ acc _ _ h _ => packBits_keepsRange code acc h.1 h.2) ⟨hheld, h⟩

theorem packResume_keepsRange (acc : Byte) (todo : Bits) (h : InRange s) : KeepsRange (packResume acc todo s) :=
  (put_keepsRange (p := .packByte acc todo) trivial h).bind fun _ _ ht =>
    all_bind (all_mono (packBits_keepsRange todo 0 (by decide) ht) (fun _ _ hu => packLoop_keepsRange _ _ hu.1 hu.2)
      (fun _ _ => id) (fun _ _ => id) fun _ => id)

theorem walkBits_keepsRange (root : Nat) (ahead : Option Byte) (bits : Bits) (cur : Nat) (h : InRange s) :
    KeepsRange (walkBits root ahead bits cur s) :=
  walkBits_all (J := fun _ _ => InRange) (fun _ _ h => h) (fun _ _ _ _ _ _ => trivial) (fun _ _ _ _ h => h)
    (fun _ _ _ _ _ _ _ _ _ h _ _ _ => h) (fun _ _ _ _ _ _ h _ => h) (fun _ _ _ _ _ h _ => h)
    (fun _ _ _ _ _ h _ => ⟨trivial, h⟩) h

theorem unpackEnd_keepsRange (root cur : Nat) (h : InRange s) : KeepsRange (unpackEnd root cur s) :=
  unpackEnd_all (fun _ => h) fun _ => h

theorem unpackLoop_keepsRange (root : Nat) (items : List SrcItem) (b : Byte) (cur : Nat) (h : InRange s) :
    KeepsRange (unpackLoop root items b cur s) :=
  unpackLoop_all (I := fun _ _ => InRange) (fun _ _ _ h => ⟨trivial, h⟩) (fun _ _ _ h => h)
    (fun _ _ _ _ h => all_mono (walkBits_keepsRange root none _ _ h) (fun _ _ => unpackEnd_keepsRange root _)
      (fun _ _ => id) (fun _ _ => id) fun _ => id)
    (fun _ _ _ _ _ h => walkBits_keepsRange root _ _ _ h) h

theorem unpackFirst_keepsRange (root : Nat) (items : List SrcItem) (h : InRange s) :
    KeepsRange (unpackFirst root items s) := by
  match items with
  | [] => exact ⟨trivial, h⟩
  | .fail :: rest => exact h
  | .eof :: rest => exact h
  | .byte v :: rest => exact unpackLoop_keepsRange root rest v root h

theorem unpackResume_keepsRange (root : Nat) (sym : Byte) (todo : Bits) (ahead : Option Byte) (h : InRange s) :
    KeepsRange (unpackResume root sym todo ahead s) := by
  refine (put_keepsRange (p := .unpackPut sym todo ahead) trivial h).bind fun _ _ ht =>
    (walkBits_keepsRange root ahead todo root ht).bind fun cur t ht => ?_
  cases ahead with
  | none => exact unpackEnd_keepsRange root cur ht
  | some v => exact unpackLoop_keepsRange root _ v cur ht

theorem withRoot_keepsRange {k : Nat → Flow Unit} (hk : ∀ r, KeepsRange (k r)) : KeepsRange (withRoot s k) :=
  withRoot_all (fun _ => trivial) fun r _ => hk r

theorem stageBody_keepsRange (st : Stage) (h : InRange s) : KeepsRange (stageBody st s) := by
  obtain ⟨hpl, hnsym, hdec, hlast⟩ := h
  have hzero₉ : (0 : BitVec 9).toNat ≤ 256 := by decide
  have hzero₄ : (0 : BitVec 4).toNat ≤ 8 := by decide
  cases st with
  | nop => exact ⟨hpl, hnsym, hdec, hlast⟩
  | count => exact countLoop_keepsRange _ ⟨hpl, hzero₉, hdec, hlast⟩
  | build => exact buildBody_keepsRange ⟨hpl, hnsym, hdec, hlast⟩
  | assign => exact assignBody_keepsRange ⟨hpl, hnsym, hdec, hlast⟩
  | writeHdr => exact hdrPutLoop_keepsRange _ ⟨hpl, hnsym, hdec, hlast⟩
  | pack => exact packLoop_keepsRange _ _ (by decide) ⟨hpl, hnsym, hdec, hzero₄⟩
  | readHdr => exact hdrLoop_keepsRange _ (h := .countLo) trivial ⟨hpl, hnsym, hzero₉, hzero₄⟩
  | unpack =>
    simp only [stageBody, unpackBody]
    split
    · exact ⟨hpl, hnsym, hdec, hlast⟩
    · exact withRoot_keepsRange fun r => unpackFirst_keepsRange r _ ⟨hpl, hnsym, hdec, hlast⟩

theorem resumeBody_keepsRange {p : Point} (hp : p.ok) (h : InRange s) : KeepsRange (resumeBody p s) := by
  cases p with
  | countRead => exact countLoop_keepsRange _ h
  | hdrPut todo => exact hdrPutLoop_keepsRange todo h
  | hdrGet at_ => exact hdrLoop_keepsRange _ hp h
  | packRead acc held => exact packLoop_keepsRange _ acc hp h
  | packByte acc todo => exact packResume_keepsRange acc todo h
  | packFlush acc held => exact packFlush_keepsRange acc hp.1 hp.2 h
  | packPatch => exact packPatch_keepsRange h
  | unpackFirst => exact withRoot_keepsRange fun r => unpackFirst_keepsRange r _ h
  | unpackAhead b cur => exact withRoot_keepsRange fun r => unpackLoop_keepsRange r _ b cur h
  | unpackPut sym todo ahead => exact withRoot_keepsRange fun r => unpackResume_keepsRange r sym todo ahead h

end

/-! ### A run, between its stages and in one of them -/

/-- The validity flags imply each other as R135's reasons say. -/
structure FlagOrder (s : State) : Prop where
  treeCounted : s.ft = true → s.fw = true
  codesCounted : s.fc = true → s.fw = true
  headerCoded : s.fh = true → s.fc = true
  oneTree : s.ft = true → s.fd = false

/-- A run of the command `i`, its completion state clear. -/
structure Running (i : Instr) (s : State) : Prop where
  order : FlagOrder s
  range : InRange s
  clear : s.done = false ∧ s.err = false ∧ s.errInfo = 0
  word : decode s.cmd = .command i

/-- A run of the command `i` in the middle of stage `st`. -/
structure InStage (i : Instr) (st : Stage) (s : State) : Prop extends Running i s where
  flags : flagsWhile st s
  op : s.curOp = st.op

section
variable {i : Instr} {st : Stage} {s t : State}

theorem Coherent.order (h : Coherent s) : FlagOrder s :=
  ⟨h.treeCounted, h.codesCounted, h.headerCoded, h.oneTree⟩

theorem Coherent.range (h : Coherent s) : InRange s :=
  ⟨h.listEmpty, h.nsymRange, h.decNsymRange, h.lastBitsRange⟩

/-- `Coherent`, in the parts that the runs keep. -/
theorem coherent_of_parts (horder : FlagOrder s) (hrange : InRange s) (hdone : s.done = true → s.err = false)
    (hbusy : s.busy = true → s.done = false ∧ s.err = false ∧ s.errInfo = 0) (hinfo : s.done = true → s.errInfo = 0)
    (hreserved : s.errInfo.extractLsb' 12 20 = 0)
    (hwaiting : ∀ st p rest, s.run = .waiting st p rest → st = p.stage ∧ p.ok ∧ flagsWhile st s ∧ s.curOp = st.op ∧
      ∃ i, decode s.cmd = .command i ∧ (st :: rest) <:+ stagesOf i) : Coherent s where
  doneOrErr := hdone
  busyClear := hbusy
  doneInfo := hinfo
  infoReserved := hreserved
  listEmpty := hrange.1
  treeCounted := horder.treeCounted
  codesCounted := horder.codesCounted
  headerCoded := horder.headerCoded
  oneTree := horder.oneTree
  nsymRange := hrange.2.1
  decNsymRange := hrange.2.2.1
  lastBitsRange := hrange.2.2.2
  waiting := hwaiting

theorem errWord_reserved (op : BitVec 4) (e : ErrKind) : (errWord op e).extractLsb' 12 20 = 0 := by
  simp (disch := decide) only [errWord, BitVec.extractLsb'_append_eq_of_le]
  decide

/-- The end of a run with an error (R243). -/
theorem coherent_recordError (e : ErrKind) (horder : FlagOrder s) (hrange : InRange s) : Coherent (recordError e s) :=
  coherent_of_parts ⟨horder.1, horder.2, horder.3, horder.4⟩ hrange nofun nofun nofun (errWord_reserved _ _) nofun

theorem flagOrder_clearAtEnd (h : FlagOrder s) : FlagOrder (clearAtEnd st s) := by
  obtain ⟨htree, hcodes, hheader, hone⟩ := h
  cases st with
  | pack => exact ⟨htree, hcodes, nofun, hone⟩
  | unpack => exact ⟨htree, hcodes, hheader, fun _ => rfl⟩
  | _ => exact ⟨htree, hcodes, hheader, hone⟩

theorem inRange_clearAtEnd (h : InRange s) : InRange (clearAtEnd st s) := by
  cases st <;> exact h

theorem coherent_raiseError (e : ErrKind) (horder : FlagOrder s) (hrange : InRange s) : Coherent (raiseError st e s) :=
  coherent_recordError e (flagOrder_clearAtEnd horder) (inRange_clearAtEnd hrange)

/-- The end of a run with success (R136). -/
theorem Running.coherent_endRun (h : Running i s) : Coherent (endRun s) := by
  obtain ⟨⟨htree, hcodes, hheader, hone⟩, hrange, ⟨-, herr, hinfo⟩, -⟩ := h
  exact coherent_of_parts ⟨htree, hcodes, hheader, hone⟩ hrange (fun _ => herr) nofun (fun _ => hinfo)
    (by rw [endRun_errInfo, hinfo]; decide) nofun

/-- A stage that waits (R89). -/
theorem InStage.coherent_waiting {p : Point} {rest : List Stage} (h : InStage i st s) (hst : p.stage = st) (hp : p.ok)
    (hrest : (st :: rest) <:+ stagesOf i) : Coherent { s with run := .waiting st p rest } := by
  obtain ⟨⟨⟨htree, hcodes, hheader, hone⟩, hrange, hclear, hword⟩, hflags, hop⟩ := h
  have hzero : s.errInfo.extractLsb' 12 20 = 0 := by rw [hclear.2.2]; decide
  refine coherent_of_parts ⟨htree, hcodes, hheader, hone⟩ hrange (fun _ => hclear.2.1) (fun _ => hclear)
    (fun _ => hclear.2.2) hzero fun st' p' rest' hrun => ?_
  cases hrun
  exact ⟨hst.symm, hp, flagsWhile_of_eq hflags rfl rfl rfl rfl rfl, hop, i, hword, hrest⟩

/-- The flags at the start of a stage whose precondition holds (R134, R135). -/
theorem FlagOrder.started (h : FlagOrder s) (hpre : pre st s = true) :
    FlagOrder (started st s) ∧ flagsWhile st (started st s) := by
  obtain ⟨htree, hcodes, hheader, hone⟩ := h
  cases st with
  | nop => exact ⟨⟨htree, hcodes, hheader, hone⟩, trivial⟩
  | count => exact ⟨⟨nofun, nofun, nofun, nofun⟩, rfl, rfl, rfl, rfl, rfl⟩
  | build => exact ⟨⟨nofun, nofun, nofun, nofun⟩, hpre, rfl, rfl, rfl, rfl⟩
  | assign => exact ⟨⟨htree, nofun, nofun, hone⟩, hpre, rfl, rfl⟩
  | writeHdr => exact ⟨⟨htree, hcodes, nofun, hone⟩, hpre, rfl⟩
  | pack => exact ⟨⟨htree, hcodes, hheader, fun _ => rfl⟩, hpre, rfl⟩
  | readHdr => exact ⟨⟨nofun, hcodes, hheader, nofun⟩, rfl, rfl⟩
  | unpack => exact ⟨⟨htree, hcodes, nofun, hone⟩, hpre, rfl⟩

/-- The flags at the end of a stage with success (R135). -/
theorem FlagOrder.finishStage (h : FlagOrder s) (hflags : flagsWhile st s) : FlagOrder (finishStage st s) := by
  obtain ⟨htree, hcodes, hheader, hone⟩ := h
  cases st with
  | nop => exact ⟨htree, hcodes, hheader, hone⟩
  | count => exact ⟨fun _ => rfl, fun _ => rfl, hheader, hone⟩
  | build =>
    obtain ⟨hfw, -, -, -, hfd⟩ := hflags
    exact ⟨fun _ => hfw, hcodes, hheader, fun _ => hfd⟩
  | assign =>
    obtain ⟨hft, -, -⟩ := hflags
    exact ⟨htree, fun _ => htree hft, fun _ => rfl, hone⟩
  | writeHdr =>
    obtain ⟨hfc, -⟩ := hflags
    exact ⟨htree, hcodes, fun _ => hfc, hone⟩
  | pack => exact ⟨htree, hcodes, nofun, hone⟩
  | readHdr =>
    obtain ⟨hft, -⟩ := hflags
    exact ⟨htree, hcodes, hheader, fun h => absurd (hft.symm.trans h) nofun⟩
  | unpack => exact ⟨htree, hcodes, hheader, fun _ => rfl⟩

/-- The body of a stage keeps the flags. -/
theorem flags_of_outside (horder : FlagOrder s) (hflags : flagsWhile st s) (ht : outside st t = outside st s) :
    FlagOrder t ∧ flagsWhile st t := by
  obtain ⟨htree, hcodes, hheader, hone⟩ := horder
  have hfw : t.fw = s.fw := eq_of_outside State.fw (outside_fw st) ht
  have hft : t.ft = s.ft := eq_of_outside State.ft (outside_ft st) ht
  have hfc : t.fc = s.fc := eq_of_outside State.fc (outside_fc st) ht
  have hfh : t.fh = s.fh := eq_of_outside State.fh (outside_fh st) ht
  have hfd : t.fd = s.fd := eq_of_outside State.fd (outside_fd st) ht
  exact ⟨⟨by rwa [hft, hfw], by rwa [hfc, hfw], by rwa [hfh, hfc], by rwa [hft, hfd]⟩,
    flagsWhile_of_eq hflags hfw hft hfc hfh hfd⟩

/-- The start of a stage whose precondition holds (R132). -/
theorem Running.inStage_started (h : Running i s) (hpre : pre st s = true) : InStage i st (started st s) := by
  obtain ⟨horder, hflags⟩ := h.order.started hpre
  have hrange : InRange (started st s) := by
    obtain ⟨-, hrange, -⟩ := h
    cases st <;> exact hrange
  exact ⟨⟨horder, hrange, by simpa using h.clear, by simpa using h.word⟩, hflags, by simp⟩

/-- The end of a stage with success (R136). -/
theorem InStage.running_finishStage (h : InStage i st s) : Running i (finishStage st s) := by
  have hrange : InRange (finishStage st s) := by
    obtain ⟨⟨-, hrange, -⟩, -⟩ := h
    cases st <;> exact hrange
  exact ⟨h.order.finishStage h.flags, hrange, by simpa using h.clear, by simpa using h.word⟩

/-- What the body of a stage keeps of a run. -/
theorem InStage.of_outside (h : InStage i st s) (ht : outside st t = outside st s) (hrange : InRange t) :
    InStage i st t := by
  obtain ⟨horder, hflags⟩ := flags_of_outside h.order h.flags ht
  obtain ⟨hdone, herr, hinfo⟩ := h.clear
  have hclear : t.done = false ∧ t.err = false ∧ t.errInfo = 0 :=
    ⟨(eq_of_outside State.done (outside_done st) ht).trans hdone,
      (eq_of_outside State.err (outside_err st) ht).trans herr,
      (eq_of_outside State.errInfo (outside_errInfo st) ht).trans hinfo⟩
  have hword : decode t.cmd = .command i := by
    rw [eq_of_outside State.cmd (outside_cmd st) ht]
    exact h.word
  exact ⟨⟨horder, hrange, hclear, hword⟩, hflags, (eq_of_outside State.curOp (outside_curOp st) ht).trans h.op⟩

/-- The body's pieces keep the run in its stage. -/
def KeepsStage (i : Instr) (st : Stage) (m : Flow Unit) : Prop :=
  m.All (fun _ t => InStage i st t) (fun p t => p.stage = st ∧ p.ok ∧ InStage i st t) (fun _ t => InStage i st t)
    fun _ => True

theorem all_and {α : Type} {D D' : α → State → Prop} {W W' : Point → State → Prop} {R R' : ErrKind → State → Prop}
    {F F' : Fault → Prop} {m : Flow α} (h : m.All D W R F) (h' : m.All D' W' R' F') :
    m.All (fun a s => D a s ∧ D' a s) (fun p s => W p s ∧ W' p s) (fun e s => R e s ∧ R' e s) fun f => F f ∧ F' f := by
  cases m <;> exact ⟨h, h'⟩

theorem keepsStage_of_framed {m : Flow Unit} (h : InStage i st s) (hframe : Framed st s m) (hrange : KeepsRange m) :
    KeepsStage i st m :=
  all_mono (all_and hframe hrange) (fun _ _ hu => h.of_outside hu.1 hu.2)
    (fun _ _ hu => ⟨hu.1.1, hu.2.1, h.of_outside hu.1.2 hu.2.2⟩) (fun _ _ hu => h.of_outside hu.1.2 hu.2)
    fun _ _ => trivial

theorem inStage_portsOpened (h : InStage i st s) : InStage i st (portsOpened st s) := by
  obtain ⟨⟨⟨htree, hcodes, hheader, hone⟩, hrange, hclear, hword⟩, hflags, hop⟩ := h
  cases st <;> exact ⟨⟨⟨htree, hcodes, hheader, hone⟩, hrange, hclear, hword⟩, hflags, hop⟩

theorem stageBody_keepsStage (h : InStage i st s) : KeepsStage i st (stageBody st s) :=
  keepsStage_of_framed (inStage_portsOpened h) (stageBody_framed st s) (stageBody_keepsRange st h.range)

theorem resumeBody_keepsStage {p : Point} (hp : p.ok) (h : InStage i p.stage s) :
    KeepsStage i p.stage (resumeBody p s) :=
  keepsStage_of_framed h (resumeBody_framed p s) (resumeBody_keepsRange hp h.range)

/-! ### The runs -/

theorem settle_coherent {rest : List Stage} {m : Flow Unit} (hm : KeepsStage i st m)
    (hrest : (st :: rest) <:+ stagesOf i)
    (hnext : ∀ u, Running i u → performAll rest u = .next t → Coherent t)
    (h : settle st rest (performAll rest) m = .next t) : Coherent t := by
  rcases settle_cases st rest (performAll rest) m with
    ⟨u, rfl, hu⟩ | ⟨p, u, rfl, hu⟩ | ⟨e, u, rfl, hu⟩ | ⟨f, rfl, hu⟩
  · exact hnext _ (InStage.running_finishStage hm) (hu.symm.trans h)
  · obtain ⟨hst, hp, hin⟩ := hm
    obtain rfl := Host.Outcome.next.inj (hu.symm.trans h)
    exact hin.coherent_waiting hst hp hrest
  · have hin : InStage i st u := hm
    obtain rfl := Host.Outcome.next.inj (hu.symm.trans h)
    exact coherent_raiseError e hin.order hin.range
  · cases hu.symm.trans h

theorem Running.with_curOp (h : Running i s) (op : BitVec 4) : Running i { s with curOp := op } := by
  obtain ⟨⟨htree, hcodes, hheader, hone⟩, hrange, hclear, hword⟩ := h
  exact ⟨⟨htree, hcodes, hheader, hone⟩, hrange, hclear, hword⟩

theorem performAll_coherent {stages : List Stage} (hs : Running i s) (hsuffix : stages <:+ stagesOf i)
    (h : performAll stages s = .next t) : Coherent t := by
  induction stages generalizing s with
  | nil =>
    obtain rfl := Host.Outcome.next.inj h
    exact hs.coherent_endRun
  | cons st rest ih =>
    rw [performAll] at h
    cases hpre : pre st s with
    | false =>
      rw [performStage_not_pre hpre, settle_raise] at h
      obtain rfl := Host.Outcome.next.inj h
      exact coherent_raiseError _ (hs.with_curOp _).order hs.range
    | true =>
      rw [performStage_pre hpre] at h
      exact settle_coherent (stageBody_keepsStage (hs.inStage_started hpre)) hsuffix
        (fun u hu => ih hu ((List.suffix_cons st rest).trans hsuffix)) h

/-- Every command is the run of its stages, the command's own OP being in CUR_OP before the first (R138). -/
theorem exec_eq_performAll (i : Instr) (s : State) :
    exec i s = performAll (stagesOf i) { s with curOp := i.opcode } := by
  cases i <;> rfl

theorem engineTurn_of_idle (hrun : s.run = .idle) : engineTurn s = .next s := by
  rw [engineTurn, hrun]

theorem engineTurn_of_command (hrun : s.run = .accepted) (hdec : decode s.cmd = .command i) :
    engineTurn s = exec i s := by
  simp only [engineTurn, hrun, runAccepted, hdec]

theorem engineTurn_of_waiting {p : Point} {rest : List Stage} (hrun : s.run = .waiting st p rest) :
    engineTurn s = resumeRun st p rest s := by
  rw [engineTurn, hrun]

theorem engineTurn_coherent (hs : Coherent s) (h : engineTurn s = .next t) : Coherent t := by
  cases hrun : s.run with
  | idle =>
    rw [engineTurn_of_idle hrun] at h
    obtain rfl := Host.Outcome.next.inj h
    exact hs
  | accepted =>
    have hclear := hs.busyClear (by rw [State.busy, hrun]; rfl)
    cases hdec : decode s.cmd with
    | illegal why =>
      rw [engineTurn_of_illegal hrun hdec] at h
      obtain rfl := Host.Outcome.next.inj h
      exact coherent_recordError _ hs.order hs.range
    | command i =>
      rw [engineTurn_of_command hrun hdec, exec_eq_performAll] at h
      exact performAll_coherent (Running.with_curOp ⟨hs.order, hs.range, hclear, hdec⟩ _) List.suffix_rfl h
  | waiting st p rest =>
    have hclear := hs.busyClear (by rw [State.busy, hrun]; rfl)
    obtain ⟨rfl, hp, hflags, hop, i, hdec, hrest⟩ := hs.waiting st p rest hrun
    rw [engineTurn_of_waiting hrun] at h
    exact settle_coherent (resumeBody_keepsStage hp ⟨⟨hs.order, hs.range, hclear, hdec⟩, hflags, hop⟩) hrest
      (fun u hu => performAll_coherent hu ((List.suffix_cons _ rest).trans hrest)) h

/-! ### The moves of the host and the platform -/

/-- The fields of which `Coherent` speaks. -/
def statusSide (s : State) : State :=
  { State.reset with
    done := s.done, err := s.err, run := s.run, errInfo := s.errInfo, pl := s.pl, fw := s.fw, ft := s.ft, fc := s.fc
    fh := s.fh, fd := s.fd, nsym := s.nsym, decNsym := s.decNsym, lastBits := s.lastBits, curOp := s.curOp
    cmd := s.cmd }

theorem coherent_statusSide : Coherent (statusSide s) ↔ Coherent s := by
  constructor
  · intro h
    exact coherent_of_parts ⟨h.treeCounted, h.codesCounted, h.headerCoded, h.oneTree⟩ h.range h.doneOrErr h.busyClear
      h.doneInfo h.infoReserved fun st p rest hrun => by
        obtain ⟨hst, hp, hflags, hrest⟩ := h.waiting st p rest hrun
        exact ⟨hst, hp, flagsWhile_of_eq hflags rfl rfl rfl rfl rfl, hrest⟩
  · intro h
    exact coherent_of_parts ⟨h.treeCounted, h.codesCounted, h.headerCoded, h.oneTree⟩ h.range h.doneOrErr h.busyClear
      h.doneInfo h.infoReserved fun st p rest hrun => by
        obtain ⟨hst, hp, hflags, hrest⟩ := h.waiting st p rest hrun
        exact ⟨hst, hp, flagsWhile_of_eq hflags rfl rfl rfl rfl rfl, hrest⟩

theorem Coherent.congr (h : Coherent s) (ht : statusSide t = statusSide s) : Coherent t := by
  rw [← coherent_statusSide, ht, coherent_statusSide]
  exact h

theorem coherent_reset : Coherent State.reset :=
  coherent_of_parts ⟨nofun, nofun, nofun, nofun⟩ ⟨rfl, by decide⟩ nofun nofun nofun (by decide) nofun

theorem Coherent.applyReset (s : State) : Coherent (applyReset s) := coherent_reset.congr rfl

/-- A word written to CMD, accepted when idle (R130, R131). -/
theorem Coherent.writeCmd (h : Coherent s) (v : Word) : Coherent (writeCmd v s) := by
  rw [Machine.writeCmd]
  split
  · exact h.congr rfl
  · exact coherent_of_parts ⟨h.treeCounted, h.codesCounted, h.headerCoded, h.oneTree⟩ h.range nofun
      (fun _ => ⟨rfl, rfl, rfl⟩) nofun (by rw [accept_errInfo]; decide) nofun

/-- Conditions cleared (R33). -/
theorem Coherent.clearStatus (h : Coherent s) (v : Word) : Coherent (clearStatus v s) := by
  have hdone : (Machine.clearStatus v s).done = true → s.done = true := fun hd => (Bool.and_eq_true_iff.mp hd).1
  refine coherent_of_parts ⟨h.treeCounted, h.codesCounted, h.headerCoded, h.oneTree⟩ h.range
    (fun hd => by simp [h.doneOrErr (hdone hd)]) (fun hbusy => ?_) (fun hd => h.doneInfo (hdone hd)) h.infoReserved
    fun st p rest hrun => ?_
  · obtain ⟨hnotDone, hnotErr, hinfo⟩ := h.busyClear hbusy
    exact ⟨by simp [hnotDone], by simp [hnotErr], hinfo⟩
  · obtain ⟨hst, hp, hflags, hrest⟩ := h.waiting st p rest hrun
    exact ⟨hst, hp, flagsWhile_of_eq hflags rfl rfl rfl rfl rfl, hrest⟩

theorem wordIndex_of_ofIndex {i : BitVec 6} {r : Reg} (h : Reg.ofIndex i = some r) : i = r.wordIndex := by
  revert i
  cases r with
  | codeBits j => revert j; decide
  | _ => decide

/-- All that a host write can do (R21, R73). -/
theorem regWrite_cases (i : BitVec 6) (v : Word) (s : State) :
    regWrite i v s = s ∨ (i = 1 ∧ regWrite i v s = writeCtrl v s) ∨ (i = 2 ∧ regWrite i v s = writeCmd v s) ∨
    (i = 3 ∧ regWrite i v s = clearStatus v s) ∨ (i = 14 ∧ regWrite i v s = { s with index := v.extractLsb' 0 8 }) := by
  rw [regWrite]
  split
  case h_1 h => exact .inr (.inl ⟨wordIndex_of_ofIndex h, rfl⟩)
  case h_2 h => exact .inr (.inr (.inl ⟨wordIndex_of_ofIndex h, rfl⟩))
  case h_3 h => exact .inr (.inr (.inr (.inl ⟨wordIndex_of_ofIndex h, rfl⟩)))
  case h_4 h => exact .inr (.inr (.inr (.inr ⟨wordIndex_of_ofIndex h, rfl⟩)))
  case h_5 => exact .inl rfl

theorem Coherent.regWrite (h : Coherent s) (i : BitVec 6) (v : Word) : Coherent (regWrite i v s) := by
  rcases regWrite_cases i v s with hw | ⟨-, hw⟩ | ⟨-, hw⟩ | ⟨-, hw⟩ | ⟨-, hw⟩ <;> rw [hw]
  · exact h
  · cases hbit : v.getLsbD 0 with
    | true => rw [writeCtrl_reset hbit]; exact Coherent.applyReset s
    | false => rw [writeCtrl_enables hbit]; exact h.congr rfl
  · exact h.writeCmd v
  · exact h.clearStatus v
  · exact h.congr rfl

theorem statusSide_deliverItem (it : SrcItem) (s : State) : statusSide (deliverItem it s) = statusSide s := by
  rw [deliverItem]
  split <;> rfl

theorem statusSide_deliverAnswer (a : SnkAnswer) (s : State) : statusSide (deliverAnswer a s) = statusSide s := by
  rw [deliverAnswer]
  split <;> rfl

theorem applyEvent_coherent {e : Event} (hs : Coherent s) (h : applyEvent e s = .next t) : Coherent t := by
  cases e with
  | engine => exact engineTurn_coherent hs h
  | hostRead i => exact Host.Outcome.next.inj h ▸ hs.congr rfl
  | hostWrite i v => exact Host.Outcome.next.inj h ▸ hs.regWrite i v
  | rst => exact Host.Outcome.next.inj h ▸ Coherent.applyReset s
  | srcSession items => exact Host.Outcome.next.inj h ▸ hs.congr rfl
  | srcItem it => exact Host.Outcome.next.inj h ▸ hs.congr (statusSide_deliverItem it s)
  | snkSession answers => exact Host.Outcome.next.inj h ▸ hs.congr rfl
  | snkAnswer a => exact Host.Outcome.next.inj h ▸ hs.congr (statusSide_deliverAnswer a s)

/-- A step is the move that the script has next, the engine's where it has none (R90). -/
theorem step_cases (s : State) :
    (s.script = [] ∧ step s = engineTurn s) ∨
    ∃ e rest, s.script = e :: rest ∧ step s = applyEvent e { s with script := rest } := by
  cases hscript : s.script with
  | nil => exact .inl ⟨rfl, by rw [step, stepScript, hscript]⟩
  | cons e rest => exact .inr ⟨e, rest, rfl, step_of_script_cons hscript⟩

end

end Sys2Proof.Machine

/-! ### The obligations -/

namespace Sys2Proof.Proofs

open Sys2Proof.Machine

/-- Settles O55: every stage starts with its flags and its OP, its body keeps them, and its end leaves them in order. -/
theorem stepKeepsCoherent : Obligations.StepKeepsCoherent := by
  unfold Obligations.StepKeepsCoherent
  intro s t hs h
  rcases step_cases s with ⟨-, hstep⟩ | ⟨e, rest, -, hstep⟩
  · exact engineTurn_coherent hs (hstep.symm.trans h)
  · have hs' : Coherent { s with script := rest } := hs.congr rfl
    exact applyEvent_coherent hs' (hstep.symm.trans h)

end Sys2Proof.Proofs
end

section
/-! PROOFS. The tables' side of the machine (60_exceptions.md R258): what the body of each stage keeps of the count, the
trees, the codes and the open header, so that no run meets a condition that cannot happen, and every step keeps the
invariant `Sound`. -/

set_option autoImplicit false

namespace Sys2Proof.Machine

/-! ### The invariant in parts -/

/-- The links of the arena's records and the root lead to records. -/
def Linked (s : State) : Prop :=
  LinksInRange s.arena ∧ ∃ r, s.root = some r ∧ r < s.arena.length

/-- The root is none, or that of an encoder's tree (R166). -/
def EncoderRoot (s : State) : Prop :=
  s.root ≠ none → ∃ t, IsTrie s.arena s.root t ∧ t.full = true ∧ t.nodes ≤ s.arena.length ∧ t.depth ≤ 255

/-- What the validity flags vouch for (R52, R135). -/
def Vouched (s : State) : Prop :=
  (s.fw = true → weightSum s.w = s.total.toNat) ∧ (s.ft = true → EncoderRoot s) ∧
  (s.fc = true → CodesBounded s.ct) ∧ (s.fd = true → Linked s) ∧ (s.fh = true → patchInside s = true)

/-- The header that WRITE_HDR is writing: the position is the object's end, and the whole is a header's size (R115). -/
def HeaderOpen (todo : List Byte) (s : State) : Prop :=
  s.snkPos.toNat = (curObject s).length ∧ 1 ≤ (curObject s).length + todo.length ∧
    (curObject s).length + todo.length ≤ 8707

/-- What a stage needs of the tables to go on from the point it waits at. -/
def PointSound (p : Point) (s : State) : Prop :=
  match p with
  | .countRead => weightSum s.w = s.total.toNat
  | .hdrPut todo => HeaderOpen todo s
  | .hdrGet _ => Linked s
  | .unpackFirst => Linked s
  | .unpackAhead _ cur => Linked s ∧ cur < s.arena.length
  | .unpackPut _ _ _ => Linked s
  | _ => True

theorem sound_iff {s : State} :
    Sound s ↔ Coherent s ∧ Vouched s ∧ ∀ p, s.run.point = some p → PointSound p s := by
  constructor
  · rintro ⟨hcoherent, hcounted, hencoder, hcodes, hdecoder, hwalk, hpatch, hheader⟩
    refine ⟨hcoherent, ⟨fun h => hcounted (.inl h), hencoder, hcodes, fun h => hdecoder (.inl h), hpatch⟩,
      fun p hp => ?_⟩
    cases p with
    | countRead => exact hcounted (.inr hp)
    | hdrPut todo => exact hheader todo hp
    | hdrGet h => exact hdecoder (.inr ⟨_, hp, .inl rfl⟩)
    | unpackFirst => exact hdecoder (.inr ⟨_, hp, .inr rfl⟩)
    | unpackAhead b cur => exact ⟨hdecoder (.inr ⟨_, hp, .inr rfl⟩), hwalk b cur hp⟩
    | unpackPut sym todo ahead => exact hdecoder (.inr ⟨_, hp, .inr rfl⟩)
    | _ => trivial
  · rintro ⟨hcoherent, ⟨hcounted, hencoder, hcodes, hdecoder, hpatch⟩, hpoint⟩
    refine ⟨hcoherent, fun h => h.elim hcounted fun h => hpoint .countRead h, hencoder, hcodes,
      fun h => h.elim hdecoder ?_, fun b cur h => (hpoint (.unpackAhead b cur) h).2, hpatch,
      fun todo h => hpoint (.hdrPut todo) h⟩
    rintro ⟨p, hp, hstage⟩
    have hsound := hpoint p hp
    cases p with
    | hdrGet h => exact hsound
    | unpackFirst => exact hsound
    | unpackAhead b cur => exact hsound.1
    | unpackPut sym todo ahead => exact hsound
    | _ => rcases hstage with h | h <;> cases h

/-- The body of a stage meets no condition that cannot happen; where it is done or raises, the flags vouch for what they
say, and where it waits, the point is one to go on from. -/
def KeepsSound (st : Stage) (m : Flow Unit) : Prop :=
  m.All (fun _ t => Vouched (finishStage st t)) (fun p t => Vouched t ∧ PointSound p t)
    (fun _ t => Vouched (clearAtEnd st t)) fun _ => False

/-! ### COUNT (R150, R151) -/

theorem weightSum_eq_add (w : Table Word) (b : Byte) : weightSum w = (tget w b).toNat + weightSum (tset w b 0) := by
  by_cases hb : tget w b = 0
  · have hsame : tset w b 0 = w := table_ext fun x => by rw [tget_tset]; split <;> simp_all
    rw [hsame, hb]
    exact (Nat.zero_add _).symm
  · exact weightSum_tset_zero hb

theorem weightSum_zero : weightSum (Vector.replicate 256 0) = 0 :=
  weightSum_eq_zero (List.eq_nil_iff_forall_not_mem.mpr fun b hb => mem_weighted.mp hb (tget_replicate 0 b))

/-- One byte more adds one to the sum, as long as the entry does not go past a word's range. -/
theorem weightSum_succ {w : Table Word} {b : Byte} (h : (tget w b).toNat + 1 < 2 ^ 32) :
    weightSum (tset w b (tget w b + 1)) = weightSum w + 1 := by
  have hover : tset (tset w b (tget w b + 1)) b 0 = tset w b 0 := table_ext fun x => by
    rw [tget_tset, tget_tset, tget_tset]
    split <;> rfl
  rw [weightSum_eq_add (tset w b (tget w b + 1)) b, hover, tget_tset_self, BitVec.toNat_add,
    weightSum_eq_add w b, show (1 : Word).toNat = 1 from rfl, Nat.mod_eq_of_lt h]
  exact Nat.add_right_comm _ _ _

/-- COUNT between two reads: no flag holds, and the weights add up to TOTAL. -/
def Counting (s : State) : Prop := flagsWhile .count s ∧ weightSum s.w = s.total.toNat

theorem Counting.vouched {s : State} (h : Counting s) : Vouched s := by
  obtain ⟨⟨hfw, hft, hfc, hfh, hfd⟩, -⟩ := h
  exact ⟨by rw [hfw]; nofun, by rw [hft]; nofun, by rw [hfc]; nofun, by rw [hfd]; nofun, by rw [hfh]; nofun⟩

theorem Counting.tally {s : State} (h : Counting s) (b : Byte) (hmax : s.total ≠ Config.maxTotal) :
    Counting (tally b s) := by
  obtain ⟨hflags, hsum⟩ := h
  have hlt : s.total.toNat + 1 < 2 ^ 32 := by
    have hne : s.total.toNat ≠ 4294967295 := fun e => hmax (BitVec.eq_of_toNat_eq e)
    omega
  have hle : (tget s.w b).toNat ≤ weightSum s.w := by
    rw [weightSum_eq_add s.w b]
    exact Nat.le_add_right _ _
  refine ⟨hflags, ?_⟩
  rw [Machine.tally, weightSum_succ (by omega), hsum]
  exact (BitVec.toNat_add_of_lt (y := 1) hlt).symm

theorem countLoop_keepsSound (items : List SrcItem) {s : State} (h : Counting s) :
    KeepsSound .count (countLoop items s) := by
  refine countLoop_all (I := fun _ => Counting) (fun _ h => ⟨h.vouched, h.2⟩) (fun _ _ h => h.vouched)
    (fun rest t ⟨hflags, hsum⟩ => ?_) (fun _ _ _ h _ => h.vouched)
    (fun b rest t h hmax => Counting.tally (s := tookByte rest t) h b hmax) h
  obtain ⟨-, hft, hfc, hfh, hfd⟩ := hflags
  exact ⟨fun _ => hsum, fun ht => absurd (hft.symm.trans ht) nofun, fun ht => absurd (hfc.symm.trans ht) nofun,
    fun ht => absurd (hfd.symm.trans ht) nofun, fun ht => absurd (hfh.symm.trans ht) nofun⟩

/-! ### BUILD (R163 to R166) -/

theorem depth_le_of_full {t : Trie} {syms : List Byte} (hfull : t.full = true) (hsyms : t.symbols.Perm syms)
    (hnodup : syms.Nodup) : t.depth ≤ 255 := by
  have hle : syms.length ≤ 256 := symbols_length ▸ (hnodup.subperm fun b _ => mem_symbols b).length_le
  have := depth_lt_symbols_length hfull
  rw [hsyms.length_eq] at this
  omega

theorem buildBody_keepsSound {s : State} (hflags : flagsWhile .build s) (h : Vouched s) :
    KeepsSound .build (buildBody s) := by
  obtain ⟨hfw, -, hfc, hfh, hfd⟩ := hflags
  have hsum := h.1 hfw
  obtain ⟨arena, root, t, hbody, ⟨hheld, hfull, hnodes⟩, hsyms⟩ :=
    buildBody_tree (s := s) (by rw [hsum]; exact s.total.isLt)
  rw [hbody]
  refine ⟨fun _ => hsum, fun _ hroot => ?_, fun ht => absurd (hfc.symm.trans ht) nofun,
    fun ht => absurd (hfd.symm.trans ht) nofun, fun ht => absurd (hfh.symm.trans ht) nofun⟩
  have hne : t ≠ .none := by rintro rfl; cases hheld; exact hroot rfl
  have hfull := hfull.resolve_left hne
  exact ⟨t, hheld, hfull, hnodes, depth_le_of_full hfull hsyms (weighted_nodup _)⟩

/-! ### ASSIGN (R180 to R182) -/

theorem codesBounded_tset {ct : Table (Option Bits)} {s : Byte} {code : Bits} (h : CodesBounded ct)
    (hcode : 1 ≤ code.length ∧ code.length ≤ 255) : CodesBounded (tset ct s (some code)) := by
  intro b c hb
  rw [tget_tset] at hb
  split at hb
  · cases hb; exact hcode
  · exact h b c hb

theorem codesBounded_empty : CodesBounded (Vector.replicate 256 none) := by
  intro b c hb
  rw [tget_replicate] at hb
  cases hb

/-- The traversal of an encoder's tree ends, and the codes it writes have 1 to 255 bits where no queued leaf has the
empty code. -/
theorem assignLoop_bounded {arena : List Node} {n : Nat} {q : List Queued} {ct : Table (Option Bits)}
    (hq : ∀ e ∈ q, e.Ok arena) (hcode : ∀ e ∈ q, ∀ s, e.tree = .leaf s → e.code ≠ []) (hnodes : queueNodes q ≤ n)
    (hct : CodesBounded ct) : ∃ ct', assignLoop arena n (q.map Queued.entry) ct = .ok ct' ∧ CodesBounded ct' := by
  induction n generalizing q ct with
  | zero =>
    cases q with
    | nil => exact ⟨ct, rfl, hct⟩
    | cons e q =>
      have hpos := nodes_pos_of_full (hq e List.mem_cons_self).full
      rw [queueNodes_cons] at hnodes
      omega
  | succ n ih =>
    match q with
    | [] => exact ⟨ct, rfl, hct⟩
    | ⟨x, code, t⟩ :: q =>
      obtain ⟨hhead, htail⟩ := List.forall_mem_cons.mp hq
      obtain ⟨hcodeHead, hcodeTail⟩ := List.forall_mem_cons.mp hcode
      rw [queueNodes_cons] at hnodes
      cases t with
      | none => cases hhead.full
      | leaf s =>
        obtain ⟨wt, hx⟩ := isTrie_leaf hhead.held
        have hshort : code.length ≤ 255 := Nat.le_of_add_right_le hhead.short
        rw [Trie.nodes] at hnodes
        obtain ⟨ct', hloop, hbound⟩ := ih (ct := tset ct s (some code)) htail hcodeTail (by omega)
          (codesBounded_tset hct ⟨List.length_pos_of_ne_nil (hcodeHead s rfl), hshort⟩)
        exact ⟨ct', (assignLoop_leaf n _ ct hx hshort).trans hloop, hbound⟩
      | node l r =>
        obtain ⟨wt, y, z, hx, hchildren⟩ := hhead.children
        have hcodeChildren : ∀ e ∈ Queued.children y z code l r, ∀ s, e.tree = .leaf s → e.code ≠ [] := by
          simp [Queued.children]
        have hfewer : queueNodes (q ++ Queued.children y z code l r) ≤ n := by
          simp only [Trie.nodes] at hnodes
          simp only [queueNodes, List.map_append, List.sum_append, Queued.children, List.map_cons, List.map_nil,
            List.sum_cons, List.sum_nil] at hnodes ⊢
          omega
        obtain ⟨ct', hloop, hbound⟩ := ih (q := q ++ Queued.children y z code l r)
          (List.forall_mem_append.mpr ⟨htail, hchildren⟩) (List.forall_mem_append.mpr ⟨hcodeTail, hcodeChildren⟩)
          hfewer hct
        rw [List.map_append] at hloop
        exact ⟨ct', (assignLoop_inner n code _ ct hx).trans hloop, hbound⟩

theorem assignTable_bounded {s : State} (h : EncoderRoot s) :
    ∃ ct, assignTable s.arena s.root = .ok ct ∧ CodesBounded ct := by
  cases hroot : s.root with
  | none => exact ⟨_, rfl, codesBounded_empty⟩
  | some r =>
    obtain ⟨t, hheld, hfull, hnodes, hdepth⟩ := h (by rw [hroot]; nofun)
    rw [hroot] at hheld
    cases t with
    | none => cases hfull
    | leaf x =>
      obtain ⟨wt, hr⟩ := isTrie_leaf hheld
      exact ⟨tset (Vector.replicate 256 none) x (some [false]), by simp only [assignTable, hr],
        codesBounded_tset codesBounded_empty (by decide)⟩
    | node tl tr =>
      obtain ⟨wt, y, z, hr, -, -⟩ := isTrie_node hheld
      obtain ⟨ct, hloop, hbound⟩ := assignLoop_bounded (n := s.arena.length) (q := [⟨r, [], .node tl tr⟩])
        (List.forall_mem_singleton.mpr ⟨hheld, hfull, by simpa using hdepth⟩)
        (List.forall_mem_singleton.mpr nofun) (by simpa [queueNodes] using hnodes) codesBounded_empty
      refine ⟨ct, ?_, hbound⟩
      simp only [assignTable, hr]
      exact hloop

theorem assignBody_keepsSound {s : State} (hflags : flagsWhile .assign s) (h : Vouched s) :
    KeepsSound .assign (assignBody s) := by
  obtain ⟨hft, -, hfh⟩ := hflags
  obtain ⟨hcounted, hencoder, -, hdecoder, -⟩ := h
  obtain ⟨ct, htable, hbound⟩ := assignTable_bounded (hencoder hft)
  rw [assignBody, htable]
  exact ⟨hcounted, hencoder, fun _ => hbound, hdecoder, fun ht => absurd (hfh.symm.trans ht) nofun⟩

/-! ### WRITE_HDR (R190, R191) -/

/-- WRITE_HDR between two appends. -/
def HeaderWriting (todo : List Byte) (s : State) : Prop := s.fh = false ∧ Vouched s ∧ HeaderOpen todo s

/-- With no header open the flags vouch for nothing of the sink. -/
theorem Vouched.of_not_fh {s t : State} (h : Vouched s) (hfh : t.fh = false)
    (hsame : { s with fh := t.fh, snk := t.snk, snkNext := t.snkNext, snkPos := t.snkPos, objects := t.objects
                      payloadStart := t.payloadStart, headerEnd := t.headerEnd } = t) : Vouched t := by
  obtain ⟨hcounted, hencoder, hcodes, hdecoder, -⟩ := h
  have hpatch : t.fh = true → patchInside t = true := by rw [hfh]; nofun
  rw [← hsame] at hpatch ⊢
  exact ⟨hcounted, hencoder, hcodes, hdecoder, hpatch⟩

theorem HeaderOpen.appended {v : Byte} {todo : List Byte} {s : State} (h : HeaderOpen (v :: todo) s)
    (rest : List SnkAnswer) : HeaderOpen todo (appended v rest s) := by
  obtain ⟨hpos, hmin, hmax⟩ := h
  have hlen : (curObject (Machine.appended v rest s)).length = (curObject s).length + 1 := by simp
  rw [List.length_cons] at hmin hmax
  refine ⟨?_, by rw [hlen]; omega, by rw [hlen]; omega⟩
  have hlt : s.snkPos.toNat + 1 < 2 ^ 64 := by omega
  rw [hlen, ← hpos]
  exact BitVec.toNat_add_of_lt (y := 1) hlt

/-- At the end the patch is inside the object (R191, R213). -/
theorem HeaderOpen.patchInside {s t : State} (h : HeaderOpen [] s) (hobj : t.objects = s.objects)
    (hend : t.headerEnd = s.snkPos.extractLsb' 0 32) : patchInside t = true := by
  obtain ⟨hpos, hmin, hmax⟩ := h
  rw [List.length_nil, Nat.add_zero] at hmin hmax
  have hlen : curObject t = curObject s := congrArg (List.headD · []) hobj
  have hnat : t.headerEnd.toNat = (curObject s).length := by
    rw [hend, BitVec.extractLsb'_toNat, hpos, Nat.shiftRight_zero, Nat.mod_eq_of_lt (by omega)]
  refine (patchInside_iff t).mpr ⟨fun hzero => ?_, by rw [hlen, hnat]⟩
  rw [hzero] at hnat
  exact absurd hnat (Nat.ne_of_lt hmin)

theorem hdrPutLoop_keepsSound {todo : List Byte} {s : State} (h : HeaderWriting todo s) :
    KeepsSound .writeHdr (hdrPutLoop todo s) :=
  hdrPutLoop_all (I := HeaderWriting)
    (fun _ ⟨_, ⟨hcounted, hencoder, hcodes, hdecoder, _⟩, hopen⟩ =>
      ⟨hcounted, hencoder, hcodes, hdecoder, fun _ => hopen.patchInside rfl rfl⟩)
    (fun _ _ rest _ ⟨hfh, hvouched, hopen⟩ _ => ⟨hfh, hvouched.of_not_fh hfh rfl, hopen.appended rest⟩)
    (fun _ _ _ _ ⟨hfh, hvouched, _⟩ _ => hvouched.of_not_fh hfh rfl)
    (fun _ _ _ ⟨_, hvouched, hopen⟩ _ => ⟨hvouched, hopen⟩) h

/-! ### PACK (R210 to R213) -/

/-- PACK between two transactions: the flags vouch for what they say, and a header is open. -/
def Packing (s : State) : Prop := s.fh = true ∧ Vouched s

theorem Packing.appended {s : State} (h : Packing s) (v : Byte) (rest : List SnkAnswer) :
    Packing (appended v rest s) := by
  obtain ⟨hfh, hcounted, hencoder, hcodes, hdecoder, hpatch⟩ := h
  obtain ⟨hne, hle⟩ := (patchInside_iff s).mp (hpatch hfh)
  refine ⟨hfh, hcounted, hencoder, hcodes, hdecoder, fun _ => (patchInside_iff _).mpr ⟨hne, ?_⟩⟩
  rw [appended_curObject, List.length_append]
  exact Nat.le_add_right_of_le hle

/-- At PACK's end, success or error, no header is open. -/
theorem Packing.vouched_end {s : State} (h : Packing s) : Vouched (clearAtEnd .pack s) := by
  obtain ⟨-, hcounted, hencoder, hcodes, hdecoder, -⟩ := h
  exact ⟨hcounted, hencoder, hcodes, hdecoder, nofun⟩

theorem packBits_keepsPacking (todo : Bits) (acc : Byte) (held : Nat) {s : State} (h : Packing s) :
    (packBits todo acc held s).All (fun _ t => Packing t) (fun p t => Vouched t ∧ PointSound p t)
      (fun _ t => Vouched (clearAtEnd .pack t)) fun _ => False :=
  packBits_all (J := fun _ _ => Packing) (fun _ _ _ h => h) (fun _ _ _ _ h _ => h)
    (fun v _ _ _ rest _ h _ _ => h.appended v rest) (fun _ _ _ _ _ h _ => h.vouched_end)
    (fun _ _ _ _ _ h _ _ => ⟨h.2, trivial⟩) h

theorem packPatch_keepsSound {s : State} (h : Packing s) : KeepsSound .pack (packPatch s) := by
  refine snkPatch_all (fun rest _ => ?_) (fun _ _ => h.vouched_end) (fun _ => ⟨h.2, trivial⟩) fun hout => ?_
  · obtain ⟨-, hcounted, hencoder, hcodes, hdecoder, -⟩ := h
    exact ⟨hcounted, hencoder, hcodes, hdecoder, nofun⟩
  · obtain ⟨hfh, -, -, -, -, hpatch⟩ := h
    exact absurd (hout.symm.trans (hpatch hfh)) nofun

theorem packFlush_keepsSound (acc : Byte) (held : Nat) {s : State} (h : Packing s) :
    KeepsSound .pack (packFlush acc held s) :=
  all_bind (put_all (D := fun _ t => KeepsSound .pack (packPatch { t with lastBits := BitVec.ofNat 4 held }))
    (fun rest _ => packPatch_keepsSound (h.appended _ rest)) (fun _ _ => h.vouched_end) fun _ => ⟨h.2, trivial⟩)

theorem packEnd_keepsSound (acc : Byte) (held : Nat) {s : State} (h : Packing s) :
    KeepsSound .pack (packEnd acc held s) := by
  rw [packEnd]
  split
  · exact packFlush_keepsSound acc held h
  · exact packPatch_keepsSound (s := { s with lastBits := 8 }) h

theorem packLoop_keepsSound (items : List SrcItem) (acc : Byte) (held : Nat) {s : State} (h : Packing s) :
    KeepsSound .pack (packLoop items acc held s) :=
  packLoop_all (I := fun _ _ => Packing) (fun _ _ _ h => ⟨h.2, trivial⟩) (fun _ _ _ h => h.vouched_end)
    (fun rest acc held t h => packEnd_keepsSound acc held (s := tookFinal rest t) h) (fun _ _ _ _ h _ => h.vouched_end)
    (fun _ code rest acc held t h _ => packBits_keepsPacking code acc held (s := tookByte rest t) h) h

theorem packResume_keepsSound (acc : Byte) (todo : Bits) {s : State} (h : Packing s) :
    KeepsSound .pack (packResume acc todo s) := by
  refine all_bind (put_all (fun rest _ => all_bind ?_) (fun _ _ => h.vouched_end) fun _ => ⟨h.2, trivial⟩)
  exact all_mono (packBits_keepsPacking todo 0 0 (h.appended acc rest)) (fun _ _ => packLoop_keepsSound _ _ _)
    (fun _ _ => id) (fun _ _ => id) fun _ => id

/-! ### READ_HDR (R192 to R201) -/

/-- READ_HDR between two reads: neither tree flag holds, and the decoder's tree is linked within itself. -/
def HeaderReading (s : State) : Prop := flagsWhile .readHdr s ∧ Vouched s ∧ Linked s

theorem HeaderReading.with_arena {s : State} {arena : List Node} (h : HeaderReading s) (hlinks : LinksInRange arena)
    (hle : s.arena.length ≤ arena.length) : HeaderReading { s with arena := arena } := by
  obtain ⟨⟨hft, hfd⟩, ⟨hcounted, -, hcodes, -, hpatch⟩, -, r, hroot, hr⟩ := h
  exact ⟨⟨hft, hfd⟩, ⟨hcounted, fun ht => absurd (hft.symm.trans ht) nofun, hcodes,
    fun ht => absurd (hfd.symm.trans ht) nofun, hpatch⟩, hlinks, r, hroot, hr.trans_le hle⟩

/-- At READ_HDR's end with success the tree is the decoder's (R199, R201). -/
theorem HeaderReading.vouched_finish {s : State} (h : HeaderReading s) : Vouched (finishStage .readHdr s) := by
  obtain ⟨-, ⟨hcounted, hencoder, hcodes, -, hpatch⟩, hlinked⟩ := h
  exact ⟨hcounted, hencoder, hcodes, fun _ => hlinked, hpatch⟩

theorem recordRead_keepsReading {s : State} (h : HeaderReading s) (cnt left : Nat) (seen : List Byte) (sym len : Byte)
    (f : List Byte) :
    (recordRead cnt left seen sym len f s).All (fun _ t => HeaderReading t) (fun p t => Vouched t ∧ PointSound p t)
      (fun _ t => Vouched t) fun _ => False := by
  obtain ⟨-, -, hlinks, r₀, hroot, hr₀⟩ := id h
  obtain ⟨arena', hcases, hlinks', hle, -⟩ := insertCode_cases sym (codeOfField len f) hlinks hr₀
  have hr {r : Nat} (hr : s.root = some r) : r₀ = r := Option.some.inj (hroot.symm.trans hr)
  refine recordRead_all (fun hnone => absurd (hroot.symm.trans hnone) nofun) (fun r arena hsome hins => ?_)
    (fun r arena hsome hins => ?_) fun r e hsome hins => ?_
  all_goals
    obtain rfl := hr hsome
    rw [hins] at hcases
  · obtain rfl : arena = arena' := by simpa using hcases
    exact h.with_arena hlinks' hle
  · obtain rfl : arena = arena' := by simpa using hcases
    exact (h.with_arena hlinks' hle).2.1
  · simp at hcases

theorem hdrLoop_keepsSound (items : List SrcItem) (h : HdrAt) {s : State} (hs : HeaderReading s) :
    KeepsSound .readHdr (hdrLoop items h s) := by
  refine hdrLoop_all (I := fun _ _ => HeaderReading) (fun _ _ h => ⟨h.2.1, h.2.2⟩) (fun _ _ _ h => h.2.1)
    (fun _ _ _ h => h.2.1) (fun v rest h t ht => ?_) hs
  have ht : HeaderReading (tookByte rest t) := ht
  refine hdrByte_all ht.2.1 (fun _ _ => ht) (fun cnt left seen sym len f _ => ?_)
    fun _ _ _ => HeaderReading.vouched_finish ht
  refine all_mono (recordRead_keepsReading ht cnt left seen sym len f) (fun next u hu => ?_) (fun _ _ => id)
    (fun _ _ => id) fun _ => id
  cases next with
  | some h' => exact hu
  | none => exact hu.vouched_finish

/-! ### UNPACK (R215 to R218) -/

/-- UNPACK between two transactions, the walk standing at `cur`. -/
def Walking (root cur : Nat) (s : State) : Prop :=
  flagsWhile .unpack s ∧ Vouched s ∧ s.root = some root ∧ cur < s.arena.length

theorem Walking.linked {root cur : Nat} {s : State} (h : Walking root cur s) : Linked s := by
  obtain ⟨⟨hfd, -⟩, ⟨-, -, -, hdecoder, -⟩, -⟩ := h
  exact hdecoder hfd

theorem Walking.at_root {root cur : Nat} {s : State} (h : Walking root cur s) : Walking root root s := by
  obtain ⟨-, r, hr, hlt⟩ := h.linked
  obtain ⟨hflags, hvouched, hroot, -⟩ := h
  obtain rfl : root = r := Option.some.inj (hroot.symm.trans hr)
  exact ⟨hflags, hvouched, hroot, hlt⟩

theorem Walking.appended {root cur : Nat} {s : State} (h : Walking root cur s) (v : Byte) (rest : List SnkAnswer) :
    Walking root cur (appended v rest s) := by
  obtain ⟨⟨hfd, hfh⟩, hvouched, hrest⟩ := h
  exact ⟨⟨hfd, hfh⟩, hvouched.of_not_fh hfh rfl, hrest⟩

/-- At UNPACK's end, success or error, the decoder's tree is given up. -/
theorem Walking.vouched_end {root cur : Nat} {s : State} (h : Walking root cur s) : Vouched (clearAtEnd .unpack s) := by
  obtain ⟨-, ⟨hcounted, hencoder, hcodes, -, hpatch⟩, -⟩ := h
  exact ⟨hcounted, hencoder, hcodes, nofun, hpatch⟩

theorem walkBits_keepsWalking {root : Nat} (ahead : Option Byte) (bits : Bits) {cur : Nat} {s : State}
    (h : Walking root cur s) :
    (walkBits root ahead bits cur s).All (Walking root) (fun p t => Vouched t ∧ PointSound p t)
      (fun _ t => Vouched (clearAtEnd .unpack t)) fun _ => False := by
  refine walkBits_all (J := fun _ => Walking root) (fun _ _ h => h) (fun b bits cur t h hmissing => ?_)
    (fun _ _ _ _ h => h.vouched_end) (fun b bits cur x n wt l r t h hn hx hrec => ?_)
    (fun v _ _ _ rest _ h _ => h.at_root.appended v rest) (fun _ _ _ _ _ h _ => h.vouched_end)
    (fun _ _ _ _ _ h _ => ⟨h.2.1, h.linked⟩) h
  · have hlinks := h.linked.1
    obtain ⟨-, -, -, hcur⟩ := h
    rcases hmissing with hnone | ⟨n, x, hn, hx, hnone⟩
    · exact absurd (List.getElem?_eq_none_iff.mp hnone) (Nat.not_le.mpr hcur)
    · exact absurd (List.getElem?_eq_none_iff.mp hnone) (Nat.not_le.mpr (hlinks cur n b x hn hx))
  · have hlt := h.linked.1 cur n b x hn hx
    obtain ⟨hflags, hvouched, hroot, -⟩ := h
    exact ⟨hflags, hvouched, hroot, hlt⟩

theorem unpackEnd_keepsSound {root cur : Nat} {s : State} (h : Walking root cur s) :
    KeepsSound .unpack (unpackEnd root cur s) :=
  unpackEnd_all (fun _ => h.vouched_end) fun _ => h.vouched_end

theorem unpackLoop_keepsSound {root : Nat} (items : List SrcItem) (b : Byte) {cur : Nat} {s : State}
    (h : Walking root cur s) : KeepsSound .unpack (unpackLoop root items b cur s) :=
  unpackLoop_all (I := fun _ => Walking root) (fun _ _ _ h => ⟨h.2.1, h.linked, h.2.2.2⟩)
    (fun _ _ _ h => h.vouched_end)
    (fun rest _ _ t h => all_mono (walkBits_keepsWalking none _ (s := tookFinal rest t) h)
      (fun _ _ => unpackEnd_keepsSound) (fun _ _ => id) (fun _ _ => id) fun _ => id)
    (fun v rest _ _ t h => walkBits_keepsWalking (some v) _ (s := tookByte rest t) h) h

theorem unpackFirst_keepsSound {root : Nat} (items : List SrcItem) {s : State} (h : Walking root root s) :
    KeepsSound .unpack (unpackFirst root items s) := by
  match items with
  | [] => exact ⟨h.2.1, h.linked⟩
  | .fail :: rest => exact h.vouched_end
  | .eof :: rest => exact h.vouched_end
  | .byte v :: rest => exact unpackLoop_keepsSound rest v (s := tookByte rest s) h

theorem unpackResume_keepsSound {root : Nat} (sym : Byte) (todo : Bits) (ahead : Option Byte) {s : State}
    (h : Walking root root s) : KeepsSound .unpack (unpackResume root sym todo ahead s) := by
  refine all_bind (put_all (fun rest _ => all_bind ?_) (fun _ _ => h.vouched_end) fun _ => ⟨h.2.1, h.linked⟩)
  refine all_mono (walkBits_keepsWalking ahead todo (h.appended sym rest)) (fun cur t ht => ?_) (fun _ _ => id)
    (fun _ _ => id) fun _ => id
  cases ahead with
  | none => exact unpackEnd_keepsSound ht
  | some v => exact unpackLoop_keepsSound _ v ht

/-- A stage that goes on with the decoder's root has one. -/
theorem withRoot_keepsSound {s : State} {k : Nat → Flow Unit} (hlinked : Linked s)
    (hk : ∀ r, s.root = some r → r < s.arena.length → KeepsSound .unpack (k r)) :
    KeepsSound .unpack (withRoot s k) := by
  obtain ⟨-, r, hroot, hlt⟩ := hlinked
  refine withRoot_all (fun hnone => absurd (hroot.symm.trans hnone) nofun) fun r' hr' => hk r' hr' ?_
  rwa [← Option.some.inj (hroot.symm.trans hr')]

/-! ### The bodies -/

/-- The body of a stage, from its start. -/
theorem stageBody_keepsSound {st : Stage} {s : State} (hflags : flagsWhile st s) (h : Vouched s) :
    KeepsSound st (stageBody st s) := by
  cases st with
  | nop => exact h
  | count => exact countLoop_keepsSound _ ⟨hflags, weightSum_zero⟩
  | build => exact buildBody_keepsSound hflags h
  | assign => exact assignBody_keepsSound hflags h
  | writeHdr =>
    obtain ⟨hfc, hfh⟩ := hflags
    have hcodes : CodesBounded s.ct := h.2.2.1 hfc
    refine hdrPutLoop_keepsSound ⟨hfh, h.of_not_fh hfh rfl, rfl, ?_, ?_⟩
    · have := headerBytes_length s.ct
      change 1 ≤ 0 + (headerBytes s.ct).length
      omega
    · have := headerBytes_le hcodes
      change 0 + (headerBytes s.ct).length ≤ 8707
      omega
  | pack => exact packLoop_keepsSound _ _ _ ⟨hflags.1, h⟩
  | readHdr =>
    obtain ⟨hft, hfd⟩ := hflags
    obtain ⟨hcounted, -, hcodes, -, hpatch⟩ := h
    have hlinks : LinksInRange [emptyNode] := by
      intro i n b j hi hc
      rw [List.getElem?_singleton] at hi
      split at hi
      · cases hi; cases b <;> cases hc
      · cases hi
    exact hdrLoop_keepsSound _ _ ⟨⟨hft, hfd⟩, ⟨hcounted, fun ht => absurd (hft.symm.trans ht) nofun, hcodes,
      fun ht => absurd (hfd.symm.trans ht) nofun, hpatch⟩, hlinks, 0, rfl, Nat.zero_lt_one⟩
  | unpack =>
    obtain ⟨hfd, hfh⟩ := hflags
    have hopen : Vouched (snkOpen s) := h.of_not_fh hfh rfl
    simp only [stageBody, unpackBody]
    split
    · obtain ⟨hcounted, hencoder, hcodes, -, hpatch⟩ := hopen
      exact ⟨hcounted, hencoder, hcodes, nofun, hpatch⟩
    · exact withRoot_keepsSound (s := snkOpen s) (h.2.2.2.1 hfd) fun r hr hlt =>
        unpackFirst_keepsSound _ ⟨⟨hfd, hfh⟩, hopen, hr, hlt⟩

/-- The body of a stage, from the point it waits at. -/
theorem resumeBody_keepsSound {p : Point} {s : State} (hflags : flagsWhile p.stage s) (h : Vouched s)
    (hp : PointSound p s) : KeepsSound p.stage (resumeBody p s) := by
  cases p with
  | countRead => exact countLoop_keepsSound _ ⟨hflags, hp⟩
  | hdrPut todo => exact hdrPutLoop_keepsSound ⟨hflags.2, h, hp⟩
  | hdrGet at_ => exact hdrLoop_keepsSound _ _ ⟨hflags, h, hp⟩
  | packRead acc held => exact packLoop_keepsSound _ _ _ ⟨hflags.1, h⟩
  | packByte acc todo => exact packResume_keepsSound _ _ ⟨hflags.1, h⟩
  | packFlush acc held => exact packFlush_keepsSound _ _ ⟨hflags.1, h⟩
  | packPatch => exact packPatch_keepsSound ⟨hflags.1, h⟩
  | unpackFirst => exact withRoot_keepsSound hp fun r hr hlt => unpackFirst_keepsSound _ ⟨hflags, h, hr, hlt⟩
  | unpackAhead b cur =>
    exact withRoot_keepsSound hp.1 fun r hr _ => unpackLoop_keepsSound _ b ⟨hflags, h, hr, hp.2⟩
  | unpackPut sym todo ahead =>
    exact withRoot_keepsSound hp fun r hr hlt => unpackResume_keepsSound sym todo ahead ⟨hflags, h, hr, hlt⟩

/-! ### The runs -/

section
variable {i : Instr} {st : Stage} {s t : State}

theorem sound_of_ended (hcoherent : Coherent t) (h : Vouched t) (hrun : t.run = .idle) : Sound t :=
  sound_iff.mpr ⟨hcoherent, h, fun p hp => by rw [hrun] at hp; cases hp⟩

/-- No precondition, invalidation or OP makes the flags vouch for more (R135). -/
theorem Vouched.started (h : Vouched s) : Vouched (started st s) := by
  obtain ⟨hcounted, hencoder, hcodes, hdecoder, hpatch⟩ := h
  cases st with
  | nop => exact ⟨hcounted, hencoder, hcodes, hdecoder, hpatch⟩
  | count => exact ⟨nofun, nofun, nofun, nofun, nofun⟩
  | build => exact ⟨hcounted, nofun, nofun, nofun, nofun⟩
  | assign => exact ⟨hcounted, hencoder, nofun, hdecoder, nofun⟩
  | writeHdr => exact ⟨hcounted, hencoder, hcodes, hdecoder, nofun⟩
  | pack => exact ⟨hcounted, hencoder, hcodes, nofun, hpatch⟩
  | readHdr => exact ⟨hcounted, nofun, hcodes, nofun, hpatch⟩
  | unpack => exact ⟨hcounted, hencoder, hcodes, hdecoder, nofun⟩

theorem Vouched.clearAtEnd (h : Vouched s) : Vouched (clearAtEnd st s) := by
  obtain ⟨hcounted, hencoder, hcodes, hdecoder, hpatch⟩ := h
  cases st with
  | pack => exact ⟨hcounted, hencoder, hcodes, hdecoder, nofun⟩
  | unpack => exact ⟨hcounted, hencoder, hcodes, nofun, hpatch⟩
  | _ => exact ⟨hcounted, hencoder, hcodes, hdecoder, hpatch⟩

theorem settle_sound {rest : List Stage} {m : Flow Unit} (hm : KeepsStage i st m) (hsound : KeepsSound st m)
    (hrest : (st :: rest) <:+ stagesOf i)
    (hnext : ∀ u, Running i u → Vouched u → ∃ t, performAll rest u = .next t ∧ Sound t) :
    ∃ t, settle st rest (performAll rest) m = .next t ∧ Sound t := by
  cases m with
  | done a u => exact hnext _ (InStage.running_finishStage hm) hsound
  | wait p u =>
    obtain ⟨hst, hp, hin⟩ := hm
    obtain ⟨hvouched, hpoint⟩ := hsound
    refine ⟨_, rfl, sound_iff.mpr ⟨hin.coherent_waiting hst hp hrest, hvouched, fun q hq => ?_⟩⟩
    cases hq
    cases p <;> exact hpoint
  | raise e u =>
    have hin : InStage i st u := hm
    exact ⟨_, rfl, sound_of_ended (coherent_raiseError e hin.order hin.range) hsound rfl⟩
  | fault f => exact absurd hsound id

theorem performAll_sound {stages : List Stage} (hs : Running i s) (hvouched : Vouched s)
    (hsuffix : stages <:+ stagesOf i) : ∃ t, performAll stages s = .next t ∧ Sound t := by
  induction stages generalizing s with
  | nil => exact ⟨_, rfl, sound_of_ended hs.coherent_endRun hvouched rfl⟩
  | cons st rest ih =>
    rw [performAll]
    cases hpre : pre st s with
    | false =>
      rw [performStage_not_pre hpre, settle_raise]
      exact ⟨_, rfl, sound_of_ended (coherent_raiseError _ (hs.with_curOp _).order hs.range)
        (Vouched.clearAtEnd (s := { s with curOp := st.op }) hvouched) rfl⟩
    | true =>
      rw [performStage_pre hpre]
      have hin := hs.inStage_started hpre
      exact settle_sound (stageBody_keepsStage hin) (stageBody_keepsSound hin.flags hvouched.started) hsuffix
        fun u hu hv => ih hu hv ((List.suffix_cons st rest).trans hsuffix)

theorem exec_sound (hs : Running i s) (hvouched : Vouched s) : ∃ t, exec i s = .next t ∧ Sound t := by
  rw [exec_eq_performAll]
  exact performAll_sound (hs.with_curOp _) hvouched List.suffix_rfl

theorem engineTurn_sound (hs : Sound s) : ∃ t, engineTurn s = .next t ∧ Sound t := by
  obtain ⟨hcoherent, hvouched, hpoint⟩ := sound_iff.mp hs
  cases hrun : s.run with
  | idle => exact ⟨s, engineTurn_of_idle hrun, hs⟩
  | accepted =>
    have hclear := hcoherent.busyClear (by rw [State.busy, hrun]; rfl)
    cases hdec : decode s.cmd with
    | illegal why =>
      exact ⟨_, engineTurn_of_illegal hrun hdec,
        sound_of_ended (coherent_recordError _ hcoherent.order hcoherent.range) hvouched rfl⟩
    | command i =>
      rw [engineTurn_of_command hrun hdec]
      exact exec_sound ⟨hcoherent.order, hcoherent.range, hclear, hdec⟩ hvouched
  | waiting st p rest =>
    have hclear := hcoherent.busyClear (by rw [State.busy, hrun]; rfl)
    obtain ⟨rfl, hp, hflags, hop, i, hdec, hrest⟩ := hcoherent.waiting st p rest hrun
    have hin : InStage i p.stage s := ⟨⟨hcoherent.order, hcoherent.range, hclear, hdec⟩, hflags, hop⟩
    rw [engineTurn_of_waiting hrun]
    have hwaits := hpoint p (by rw [hrun]; rfl)
    exact settle_sound (resumeBody_keepsStage hp hin) (resumeBody_keepsSound hin.flags hvouched hwaits) hrest
      fun u hu hv => performAll_sound hu hv ((List.suffix_cons _ rest).trans hrest)

/-! ### The moves of the host and the platform -/

/-- The fields of which the tables' side of `Sound` speaks. -/
def tableSide (s : State) : State :=
  { State.reset with
    fw := s.fw, ft := s.ft, fc := s.fc, fh := s.fh, fd := s.fd, w := s.w, total := s.total, arena := s.arena
    root := s.root, ct := s.ct, headerEnd := s.headerEnd, objects := s.objects, snkPos := s.snkPos }

theorem Vouched.congr (h : Vouched s) (ht : tableSide t = tableSide s) : Vouched t := by
  have hs : Vouched (tableSide s) := h
  rw [← ht] at hs
  exact hs

theorem PointSound.congr {p : Point} (h : PointSound p s) (ht : tableSide t = tableSide s) : PointSound p t := by
  have hs : PointSound p (tableSide s) := by cases p <;> exact h
  rw [← ht] at hs
  cases p <;> exact hs

/-- A move that leaves the tables' side, and leaves the run where it waits or ends the waiting. -/
theorem Sound.congr (h : Sound s) (hcoherent : Coherent t) (ht : tableSide t = tableSide s)
    (hrun : ∀ p, t.run.point = some p → s.run.point = some p) : Sound t := by
  obtain ⟨-, hvouched, hpoint⟩ := sound_iff.mp h
  exact sound_iff.mpr ⟨hcoherent, hvouched.congr ht, fun p hp => (hpoint p (hrun p hp)).congr ht⟩

theorem vouched_reset : Vouched State.reset := ⟨nofun, nofun, nofun, nofun, nofun⟩

theorem sound_applyReset (s : State) : Sound (applyReset s) :=
  sound_of_ended (Coherent.applyReset s) ⟨nofun, nofun, nofun, nofun, nofun⟩ rfl

theorem regWrite_sound (h : Sound s) (i : BitVec 6) (v : Word) : Sound (regWrite i v s) := by
  have hcoherent := h.coherent.regWrite i v
  rcases regWrite_cases i v s with hw | ⟨-, hw⟩ | ⟨-, hw⟩ | ⟨-, hw⟩ | ⟨-, hw⟩ <;> rw [hw] at hcoherent ⊢
  · exact h
  · cases hbit : v.getLsbD 0 with
    | true => rw [writeCtrl_reset hbit]; exact sound_applyReset s
    | false =>
      rw [writeCtrl_enables hbit] at hcoherent ⊢
      exact h.congr hcoherent rfl fun _ => id
  · rw [writeCmd] at hcoherent ⊢
    split at hcoherent
    case isTrue hbusy => rw [if_pos hbusy]; exact h.congr hcoherent rfl fun _ => id
    case isFalse hidle => rw [if_neg hidle]; exact h.congr hcoherent rfl nofun
  · exact h.congr hcoherent rfl fun _ => id
  · exact h.congr hcoherent rfl fun _ => id

theorem deliverItem_sound (h : Sound s) (it : SrcItem) : Sound (deliverItem it s) := by
  rw [deliverItem]
  split <;> exact h.congr (h.coherent.congr rfl) rfl fun _ => id

theorem deliverAnswer_sound (h : Sound s) (a : SnkAnswer) : Sound (deliverAnswer a s) := by
  rw [deliverAnswer]
  split <;> exact h.congr (h.coherent.congr rfl) rfl fun _ => id

theorem applyEvent_sound (h : Sound s) (e : Event) : ∃ t, applyEvent e s = .next t ∧ Sound t := by
  cases e with
  | engine => exact engineTurn_sound h
  | hostRead i => exact ⟨_, rfl, h.congr (h.coherent.congr rfl) rfl fun _ => id⟩
  | hostWrite i v => exact ⟨_, rfl, regWrite_sound h i v⟩
  | rst => exact ⟨_, rfl, sound_applyReset s⟩
  | srcSession items => exact ⟨_, rfl, h.congr (h.coherent.congr rfl) rfl fun _ => id⟩
  | srcItem it => exact ⟨_, rfl, deliverItem_sound h it⟩
  | snkSession answers => exact ⟨_, rfl, h.congr (h.coherent.congr rfl) rfl fun _ => id⟩
  | snkAnswer a => exact ⟨_, rfl, deliverAnswer_sound h a⟩

end

end Sys2Proof.Machine

/-! ### The obligations -/

namespace Sys2Proof.Proofs

open Sys2Proof.Machine

/-- Settles O57: no flag holds at reset, and nothing runs. -/
theorem resetIsSound : Obligations.ResetIsSound := by
  unfold Obligations.ResetIsSound
  exact sound_of_ended coherent_reset vouched_reset rfl

/-- Settles O56: what the flags vouch for rules out each fault in the body that could meet it, and each body keeps it.
-/
theorem stepKeepsSound : Obligations.StepKeepsSound := by
  unfold Obligations.StepKeepsSound
  intro s hs
  rcases step_cases s with ⟨-, hstep⟩ | ⟨e, rest, -, hstep⟩
  · rw [hstep]
    exact engineTurn_sound hs
  · rw [hstep]
    exact applyEvent_sound (s := { s with script := rest }) (hs.congr (hs.coherent.congr rfl) rfl fun _ => id) e

end Sys2Proof.Proofs
end

section
/-! PROOFS. Runs with every answer ready (40_command_control.md R140, 70_reset_and_hazards.md R282): how many sink
answers the body of each stage takes at most, and that no run waits. -/

set_option autoImplicit false

namespace Sys2Proof.Machine

/-- The piece does not wait, and what it is done with has the property. -/
def EndsWith {α : Type} (D : α → State → Prop) (m : Flow α) : Prop :=
  m.All D (fun _ _ => False) (fun _ _ => True) fun _ => True

/-- The current sink session has at least `n` answers ready. -/
def Enough (n : Nat) (s : State) : Prop := ∃ l, s.snk = some l ∧ n ≤ l.length

section
variable {s : State} {n : Nat}

theorem Enough.mono {m : Nat} (h : Enough n s) (hle : m ≤ n) : Enough m s := by
  obtain ⟨l, hsnk, hlen⟩ := h
  exact ⟨l, hsnk, hle.trans hlen⟩

/-- One answer of those ready is taken. -/
theorem Enough.taken {a : SnkAnswer} {rest : List SnkAnswer} (h : Enough (n + 1) s) (hsnk : s.snk = some (a :: rest)) :
    n ≤ rest.length := by
  obtain ⟨l, hl, hlen⟩ := h
  rw [hsnk, Option.some.injEq] at hl
  rw [← hl, List.length_cons] at hlen
  omega

theorem Enough.not_waiting (h : Enough (n + 1) s) : ¬ (s.snk = none ∨ s.snk = some []) := by
  obtain ⟨l, hl, hlen⟩ := h
  rw [hl]
  rintro (h | h)
  · cases h
  · cases h
    cases hlen

theorem put_endsWith {D : Unit → State → Prop} {v : Byte} {p : Point} (h : Enough (n + 1) s)
    (hok : ∀ rest, n ≤ rest.length → D () (appended v rest s)) : EndsWith D (put v p s) :=
  put_all (fun rest hsnk => hok rest (h.taken hsnk)) (fun _ _ => trivial) h.not_waiting

/-! ### The encoder's stages -/

theorem countLoop_endsWith {items : List SrcItem} (h : completeSession items = true) {more : List (List SrcItem)}
    (hmore : s.srcNext = more) : EndsWith (fun _ t => t.srcNext = more) (countLoop items s) :=
  countLoop_all (I := fun items t => completeSession items = true ∧ t.srcNext = more) (fun _ h => nomatch h.1)
    (fun _ _ _ => trivial) (fun _ _ h => h.2) (fun _ _ _ _ _ => trivial) (fun _ _ _ h _ => h) ⟨h, hmore⟩

theorem countBody_endsWith {l : List SrcItem} {more : List (List SrcItem)} (hsrc : s.srcNext = l :: more)
    (h : completeSession l = true) : EndsWith (fun _ t => t.srcNext = more) (countBody s) := by
  rw [countBody]
  exact countLoop_endsWith (by simpa [srcItems, hsrc] using h) (by simp [hsrc])

theorem buildBody_endsWith : EndsWith (fun _ _ => True) (buildBody s) :=
  buildBody_all (fun _ _ => trivial) (fun _ _ => trivial) fun _ _ _ _ => trivial

theorem assignBody_endsWith : EndsWith (fun _ _ => True) (assignBody s) :=
  assignBody_all (fun _ _ => trivial) fun _ _ => trivial

theorem hdrPutLoop_endsWith {todo : List Byte} (h : Enough (n + todo.length) s) :
    EndsWith (fun _ => Enough n) (hdrPutLoop todo s) :=
  hdrPutLoop_all (I := fun todo => Enough (n + todo.length)) (fun _ h => h)
    (fun _ _ rest _ h hsnk => ⟨rest, rfl, h.taken hsnk⟩) (fun _ _ _ _ _ _ => trivial)
    (fun _ _ _ h hwait => h.not_waiting hwait) h

theorem writeHdrBody_endsWith {l : List SnkAnswer} {more : List (List SnkAnswer)} (hcodes : CodesBounded s.ct)
    (hsnk : s.snkNext = l :: more) (hlen : n + 8707 ≤ l.length) : EndsWith (fun _ => Enough n) (writeHdrBody s) := by
  have hheader := headerBytes_le hcodes
  exact hdrPutLoop_endsWith ⟨l, by simp [hsnk], by omega⟩

/-- The bits of a code, with `held` bits before them, take one answer for each eight. -/
theorem packBits_endsWith {ct : Table (Option Bits)} {todo : Bits} (acc : Byte) {held : Nat} (hct : s.ct = ct)
    (hheld : held < 8) (h : Enough (n + (held + todo.length) / 8) s) :
    EndsWith (fun ah t => t.ct = ct ∧ ah.2 < 8 ∧ Enough n t) (packBits todo acc held s) := by
  refine packBits_all (J := fun todo held t => t.ct = ct ∧ held < 8 ∧ Enough (n + (held + todo.length) / 8) t)
    (fun _ held t ⟨hct, hheld, h⟩ => ⟨hct, hheld, h.mono (Nat.le_add_right _ _)⟩)
    (fun b todo held t ⟨hct, hheld, h⟩ hne => ⟨hct, by omega, h.mono (by rw [List.length_cons]; omega)⟩)
    (fun v b todo held rest t ⟨hct, hheld, h⟩ hfull hsnk => ⟨hct, by decide, rest, rfl, ?_⟩)
    (fun _ _ _ _ _ _ _ => trivial) (fun acc b todo held t ⟨hct, hheld, h⟩ hfull hwait => ?_) ⟨hct, hheld, h⟩
  · exact (h.mono (m := n + (0 + todo.length) / 8 + 1) (by rw [List.length_cons]; omega)).taken hsnk
  · exact (h.mono (m := n + (0 + todo.length) / 8 + 1) (by rw [List.length_cons]; omega)).not_waiting hwait

theorem packPatch_endsWith (h : Enough 1 s) : EndsWith (fun _ _ => True) (packPatch s) :=
  snkPatch_all (fun _ _ => trivial) (fun _ _ => trivial) (Enough.not_waiting (n := 0) h) fun _ => trivial

theorem packEnd_endsWith (acc : Byte) (held : Nat) (h : Enough 2 s) :
    EndsWith (fun _ _ => True) (packEnd acc held s) := by
  rw [packEnd]
  split
  · exact all_bind (put_endsWith (n := 1) h fun rest hrest => packPatch_endsWith ⟨rest, rfl, hrest⟩)
  · exact packPatch_endsWith (s := { s with lastBits := 8 }) (h.mono (by decide))

/-- Each byte of the second pass takes at most 32 answers, and the end two. -/
theorem packLoop_endsWith {ct : Table (Option Bits)} {items : List SrcItem} (acc : Byte) (hcodes : CodesBounded ct)
    (hct : s.ct = ct) (hitems : completeSession items = true) (h : Enough (1 + 32 * items.length) s) :
    EndsWith (fun _ _ => True) (packLoop items acc 0 s) := by
  refine packLoop_all
    (I := fun items held t => completeSession items = true ∧ t.ct = ct ∧ held < 8 ∧ Enough (1 + 32 * items.length) t)
    (fun _ _ _ h => nomatch h.1) (fun _ _ _ _ => trivial)
    (fun rest acc held t ⟨_, _, _, h⟩ => packEnd_endsWith (s := tookFinal rest t) acc held
      (h.mono (by rw [List.length_cons]; omega)))
    (fun _ _ _ _ _ _ => trivial) (fun v code rest acc held t ⟨hitems, hct, hheld, h⟩ hv => ?_)
    ⟨hitems, hct, by decide, h⟩
  have hlen := (hcodes v code (hct ▸ hv)).2
  have hbits : Enough (1 + 32 * rest.length + (held + code.length) / 8) t :=
    h.mono (by rw [List.length_cons]; omega)
  exact all_mono (packBits_endsWith (s := tookByte rest t) acc hct hheld hbits)
    (fun _ _ ⟨hct, hheld, h⟩ => ⟨hitems, hct, hheld, h⟩) (fun _ _ => id) (fun _ _ => id) fun _ => id

theorem packBody_endsWith {l : List SrcItem} {more : List (List SrcItem)} (hcodes : CodesBounded s.ct)
    (hsrc : s.srcNext = l :: more) (hl : completeSession l = true) (h : Enough (1 + 32 * l.length) s) :
    EndsWith (fun _ _ => True) (packBody s) := by
  have hitems : srcItems (srcOpen { s with lastBits := 0 }) = l := by simp [srcItems, hsrc]
  rw [packBody, hitems]
  exact packLoop_endsWith 0 hcodes rfl hl h

/-! ### The decoder's stages -/

/-- READ_HDR ends within its session, and leaves a complete rest of it. -/
theorem hdrLoop_endsWith {items : List SrcItem} (h : HdrAt) (hitems : completeSession items = true)
    (hlen : items.length ≤ n) :
    EndsWith (fun _ t => ∃ l, t.src = some l ∧ completeSession l = true ∧ l.length ≤ n) (hdrLoop items h s) := by
  refine hdrLoop_all (I := fun items _ _ => completeSession items = true ∧ items.length ≤ n) (fun _ _ h => nomatch h.1)
    (fun _ _ _ _ => trivial) (fun _ _ _ _ => trivial) (fun v rest h t ⟨hitems, hlen⟩ => ?_) ⟨hitems, hlen⟩
  have hrest : completeSession rest = true ∧ rest.length ≤ n := ⟨hitems, Nat.le_of_succ_le hlen⟩
  exact hdrByte_all trivial (fun _ _ => hrest)
    (fun _ _ _ _ _ _ _ => recordRead_all (fun _ => trivial) (fun _ _ _ _ => hrest) (fun _ _ _ _ => trivial)
      fun _ _ _ _ => trivial)
    fun _ _ _ => ⟨rest, rfl, hrest⟩

theorem readHdrBody_endsWith {l : List SrcItem} {more : List (List SrcItem)} (hsrc : s.srcNext = l :: more)
    (hl : completeSession l = true) :
    EndsWith (fun _ t => ∃ l', t.src = some l' ∧ completeSession l' = true ∧ l'.length ≤ l.length) (readHdrBody s) := by
  rw [readHdrBody]
  exact hdrLoop_endsWith _ (by simpa [srcItems, hsrc] using hl) (by simp [srcItems, hsrc])

theorem walkBits_endsWith {root : Nat} (ahead : Option Byte) {bits : Bits} (cur : Nat)
    (h : Enough (n + bits.length) s) :
    EndsWith (fun _ => Enough n) (walkBits root ahead bits cur s) :=
  walkBits_all (J := fun bits _ => Enough (n + bits.length)) (fun _ _ h => h) (fun _ _ _ _ _ _ => trivial)
    (fun _ _ _ _ _ => trivial) (fun _ _ _ _ _ _ _ _ _ h _ _ _ => h.mono (by rw [List.length_cons]; omega))
    (fun _ _ _ _ rest _ h hsnk => ⟨rest, rfl, h.taken hsnk⟩) (fun _ _ _ _ _ _ _ => trivial)
    (fun _ _ _ _ _ h hwait => h.not_waiting hwait) h

/-- Each byte of the payload takes at most eight answers. -/
theorem unpackLoop_endsWith {root : Nat} {items : List SrcItem} (b : Byte) (cur : Nat)
    (hitems : completeSession items = true) (h : Enough (8 * items.length) s) :
    EndsWith (fun _ _ => True) (unpackLoop root items b cur s) := by
  refine unpackLoop_all (I := fun items _ t => completeSession items = true ∧ Enough (8 * items.length) t)
    (fun _ _ _ h => nomatch h.1) (fun _ _ _ _ => trivial) (fun rest b cur t ⟨_, h⟩ => ?_)
    (fun v rest b cur t ⟨hitems, h⟩ => ?_) ⟨hitems, h⟩
  · have hbits : Enough (0 + ((byteBits b).take t.lastBits.toNat).length) t :=
      h.mono (by rw [List.length_take, byteBits_length, List.length_cons]; omega)
    exact all_mono (walkBits_endsWith (s := tookFinal rest t) none cur hbits)
      (fun _ _ _ => unpackEnd_all (fun _ => trivial) fun _ => trivial) (fun _ _ => id) (fun _ _ => id) fun _ => id
  · have hbits : Enough (8 * rest.length + (byteBits b).length) t :=
      h.mono (by rw [byteBits_length, List.length_cons]; omega)
    exact all_mono (walkBits_endsWith (s := tookByte rest t) (some v) cur hbits) (fun _ _ h => ⟨hitems, h⟩)
      (fun _ _ => id) (fun _ _ => id) fun _ => id

theorem unpackBody_endsWith {l : List SrcItem} {answers : List SnkAnswer} {more : List (List SnkAnswer)}
    (hsrc : s.src = some l) (hl : completeSession l = true) (hsnk : s.snkNext = answers :: more)
    (hlen : 8 * l.length ≤ answers.length) : EndsWith (fun _ _ => True) (unpackBody s) := by
  have henough : Enough (8 * l.length) (snkOpen s) := ⟨answers, by simp [hsnk], hlen⟩
  simp only [unpackBody]
  split
  · trivial
  · refine withRoot_all (fun _ => trivial) fun r _ => ?_
    rw [srcItems, snkOpen_src, hsrc, Option.getD_some]
    match l, hl with
    | .fail :: rest, _ => trivial
    | .eof :: rest, _ => trivial
    | .byte v :: rest, hl =>
      exact unpackLoop_endsWith (s := tookByte rest (snkOpen s)) v r hl
        (henough.mono (by rw [List.length_cons]; omega))

end

/-! ### The runs -/

/-- A run that ends: it answers a next state, which is idle. -/
def RunEnds (o : Host.Outcome State Fault Refusal) : Prop := ∃ t, o = .next t ∧ t.busy = false

/-- A run ends when its first stage does not wait, and the run of the others ends. -/
theorem performAll_ends {st : Stage} {rest : List Stage} {s : State} {D : State → Prop} (horder : FlagOrder s)
    (hvouched : Vouched s) (hbody : pre st s = true → EndsWith (fun _ => D) (stageBody st (started st s)))
    (hrest : ∀ t, D t → outside st t = outside st (portsOpened st (started st s)) → FlagOrder (finishStage st t) →
      Vouched (finishStage st t) → RunEnds (performAll rest (finishStage st t))) :
    RunEnds (performAll (st :: rest) s) := by
  rw [performAll]
  cases hpre : pre st s with
  | false =>
    rw [performStage_not_pre hpre]
    exact ⟨_, rfl, rfl⟩
  | true =>
    obtain ⟨horder, hflags⟩ := horder.started hpre
    have hopened : FlagOrder (portsOpened st (started st s)) ∧ flagsWhile st (portsOpened st (started st s)) := by
      obtain ⟨h1, h2, h3, h4⟩ := horder
      cases st <;> exact ⟨⟨h1, h2, h3, h4⟩, hflags⟩
    have hends := hbody hpre
    have hsound := stageBody_keepsSound hflags hvouched.started
    have hframe := stageBody_framed st (started st s)
    rw [performStage_pre hpre, ← started]
    cases hm : stageBody st (started st s) with
    | done a t =>
      rw [hm] at hends hsound hframe
      obtain ⟨horder, hflags⟩ := flags_of_outside hopened.1 hopened.2 hframe
      exact hrest t hends hframe (horder.finishStage hflags) hsound
    | wait p t => rw [hm] at hends; exact hends.elim
    | raise e t => exact ⟨_, rfl, rfl⟩
    | fault f => rw [hm] at hsound; exact hsound.elim

theorem performAll_nil_ends (s : State) : RunEnds (performAll [] s) := ⟨_, rfl, rfl⟩

/-- A single stage whose body does not wait. -/
theorem performAll_single_ends {st : Stage} {s : State} (horder : FlagOrder s) (hvouched : Vouched s)
    (hbody : pre st s = true → EndsWith (fun _ _ => True) (stageBody st (started st s))) :
    RunEnds (performAll [st] s) :=
  performAll_ends (D := fun _ => True) horder hvouched hbody fun _ _ _ _ _ => performAll_nil_ends _

theorem EndsWith.weaken {D : Unit → State → Prop} {m : Flow Unit} (h : EndsWith D m) : EndsWith (fun _ _ => True) m :=
  all_mono h (fun _ _ _ => trivial) (fun _ _ => id) (fun _ _ => id) fun _ => id

section
variable {s : State} {l₁ l₂ : List SrcItem} {more : List (List SrcItem)} {answers : List SnkAnswer}
  {snks : List (List SnkAnswer)}

/-- COMPRESS with both its source sessions complete and a sink session with enough answers (R230). -/
theorem compress_ends (horder : FlagOrder s) (hvouched : Vouched s) (hsrc : s.srcNext = l₁ :: l₂ :: more)
    (hl₁ : completeSession l₁ = true) (hl₂ : completeSession l₂ = true) (hsnk : s.snkNext = answers :: snks)
    (hlen : 1 + 32 * l₂.length + 8707 ≤ answers.length) : RunEnds (performAll compressStages s) := by
  refine performAll_ends (D := fun t => t.srcNext = l₂ :: more) horder hvouched
    (fun _ => countBody_endsWith (s := started .count s) hsrc hl₁) fun s₁ hsrc₁ hframe₁ horder₁ hvouched₁ => ?_
  have hsnk₁ : s₁.snkNext = answers :: snks := (congrArg State.snkNext hframe₁).trans hsnk
  refine performAll_ends (D := fun _ => True) horder₁ hvouched₁ (fun _ => buildBody_endsWith)
    fun s₂ _ hframe₂ horder₂ hvouched₂ => ?_
  have hsrc₂ : s₂.srcNext = l₂ :: more := (congrArg State.srcNext hframe₂).trans hsrc₁
  have hsnk₂ : s₂.snkNext = answers :: snks := (congrArg State.snkNext hframe₂).trans hsnk₁
  refine performAll_ends (D := fun _ => True) horder₂ hvouched₂ (fun _ => assignBody_endsWith)
    fun s₃ _ hframe₃ horder₃ hvouched₃ => ?_
  have hsrc₃ : s₃.srcNext = l₂ :: more := (congrArg State.srcNext hframe₃).trans hsrc₂
  have hsnk₃ : s₃.snkNext = answers :: snks := (congrArg State.snkNext hframe₃).trans hsnk₂
  refine performAll_ends (D := Enough (1 + 32 * l₂.length)) horder₃ hvouched₃
    (fun hfc => writeHdrBody_endsWith (s := started .writeHdr (finishStage .assign s₃))
      (hvouched₃.2.2.1 hfc) hsnk₃ hlen)
    fun s₄ henough hframe₄ horder₄ hvouched₄ => ?_
  have hsrc₄ : s₄.srcNext = l₂ :: more := (congrArg State.srcNext hframe₄).trans hsrc₃
  refine performAll_single_ends horder₄ hvouched₄ fun hfh => ?_
  exact packBody_endsWith (s := started .pack (finishStage .writeHdr s₄))
    (hvouched₄.2.2.1 (horder₄.headerCoded hfh)) hsrc₄ hl₂ henough

/-- DECOMPRESS with its source session complete and a sink session with enough answers (R231). -/
theorem decompress_ends (horder : FlagOrder s) (hvouched : Vouched s) (hsrc : s.srcNext = l₁ :: more)
    (hl₁ : completeSession l₁ = true) (hsnk : s.snkNext = answers :: snks) (hlen : 8 * l₁.length ≤ answers.length) :
    RunEnds (performAll decompressStages s) := by
  refine performAll_ends (D := fun t => ∃ l, t.src = some l ∧ completeSession l = true ∧ l.length ≤ l₁.length)
    horder hvouched (fun _ => readHdrBody_endsWith (s := started .readHdr s) hsrc hl₁)
    fun s₁ ⟨l, hl, hcomplete, hle⟩ hframe₁ horder₁ hvouched₁ => ?_
  have hsnk₁ : s₁.snkNext = answers :: snks := (congrArg State.snkNext hframe₁).trans hsnk
  exact performAll_single_ends horder₁ hvouched₁ fun _ =>
    unpackBody_endsWith (s := started .unpack (finishStage .readHdr s₁)) hl hcomplete hsnk₁ (by omega)

end

end Sys2Proof.Machine

/-! ### The obligations -/

namespace Sys2Proof.Proofs

open Sys2Proof.Machine

/-- Settles O58: the body of each stage ends within the items and answers that are ready, and no fault is met. -/
theorem everyRunEnds : Obligations.EveryRunEnds := by
  unfold Obligations.EveryRunEnds
  intro i s hsound ⟨hsessions, hcomplete, hcurrent, ⟨answers, snks, hsnk, hanswers⟩, hsinkCurrent⟩
  obtain ⟨hcoherent, hvouched, -⟩ := sound_iff.mp hsound
  obtain ⟨l₁, l₂, more, hsrc⟩ : ∃ l₁ l₂ more, s.srcNext = l₁ :: l₂ :: more := by
    match hnext : s.srcNext with
    | l₁ :: l₂ :: more => exact ⟨l₁, l₂, more, rfl⟩
    | [_] => rw [hnext, List.length_singleton] at hsessions; omega
    | [] => rw [hnext] at hsessions; exact absurd hsessions (by decide)
  have hl₁ : completeSession l₁ = true := hcomplete l₁ (by rw [hsrc]; simp)
  have hl₂ : completeSession l₂ = true := hcomplete l₂ (by rw [hsrc]; simp)
  have hsum : l₁.length + l₂.length ≤ (s.srcNext.map List.length).sum := by
    rw [hsrc, List.map_cons, List.map_cons, List.sum_cons, List.sum_cons]
    omega
  obtain ⟨h1, h2, h3, h4⟩ := hcoherent.order
  have horder : FlagOrder { s with curOp := i.opcode } := ⟨h1, h2, h3, h4⟩
  have hstart : Vouched { s with curOp := i.opcode } := hvouched
  have hcodes (hfc : s.fc = true) : CodesBounded s.ct := hvouched.2.2.1 hfc
  rw [exec_eq_performAll]
  cases i with
  | nop => exact performAll_single_ends horder hstart fun _ => trivial
  | count => exact performAll_single_ends horder hstart fun _ =>
    (countBody_endsWith (s := started .count { s with curOp := Instr.count.opcode }) hsrc hl₁).weaken
  | build => exact performAll_single_ends horder hstart fun _ => buildBody_endsWith
  | assign => exact performAll_single_ends horder hstart fun _ => assignBody_endsWith
  | writeHdr =>
    exact performAll_single_ends horder hstart fun hfc =>
      (writeHdrBody_endsWith (s := started .writeHdr { s with curOp := Instr.writeHdr.opcode }) (n := 0)
        (hcodes hfc) hsnk
        (by omega)).weaken
  | pack =>
    refine performAll_single_ends horder hstart fun hfh => ?_
    obtain ⟨l, hl, hlen⟩ := hsinkCurrent hfh
    exact packBody_endsWith (hcodes (h3 hfh)) hsrc hl₁ ⟨l, hl, by omega⟩
  | readHdr => exact performAll_single_ends horder hstart fun _ =>
    (readHdrBody_endsWith (s := started .readHdr { s with curOp := Instr.readHdr.opcode }) hsrc hl₁).weaken
  | unpack =>
    refine performAll_single_ends horder hstart fun hfd => ?_
    obtain ⟨l, hl, hl'⟩ := hcurrent hfd
    rw [srcItems, hl, Option.getD_some] at hanswers
    exact unpackBody_endsWith hl hl' hsnk (by omega)
  | compress => exact compress_ends horder hstart hsrc hl₁ hl₂ hsnk (by omega)
  | decompress => exact decompress_ends horder hstart hsrc hl₁ hsnk (by omega)

end Sys2Proof.Proofs
end

section
/-! PROOFS. The register port, the reset and the moves of the script (10_state.md, 20_memory.md,
70_reset_and_hazards.md), the commands that end at once (40_command_control.md R134, R137), and the sizes and layout
of headers and code fields (30_encoding.md R111, R115). -/

set_option autoImplicit false

namespace Sys2Proof.Machine

/-- R46: STATUS of a BUSY block is exact in its low four bits. -/
theorem getLsbD_regRead_status_of_busy {s : State} (h : s.busy = true) {j : Nat} (hj : j < 4) :
    (regRead 3 s).getLsbD j = (statusWord s).getLsbD j := by
  have hread : regRead 3 s = (Config.busyRead s.draws).extractLsb' 4 28 ++ (statusWord s).extractLsb' 0 4 := if_pos h
  rw [hread, BitVec.getLsbD_append, if_pos hj, BitVec.getLsbD_extractLsb']
  simp [hj]

theorem regValue_ctrl_enables (s : State) :
    (regValue .ctrl s).getLsbD 1 = s.ieDone ∧ (regValue .ctrl s).getLsbD 2 = s.ieErr := by
  simp only [regValue, BitVec.getLsbD_append]
  simp

/-- R21: a word that names no register. -/
theorem ofIndex_reserved {i : BitVec 6} (h : 25 ≤ i.toNat) : Reg.ofIndex i = none := by
  revert i
  decide

theorem hostRead_draws_of_idle {s : State} (h : s.busy = false) (i : BitVec 6) : (hostRead i s).draws = s.draws := by
  simp [hostRead, h]

theorem regRead_of_idle {s : State} (h : s.busy = false) (i : BitVec 6) : regRead i s = idleRead i s :=
  if_neg (by simp [h])

/-- R73: what an idle block reads does not depend on the value last read. -/
theorem idleRead_hostRead (i j : BitVec 6) (s : State) : idleRead i (hostRead j s) = idleRead i s := by
  rw [idleRead, idleRead]
  cases Reg.ofIndex i with
  | none => rfl
  | some r => cases r <;> rfl

/-- R273: a reset block reads ID alone. -/
theorem regValue_applyReset (r : Reg) (s : State) : regValue r (applyReset s) = if r = .id then 0x48550001 else 0 := by
  have hreset : regValue r (applyReset s) = regValue r State.reset := by cases r <;> rfl
  rw [hreset]
  cases r with
  | codeBits j => rfl
  | _ => decide

/-- R134: a command of one stage whose precondition fails. -/
theorem performAll_single_refused {st : Stage} {s : State} (h : pre st s = false) :
    performAll [st] s = .next (failed st .sequenceError s) := by
  rw [performAll, performStage_not_pre h, settle_raise]
  cases st with
  | pack => exact congrArg (fun b => Host.Outcome.next { failed .pack .sequenceError s with fh := b }) h.symm
  | unpack => exact congrArg (fun b => Host.Outcome.next { failed .unpack .sequenceError s with fd := b }) h.symm
  | _ => rfl

end Sys2Proof.Machine

/-! ### The obligations -/

namespace Sys2Proof.Proofs

open Sys2Proof.Machine

/-- Settles O2: R102's words and four illegal ones, decoded. -/
theorem opcodeMapWords : Obligations.OpcodeMapWords := by
  unfold Obligations.OpcodeMapWords
  decide

/-- Settles O3: byte `k` of the field packs the code from its bit `8k` on. -/
theorem codeFieldLayout : Obligations.CodeFieldLayout := by
  unfold Obligations.CodeFieldLayout
  refine fun code => ⟨codeField_length code, fun k j b hj hb => ?_⟩
  rw [getElem?_codeField] at hb
  split at hb
  · obtain rfl := Option.some.inj hb
    rw [getLsbD_packByte _ hj, List.getElem?_drop]
  · cases hb

/-- Settles O5: a step applies the first move of the script; an item or answer goes to the end of an open session. -/
theorem stepAppliesTheNextMove : Obligations.StepAppliesTheNextMove := by
  unfold Obligations.StepAppliesTheNextMove
  intro s rest
  refine ⟨fun _ => rfl, fun _ _ => rfl, rfl, rfl, rfl, fun _ => rfl, fun _ => rfl, fun it => ?item, fun a => ?answer⟩
  case item =>
    rw [step_of_script_cons rfl, applyEvent, deliverItem]
    cases s.src <;> simp
  case answer =>
    rw [step_of_script_cons rfl, applyEvent, deliverAnswer]
    cases s.snk <;> simp

/-- Settles O6: the engine's move on an accepted word that decodes is that command's `exec`. -/
theorem stepRunsTheAcceptedCommand : Obligations.StepRunsTheAcceptedCommand := by
  unfold Obligations.StepRunsTheAcceptedCommand
  refine fun s i hrun hdec => ⟨fun hscript => ?_, fun rest hscript => ?_⟩
  · rw [step, stepScript, hscript]
    exact engineTurn_of_command hrun hdec
  · rw [step_of_script_cons hscript, applyEvent]
    exact engineTurn_of_command hrun hdec

/-- Settles O9: no stage is started, so the error is recorded over the state as it is. -/
theorem sequenceErrors : Obligations.SequenceErrors := by
  unfold Obligations.SequenceErrors
  exact fun s => ⟨fun h => performAll_single_refused (st := .build) h,
    fun h => performAll_single_refused (st := .assign) h, fun h => performAll_single_refused (st := .writeHdr) h,
    fun h => performAll_single_refused (st := .pack) h, fun h => performAll_single_refused (st := .unpack) h⟩

/-- Settles O10: the body of NOP is its end. -/
theorem nopCompletes : Obligations.NopCompletes := by
  unfold Obligations.NopCompletes
  exact fun s => rfl

/-- Settles O11: a write is taken by four registers, and a reserved word names none. -/
theorem reservedAndReadOnlyWords : Obligations.ReservedAndReadOnlyWords := by
  unfold Obligations.ReservedAndReadOnlyWords
  refine fun i s => ⟨fun h1 h2 h3 h14 v => ?_, fun hi hidle => ?_⟩
  · rcases regWrite_cases i v s with hw | ⟨h, -⟩ | ⟨h, -⟩ | ⟨h, -⟩ | ⟨h, -⟩
    · exact hw
    · exact absurd h h1
    · exact absurd h h2
    · exact absurd h h3
    · exact absurd h h14
  · rw [regRead_of_idle hidle, idleRead, ofIndex_reserved hi]

/-- Settles O16: the registers that are exact while BUSY, and the invariant for ERRINFO. -/
theorem busyReadsThatAreExact : Obligations.BusyReadsThatAreExact := by
  unfold Obligations.BusyReadsThatAreExact
  intro s hbusy
  obtain ⟨hbit, hdone, herr, hoverrun⟩ := statusWord_conditions s
  obtain ⟨hieDone, hieErr⟩ := regValue_ctrl_enables s
  have hctrl : regRead 1 s = regValue .ctrl s := regRead_wordIndex_exact (r := .ctrl) rfl s
  have herrInfo : regRead 4 s = s.errInfo := regRead_wordIndex_exact (r := .errInfo) rfl s
  have hstatus {j : Nat} (hj : j < 4) := getLsbD_regRead_status_of_busy hbusy hj
  refine ⟨regRead_wordIndex_exact (r := .id) rfl s, regRead_cmd s, regRead_wordIndex_exact (r := .index) rfl s,
    hctrl ▸ hieDone, hctrl ▸ hieErr, (hstatus (by decide)).trans (hbit.trans hbusy), (hstatus (by decide)).trans hdone,
    (hstatus (by decide)).trans herr, (hstatus (by decide)).trans hoverrun, herrInfo, fun hs => ?_⟩
  obtain ⟨-, -, hinfo⟩ := hs.busyClear hbusy
  exact herrInfo.trans hinfo

/-- Settles O17: a read keeps its value in `rdata` and counts a free value in `draws`, of which no read of an idle block
depends. -/
theorem readsHaveNoSideEffect : Obligations.ReadsHaveNoSideEffect := by
  unfold Obligations.ReadsHaveNoSideEffect
  refine fun s i => ⟨rfl, fun hidle => ⟨hostRead_draws_of_idle hidle i, ?_⟩⟩
  have hidle' : (hostRead i s).busy = false := hidle
  rw [regRead_of_idle hidle', idleRead_hostRead, regRead_of_idle hidle]

/-- Settles O18: each write that is not a soft reset, in turn. -/
theorem hostWritesKeepTheTables : Obligations.HostWritesKeepTheTables := by
  unfold Obligations.HostWritesKeepTheTables
  intro s i v hreset
  rcases regWrite_cases i v s with hw | ⟨h, hw⟩ | ⟨-, hw⟩ | ⟨-, hw⟩ | ⟨-, hw⟩
  · exact ⟨_, _, _, _, _, _, _, _, _, _, hw⟩
  · have hbit : v.getLsbD 0 = false := Bool.eq_false_iff.mpr fun hbit => hreset ⟨h, hbit⟩
    rw [writeCtrl_enables hbit] at hw
    exact ⟨_, _, _, _, _, _, _, _, _, _, hw⟩
  · rw [writeCmd] at hw
    split at hw
    · exact ⟨_, _, _, _, _, _, _, _, _, _, hw⟩
    · exact ⟨_, _, _, _, _, _, _, _, _, _, hw⟩
  · exact ⟨_, _, _, _, _, _, _, _, _, _, hw⟩
  · exact ⟨_, _, _, _, _, _, _, _, _, _, hw⟩

/-- Settles O19: the block's fields are those of the reset state, and it is idle, so each word reads its register. -/
theorem readsAfterReset : Obligations.ReadsAfterReset := by
  unfold Obligations.ReadsAfterReset
  refine fun s => ⟨rfl, fun i => ?_, rfl⟩
  rw [regRead_of_idle rfl, idleRead]
  cases hi : Reg.ofIndex i with
  | none =>
    have hne : i ≠ 0 := by rintro rfl; cases hi
    exact (if_neg hne).symm
  | some r =>
    obtain rfl := wordIndex_of_ofIndex hi
    refine (regValue_applyReset r s).trans (if_congr ⟨?_, fun h => ?_⟩ rfl rfl)
    · rintro rfl; rfl
    · rw [h] at hi
      exact (Option.some.inj hi).symm

/-- Settles O20: a reset leaves the block idle with no session open, so an item or an answer is discarded and the engine
does nothing. -/
theorem resetAbortsTheRun : Obligations.ResetAbortsTheRun := by
  unfold Obligations.ResetAbortsTheRun
  intro s t h
  obtain rfl : applyReset { s with script := [] } = t := Host.Outcome.next.inj h
  exact ⟨rfl, rfl, rfl, rfl, rfl, rfl, rfl, rfl, fun _ => rfl, fun _ => rfl, rfl⟩

/-- Settles O48: the header is its count, its records and the placeholder. -/
theorem headerAndContainerSize : Obligations.HeaderAndContainerSize := by
  unfold Obligations.HeaderAndContainerSize
  refine fun ct bs => ⟨?_, headerBytes_le, ?_⟩
  · rw [headerBytes_length, recordsOf_length]
    omega
  · rw [containerOf_length, headerBytes_length, recordsOf_length]

end Sys2Proof.Proofs
end

section
/-! PROOFS. The exact runs of COUNT and WRITE_HDR (41_frequency_counter.md R150 to R153, 44_header_codec.md R190). -/

set_option autoImplicit false

namespace Sys2Proof.Machine

/-- A command of one stage whose body is done (R132, R136). -/
theorem performAll_single_of_done {st : Stage} {s t : State} (hpre : pre st s = true)
    (hbody : stageBody st (started st s) = .done () t) : performAll [st] s = .next (endRun (finishStage st t)) :=
  performAll_cons_of_done hpre hbody

theorem recordError_eq_failed {st : Stage} {e : ErrKind} {s : State} (h : s.curOp = st.op) :
    recordError e s = failed st e s := by
  rw [recordError, failed, ← h]

theorem curOp_of_raise {st : Stage} {s t : State} {e : ErrKind} (h : stageBody st (started st s) = .raise e t) :
    t.curOp = st.op := by
  obtain ⟨-, hframe⟩ := h ▸ stageBody_framed st (started st s)
  have hopened : (portsOpened st (started st s)).curOp = st.op := by cases st <;> rfl
  exact (eq_of_outside State.curOp (outside_curOp st) hframe).trans hopened

/-- A command of one stage whose body raises (R243). -/
theorem performAll_single_of_raise {st : Stage} {s t : State} {e : ErrKind} (hpre : pre st s = true)
    (hbody : stageBody st (started st s) = .raise e t) : performAll [st] s = .next (failed st e (clearAtEnd st t)) := by
  have hop : (clearAtEnd st t).curOp = st.op := (clearAtEnd_curOp st t).trans (curOp_of_raise hbody)
  rw [performAll, performStage_pre hpre, ← started, hbody, settle_raise, raiseError, recordError_eq_failed hop]

/-- WRITE_HDR's session and object opened, and PAYLOAD_START cleared (R190). -/
def headerBegun (s : State) : State := snkOpen { s with payloadStart := 0 }

theorem headerBegun_snk {s : State} {answers : List SnkAnswer} {sess : List (List SnkAnswer)}
    (h : s.snkNext = answers :: sess) : (headerBegun s).snk = some answers := by
  rw [headerBegun, snkOpen_snk]
  simp [h]

theorem extractLsb'_ofNat_low (n : Nat) : (BitVec.ofNat 64 n).extractLsb' 0 32 = BitVec.ofNat 32 n :=
  (BitVec.setWidth_eq_extractLsb' (by decide)).symm.trans (BitVec.setWidth_ofNat_of_le (by decide) n)

/-- The body of WRITE_HDR with every answer Ok (R190). -/
theorem writeHdrBody_ok {s : State} {answers : List SnkAnswer} {sess : List (List SnkAnswer)}
    (h : s.snkNext = okThen (headerBytes s.ct).length answers :: sess) :
    writeHdrBody s = .done () { s with
      objects := headerBytes s.ct :: s.objects, snk := some answers, snkNext := sess
      snkPos := BitVec.ofNat 64 (headerBytes s.ct).length
      payloadStart := BitVec.ofNat 32 (headerBytes s.ct).length
      headerEnd := BitVec.ofNat 32 (headerBytes s.ct).length } := by
  have hloop := hdrPutLoop_ok (headerBytes s.ct) (s := headerBegun s) nofun (headerBegun_snk h)
  rw [show (headerBegun s).snkPos + BitVec.ofNat 64 (headerBytes s.ct).length
      = BitVec.ofNat 64 (headerBytes s.ct).length from BitVec.zero_add _, extractLsb'_ofNat_low] at hloop
  refine hloop.trans (congrArg _ ?_)
  simp [appendedAll, headerBegun, curObject, h]

/-- The body of WRITE_HDR up to the append that is refused (R190, R244). -/
theorem writeHdrBody_fail {s : State} {k : Nat} {answers : List SnkAnswer} {sess : List (List SnkAnswer)}
    (hk : k < (headerBytes s.ct).length) (h : s.snkNext = okThen k (.fail :: answers) :: sess) :
    writeHdrBody s = .raise .sinkUnavailable { s with
      objects := (headerBytes s.ct).take k :: s.objects, snk := some answers, snkNext := sess
      snkPos := BitVec.ofNat 64 k, payloadStart := 0 } := by
  refine (hdrPutLoop_fail (headerBytes s.ct) hk (s := headerBegun s) nofun (headerBegun_snk h)).trans (congrArg _ ?_)
  simp [appendedAll, headerBegun, curObject, h, Nat.min_eq_left hk.le]

theorem countBytes_eq (n : Nat) : countBytes n = [BitVec.ofNat 8 (n % 256), BitVec.ofNat 8 (n / 256)] := by
  have hlow : BitVec.ofNat 8 (n % 256) = BitVec.ofNat 8 n := BitVec.eq_of_toNat_eq (Nat.mod_mod n 256)
  rw [countBytes, hlow]

end Sys2Proof.Machine

/-! ### The obligations -/

namespace Sys2Proof.Proofs

open Sys2Proof.Machine

/-- Settles O21: all the bytes are counted, and EOF gives NSYM. -/
theorem countCompletes : Obligations.CountCompletes := by
  unfold Obligations.CountCompletes
  intro s bs later sess hsrc hlen
  have hbody := countBody_bytes (s := started .count s) hsrc hlen
  rw [← distinct_countsOf hlen]
  exact performAll_single_of_done (st := .count) rfl hbody

/-- Settles O22: all the bytes are counted, and Fail ends the command. -/
theorem countSourceFails : Obligations.CountSourceFails := by
  unfold Obligations.CountSourceFails
  intro s bs later sess hsrc hlen
  have hbody := countBody_bytes (s := started .count s) hsrc hlen
  exact performAll_single_of_raise (st := .count) (e := .sourceUnavailable) rfl hbody

/-- Settles O23: after 2^32 - 1 counted bytes TOTAL is at its limit, and the next byte is refused. -/
theorem countOverflows : Obligations.CountOverflows := by
  unfold Obligations.CountOverflows
  intro s bs b later sess hsrc hlen
  have hbody := countBody_bytes (s := started .count s) hsrc (by omega)
  have htotal : BitVec.ofNat 32 bs.length = Config.maxTotal := by rw [hlen]; rfl
  have hpos : BitVec.ofNat 64 bs.length + 1 = 0x100000000 := by rw [hlen]; rfl
  have hend := performAll_single_of_raise (st := .count) rfl (hbody.trans (if_pos htotal))
  rw [← hpos, show (0xFFFFFFFF : Word) = BitVec.ofNat 32 bs.length from htotal.symm]
  exact hend

/-- Settles O30: the header's bytes are appended one after another. -/
theorem writeHdrCompletes : Obligations.WriteHdrCompletes := by
  unfold Obligations.WriteHdrCompletes
  intro s later sess n hdr hfc hn hhdr hsnk
  have hheader : headerBytes s.ct = hdr := by
    rw [headerBytes, countBytes_eq, hhdr, hn]
    rfl
  refine ⟨hheader, ?_⟩
  subst hheader
  exact performAll_single_of_done (st := .writeHdr) hfc (writeHdrBody_ok (s := started .writeHdr s) hsnk)

/-- Settles O31: the first `k` bytes are appended, and the next append is refused. -/
theorem writeHdrSinkFails : Obligations.WriteHdrSinkFails := by
  unfold Obligations.WriteHdrSinkFails
  intro s k later sess hfc hk hsnk
  exact performAll_single_of_raise (st := .writeHdr) (e := .sinkUnavailable) hfc
    (writeHdrBody_fail (s := started .writeHdr s) hk hsnk)

end Sys2Proof.Proofs
end

section
/-! PROOFS. The exact runs of PACK (45_bit_packer.md R210 to R214, R221): the second pass, its end, and the places where
it stops. -/

set_option autoImplicit false

namespace Sys2Proof.Machine

section
variable {s : State} {bs : List Byte} {later tail : List SrcItem} {sess : List (List SrcItem)}
  {answers : List SnkAnswer} {obj : List Byte} {old : List (List Byte)}

/-- The state in which PACK has taken `n` bytes, `rest` being left of the session, and appended `out`. -/
def packing (n : Nat) (rest : List SrcItem) (sess : List (List SrcItem)) (out : List Byte) (answers : List SnkAnswer)
    (s : State) : State :=
  { appendedAll out answers s with src := some rest, srcNext := sess, srcPos := BitVec.ofNat 64 n, lastBits := 0 }

theorem packing_eq (hobj : s.objects = obj :: old) (n : Nat) (rest : List SrcItem) (out : List Byte) :
    packing n rest sess out answers s = { s with
      src := some rest, srcNext := sess, srcPos := BitVec.ofNat 64 n, objects := (obj ++ out) :: old
      snk := some answers, snkPos := s.snkPos + BitVec.ofNat 64 out.length, lastBits := 0 } := by
  simp [packing, appendedAll, curObject, hobj]

theorem appendedAll_packing (n : Nat) (rest : List SrcItem) (out more : List Byte) (r : List SnkAnswer) :
    appendedAll more answers (packing n rest sess out r s) = packing n rest sess (out ++ more) answers s := by
  simp [packing, appendedAll, curObject, BitVec.ofNat_add, BitVec.add_assoc]

theorem tookByte_packing (n : Nat) (r rest : List SrcItem) (out : List Byte) :
    tookByte rest (packing n r sess out answers s) = packing (n + 1) rest sess out answers s := by
  simp [packing, tookByte, BitVec.ofNat_add]

theorem wholeBytes_eq_take (code : Bits) : wholeBytes code = (codeField code).take (code.length / 8) :=
  take_codeField.symm

/-- PACK up to the first item after bytes that all have a code (R210). -/
theorem packBody_packing (ho : s.objects ≠ []) (hsrc : s.srcNext = (bs.map SrcItem.byte ++ tail) :: sess)
    (hc : ∀ b ∈ bs, tget s.ct b ≠ none) (hsnk : s.snk = some (okThen ((payloadBits s.ct bs).length / 8) answers)) :
    packBody s
      = packLoop tail (accOf (heldBits (payloadBits s.ct bs))) (heldBits (payloadBits s.ct bs)).length
          (packing bs.length tail sess (wholeBytes (payloadBits s.ct bs)) answers s) :=
  packBody_bytes bs ho hsrc hc hsnk

/-- PACK up to the patch (R210 to R212). -/
theorem packBody_packed (ho : s.objects ≠ []) (hsrc : s.srcNext = deliver bs .eof later :: sess)
    (hc : ∀ b ∈ bs, tget s.ct b ≠ none)
    (hsnk : s.snk = some (okThen (((payloadBits s.ct bs).length + 7) / 8) answers)) :
    packBody s = packPatch { packing bs.length later sess (codeField (payloadBits s.ct bs)) answers s with
      lastBits := BitVec.ofNat 4 (lastBitsFor (payloadBits s.ct bs).length) } :=
  packBody_eof bs ho hsrc hc hsnk

theorem patchInside_packed (hobj : s.objects = obj :: old) (hne : s.headerEnd ≠ 0) {out : List Byte}
    (hle : s.headerEnd.toNat ≤ obj.length + out.length) (n : Nat) (m : BitVec 4) :
    patchInside { packing n later sess out answers s with lastBits := m } = true := by
  refine (patchInside_iff _).mpr ⟨hne, ?_⟩
  rw [packing_eq hobj]
  simpa [curObject] using hle

theorem setWidth_lastBitsFor (n : Nat) :
    (BitVec.ofNat 4 (lastBitsFor n)).setWidth 8 = BitVec.ofNat 8 (lastBitsFor n) := by
  have hrange := lastBitsFor_range n
  apply BitVec.eq_of_toNat_eq
  rw [BitVec.toNat_setWidth, BitVec.toNat_ofNat, BitVec.toNat_ofNat]
  omega

/-- PACK with every answer Ok (R210 to R213). -/
theorem packBody_ok (hobj : s.objects = obj :: old) (hsrc : s.srcNext = deliver bs .eof later :: sess)
    (hc : ∀ b ∈ bs, tget s.ct b ≠ none)
    (hsnk : s.snk = some (okThen (((payloadBits s.ct bs).length + 7) / 8 + 1) answers)) (hne : s.headerEnd ≠ 0)
    (hle : s.headerEnd.toNat ≤ obj.length + ((payloadBits s.ct bs).length + 7) / 8) :
    packBody s = .done () { s with
      src := some later, srcNext := sess, srcPos := BitVec.ofNat 64 bs.length
      objects := (obj ++ codeField (payloadBits s.ct bs)).set (s.headerEnd.toNat - 1)
        (BitVec.ofNat 8 (lastBitsFor (payloadBits s.ct bs).length)) :: old
      snk := some answers
      snkPos := s.snkPos + BitVec.ofNat 64 (((payloadBits s.ct bs).length + 7) / 8)
      lastBits := BitVec.ofNat 4 (lastBitsFor (payloadBits s.ct bs).length) } := by
  rw [okThen_add, okThen_succ, okThen_zero] at hsnk
  rw [← codeField_length] at hle
  rw [packBody_packed (by simp [hobj]) hsrc hc hsnk, packPatch,
    snkPatch_ok _ _ (patchInside_packed hobj hne hle _ _) rfl, setWidth_lastBitsFor, packing_eq hobj, codeField_length]
  rfl

/-- PACK whose patch is refused (R213, R244). -/
theorem packBody_patch_fail (hobj : s.objects = obj :: old) (hsrc : s.srcNext = deliver bs .eof later :: sess)
    (hc : ∀ b ∈ bs, tget s.ct b ≠ none)
    (hsnk : s.snk = some (okThen (((payloadBits s.ct bs).length + 7) / 8) (.fail :: answers))) (hne : s.headerEnd ≠ 0)
    (hle : s.headerEnd.toNat ≤ obj.length + ((payloadBits s.ct bs).length + 7) / 8) :
    packBody s = .raise .sinkUnavailable
      { packing bs.length later sess (codeField (payloadBits s.ct bs)) answers s with
        lastBits := BitVec.ofNat 4 (lastBitsFor (payloadBits s.ct bs).length) } := by
  rw [← codeField_length] at hle
  rw [packBody_packed (by simp [hobj]) hsrc hc hsnk, packPatch,
    snkPatch_fail _ _ (patchInside_packed hobj hne hle _ _) rfl]
  rfl

/-- PACK whose final flush is refused (R212, R244). -/
theorem packBody_flush_fail (ho : s.objects ≠ []) (hsrc : s.srcNext = deliver bs .eof later :: sess)
    (hc : ∀ b ∈ bs, tget s.ct b ≠ none) (hheld : (payloadBits s.ct bs).length % 8 ≠ 0)
    (hsnk : s.snk = some (okThen ((payloadBits s.ct bs).length / 8) (.fail :: answers))) :
    packBody s = .raise .sinkUnavailable
      (packing bs.length later sess (wholeBytes (payloadBits s.ct bs)) answers s) := by
  have hpos : (heldBits (payloadBits s.ct bs)).length > 0 := by rw [heldBits_length]; omega
  rw [packBody_packing ho hsrc hc hsnk, packLoop, packEnd, if_pos hpos, packFlush, put_fail _ _ rfl]
  rfl

/-- PACK whose append `k` is refused while the byte `v` is taken (R210, R244). -/
theorem packBody_append_fail {v : Byte} {code : Bits} {k : Nat} (ho : s.objects ≠ [])
    (hsrc : s.srcNext = (bs.map SrcItem.byte ++ .byte v :: later) :: sess) (hc : ∀ b ∈ bs, tget s.ct b ≠ none)
    (hv : tget s.ct v = some code) (hfrom : (payloadBits s.ct bs).length / 8 ≤ k)
    (hto : 8 * (k + 1) ≤ (payloadBits s.ct bs).length + code.length)
    (hsnk : s.snk = some (okThen k (.fail :: answers))) :
    packBody s = .raise .sinkUnavailable
      (packing (bs.length + 1) later sess ((codeField (payloadBits s.ct bs ++ code)).take k) answers s) := by
  obtain ⟨j, rfl⟩ := Nat.exists_eq_add_of_le hfrom
  rw [okThen_add] at hsnk
  have hj : 8 * (j + 1) ≤ (heldBits (payloadBits s.ct bs) ++ code).length := by
    rw [List.length_append, heldBits_length]
    omega
  have hout : wholeBytes (payloadBits s.ct bs) ++ (wholeBytes (heldBits (payloadBits s.ct bs) ++ code)).take j
      = (codeField (payloadBits s.ct bs ++ code)).take ((payloadBits s.ct bs).length / 8 + j) := by
    rw [← wholeBytes_length, ← List.take_length_add_append, wholeBytes_heldBits,
      wholeBytes_eq_take (payloadBits s.ct bs ++ code), List.take_take, wholeBytes_length,
      Nat.min_eq_left (by rw [List.length_append]; omega)]
  rw [packBody_packing ho hsrc hc hsnk, packLoop, tookByte_packing,
    show tget (packing bs.length (.byte v :: later) sess (wholeBytes (payloadBits s.ct bs)) _ s).ct v =
      some code from hv]
  simp only
  rw [packBits_fail code _ (s := packing (bs.length + 1) later sess (wholeBytes (payloadBits s.ct bs)) _ s)
    (by rw [heldBits_length]; omega) nofun hj rfl, bind_raise, appendedAll_packing, hout]

/-- PACK whose second pass meets a byte with no code (R214). -/
theorem packBody_uncoded {v : Byte} (ho : s.objects ≠ [])
    (hsrc : s.srcNext = (bs.map SrcItem.byte ++ .byte v :: later) :: sess) (hc : ∀ b ∈ bs, tget s.ct b ≠ none)
    (hv : tget s.ct v = none) (hsnk : s.snk = some (okThen ((payloadBits s.ct bs).length / 8) answers)) :
    packBody s = .raise .symbolNotInTable
      (packing (bs.length + 1) later sess (wholeBytes (payloadBits s.ct bs)) answers s) := by
  rw [packBody_packing ho hsrc hc hsnk, packLoop, tookByte_packing,
    show tget (packing bs.length (.byte v :: later) sess (wholeBytes (payloadBits s.ct bs)) _ s).ct v = none from hv]

/-- PACK whose second pass fails (R210). -/
theorem packBody_source_fail (ho : s.objects ≠ []) (hsrc : s.srcNext = deliver bs .fail later :: sess)
    (hc : ∀ b ∈ bs, tget s.ct b ≠ none) (hsnk : s.snk = some (okThen ((payloadBits s.ct bs).length / 8) answers)) :
    packBody s = .raise .sourceUnavailable
      (packing bs.length later sess (wholeBytes (payloadBits s.ct bs)) answers s) := by
  rw [packBody_packing ho hsrc hc hsnk, packLoop]
  rfl

/-- An accepted PACK whose body raises (R136, R243). -/
theorem exec_pack_of_raise {e : ErrKind} {n : Nat} {out : List Byte} (hfh : s.fh = true) (hobj : s.objects = obj :: old)
    (hbody : packBody (started .pack s) = .raise e (packing n later sess out answers (started .pack s))) :
    exec .pack s = .next { s with
      src := some later, srcNext := sess, srcPos := BitVec.ofNat 64 n, objects := (obj ++ out) :: old
      snk := some answers, snkPos := s.snkPos + BitVec.ofNat 64 out.length, lastBits := 0, fh := false, fd := false
      curOp := 0x5, errInfo := errWord 0x5 e, err := true, done := false, run := .idle } := by
  rw [packing_eq (s := started .pack s) hobj] at hbody
  exact performAll_single_of_raise (st := .pack) hfh hbody

end

end Sys2Proof.Machine

/-! ### The obligations -/

namespace Sys2Proof.Proofs

open Sys2Proof.Machine

/-- Settles O38: the pass is packed, the last bits are flushed, and the patch is inside the object. -/
theorem packCompletes : Obligations.PackCompletes := by
  unfold Obligations.PackCompletes
  intro s bs later sess answers obj old hfh hsrc hc hobj hsnk hne hle
  exact performAll_single_of_done (st := .pack) hfh (packBody_ok (s := started .pack s) hobj hsrc hc hsnk hne hle)

/-- Settles O40: the whole bytes have gone out, and the held bits stay where they are. -/
theorem packStopsInTheSecondPass : Obligations.PackStopsInTheSecondPass := by
  unfold Obligations.PackStopsInTheSecondPass
  intro s bs later sess answers obj old hfh hc hobj hsnk
  have ho : (started .pack s).objects ≠ [] := by simp [hobj]
  refine ⟨fun v hv hsrc => ?_, fun hsrc => ?_⟩
  · have hend := exec_pack_of_raise (e := .symbolNotInTable) hfh hobj
      (packBody_uncoded (s := started .pack s) ho hsrc hc hv hsnk)
    rw [wholeBytes_length, wholeBytes_eq_take] at hend
    exact hend
  · have hend := exec_pack_of_raise (e := .sourceUnavailable) hfh hobj
      (packBody_source_fail (s := started .pack s) ho hsrc hc hsnk)
    rw [wholeBytes_length, wholeBytes_eq_take] at hend
    exact hend

/-- Settles O41: the three transactions with the sink that PACK makes. -/
theorem packSinkFails : Obligations.PackSinkFails := by
  unfold Obligations.PackSinkFails
  intro s bs later sess answers obj old hfh hc hobj
  have ho : (started .pack s).objects ≠ [] := by simp [hobj]
  refine ⟨fun v code k hv hsrc hfrom hto hsnk => ?append, fun hsrc hheld hsnk => ?flush,
    fun hsrc hsnk hne hle => ?patch⟩
  case append =>
    have hend := exec_pack_of_raise (e := .sinkUnavailable) hfh hobj
      (packBody_append_fail (s := started .pack s) ho hsrc hc hv hfrom hto hsnk)
    have hlen : ((codeField (payloadBits s.ct bs ++ code)).take k).length = k := by
      rw [List.length_take, codeField_length, List.length_append]
      omega
    rw [started_ct, hlen] at hend
    exact hend
  case flush =>
    have hend := exec_pack_of_raise (e := .sinkUnavailable) hfh hobj
      (packBody_flush_fail (s := started .pack s) ho hsrc hc hheld hsnk)
    rw [wholeBytes_length, wholeBytes_eq_take] at hend
    exact hend
  case patch =>
    have hbody := packBody_patch_fail (s := started .pack s) hobj hsrc hc hsnk hne hle
    rw [packing_eq (s := started .pack s) hobj, codeField_length] at hbody
    exact performAll_single_of_raise (st := .pack) hfh hbody

end Sys2Proof.Proofs
end

section
/-! PROOFS. What a run of a command leaves unchanged, whatever its outcome, and the errors it can record
(60_exceptions.md R242; 10_state.md, 20_memory.md R82, 40_command_control.md R135). -/

set_option autoImplicit false

namespace Sys2Proof.Machine

/-- The state without what the start and the end of a run of the stage may write: the completion state, CUR_OP and the
flags of the stage's row (R135, R136, R138, R243). -/
def flagless (st : Stage) (s : State) : State :=
  let u := { s with run := .idle, done := false, err := false, errInfo := 0, curOp := 0 }
  match st with
  | .nop => u
  | .count => { u with fw := false, ft := false, fc := false, fh := false, fd := false }
  | .build => { u with ft := false, fc := false, fh := false, fd := false }
  | .assign => { u with fc := false, fh := false }
  | .writeHdr => { u with fh := false }
  | .pack => { u with fh := false, fd := false }
  | .readHdr => { u with ft := false, fd := false }
  | .unpack => { u with fh := false, fd := false }

/-- The state without what a whole run of the stage may write, once its ports are open. -/
def untouched (st : Stage) (s : State) : State := flagless st (outside st s)

section
variable {st : Stage} {rest : List Stage} {s t u : State} {e : ErrKind}

theorem untouched_of_outside (h : outside st t = outside st (portsOpened st (started st s))) :
    untouched st t = untouched st (portsOpened st s) := by
  rw [untouched, h]
  cases st <;> rfl

@[simp] theorem untouched_finishStage : untouched st (finishStage st s) = untouched st s := by
  cases st <;> rfl

@[simp] theorem untouched_raiseError : untouched st (raiseError st e s) = untouched st s := by
  cases st <;> rfl

@[simp] theorem untouched_with_run (r : Run) : untouched st { s with run := r } = untouched st s := by
  cases st <;> rfl

@[simp] theorem untouched_endRun : untouched st (endRun s) = untouched st s := by
  cases st <;> rfl

@[simp] theorem untouched_with_curOp (op : BitVec 4) : untouched st { s with curOp := op } = untouched st s := by
  cases st <;> rfl

/-- How a run ends at its next stage or goes on after it (R132, R134, R136, R243). -/
theorem performAll_cons_cases (h : performAll (st :: rest) s = .next t) :
    (pre st s = false ∧ t = raiseError st .sequenceError { s with curOp := st.op }) ∨
    (pre st s = true ∧
      ((∃ p u, stageBody st (started st s) = .wait p u ∧ t = { u with run := .waiting st p rest }) ∨
        (∃ e u, stageBody st (started st s) = .raise e u ∧ t = raiseError st e u) ∨
        ∃ u, stageBody st (started st s) = .done () u ∧ performAll rest (finishStage st u) = .next t)) := by
  rw [performAll] at h
  cases hpre : pre st s with
  | false =>
    rw [performStage_not_pre hpre, settle_raise] at h
    exact .inl ⟨rfl, (Host.Outcome.next.inj h).symm⟩
  | true =>
    rw [performStage_pre hpre, ← started] at h
    rcases settle_cases st rest (performAll rest) (stageBody st (started st s)) with
      ⟨u, hbody, hend⟩ | ⟨p, u, hbody, hend⟩ | ⟨e, u, hbody, hend⟩ | ⟨f, -, hend⟩
    · exact .inr ⟨rfl, .inr (.inr ⟨u, hbody, hend.symm.trans h⟩)⟩
    · exact .inr ⟨rfl, .inl ⟨p, u, hbody, (Host.Outcome.next.inj (hend.symm.trans h)).symm⟩⟩
    · exact .inr ⟨rfl, .inr (.inl ⟨e, u, hbody, (Host.Outcome.next.inj (hend.symm.trans h)).symm⟩)⟩
    · cases hend.symm.trans h

theorem outside_of_done (h : stageBody st s = .done () u) : outside st u = outside st (portsOpened st s) := by
  have hframe := stageBody_framed st s
  rw [h] at hframe
  exact hframe

theorem outside_of_wait {p : Point} (h : stageBody st s = .wait p u) :
    p.stage = st ∧ outside st u = outside st (portsOpened st s) := by
  have hframe := stageBody_framed st s
  rw [h] at hframe
  exact hframe

theorem outside_of_raise (h : stageBody st s = .raise e u) :
    e ∈ bodyErrors st ∧ outside st u = outside st (portsOpened st s) := by
  have hframe := stageBody_framed st s
  rw [h] at hframe
  exact hframe

/-- What a run of stages leaves untouched at its next stage: it is refused, ends there with the ports opened, or goes
on. -/
theorem performAll_cons_untouched (h : performAll (st :: rest) s = .next t) :
    t = raiseError st .sequenceError { s with curOp := st.op } ∨ untouched st t = untouched st (portsOpened st s) ∨
    ∃ u, untouched st u = untouched st (portsOpened st s) ∧ performAll rest u = .next t := by
  rcases performAll_cons_cases h with ⟨-, ht⟩ | ⟨-, ⟨p, u, hbody, rfl⟩ | ⟨e, u, hbody, rfl⟩ | ⟨u, hbody, hrest⟩⟩
  · exact .inl ht
  · exact .inr (.inl (by simpa using untouched_of_outside (outside_of_wait hbody).2))
  · exact .inr (.inl (by simpa using untouched_of_outside (outside_of_raise hbody).2))
  · exact .inr (.inr ⟨_, by simpa using untouched_of_outside (outside_of_done hbody), hrest⟩)

/-- A part of the state in which no CUR_OP or completion state is, and that the stages of a run do not write, is kept by
the run. -/
theorem performAll_keeps {α : Type} (g : State → α) {stages : List Stage} (hend : ∀ s, g (untouched .nop s) = g s)
    (hg : ∀ st ∈ stages, ∀ s, g (untouched st s) = g s ∧ g (portsOpened st s) = g s)
    (h : performAll stages s = .next t) : g t = g s := by
  induction stages generalizing s with
  | nil =>
    obtain rfl := Host.Outcome.next.inj h
    rw [← hend, untouched_endRun, hend]
  | cons st rest ih =>
    obtain ⟨hst, hrest⟩ := List.forall_mem_cons.mp hg
    have same {v w : State} (h : untouched st v = untouched st w) : g v = g w := by rw [← (hst v).1, h, (hst w).1]
    rcases performAll_cons_untouched h with rfl | hopened | ⟨u, hopened, hrun⟩
    · exact same (by simp)
    · exact (same hopened).trans (hst s).2
    · exact (ih hrest hrun).trans ((same hopened).trans (hst s).2)

/-- The same of a command, where `writers` are the stages that may write the part. -/
theorem exec_keeps {α : Type} (g : State → α) (writers : List Stage) {i : Instr}
    (hstages : ∀ st ∈ stagesOf i, st ∉ writers)
    (hg : ∀ st ∉ writers, ∀ s, g (untouched st s) = g s ∧ g (portsOpened st s) = g s)
    (hend : ∀ s, g (untouched .nop s) = g s) (h : exec i s = .next t) : g t = g s := by
  rw [exec_eq_performAll] at h
  refine (performAll_keeps g hend (fun st hst => hg st (hstages st hst)) h).trans ?_
  rw [← hend, untouched_with_curOp, hend]

end

/-! ### The parts of the state, and the commands that do not write them -/

section
variable {i : Instr} {s t : State} (h : exec i s = .next t)
include h

theorem host_side_kept :
    t.ieDone = s.ieDone ∧ t.ieErr = s.ieErr ∧ t.cmd = s.cmd ∧ t.overrun = s.overrun ∧ t.index = s.index ∧
      t.script = s.script ∧ t.rdata = s.rdata ∧ t.draws = s.draws := by
  have hkept := exec_keeps
    (fun s => (s.ieDone, s.ieErr, s.cmd, s.overrun, s.index, s.script, s.rdata, s.draws)) [] (by simp)
    (fun st _ s => by cases st <;> exact ⟨rfl, rfl⟩) (fun _ => rfl) h
  simpa using hkept

theorem counts_kept (h₁ : i ≠ .count) (h₂ : i ≠ .compress) :
    t.w = s.w ∧ t.total = s.total ∧ t.nsym = s.nsym ∧ t.fw = s.fw := by
  have hkept := exec_keeps (fun s => (s.w, s.total, s.nsym, s.fw)) [.count] (by revert h₁ h₂; cases i <;> decide)
    (fun st hst s => by
      cases st with
      | count => exact (hst (by decide)).elim
      | _ => exact ⟨rfl, rfl⟩)
    (fun _ => rfl) h
  simpa using hkept

theorem codes_kept (h₁ : i ≠ .assign) (h₂ : i ≠ .compress) : t.ct = s.ct :=
  exec_keeps State.ct [.assign] (by revert h₁ h₂; cases i <;> decide)
    (fun st hst s => by
      cases st with
      | assign => exact (hst (by decide)).elim
      | _ => exact ⟨rfl, rfl⟩)
    (fun _ => rfl) h

theorem list_kept (h₁ : i ≠ .build) (h₂ : i ≠ .compress) : t.pl = s.pl :=
  exec_keeps State.pl [.build] (by revert h₁ h₂; cases i <;> decide)
    (fun st hst s => by
      cases st with
      | build => exact (hst (by decide)).elim
      | _ => exact ⟨rfl, rfl⟩)
    (fun _ => rfl) h

theorem tree_kept (h₁ : i ≠ .build) (h₂ : i ≠ .readHdr) (h₃ : i ≠ .compress) (h₄ : i ≠ .decompress) :
    t.arena = s.arena ∧ t.root = s.root := by
  have hkept := exec_keeps (fun s => (s.arena, s.root)) [.build, .readHdr] (by revert h₁ h₂ h₃ h₄; cases i <;> decide)
    (fun st hst s => by
      cases st with
      | build => exact (hst (by decide)).elim
      | readHdr => exact (hst (by decide)).elim
      | _ => exact ⟨rfl, rfl⟩)
    (fun _ => rfl) h
  simpa using hkept

theorem decNsym_kept (h₁ : i ≠ .readHdr) (h₂ : i ≠ .decompress) : t.decNsym = s.decNsym :=
  exec_keeps State.decNsym [.readHdr] (by revert h₁ h₂; cases i <;> decide)
    (fun st hst s => by
      cases st with
      | readHdr => exact (hst (by decide)).elim
      | _ => exact ⟨rfl, rfl⟩)
    (fun _ => rfl) h

theorem payloadStart_kept (h₁ : i ∈ [.nop, .count, .build, .assign, .pack, .unpack]) :
    t.payloadStart = s.payloadStart :=
  exec_keeps State.payloadStart [.writeHdr, .readHdr] (by revert h₁; cases i <;> decide)
    (fun st hst s => by
      cases st with
      | writeHdr => exact (hst (by decide)).elim
      | readHdr => exact (hst (by decide)).elim
      | _ => exact ⟨rfl, rfl⟩)
    (fun _ => rfl) h

theorem headerEnd_kept (h₁ : i ≠ .writeHdr) (h₂ : i ≠ .compress) : t.headerEnd = s.headerEnd :=
  exec_keeps State.headerEnd [.writeHdr] (by revert h₁ h₂; cases i <;> decide)
    (fun st hst s => by
      cases st with
      | writeHdr => exact (hst (by decide)).elim
      | _ => exact ⟨rfl, rfl⟩)
    (fun _ => rfl) h

theorem lastBits_kept (h₁ : i ∈ [.nop, .count, .build, .assign, .writeHdr, .unpack]) : t.lastBits = s.lastBits :=
  exec_keeps State.lastBits [.pack, .readHdr] (by revert h₁; cases i <;> decide)
    (fun st hst s => by
      cases st with
      | pack => exact (hst (by decide)).elim
      | readHdr => exact (hst (by decide)).elim
      | _ => exact ⟨rfl, rfl⟩)
    (fun _ => rfl) h

theorem source_kept (h₁ : i ∈ [.nop, .build, .assign, .writeHdr]) :
    t.src = s.src ∧ t.srcNext = s.srcNext ∧ t.srcPos = s.srcPos := by
  have hkept := exec_keeps (fun s => (s.src, s.srcNext, s.srcPos)) [.count, .pack, .readHdr, .unpack]
    (by revert h₁; cases i <;> decide)
    (fun st hst s => by
      cases st with
      | count => exact (hst (by decide)).elim
      | pack => exact (hst (by decide)).elim
      | readHdr => exact (hst (by decide)).elim
      | unpack => exact (hst (by decide)).elim
      | _ => exact ⟨rfl, rfl⟩)
    (fun _ => rfl) h
  simpa using hkept

theorem sink_kept (h₁ : i ∈ [.nop, .count, .build, .assign, .readHdr]) :
    t.snk = s.snk ∧ t.snkNext = s.snkNext ∧ t.snkPos = s.snkPos ∧ t.objects = s.objects := by
  have hkept := exec_keeps (fun s => (s.snk, s.snkNext, s.snkPos, s.objects)) [.writeHdr, .pack, .unpack]
    (by revert h₁; cases i <;> decide)
    (fun st hst s => by
      cases st with
      | writeHdr => exact (hst (by decide)).elim
      | pack => exact (hst (by decide)).elim
      | unpack => exact (hst (by decide)).elim
      | _ => exact ⟨rfl, rfl⟩)
    (fun _ => rfl) h
  simpa using hkept

theorem pack_snkNext_kept (h₁ : i = .pack) : t.snkNext = s.snkNext :=
  exec_keeps State.snkNext [.writeHdr, .unpack] (by revert h₁; cases i <;> decide)
    (fun st hst s => by
      cases st with
      | writeHdr => exact (hst (by decide)).elim
      | unpack => exact (hst (by decide)).elim
      | _ => exact ⟨rfl, rfl⟩)
    (fun _ => rfl) h

theorem ft_kept (h₁ : i ∈ [.nop, .assign, .writeHdr, .pack, .unpack]) : t.ft = s.ft :=
  exec_keeps State.ft [.count, .build, .readHdr] (by revert h₁; cases i <;> decide)
    (fun st hst s => by
      cases st with
      | count => exact (hst (by decide)).elim
      | build => exact (hst (by decide)).elim
      | readHdr => exact (hst (by decide)).elim
      | _ => exact ⟨rfl, rfl⟩)
    (fun _ => rfl) h

theorem fc_kept (h₁ : i ∈ [.nop, .writeHdr, .pack, .readHdr, .unpack, .decompress]) : t.fc = s.fc :=
  exec_keeps State.fc [.count, .build, .assign] (by revert h₁; cases i <;> decide)
    (fun st hst s => by
      cases st with
      | count => exact (hst (by decide)).elim
      | build => exact (hst (by decide)).elim
      | assign => exact (hst (by decide)).elim
      | _ => exact ⟨rfl, rfl⟩)
    (fun _ => rfl) h

theorem fh_kept (h₁ : i ∈ [.nop, .readHdr]) : t.fh = s.fh :=
  exec_keeps State.fh [.count, .build, .assign, .writeHdr, .pack, .unpack] (by revert h₁; cases i <;> decide)
    (fun st hst s => by
      cases st with
      | nop => exact ⟨rfl, rfl⟩
      | readHdr => exact ⟨rfl, rfl⟩
      | _ => exact (hst (by decide)).elim)
    (fun _ => rfl) h

theorem fd_kept (h₁ : i ∈ [.nop, .assign, .writeHdr]) : t.fd = s.fd :=
  exec_keeps State.fd [.count, .build, .pack, .readHdr, .unpack] (by revert h₁; cases i <;> decide)
    (fun st hst s => by
      cases st with
      | nop => exact ⟨rfl, rfl⟩
      | assign => exact ⟨rfl, rfl⟩
      | writeHdr => exact ⟨rfl, rfl⟩
      | _ => exact (hst (by decide)).elim)
    (fun _ => rfl) h

end

/-! ### The objects (R78, R82) -/

section
variable {st : Stage} {rest : List Stage} {s t u : State}

/-- A stage with a sink may write the latest object, and the others none. -/
theorem untouched_objects (st : Stage) (s : State) :
    (untouched st s).objects = if st ∈ [.writeHdr, .pack, .unpack] then s.objects.tail else s.objects := by
  cases st <;> rfl

theorem portsOpened_objects (st : Stage) (s : State) :
    (portsOpened st s).objects = if st ∈ [.writeHdr, .unpack] then [] :: s.objects else s.objects := by
  cases st <;> rfl

/-- At most one object has been begun, and no earlier one is another. -/
def Begun (s t : State) : Prop := t.objects = s.objects ∨ t.objects.tail = s.objects

theorem begun_iff : Begun s t ↔ t.objects = s.objects ∨ ∃ o, t.objects = o :: s.objects := by
  refine or_congr_right' fun hne => ⟨fun h => ?_, fun ⟨o, ho⟩ => by rw [ho, List.tail_cons]⟩
  cases ht : t.objects with
  | nil => rw [ht] at h hne; exact absurd h hne
  | cons o old => rw [ht, List.tail_cons] at h; exact ⟨o, by rw [h]⟩

/-- A stage that has no sink, as the next of a run. -/
theorem objects_of_cons_sinkless (hst : st ∉ [.writeHdr, .pack, .unpack]) (h : performAll (st :: rest) s = .next t) :
    t.objects = s.objects ∨ ∃ u, u.objects = s.objects ∧ performAll rest u = .next t := by
  have hopened : (portsOpened st s).objects = s.objects := by
    rw [portsOpened_objects, if_neg fun h => hst (by revert h; cases st <;> decide)]
  have kept {v : State} (hv : untouched st v = untouched st (portsOpened st s)) : v.objects = s.objects := by
    have := congrArg State.objects hv
    rwa [untouched_objects, untouched_objects, if_neg hst, if_neg hst, hopened] at this
  rcases performAll_cons_untouched h with rfl | hu | ⟨u, hu, hrest⟩
  · exact .inl (by simp)
  · exact .inl (kept hu)
  · exact .inr ⟨u, kept hu, hrest⟩

/-- A stage that begins an object, as the next of a run. -/
theorem objects_of_cons_opener (hst : st ∈ [.writeHdr, .unpack]) (h : performAll (st :: rest) s = .next t) :
    Begun s t ∨ ∃ u, u.objects.tail = s.objects ∧ performAll rest u = .next t := by
  have begun {v : State} (hv : untouched st v = untouched st (portsOpened st s)) : v.objects.tail = s.objects := by
    have hsink : st ∈ [.writeHdr, .pack, .unpack] := by revert hst; cases st <;> decide
    have := congrArg State.objects hv
    rwa [untouched_objects, untouched_objects, if_pos hsink, if_pos hsink, portsOpened_objects, if_pos hst,
      List.tail_cons] at this
  rcases performAll_cons_untouched h with rfl | hu | ⟨u, hu, hrest⟩
  · exact .inl (.inl (by simp))
  · exact .inl (.inr (begun hu))
  · exact .inr ⟨u, begun hu, hrest⟩

/-- PACK writes the latest object alone. -/
theorem objects_of_pack (h : performAll [.pack] s = .next t) : t.objects.tail = s.objects.tail := by
  have kept {v : State} (hv : untouched .pack v = untouched .pack (portsOpened .pack s)) :
      v.objects.tail = s.objects.tail := (congrArg State.objects hv :)
  rcases performAll_cons_untouched h with rfl | hu | ⟨u, hu, hrest⟩
  · simp
  · exact kept hu
  · obtain rfl := Host.Outcome.next.inj hrest
    exact kept hu

theorem begun_of_single_opener (hst : st ∈ [.writeHdr, .unpack]) (h : performAll [st] s = .next t) : Begun s t := by
  rcases objects_of_cons_opener hst h with hend | ⟨u, hu, hrest⟩
  · exact hend
  · obtain rfl := Host.Outcome.next.inj hrest
    exact .inr hu

theorem begun_of_decompress (h : performAll decompressStages s = .next t) : Begun s t := by
  rcases objects_of_cons_sinkless (by decide) h with hend | ⟨u, hu, hrest⟩
  · exact .inl hend
  · rw [Begun, ← hu]
    exact begun_of_single_opener (by decide) hrest

theorem begun_of_compress (h : performAll compressStages s = .next t) : Begun s t := by
  rcases objects_of_cons_sinkless (by decide) h with hend | ⟨u₁, hu₁, h⟩
  · exact .inl hend
  rcases objects_of_cons_sinkless (by decide) h with hend | ⟨u₂, hu₂, h⟩
  · exact .inl (hend.trans hu₁)
  rcases objects_of_cons_sinkless (by decide) h with hend | ⟨u₃, hu₃, h⟩
  · exact .inl (hend.trans (hu₂.trans hu₁))
  rw [Begun, ← hu₁, ← hu₂, ← hu₃]
  rcases objects_of_cons_opener (by decide) h with hend | ⟨u₄, hu₄, h⟩
  · exact hend
  · exact .inr ((objects_of_pack h).trans hu₄)

end

/-! ### The bytes that PACK keeps (R80, R82) -/

/-- The latest object's bytes are those they were but for the one at the patch's offset, which is the same. -/
def BytesKept (s t : State) : Prop :=
  t.headerEnd = s.headerEnd ∧ (curObject s).length ≤ (curObject t).length ∧
    ∀ a, a < (curObject s).length → a ≠ patchOffset s → (curObject t)[a]? = (curObject s)[a]?

/-- A piece of PACK keeps those bytes, whatever its outcome. -/
def KeepsBytes {α : Type} (s : State) (m : Flow α) : Prop :=
  m.All (fun _ t => BytesKept s t) (fun _ t => BytesKept s t) (fun _ t => BytesKept s t) fun _ => True

section
variable {s t u : State}

theorem BytesKept.refl (s : State) : BytesKept s s := ⟨rfl, le_rfl, fun _ _ _ => rfl⟩

theorem BytesKept.trans (h : BytesKept s t) (h' : BytesKept t u) : BytesKept s u := by
  obtain ⟨hend, hlen, hbytes⟩ := h
  obtain ⟨hend', hlen', hbytes'⟩ := h'
  refine ⟨hend'.trans hend, hlen.trans hlen', fun a ha hne => (hbytes' a (ha.trans_le hlen) ?_).trans (hbytes a ha hne)⟩
  rwa [patchOffset, hend]

theorem bytesKept_appended (v : Byte) (rest : List SnkAnswer) : BytesKept s (appended v rest s) := by
  refine ⟨rfl, ?_, fun a ha _ => ?_⟩
  · rw [appended_curObject, List.length_append]
    omega
  · rw [appended_curObject, List.getElem?_append_left ha]

theorem bytesKept_patchedState (v : Byte) (rest : List SnkAnswer) : BytesKept s (patchedState v rest s) :=
  ⟨rfl, (List.length_set ..).ge, fun _ _ hne => List.getElem?_set_ne hne.symm⟩

theorem KeepsBytes.of_kept {α : Type} {m : Flow α} (h : KeepsBytes t m) (ht : BytesKept s t) : KeepsBytes s m :=
  all_mono h (fun _ _ => ht.trans) (fun _ _ => ht.trans) (fun _ _ => ht.trans) fun _ => id

theorem KeepsBytes.bind {α β : Type} {m : Flow α} {k : α → State → Flow β} (h : KeepsBytes s m)
    (hk : ∀ a t, KeepsBytes t (k a t)) : KeepsBytes s (m.bind k) :=
  all_bind (all_mono h (fun a t ht => (hk a t).of_kept ht) (fun _ _ => id) (fun _ _ => id) fun _ => id)

theorem put_keepsBytes (v : Byte) (p : Point) : KeepsBytes s (put v p s) :=
  put_all (fun rest _ => bytesKept_appended v rest) (fun _ _ => .refl s) fun _ => .refl s

theorem packPatch_keepsBytes : KeepsBytes s (packPatch s) :=
  snkPatch_all (fun rest _ => bytesKept_patchedState _ rest) (fun _ _ => .refl s) (fun _ => .refl s) fun _ => trivial

theorem packEnd_keepsBytes (acc : Byte) (held : Nat) : KeepsBytes s (packEnd acc held s) := by
  rw [packEnd]
  split
  · exact (put_keepsBytes _ _).bind fun _ t => packPatch_keepsBytes.of_kept (.refl t)
  · exact packPatch_keepsBytes.of_kept (.refl s)

theorem packBits_keepsBytes (todo : Bits) (acc : Byte) (held : Nat) : KeepsBytes s (packBits todo acc held s) :=
  packBits_all (J := fun _ _ => BytesKept s) (fun _ _ _ h => h) (fun _ _ _ _ h _ => h)
    (fun v _ _ _ rest _ h _ _ => h.trans (bytesKept_appended v rest)) (fun _ _ _ _ _ h _ => h)
    (fun _ _ _ _ _ h _ _ => h) (.refl s)

theorem packLoop_keepsBytes (items : List SrcItem) (acc : Byte) (held : Nat) :
    KeepsBytes s (packLoop items acc held s) :=
  packLoop_all (I := fun _ _ => BytesKept s) (fun _ _ _ h => h) (fun _ _ _ h => h)
    (fun _ acc held _ h => (packEnd_keepsBytes acc held).of_kept h) (fun _ _ _ _ h _ => h)
    (fun _ code _ acc held _ h _ => (packBits_keepsBytes code acc held).of_kept h) (.refl s)

theorem packBody_keepsBytes : KeepsBytes s (packBody s) :=
  (packLoop_keepsBytes _ 0 0).of_kept (.refl s)

theorem bytesKept_of_pack (h : performAll [.pack] s = .next t) : BytesKept s t := by
  have hbody : KeepsBytes (started .pack s) (stageBody .pack (started .pack s)) := packBody_keepsBytes
  rcases performAll_cons_cases h with ⟨-, rfl⟩ | ⟨-, ⟨p, u, hu, rfl⟩ | ⟨e, u, hu, rfl⟩ | ⟨u, hu, hrest⟩⟩
  · exact .refl s
  · rw [hu] at hbody; exact hbody
  · rw [hu] at hbody; exact hbody
  · rw [hu] at hbody
    obtain rfl := Host.Outcome.next.inj hrest
    exact hbody

/-! ### The flags that a DECOMPRESS leaves (R135, R231) -/

theorem flags_of_decompress (h : performAll decompressStages s = .next t) (hidle : t.busy = false) :
    t.ft = false ∧ t.fd = false ∧ ((t.curOp = 0x7 ∧ t.fh = false) ∨ (t.curOp = 0x6 ∧ t.err = true ∧ t.fh = s.fh)) := by
  have field {α : Type} {st : Stage} {v w : State} (g : State → α) (hg : ∀ v, g (outside st v) = g v)
      (hv : outside st v = outside st (portsOpened st (started st w))) : g v = g (portsOpened st (started st w)) :=
    eq_of_outside g hg hv
  rcases performAll_cons_cases h with ⟨hpre, -⟩ | ⟨-, ⟨p, u, -, rfl⟩ | ⟨e, u, hu, rfl⟩ | ⟨u, hu, hrest⟩⟩
  · cases hpre
  · cases hidle
  · obtain ⟨-, hout⟩ := outside_of_raise hu
    have hft : u.ft = false := field State.ft (outside_ft _) hout
    have hfd : u.fd = false := field State.fd (outside_fd _) hout
    have hfh : u.fh = s.fh := field State.fh (outside_fh _) hout
    have hop : u.curOp = 0x6 := field State.curOp (outside_curOp _) hout
    exact ⟨hft, hfd, .inr ⟨hop, rfl, hfh⟩⟩
  · have hout := outside_of_done hu
    have hft : u.ft = false := field State.ft (outside_ft _) hout
    rcases performAll_cons_cases hrest with ⟨hpre, -⟩ | ⟨-, ⟨p, v, -, rfl⟩ | ⟨e, v, hv, rfl⟩ | ⟨v, hv, hend⟩⟩
    · cases hpre
    · cases hidle
    · obtain ⟨-, hout'⟩ := outside_of_raise hv
      have hft' : v.ft = u.ft := field State.ft (outside_ft _) hout'
      have hfh : v.fh = false := field State.fh (outside_fh _) hout'
      have hop : v.curOp = 0x7 := field State.curOp (outside_curOp _) hout'
      exact ⟨hft'.trans hft, rfl, .inl ⟨hop, hfh⟩⟩
    · have hout' := outside_of_done hv
      have hft' : v.ft = u.ft := field State.ft (outside_ft _) hout'
      have hfh : v.fh = false := field State.fh (outside_fh _) hout'
      have hop : v.curOp = 0x7 := field State.curOp (outside_curOp _) hout'
      obtain rfl := Host.Outcome.next.inj hend
      exact ⟨hft'.trans hft, rfl, .inl ⟨hop, hfh⟩⟩

end

/-! ### The errors (R134, R242, R243) -/

/-- When the one stage has ended with success, the precondition of the other holds (R134, R135). -/
def Enables (st st' : Stage) : Prop := ∀ u, pre st' (finishStage st u) = true

theorem stagesOf_enabled (i : Instr) : List.IsChain Enables (stagesOf i) := by
  cases i with
  | compress => exact .cons_cons (fun _ => rfl) (.cons_cons (fun _ => rfl) (.cons_cons (fun _ => rfl)
      (.cons_cons (fun _ => rfl) (.singleton _))))
  | decompress => exact .cons_cons (fun _ => rfl) (.singleton _)
  | _ => exact .singleton _

section
variable {s t : State}

/-- An error that a run records is one of the stage in which it ends, or it is the first stage's precondition that
fails. -/
theorem error_of_performAll {stages : List Stage} (hchain : List.IsChain Enables stages) (hinfo : s.errInfo = 0)
    (h : performAll stages s = .next t) (hne : t.errInfo ≠ 0) :
    (∃ st ∈ stages, ∃ e ∈ bodyErrors st, t.errInfo = errWord t.curOp e) ∨
    ∃ st ∈ stages.head?, pre st s = false ∧ t.errInfo = errWord st.op .sequenceError := by
  induction stages generalizing s with
  | nil =>
    obtain rfl := Host.Outcome.next.inj h
    exact absurd hinfo hne
  | cons st rest ih =>
    have info_of {u : State} (hu : outside st u = outside st (portsOpened st (started st s))) : u.errInfo = 0 := by
      have hopened : (portsOpened st (started st s)).errInfo = s.errInfo := by cases st <;> rfl
      exact (eq_of_outside State.errInfo (outside_errInfo st) hu).trans (hopened.trans hinfo)
    rcases performAll_cons_cases h with ⟨hpre, rfl⟩ | ⟨-, ⟨p, u, hu, rfl⟩ | ⟨e, u, hu, rfl⟩ | ⟨u, hu, hrest⟩⟩
    · exact .inr ⟨st, rfl, hpre, by simp⟩
    · exact absurd (info_of (outside_of_wait hu).2) hne
    · exact .inl ⟨st, List.mem_cons_self, e, (outside_of_raise hu).1, by simp⟩
    · have hfinish : (finishStage st u).errInfo = 0 := by simpa using info_of (outside_of_done hu)
      rcases ih hchain.tail hfinish hrest with ⟨st', hst', herr⟩ | ⟨st', hst', hpre, -⟩
      · exact .inl ⟨st', List.mem_cons_of_mem _ hst', herr⟩
      · have henables := hchain.rel_head? hst'
        rw [henables u] at hpre
        cases hpre

theorem errWord_code (op : BitVec 4) (e : ErrKind) : (errWord op e).extractLsb' 0 8 = e.code := by
  simp (disch := decide) only [errWord, BitVec.extractLsb'_append_eq_of_add_le]
  exact BitVec.extractLsb'_eq_self

end

end Sys2Proof.Machine

/-! ### The obligations -/

namespace Sys2Proof.Proofs

open Sys2Proof.Machine

/-- Settles O54: each part of the state is kept by the commands none of whose stages writes it; the objects, PACK's
bytes and DECOMPRESS's flags are followed through their stages. -/
theorem commandFrames : Obligations.CommandFrames := by
  unfold Obligations.CommandFrames
  intro i s t h
  refine ⟨host_side_kept h, counts_kept h, codes_kept h, list_kept h, tree_kept h, decNsym_kept h, payloadStart_kept h,
    headerEnd_kept h, lastBits_kept h, source_kept h, sink_kept h, fun hi => ?begun, ?pack, ft_kept h, fc_kept h,
    fh_kept h, fd_kept h, ?decompress⟩
  case begun =>
    rw [exec_eq_performAll] at h
    refine begun_iff.mp ?_
    simp only [List.mem_cons, List.not_mem_nil, or_false] at hi
    rcases hi with rfl | rfl | rfl | rfl
    · exact begun_of_single_opener (st := .writeHdr) (by decide) h
    · exact begun_of_single_opener (st := .unpack) (by decide) h
    · exact begun_of_compress h
    · exact begun_of_decompress h
  case pack =>
    rintro rfl
    obtain ⟨-, -, hbytes⟩ := bytesKept_of_pack h
    exact ⟨objects_of_pack h, pack_snkNext_kept h rfl, hbytes⟩
  case decompress =>
    rintro rfl
    exact flags_of_decompress h

/-- Settles O53: a body raises the errors of its row alone, and no stage of a pipeline is refused. -/
theorem errorsOfEachCommand : Obligations.ErrorsOfEachCommand := by
  unfold Obligations.ErrorsOfEachCommand
  intro i s t hinfo h hne
  rw [exec_eq_performAll] at h
  rcases error_of_performAll (s := { s with curOp := i.opcode }) (stagesOf_enabled i) hinfo h hne with
    ⟨st, hst, e, he, hword⟩ | ⟨st, hst, hpre, hword⟩
  · rw [hword, errWord_code]
    clear h hword
    revert st e
    cases i <;> decide
  · rw [hword, errWord_code]
    have hhead : (stagesOf i).head? = some st := hst
    have hguarded : st ≠ .nop ∧ st ≠ .count ∧ st ≠ .readHdr := by
      refine ⟨?_, ?_, ?_⟩ <;> (rintro rfl; cases hpre)
    clear h hword hst hpre
    revert st
    cases i <;> decide

end Sys2Proof.Proofs
end

section
/-! PROOFS. A READ_HDR between WRITE_HDR and PACK (20_memory.md R81, 45_bit_packer.md R213, 70_reset_and_hazards.md
R280). -/

set_option autoImplicit false

namespace Sys2Proof.Machine

theorem toNat_ofNat_headerBytes {ct : Table (Option Bits)} (h : CodesBounded ct) :
    (BitVec.ofNat 32 (headerBytes ct).length).toNat = (headerBytes ct).length := by
  have hmax := headerBytes_le h
  rw [BitVec.toNat_ofNat, Nat.mod_eq_of_lt (by omega)]

theorem ofNat_headerBytes_ne_zero {ct : Table (Option Bits)} (h : CodesBounded ct) :
    BitVec.ofNat 32 (headerBytes ct).length ≠ 0 := by
  intro hzero
  have hlen := (toNat_ofNat_headerBytes h).symm.trans (congrArg BitVec.toNat hzero)
  have hmin : 3 ≤ (headerBytes ct).length := headerBytes_length ct ▸ Nat.le_add_right 3 _
  exact absurd hlen (Nat.ne_of_gt (Nat.lt_of_lt_of_le (by decide) hmin))

/-- PACK onto the header that stands in the object, the patch being its placeholder's (R213). -/
theorem packBody_container {s : State} {ct : Table (Option Bits)} {bs : List Byte} {later : List SrcItem}
    {sess : List (List SrcItem)}
    {answers : List SnkAnswer} {old : List (List Byte)} (hct : s.ct = ct) (hbound : CodesBounded ct)
    (hobj : s.objects = headerBytes ct :: old) (hend : s.headerEnd = BitVec.ofNat 32 (headerBytes ct).length)
    (hpos : s.snkPos = BitVec.ofNat 64 (headerBytes ct).length) (hsrc : s.srcNext = deliver bs .eof later :: sess)
    (hc : ∀ b ∈ bs, tget ct b ≠ none)
    (hsnk : s.snk = some (okThen (((payloadBits ct bs).length + 7) / 8 + 1) answers)) :
    packBody s = .done () { s with
      src := some later, srcNext := sess, srcPos := BitVec.ofNat 64 bs.length
      objects := containerOf ct bs :: old, snk := some answers
      snkPos := BitVec.ofNat 64 (containerOf ct bs).length
      lastBits := BitVec.ofNat 4 (lastBitsFor (payloadBits ct bs).length) } := by
  subst hct
  have hnat := toNat_ofNat_headerBytes hbound
  rw [← hend] at hnat
  have hbody := packBody_ok hobj hsrc hc hsnk (hend ▸ ofNat_headerBytes_ne_zero hbound) (hnat ▸ Nat.le_add_right _ _)
  rw [hnat, set_headerBytes, hpos, ← BitVec.ofNat_add, ← containerOf_length] at hbody
  exact hbody

end Sys2Proof.Machine

/-! ### The obligations -/

namespace Sys2Proof.Proofs

open Sys2Proof.Machine

/-- Settles O39: WRITE_HDR leaves the header and its end, READ_HDR keeps the code table, the sink and that end, and PACK
packs onto them. -/
theorem packAfterReadHdr : Obligations.PackAfterReadHdr := by
  unfold Obligations.PackAfterReadHdr
  intro s t u bs later sess answers snks hfc hbound hsnk hwrite hread hidle hsrc hc
  rw [okThen_add] at hsnk
  obtain rfl := Host.Outcome.next.inj
    ((performAll_single_of_done (st := .writeHdr) hfc
      (writeHdrBody_ok (s := started .writeHdr s) hsnk)).symm.trans hwrite)
  obtain ⟨hsnk', -, hpos, hobj⟩ := sink_kept hread (by decide)
  have hct : u.ct = s.ct := (codes_kept hread (by decide) (by decide) :)
  have hend : u.headerEnd = BitVec.ofNat 32 (headerBytes s.ct).length := headerEnd_kept hread (by decide) (by decide)
  have hfh : u.fh = true := fh_kept hread (by decide)
  exact performAll_single_of_done (st := .pack) (s := accept (encode .pack) u) hfh
    (packBody_container (s := started .pack (accept (encode .pack) u)) hct hbound hobj hend hpos hsrc hc hsnk')

end Sys2Proof.Proofs
end

section
/-! PROOFS. The exact runs of UNPACK (45_bit_packer.md R215 to R220): the payload that is decoded to its end, and the
places where the walk or a port stops it. -/

set_option autoImplicit false

namespace Sys2Proof.Machine

/-! ### Paths -/

/-- The last bit of a leaf's path is taken at an inner node. -/
theorem exists_node_of_descend_concat {t : Trie} {c : Bits} {b : Bool} {sym : Byte}
    (h : t.descend (c ++ [b]) = .leaf sym) : ∃ l r, t.descend c = .node l r := by
  rw [descend_append] at h
  cases ht : t.descend c with
  | none => rw [ht] at h; cases h
  | leaf s => rw [ht] at h; cases h
  | node l r => exact ⟨l, r, rfl⟩

/-- An absent child of a tree is an absent link of its record. -/
theorem child_eq_none_of_isTrie {arena : List Node} {x : Nat} {l r : Trie} {b : Bool}
    (h : IsTrie arena (some x) (.node l r)) (hb : (if b then r else l) = .none) :
    ∃ n, arena[x]? = some n ∧ n.child b = none := by
  obtain ⟨wt, lo, ro, hx, hl, hr⟩ := isTrie_node h
  refine ⟨_, hx, ?_⟩
  cases b with
  | false =>
    rw [if_neg (by decide)] at hb
    subst hb
    cases hl
    rfl
  | true =>
    rw [if_pos rfl] at hb
    subst hb
    cases hr
    rfl

section
variable {s : State} {tl tr l r : Trie} {coded : List (Byte × Bits)} {root : Nat} {c : Bits}

/-- Codes one after another and then a path to an inner node. -/
theorem walkTo_coded_inner {arena : List Node} (ht : IsTrie arena (some root) (.node tl tr))
    (hcoded : ∀ p ∈ coded, (Trie.node tl tr).lookup p.2 = some p.1) (hc : (Trie.node tl tr).descend c = .node l r) :
    ∃ x, IsTrie arena (some x) (.node l r) ∧
      walkTo arena root (coded.flatMap Prod.snd ++ c) root = some (coded.map Prod.fst, x) := by
  obtain ⟨x, hx, hwalk⟩ := walkTo_inner root ht hc
  refine ⟨x, hx, ?_⟩
  have := walkTo_append arena root _ _ root (walkTo_coded ht coded hcoded) hwalk
  rwa [List.append_nil] at this

/-- A place below the root is another record than the root's. -/
theorem ne_root_of_descend {arena : List Node} {x : Nat} (ht : IsTrie arena (some root) (.node tl tr))
    (hx : IsTrie arena (some x) (.node l r)) (hc : (Trie.node tl tr).descend c = .node l r) (hne : c ≠ []) :
    x ≠ root := by
  rintro rfl
  exact descend_ne_self hne (hc.trans (isTrie_unique hx ht))

end

/-! ### Where the walk stops -/

/-- An error that ends the walk does so whatever bits follow. -/
theorem walkBits_append_of_raise {root : Nat} {ahead : Option Byte} {bits : Bits} {cur : Nat}
    {e : ErrKind} {s u : State}
    (h : walkBits root ahead bits cur s = .raise e u) (more : Bits) :
    walkBits root ahead (bits ++ more) cur s = .raise e u := by
  induction bits generalizing cur s with
  | nil => cases h
  | cons b bits ih =>
    rw [List.cons_append, walkBits]
    rw [walkBits] at h
    cases hn : s.arena[cur]? with
    | none => simp only [hn] at h; cases h
    | some n =>
      simp only [hn] at h ⊢
      cases hy : n.child b with
      | none => simp only [hy] at h ⊢; exact h
      | some y =>
        simp only [hy] at h ⊢
        rcases hl : s.arena[y]? with _ | (⟨sym, wt⟩ | ⟨wt, l, r⟩)
        · simp only [hl] at h; cases h
        · simp only [hl] at h ⊢
          rcases put_cases sym (.unpackPut sym bits ahead) s with ⟨rest, hsnk, hput⟩ | ⟨rest, hsnk, hput⟩ | ⟨-, hput⟩
          · rw [hput, bind_done] at h
            rw [put_ok _ _ hsnk, bind_done]
            exact ih h
          · rw [hput, bind_raise] at h
            rw [put_fail _ _ hsnk, bind_raise]
            exact h
          · rw [hput] at h; cases h
        · simp only [hl] at h ⊢
          exact ih h

/-- A walk cut at a byte's end `d`, with the symbol that its last bit reaches after the cut. -/
theorem walkTo_cut {arena : List Node} {root x c₂ cur : Nat} {d y p more : Bits} {before syms : List Byte}
    (hbits : d ++ y = p ++ more) (hlen : d.length < p.length)
    (hbefore : walkTo arena root p.dropLast cur = some (before, x))
    (hw : walkTo arena root p cur = some (syms, c₂)) :
    ∃ p₂ sa ca sb, y = p₂ ++ more ∧ walkTo arena root d cur = some (sa, ca) ∧
      walkTo arena root p₂ ca = some (sb, c₂) ∧ syms = sa ++ sb ∧ sa.length ≤ before.length := by
  obtain ⟨p₂, rfl, hy⟩ : ∃ p₂, p = d ++ p₂ ∧ y = p₂ ++ more := by
    rcases List.append_eq_append_iff.mp hbits with ⟨as, h1, h2⟩ | ⟨as, h1, h2⟩
    · exact ⟨as, h1, h2⟩
    · have := congrArg List.length h1
      rw [List.length_append] at this
      omega
  have hne : p₂ ≠ [] := by rintro rfl; simp at hlen
  rw [List.dropLast_append_of_ne_nil hne] at hbefore
  obtain ⟨sa, ca, sb, h1, h2, rfl⟩ := walkTo_split _ _ _ _ _ hw
  obtain ⟨sa', ca', sb', h1', -, rfl⟩ := walkTo_split _ _ _ _ _ hbefore
  obtain ⟨rfl, -⟩ : sa' = sa ∧ ca' = ca := by simpa [h1] using h1'.symm
  exact ⟨p₂, sa', ca, sb, hy, h1, h2, rfl, by simp⟩

section
variable {s : State} {root : Nat} {held v : Byte} {bs : List Byte} {tail later : List SrcItem} {p more : Bits}
  {cur x c₂ : Nat} {before syms : List Byte} {answers : List SnkAnswer}

theorem length_flatMap_byteBits (bs : List Byte) : (bs.flatMap byteBits).length = 8 * bs.length := by
  simp [List.length_flatMap, Nat.mul_comm]

theorem length_flatMap_dropLast (held : Byte) (bs : List Byte) :
    ((held :: bs).dropLast.flatMap byteBits).length = 8 * bs.length := by
  rw [length_flatMap_byteBits, List.length_dropLast, List.length_cons, Nat.add_sub_cancel]

/-- The append of the symbol that the last of the bits `p` reaches, in the last byte of `held :: bs`, is refused, the
byte `v` standing after it (R215, R244). -/
theorem unpackLoop_put_fail_ahead (ho : s.objects ≠ []) (hsrc : s.src = some (bs.map SrcItem.byte ++ .byte v :: tail))
    (hbits : (held :: bs).flatMap byteBits = p ++ more) (hlen : (p.length - 1) / 8 = bs.length) (hne : p ≠ [])
    (hbefore : walkTo s.arena root p.dropLast cur = some (before, x))
    (hw : walkTo s.arena root p cur = some (syms, c₂)) (hlt : before.length < syms.length)
    (h : s.snk = some (okThen before.length (.fail :: answers))) :
    unpackLoop root (bs.map SrcItem.byte ++ .byte v :: tail) held cur s
      = .raise .sinkUnavailable
          (appendedAll (syms.take before.length) answers (tookAll (bs.length + 1) tail s)) := by
  have hpos := List.length_pos_of_ne_nil hne
  rw [← List.dropLast_append_getLast (List.cons_ne_nil held bs), List.flatMap_append, List.flatMap_singleton] at hbits
  obtain ⟨p₂, sa, ca, sb, hy, h1, h2, rfl, hle⟩ :=
    walkTo_cut hbits (by rw [length_flatMap_dropLast]; omega) hbefore hw
  obtain ⟨j, hj⟩ := Nat.exists_eq_add_of_le hle
  rw [hj, List.length_append] at hlt
  rw [hj, okThen_add] at h
  have hfail := walkBits_append_of_raise (walkBits_fail (some v) p₂ (k := j) (rest := answers)
    (s := tookByte tail (appendedAll sa (okThen j (.fail :: answers)) (tookAll bs.length (.byte v :: tail) s)))
    h2 nofun (by omega) rfl) more
  rw [unpackLoop_bytes root bs held ho hsrc h1 h, unpackLoop, hy, hfail, bind_raise, hj, List.take_length_add_append,
    ← appendedAll_appendedAll sa (sb.take j) (okThen j (.fail :: answers))]
  simp [appendedAll, tookByte, tookAll, curObject, BitVec.ofNat_add, BitVec.add_assoc]

/-- The same with the end of the payload after that byte. -/
theorem unpackLoop_put_fail_eof (ho : s.objects ≠ []) (hsrc : s.src = some (deliver bs .eof later))
    (hbits : meaningfulBits (held :: bs) s.lastBits.toNat = p ++ more) (hlen : (p.length - 1) / 8 = bs.length)
    (hne : p ≠ []) (hbefore : walkTo s.arena root p.dropLast cur = some (before, x))
    (hw : walkTo s.arena root p cur = some (syms, c₂)) (hlt : before.length < syms.length)
    (h : s.snk = some (okThen before.length (.fail :: answers))) :
    unpackLoop root (deliver bs .eof later) held cur s
      = .raise .sinkUnavailable (appendedAll (syms.take before.length) answers (tookAll bs.length later s)) := by
  have hpos := List.length_pos_of_ne_nil hne
  rw [meaningfulBits_eq (by simp)] at hbits
  obtain ⟨p₂, sa, ca, sb, hy, h1, h2, rfl, hle⟩ :=
    walkTo_cut hbits (by rw [length_flatMap_dropLast]; omega) hbefore hw
  obtain ⟨j, hj⟩ := Nat.exists_eq_add_of_le hle
  rw [hj, List.length_append] at hlt
  rw [hj, okThen_add] at h
  have hfail := walkBits_append_of_raise (walkBits_fail none p₂ (k := j) (rest := answers)
    (s := appendedAll sa (okThen j (.fail :: answers)) (tookAll bs.length later s)) h2 nofun (by omega) rfl) more
  rw [deliver, unpackLoop_bytes root bs held ho hsrc h1 h, unpackLoop, tookFinal_appendedAll_tookAll,
    show (appendedAll sa (okThen j (.fail :: answers)) (tookAll bs.length (.eof :: later) s)).lastBits =
      s.lastBits from rfl,
    hy, hfail, bind_raise, hj, List.take_length_add_append, appendedAll_appendedAll]

end

/-! ### The state UNPACK ends its body in -/

section
variable {s : State} {root : Nat} {tl tr l r : Trie} {coded : List (Byte × Bits)} {c : Bits} {payload : List Byte}
  {later : List SrcItem} {answers ready : List SnkAnswer} {sess : List (List SnkAnswer)}

/-- The state in which UNPACK has taken `n` bytes, `rest` being left of the session, and appended `out`. -/
def unpacking (n : Nat) (rest : List SrcItem) (out : List Byte) (answers : List SnkAnswer)
    (sess : List (List SnkAnswer)) (s : State) : State :=
  { s with
    objects := out :: s.objects, snk := some answers, snkNext := sess, snkPos := BitVec.ofNat 64 out.length
    src := some rest, srcPos := s.srcPos + BitVec.ofNat 64 n }

theorem appendedAll_snkOpen (hsnk : s.snkNext = ready :: sess) (n : Nat) (rest : List SrcItem) (out : List Byte) :
    appendedAll out answers (tookAll n rest (snkOpen s)) = unpacking n rest out answers sess s := by
  simp [appendedAll, tookAll, unpacking, curObject, hsnk]

theorem exec_unpack_of_unpacking {n : Nat} {rest : List SrcItem} {out : List Byte} (hfd : s.fd = true)
    (hbody : unpackBody (started .unpack s) = .done () (unpacking n rest out answers sess (started .unpack s))) :
    exec .unpack s = .next { s with
      objects := out :: s.objects, snk := some answers, snkNext := sess, snkPos := BitVec.ofNat 64 out.length
      src := some rest, srcPos := s.srcPos + BitVec.ofNat 64 n
      fh := false, fd := false, curOp := 0x7, run := .idle, done := true } :=
  performAll_single_of_done (st := .unpack) hfd hbody

theorem exec_unpack_of_raise {n : Nat} {rest : List SrcItem} {out : List Byte} {e : ErrKind} (hfd : s.fd = true)
    (hbody : unpackBody (started .unpack s) = .raise e (unpacking n rest out answers sess (started .unpack s))) :
    exec .unpack s = .next { s with
      objects := out :: s.objects, snk := some answers, snkNext := sess, snkPos := BitVec.ofNat 64 out.length
      src := some rest, srcPos := s.srcPos + BitVec.ofNat 64 n, fh := false, fd := false
      curOp := 0x7, errInfo := errWord 0x7 e, err := true, done := false, run := .idle } :=
  performAll_single_of_raise (st := .unpack) hfd hbody

/-- A payload cut after the byte at place `q` and the one that follows it, and the items that deliver it. -/
theorem exists_payload_split {q : Nat} (h : q + 1 < payload.length) (rest : List SrcItem) :
    ∃ held bs v after, payload = held :: bs ++ v :: after ∧ bs.length = q ∧
      payload.map SrcItem.byte ++ rest
        = .byte held :: (bs.map SrcItem.byte ++ .byte v :: (after.map SrcItem.byte ++ rest)) ∧
      (payload.map SrcItem.byte ++ rest).drop (q + 2) = after.map SrcItem.byte ++ rest := by
  obtain ⟨held, bytes, rfl⟩ := List.exists_cons_of_ne_nil (List.ne_nil_of_length_pos (Nat.zero_lt_of_lt h))
  rw [List.length_cons] at h
  obtain ⟨v, after, hdrop⟩ := List.exists_cons_of_ne_nil
    (List.ne_nil_of_length_pos (l := bytes.drop q) (by rw [List.length_drop]; omega))
  obtain ⟨bs, rfl, rfl⟩ : ∃ bs, bytes = bs ++ v :: after ∧ bs.length = q :=
    ⟨bytes.take q, by rw [← hdrop, List.take_append_drop], by rw [List.length_take]; omega⟩
  have hitems : (held :: (bs ++ v :: after)).map SrcItem.byte ++ rest
      = .byte held :: (bs.map SrcItem.byte ++ .byte v :: (after.map SrcItem.byte ++ rest)) := by simp
  refine ⟨held, bs, v, after, rfl, rfl, hitems, ?_⟩
  rw [hitems, List.drop_succ_cons, ← List.length_map (as := bs) SrcItem.byte, List.drop_length_add_append]
  rfl

theorem map_fst_take_succ (coded : List (Byte × Bits)) (k : Nat) :
    ((coded.take (k + 1)).map Prod.fst).take k = (coded.take k).map Prod.fst := by
  rw [← List.map_take, List.take_take, Nat.min_eq_left (Nat.le_succ k)]

theorem flatMap_snd_take_drop (coded : List (Byte × Bits)) (k : Nat) (more : Bits) :
    coded.flatMap Prod.snd ++ more
      = (coded.take k).flatMap Prod.snd ++ ((coded.drop k).flatMap Prod.snd ++ more) := by
  rw [← List.append_assoc, ← List.flatMap_append, List.take_append_drop]

/-- Bits that fill no more than the first bytes stand in them. -/
theorem flatMap_byteBits_prefix {first after : List Byte} {p more : Bits}
    (hbits : (first ++ after).flatMap byteBits = p ++ more) (hlen : p.length ≤ 8 * first.length) :
    ∃ more', first.flatMap byteBits = p ++ more' := by
  rw [List.flatMap_append] at hbits
  have hfirst := length_flatMap_byteBits first
  rcases List.append_eq_append_iff.mp hbits with ⟨as, h1, -⟩ | ⟨as, h1, -⟩
  · have := congrArg List.length h1
    rw [List.length_append] at this
    have has : as = [] := List.eq_nil_of_length_eq_zero (by omega)
    exact ⟨[], by rw [h1, has, List.append_nil, List.append_nil]⟩
  · exact ⟨as, h1⟩

section
variable (hn : s.decNsym ≠ 0) (hroot : s.root = some root) (ht : IsTrie s.arena (some root) (.node tl tr))
  (hcoded : ∀ p ∈ coded, (Trie.node tl tr).lookup p.2 = some p.1)
include hn hroot ht hcoded

/-- The whole payload is decoded (R215, R220). -/
theorem unpackBody_ok (hne : payload ≠ [])
    (hbits : meaningfulBits payload s.lastBits.toNat = coded.flatMap Prod.snd)
    (hsrc : s.src = some (deliver payload .eof later)) (hsnk : s.snkNext = okThen coded.length answers :: sess) :
    unpackBody s = .done () (unpacking payload.length later (coded.map Prod.fst) answers sess s) := by
  rw [unpackBody_coded hn hroot ht hcoded hne hbits hsrc hsnk, appendedAll_snkOpen hsnk]

/-- The payload ends inside the tree (R218). -/
theorem unpackBody_truncated (hc : (Trie.node tl tr).descend c = .node l r) (hcne : c ≠ []) (hne : payload ≠ [])
    (hbits : meaningfulBits payload s.lastBits.toNat = coded.flatMap Prod.snd ++ c)
    (hsrc : s.src = some (deliver payload .eof later)) (hsnk : s.snkNext = okThen coded.length answers :: sess) :
    unpackBody s
      = .raise .truncatedPayload (unpacking payload.length later (coded.map Prod.fst) answers sess s) := by
  obtain ⟨v, bs, rfl⟩ := List.exists_cons_of_ne_nil hne
  obtain ⟨x, hx, hwalk⟩ := walkTo_coded_inner ht hcoded hc
  rw [← hbits] at hwalk
  have hloop := unpackLoop_eof root bs v (later := later) (rest := answers)
    (s := tookByte (deliver bs .eof later) (snkOpen s)) (by simp) rfl hwalk (by simp [hsnk])
  rw [tookAll_tookByte, unpackEnd, if_neg (ne_root_of_descend ht hx hc hcne), appendedAll_snkOpen hsnk] at hloop
  exact (unpackBody_bytes hn hroot hsrc).trans hloop

/-- A lookahead fails after the bytes `before` were decoded (R217). -/
theorem unpackBody_lookahead_fail {before : List Byte} {held : Byte} (hc : (Trie.node tl tr).descend c = .node l r)
    (hbits : before.flatMap byteBits = coded.flatMap Prod.snd ++ c)
    (hsrc : s.src = some (deliver (before ++ [held]) .fail later))
    (hsnk : s.snkNext = okThen coded.length answers :: sess) :
    unpackBody s
      = .raise .sourceUnavailable (unpacking (before.length + 1) later (coded.map Prod.fst) answers sess s) := by
  obtain ⟨v, bs, hpayload⟩ := List.exists_cons_of_ne_nil
    (List.append_ne_nil_of_right_ne_nil before (List.cons_ne_nil held []))
  have hbefore : (v :: bs).dropLast = before := by rw [← hpayload, List.dropLast_concat]
  have hlen : before.length + 1 = bs.length + 1 := by
    simpa using congrArg List.length hpayload
  obtain ⟨x, hx, hwalk⟩ := walkTo_coded_inner ht hcoded hc
  rw [← hbits, ← hbefore] at hwalk
  rw [hpayload] at hsrc
  have hloop := unpackLoop_fail root bs v (later := later) (rest := answers)
    (s := tookByte (deliver bs .fail later) (snkOpen s)) (by simp) rfl hwalk (by simp [hsnk])
  rw [tookAll_tookByte, appendedAll_snkOpen hsnk, ← hlen] at hloop
  exact (unpackBody_bytes hn hroot hsrc).trans hloop

/-- A bit leads to no child, in a payload that ends with EOF (R216). -/
theorem unpackBody_undefined {more : Bits} {b : Bool} (hc : (Trie.node tl tr).descend c = .node l r)
    (hb : (if b then r else l) = .none) (hne : payload ≠ [])
    (hbits : meaningfulBits payload s.lastBits.toNat = coded.flatMap Prod.snd ++ c ++ b :: more)
    (hsrc : s.src = some (deliver payload .eof later)) (hsnk : s.snkNext = okThen coded.length answers :: sess) :
    unpackBody s = .raise .undefinedCode
      (unpacking (min ((coded.flatMap Prod.snd ++ c).length / 8 + 2) payload.length)
        ((deliver payload .eof later).drop ((coded.flatMap Prod.snd ++ c).length / 8 + 2)) (coded.map Prod.fst)
        answers sess s) := by
  obtain ⟨v, bs, rfl⟩ := List.exists_cons_of_ne_nil hne
  obtain ⟨x, hx, hwalk⟩ := walkTo_coded_inner ht hcoded hc
  obtain ⟨n, hxn, hchild⟩ := child_eq_none_of_isTrie hx hb
  have hloop := unpackLoop_undefined root bs v _ more b (later := later) (rest := answers)
    (s := tookByte (deliver bs .eof later) (snkOpen s)) (by simp) hbits hwalk hxn hchild (by simp [hsnk])
  rw [stoppedAt_succ] at hloop
  exact (unpackBody_bytes hn hroot hsrc).trans (hloop.trans (congrArg _ (appendedAll_snkOpen hsnk _ _ _)))

/-- A bit leads to no child, the byte after its own being there (R216). -/
theorem unpackBody_undefined_ahead {more : Bits} {b : Bool} {rest : List SrcItem}
    (hc : (Trie.node tl tr).descend c = .node l r) (hb : (if b then r else l) = .none)
    (hbits : payload.flatMap byteBits = coded.flatMap Prod.snd ++ c ++ b :: more)
    (hsrc : s.src = some (payload.map SrcItem.byte ++ rest))
    (hlt : (coded.flatMap Prod.snd ++ c).length / 8 + 1 < payload.length)
    (hsnk : s.snkNext = okThen coded.length answers :: sess) :
    unpackBody s = .raise .undefinedCode
      (unpacking ((coded.flatMap Prod.snd ++ c).length / 8 + 2)
        ((payload.map SrcItem.byte ++ rest).drop ((coded.flatMap Prod.snd ++ c).length / 8 + 2)) (coded.map Prod.fst)
        answers sess s) := by
  obtain ⟨held, bs, v, after, rfl, hlen, hitems, hdrop⟩ := exists_payload_split hlt rest
  obtain ⟨more', hbits'⟩ := flatMap_byteBits_prefix (first := held :: bs) (after := v :: after)
    (p := coded.flatMap Prod.snd ++ c ++ [b]) (more := more) (by simpa using hbits)
    (by rw [List.length_append, List.length_singleton, List.length_cons]; omega)
  obtain ⟨x, hx, hwalk⟩ := walkTo_coded_inner ht hcoded hc
  obtain ⟨n, hxn, hchild⟩ := child_eq_none_of_isTrie hx hb
  rw [hitems] at hsrc
  have hloop := unpackLoop_undefined_ahead root bs held v _ more' b (tail := after.map SrcItem.byte ++ rest)
    (rest := answers) (s := tookByte (bs.map SrcItem.byte ++ .byte v :: (after.map SrcItem.byte ++ rest)) (snkOpen s))
    (by simp) rfl (by simpa using hbits') hlen.symm hwalk hxn hchild (by simp [hsnk])
  rw [tookAll_tookByte, appendedAll_snkOpen hsnk] at hloop
  rw [hdrop, ← hlen]
  exact (unpackBody_bytes hn hroot hsrc).trans hloop

omit hn hroot in
/-- The bits up to the end of symbol `k`'s code, of which the last reaches the symbol. -/
theorem walkTo_symbol {k : Nat} (hk : k < coded.length) :
    (coded.take (k + 1)).flatMap Prod.snd ≠ [] ∧
      walkTo s.arena root ((coded.take (k + 1)).flatMap Prod.snd) root
        = some ((coded.take (k + 1)).map Prod.fst, root) ∧
      ∃ x, walkTo s.arena root ((coded.take (k + 1)).flatMap Prod.snd).dropLast root
        = some ((coded.take k).map Prod.fst, x) := by
  have htake (n : Nat) : ∀ p ∈ coded.take n, (Trie.node tl tr).lookup p.2 = some p.1 :=
    fun p hp => hcoded p (List.mem_of_mem_take hp)
  have hlookup := lookup_eq_some.mp (hcoded coded[k] (List.getElem_mem hk))
  have hcodeNe : coded[k].2 ≠ [] := by
    intro hnil
    rw [hnil] at hlookup
    cases hlookup
  obtain ⟨c', b, hcode⟩ := (List.eq_nil_or_concat' coded[k].2).resolve_left hcodeNe
  rw [hcode] at hlookup
  obtain ⟨l, r, hinner⟩ := exists_node_of_descend_concat hlookup
  obtain ⟨x, -, hwalk⟩ := walkTo_coded_inner ht (htake k) hinner
  have hbits : (coded.take (k + 1)).flatMap Prod.snd = (coded.take k).flatMap Prod.snd ++ c' ++ [b] := by
    rw [List.take_succ_eq_append_getElem hk, List.flatMap_append, List.flatMap_singleton, hcode, List.append_assoc]
  refine ⟨by simp [hbits], walkTo_coded ht _ (htake (k + 1)), x, ?_⟩
  rw [hbits, List.dropLast_concat]
  exact hwalk

/-- The append of symbol `k` is refused, the byte after its last bit's being there (R215, R244). -/
theorem unpackBody_put_fail_ahead {k last : Nat} {more : Bits} {rest : List SrcItem} (hk : k < coded.length)
    (hbits : payload.flatMap byteBits = coded.flatMap Prod.snd ++ more)
    (hsrc : s.src = some (payload.map SrcItem.byte ++ rest)) (hsnk : s.snkNext = okThen k (.fail :: answers) :: sess)
    (hlast : last = (((coded.take (k + 1)).flatMap Prod.snd).length - 1) / 8) (hlt : last + 1 < payload.length) :
    unpackBody s = .raise .sinkUnavailable
      (unpacking (last + 2) ((payload.map SrcItem.byte ++ rest).drop (last + 2)) ((coded.take k).map Prod.fst)
        answers sess s) := by
  obtain ⟨held, bs, v, after, rfl, hlen, hitems, hdrop⟩ := exists_payload_split hlt rest
  obtain ⟨hne, hwalk, x, hbefore⟩ := walkTo_symbol ht hcoded hk
  have hcount : ((coded.take k).map Prod.fst).length = k := by simp [hk.le]
  obtain ⟨more', hbits'⟩ := flatMap_byteBits_prefix (first := held :: bs) (after := v :: after)
    (hbits.trans (flatMap_snd_take_drop coded (k + 1) more)) (by rw [List.length_cons]; omega)
  rw [hitems] at hsrc
  have hloop := unpackLoop_put_fail_ahead (root := root) (held := held) (bs := bs) (v := v)
    (tail := after.map SrcItem.byte ++ rest) (answers := answers)
    (s := tookByte (bs.map SrcItem.byte ++ .byte v :: (after.map SrcItem.byte ++ rest)) (snkOpen s))
    (by simp) rfl hbits' (hlast.symm.trans hlen.symm) hne hbefore hwalk (by simp [hk])
    (by rw [hcount]; simp [hsnk])
  rw [tookAll_tookByte, hcount, map_fst_take_succ, appendedAll_snkOpen hsnk] at hloop
  rw [hdrop, ← hlen]
  exact (unpackBody_bytes hn hroot hsrc).trans hloop

/-- The append of symbol `k` is refused, in a payload that ends with EOF (R215, R244). -/
theorem unpackBody_put_fail {k last : Nat} {more : Bits} (hk : k < coded.length) (hne : payload ≠ [])
    (hbits : meaningfulBits payload s.lastBits.toNat = coded.flatMap Prod.snd ++ more)
    (hsrc : s.src = some (deliver payload .eof later)) (hsnk : s.snkNext = okThen k (.fail :: answers) :: sess)
    (hlast : last = (((coded.take (k + 1)).flatMap Prod.snd).length - 1) / 8) :
    unpackBody s = .raise .sinkUnavailable
      (unpacking (min (last + 2) payload.length) ((deliver payload .eof later).drop (last + 2))
        ((coded.take k).map Prod.fst) answers sess s) := by
  have hwhole : payload.flatMap byteBits = coded.flatMap Prod.snd
      ++ (more ++ (payload.flatMap byteBits).drop (8 * (payload.length - 1) + s.lastBits.toNat)) := by
    rw [← List.append_assoc, ← hbits, meaningfulBits, List.take_append_drop]
  by_cases hlt : last + 1 < payload.length
  · rw [Nat.min_eq_left (by omega)]
    exact unpackBody_put_fail_ahead hn hroot ht hcoded hk hwhole hsrc hsnk hlast hlt
  · obtain ⟨v, bs, rfl⟩ := List.exists_cons_of_ne_nil hne
    obtain ⟨hpne, hwalk, x, hbefore⟩ := walkTo_symbol ht hcoded hk
    have hcount : ((coded.take k).map Prod.fst).length = k := by simp [hk.le]
    rw [flatMap_snd_take_drop coded (k + 1)] at hbits
    have hlen : last = bs.length := by
      have hle := congrArg List.length hbits
      rw [meaningfulBits, List.length_take, length_flatMap_byteBits, List.length_append, List.length_cons] at hle
      rw [List.length_cons] at hlt
      omega
    have hloop := unpackLoop_put_fail_eof (root := root) (held := v) (bs := bs) (later := later) (answers := answers)
      (s := tookByte (deliver bs .eof later) (snkOpen s)) (by simp) rfl hbits (hlast.symm.trans hlen) hpne hbefore hwalk
      (by simp [hk]) (by rw [hcount]; simp [hsnk])
    have hdrop : (deliver (v :: bs) .eof later).drop (last + 2) = later := by
      rw [hlen, deliver, List.map_cons, List.cons_append, List.drop_succ_cons,
        ← List.length_map (as := bs) SrcItem.byte,
        List.drop_length_add_append]
      rfl
    rw [tookAll_tookByte, hcount, map_fst_take_succ, appendedAll_snkOpen hsnk] at hloop
    rw [hdrop, hlen, List.length_cons, Nat.min_eq_right (Nat.le_succ _)]
    exact (unpackBody_bytes hn hroot hsrc).trans hloop

end

end

end Sys2Proof.Machine

/-! ### The obligations -/

namespace Sys2Proof.Proofs

open Sys2Proof.Machine

/-- Settles O42: the symbols come out, and the walk is back at the root at the end. -/
theorem unpackCompletes : Obligations.UnpackCompletes := by
  unfold Obligations.UnpackCompletes
  intro s tl tr coded payload later answers sess hfd hn ht hcoded hne hbits _ _ hsrc hsnk
  obtain ⟨root, hroot⟩ := isTrie_some ht
  rw [hroot] at ht
  have hend := exec_unpack_of_unpacking hfd
    (unpackBody_ok (s := started .unpack s) hn hroot ht hcoded hne hbits hsrc hsnk)
  rw [List.length_map] at hend
  exact hend

/-- Settles O44: the walk stops at the bit, in the byte in which it stands. -/
theorem unpackUndefinedPath : Obligations.UnpackUndefinedPath := by
  unfold Obligations.UnpackUndefinedPath
  rintro s tl tr l r coded c more b payload last answers sess hfd hn ht hcoded hc hb rfl hsnk
  obtain ⟨root, hroot⟩ := isTrie_some ht
  rw [hroot] at ht
  refine ⟨fun later hne hbits _ _ hsrc => ?_, fun rest hbits hsrc hlt => ?_⟩
  · have hend := exec_unpack_of_raise (e := .undefinedCode) hfd
      (unpackBody_undefined (s := started .unpack s) hn hroot ht hcoded hc hb hne hbits hsrc hsnk)
    rw [List.length_map] at hend
    exact hend
  · have hend := exec_unpack_of_raise (e := .undefinedCode) hfd
      (unpackBody_undefined_ahead (s := started .unpack s) hn hroot ht hcoded hc hb hbits hsrc hlt hsnk)
    rw [List.length_map] at hend
    exact hend

/-- Settles O45: the walk stands at an inner node below the root at the end. -/
theorem unpackTruncated : Obligations.UnpackTruncated := by
  unfold Obligations.UnpackTruncated
  intro s tl tr l r coded c payload later answers sess hfd hn ht hcoded hcne hc hne hbits _ _ hsrc hsnk
  obtain ⟨root, hroot⟩ := isTrie_some ht
  rw [hroot] at ht
  have hend := exec_unpack_of_raise (e := .truncatedPayload) hfd
    (unpackBody_truncated (s := started .unpack s) hn hroot ht hcoded hc hcne hne hbits hsrc hsnk)
  rw [List.length_map] at hend
  exact hend

/-- Settles O46: the first read, a lookahead, and the append of a symbol. -/
theorem unpackPortFails : Obligations.UnpackPortFails := by
  unfold Obligations.UnpackPortFails
  intro s tl tr coded later answers sess hfd hn ht hcoded
  obtain ⟨root, hroot⟩ := isTrie_some ht
  rw [hroot] at ht
  refine ⟨fun hsrc => ?first, fun l r c before held hc hbits hsrc hsnk => ?lookahead,
    fun k last more payload hk hne hbits _ _ hsrc hsnk hlast => ?append,
    fun k last more payload rest hk hbits hsrc hsnk hlast hlt => ?appendAhead⟩
  case first =>
    have hbody : unpackBody (started .unpack s) = .raise .sourceUnavailable
        (tookFinal later (snkOpen (started .unpack s))) := by
      have hn' : ¬ s.decNsym = 0#9 := hn
      simp [unpackBody, hn', withRoot, hroot, srcItems, hsrc, unpackFirst]
    exact performAll_single_of_raise (st := .unpack) hfd hbody
  case lookahead =>
    have hend := exec_unpack_of_raise (e := .sourceUnavailable) hfd
      (unpackBody_lookahead_fail (s := started .unpack s) hn hroot ht hcoded hc hbits hsrc hsnk)
    rw [List.length_map] at hend
    exact hend
  case append =>
    have hend := exec_unpack_of_raise (e := .sinkUnavailable) hfd
      (unpackBody_put_fail (s := started .unpack s) hn hroot ht hcoded hk hne hbits hsrc hsnk hlast)
    rw [List.length_map, List.length_take, Nat.min_eq_left hk.le] at hend
    exact hend
  case appendAhead =>
    have hend := exec_unpack_of_raise (e := .sinkUnavailable) hfd
      (unpackBody_put_fail_ahead (s := started .unpack s) hn hroot ht hcoded hk hbits hsrc hsnk hlast hlt)
    rw [List.length_map, List.length_take, Nat.min_eq_left hk.le] at hend
    exact hend

end Sys2Proof.Proofs
end

section
/-! PROOFS. The tree builder and the code assigner in full (42_tree_builder.md R162 to R166, 43_code_assigner.md R180 to
R182): the order of the initial list, the weights of the tree, and the code table as a function of the tree. -/

set_option autoImplicit false

namespace Sys2Proof.Machine

/-! ### The order of the initial list (R162) -/

/-- The order of (weight, symbol). -/
def Before (w : Table Word) (a b : Byte) : Prop := tget w a < tget w b ∨ (tget w a = tget w b ∧ a < b)

theorem betterThan_some {tmp : Table Word} {a s : Byte} :
    betterThan tmp (some a) s = true ↔ tget tmp s ≠ 0 ∧ tget tmp s < tget tmp a := by
  rw [betterThan, Bool.and_eq_true_iff, bne_iff_ne, decide_eq_true_iff]

theorem Before.trans_lt {w : Table Word} {a b c : Byte} (hab : tget w a < tget w b) (h : c = b ∨ Before w b c) :
    Before w a c := by
  rcases h with rfl | h | ⟨h, -⟩
  · exact .inl hab
  · exact .inl (BitVec.lt_trans hab h)
  · exact .inl (h ▸ hab)

/-- What a scan of the ascending symbols `l` finds comes before every other symbol of them that has a weight. -/
theorem scan_finds_first {tmp : Table Word} {l : List Byte} (hl : l.Pairwise (· < ·)) {b : Byte}
    (h : l.foldl (fun best s => if betterThan tmp best s then some s else best) none = some b) :
    b ∈ l ∧ ∀ c ∈ l, tget tmp c ≠ 0 → c = b ∨ Before tmp b c := by
  induction l using List.reverseRecOn generalizing b with
  | nil => cases h
  | append_singleton l s ih =>
    obtain ⟨hl, -, hlast⟩ := List.pairwise_append.mp hl
    have hfound := scanFinds_foldl tmp l
    rw [List.foldl_append, List.foldl_cons, List.foldl_nil] at h
    cases hbest : l.foldl (fun best s => if betterThan tmp best s then some s else best) none with
    | none =>
      rw [hbest] at h hfound
      split at h
      · obtain rfl := Option.some.inj h
        refine ⟨List.mem_append_right _ (List.mem_singleton_self s), fun c hc hne => ?_⟩
        rcases List.mem_append.mp hc with hc | hc
        · exact absurd (hfound c hc) hne
        · exact .inl (List.mem_singleton.mp hc)
      · cases h
    | some a =>
      obtain ⟨hmem, hfirst⟩ := ih hl hbest
      rw [hbest] at h
      by_cases hbetter : betterThan tmp (some a) s = true
      · rw [if_pos hbetter] at h
        obtain rfl := Option.some.inj h
        obtain ⟨-, hlt⟩ := betterThan_some.mp hbetter
        refine ⟨List.mem_append_right _ (List.mem_singleton_self s), fun c hc hne => ?_⟩
        rcases List.mem_append.mp hc with hc | hc
        · exact .inr (.trans_lt hlt (hfirst c hc hne))
        · exact .inl (List.mem_singleton.mp hc)
      · rw [if_neg hbetter] at h
        obtain rfl := Option.some.inj h
        refine ⟨List.mem_append_left _ hmem, fun c hc hne => ?_⟩
        rcases List.mem_append.mp hc with hc' | hc'
        · exact hfirst c hc' hne
        · obtain rfl := List.mem_singleton.mp hc'
          have hle : tget tmp a ≤ tget tmp c := BitVec.not_lt.mp fun hlt => hbetter (betterThan_some.mpr ⟨hne, hlt⟩)
          rcases Nat.lt_or_eq_of_le (BitVec.le_def.mp hle) with hlt | heq
          · exact .inr (.inl (BitVec.lt_def.mpr hlt))
          · exact .inr (.inr ⟨BitVec.eq_of_toNat_eq heq, hlast a hmem c (List.mem_singleton_self c)⟩)

theorem before_of_pickMin {tmp : Table Word} {b : Byte} (h : pickMin tmp = some b) {c : Byte} (hc : tget tmp c ≠ 0) :
    c = b ∨ Before tmp b c :=
  (scan_finds_first symbols_sorted h).2 c (mem_symbols c) hc

/-- The leaves of symbols, as records in order (R162). -/
def leavesOf (w : Table Word) (order : List Byte) : List Node := order.map fun b => .leaf b (tget w b)

theorem nodeWeight_leavesOf {w : Table Word} {order : List Byte} {i : Nat} {b : Byte} (h : order[i]? = some b) :
    nodeWeight (leavesOf w order) i = tget w b := by
  simp [nodeWeight, leavesOf, h, Node.weight]

/-- A node that no node of the list outweighs goes to the list's end (R160). -/
theorem insertOrdered_eq_concat {arena : List Node} {i : Nat} {pl : List Nat}
    (h : ∀ x ∈ pl, ¬ nodeWeight arena i < nodeWeight arena x) : insertOrdered arena i pl = pl ++ [i] := by
  induction pl with
  | nil => rfl
  | cons x pl ih =>
    obtain ⟨hx, hpl⟩ := List.forall_mem_cons.mp h
    rw [insertOrdered_cons_of_not_lt hx, ih hpl, List.cons_append]

/-- The symbols that are left are picked in their order, and go to the end of the list. -/
theorem listInitLoop_sorted {w : Table Word} {n : Nat} {tmp : Table Word} {order : List Byte}
    (hn : (weighted tmp).length ≤ n) (htmp : ∀ b, tget tmp b ≠ 0 → tget tmp b = tget w b)
    (hbefore : ∀ a ∈ order, ∀ b, tget tmp b ≠ 0 → Before w a b) (hsorted : order.Pairwise (Before w)) :
    ∃ order', listInitLoop n tmp (leavesOf w order) (List.range order.length)
        = (leavesOf w order', List.range order'.length) ∧
      order'.Perm (order ++ weighted tmp) ∧ order'.Pairwise (Before w) := by
  induction n generalizing tmp order with
  | zero =>
    have hnone : weighted tmp = [] := List.eq_nil_of_length_eq_zero (Nat.le_zero.mp hn)
    exact ⟨order, rfl, by rw [hnone, List.append_nil], hsorted⟩
  | succ n ih =>
    rw [listInitLoop]
    cases hpick : pickMin tmp with
    | none => exact ⟨order, rfl, by rw [weighted_eq_nil_of_pickMin hpick, List.append_nil], hsorted⟩
    | some b =>
      have hb := tget_ne_zero_of_pickMin hpick
      have hperm := weighted_perm_cons hb
      have hleft {c : Byte} (hc : tget (tset tmp b 0) c ≠ 0) : c ≠ b ∧ tget tmp c ≠ 0 := by
        rw [tget_tset] at hc
        split at hc
        · exact absurd rfl hc
        · exact ⟨‹_›, hc⟩
      have harena : leavesOf w order ++ [.leaf b (tget tmp b)] = leavesOf w (order ++ [b]) := by
        rw [htmp b hb, leavesOf, leavesOf, List.map_append, List.map_singleton]
      have hweight : nodeWeight (leavesOf w (order ++ [b])) order.length = tget w b :=
        nodeWeight_leavesOf List.getElem?_concat_length
      have hlist : insertOrdered (leavesOf w (order ++ [b])) order.length (List.range order.length)
          = List.range (order ++ [b]).length := by
        rw [insertOrdered_eq_concat, List.length_append, List.length_singleton, List.range_succ]
        intro x hx
        have hx := List.mem_range.mp hx
        rw [hweight, nodeWeight_leavesOf (b := order[x])
          ((List.getElem?_append_left hx).trans (List.getElem?_eq_getElem hx))]
        rcases hbefore order[x] (List.getElem_mem hx) b hb with hlt | ⟨heq, -⟩
        · exact BitVec.lt_asymm hlt
        · rw [heq]
          exact BitVec.lt_irrefl _
      have hnew : ∀ c, tget (tset tmp b 0) c ≠ 0 → Before w b c := by
        intro c hc
        obtain ⟨hne, hc⟩ := hleft hc
        have := (before_of_pickMin hpick hc).resolve_left hne
        rwa [Before, htmp b hb, htmp c hc] at this
      obtain ⟨order', hloop, hperm', hsorted'⟩ := ih (tmp := tset tmp b 0) (order := order ++ [b])
        (by rw [hperm.length_eq, List.length_cons] at hn; exact Nat.le_of_succ_le_succ hn)
        (fun c hc => by
          obtain ⟨hne, hc'⟩ := hleft hc
          rw [tget_tset_ne _ _ hne]
          exact htmp c hc')
        (fun a ha c hc => by
          rcases List.mem_append.mp ha with ha | ha
          · exact hbefore a ha c (hleft hc).2
          · exact List.mem_singleton.mp ha ▸ hnew c hc)
        (List.pairwise_append.mpr ⟨hsorted, List.pairwise_singleton _ _, fun a ha c hc =>
          List.mem_singleton.mp hc ▸ hbefore a ha b hb⟩)
      refine ⟨order', ?_, hperm'.trans ?_, hsorted'⟩
      · have hlen : (leavesOf w order).length = order.length := List.length_map ..
        simp only [harena, hlen, hlist]
        exact hloop
      · rw [List.append_assoc, List.singleton_append]
        exact hperm.symm.append_left _

/-- R162: the initial list. -/
theorem listInit_sorted (w : Table Word) :
    ∃ order, listInit w = (leavesOf w order, List.range order.length) ∧ order.Perm (weighted w) ∧
      order.Pairwise (Before w) :=
  listInitLoop_sorted (order := []) ((List.length_filter_le _ _).trans symbols_length.le) (fun _ _ => rfl)
    (fun _ h => absurd h List.not_mem_nil) List.Pairwise.nil

/-! ### The weights of the tree (R164, R166 (c)) -/

/-- The leaves of an arena have their table weights, and the inner records the sums of their children's, which are
there. -/
structure Weighed (w : Table Word) (arena : List Node) : Prop where
  leaves : ∀ (i : Nat) (b : Byte) (wt : Word), arena[i]? = some (Node.leaf b wt) → wt = tget w b
  children : ∀ (i : Nat) (wt : Word) (l r : Nat), arena[i]? = some (Node.inner wt (some l) (some r)) →
    l < arena.length ∧ r < arena.length
  add : WeightsAdd arena

theorem weighed_leavesOf (w : Table Word) (order : List Byte) : Weighed w (leavesOf w order) := by
  have hleaf {i : Nat} {n : Node} (h : (leavesOf w order)[i]? = some n) : ∃ b, Node.leaf b (tget w b) = n := by
    obtain ⟨b, -, hb⟩ := List.mem_map.mp (List.mem_of_getElem? h)
    exact ⟨b, hb⟩
  refine ⟨fun i b wt h => ?_, fun i wt l r h => ?_, fun i wt l r h => ?_⟩
  · obtain ⟨b', hb⟩ := hleaf h
    obtain ⟨rfl, rfl⟩ := Node.leaf.inj hb
    rfl
  · exact absurd (hleaf h) nofun
  · exact absurd (hleaf h) nofun

theorem weighed_merge {w : Table Word} {arena : List Node} {a b : Nat} (h : Weighed w arena) (ha : a < arena.length)
    (hb : b < arena.length) (hsum : (nodeWeight arena a).toNat + (nodeWeight arena b).toNat < 2 ^ 32) :
    Weighed w (arena ++ [mergedNode arena a b]) := by
  have hrecord {i : Nat} {n : Node} (hi : (arena ++ [mergedNode arena a b])[i]? = some n) :
      arena[i]? = some n ∨ n = mergedNode arena a b := by
    rw [List.getElem?_append] at hi
    split at hi
    · exact .inl hi
    · exact .inr (List.mem_singleton.mp (List.mem_of_getElem? hi))
  have hinner {i : Nat} {wt : Word} {l r : Nat}
      (hi : (arena ++ [mergedNode arena a b])[i]? = some (.inner wt (some l) (some r))) :
      l < arena.length ∧ r < arena.length ∧ wt.toNat = (nodeWeight arena l).toNat + (nodeWeight arena r).toNat := by
    rcases hrecord hi with hi | hnode
    · obtain ⟨hl, hr⟩ := h.children i wt l r hi
      exact ⟨hl, hr, h.add i wt l r hi⟩
    · obtain ⟨rfl, hl, hr⟩ := Node.inner.inj hnode
      obtain rfl := Option.some.inj hl
      obtain rfl := Option.some.inj hr
      exact ⟨ha, hb, by rw [BitVec.toNat_add, Nat.mod_eq_of_lt hsum]⟩
  refine ⟨fun i s wt hi => h.leaves i s wt ((hrecord hi).resolve_right nofun), fun i wt l r hi => ?_,
    fun i wt l r hi => ?_⟩
  · obtain ⟨hl, hr, -⟩ := hinner hi
    rw [List.length_append]
    exact ⟨Nat.lt_add_right _ hl, Nat.lt_add_right _ hr⟩
  · obtain ⟨hl, hr, hwt⟩ := hinner hi
    rw [nodeWeight_append hl, nodeWeight_append hr, hwt]

/-- The merges keep the weights right, and the list's weight. -/
theorem mergeLoop_weighed {w : Table Word} {n : Nat} {arena : List Node} {pl : List Nat} {ts : List Trie}
    (h : Forest arena pl ts) (hw : Weighed w arena) (hweight : listWeight arena pl < 2 ^ 32) {arena' : List Node}
    {pl' : List Nat} (hloop : mergeLoop n arena pl = .ok (arena', pl')) :
    Weighed w arena' ∧ listWeight arena' pl' = listWeight arena pl := by
  induction n generalizing arena pl ts with
  | zero =>
    obtain ⟨rfl, rfl⟩ := Prod.mk.inj (Except.ok.inj hloop)
    exact ⟨hw, rfl⟩
  | succ n ih =>
    match pl, ts, h.held with
    | [], _, _ | [_], _, _ =>
      obtain ⟨rfl, rfl⟩ := Prod.mk.inj (Except.ok.inj hloop)
      exact ⟨hw, rfl⟩
    | a :: b :: pl, ta :: tb :: ts, .cons ha (.cons hb _) =>
      have hsum : (nodeWeight arena a).toNat + (nodeWeight arena b).toNat < 2 ^ 32 := by
        rw [listWeight_cons, listWeight_cons] at hweight
        omega
      obtain ⟨ts₁, -, h₁, hsame⟩ := forest_merge h hsum
      rw [mergeLoop_succ n pl hsum] at hloop
      rw [← hsame]
      exact ih h₁ (weighed_merge hw (lt_length_of_isTrie ha) (lt_length_of_isTrie hb) hsum) (hsame ▸ hweight) hloop

/-! ### The size of a full tree (R166 (b)) -/

theorem nodes_of_full {t : Trie} (h : t.full = true) : t.nodes + 1 = 2 * t.symbols.length := by
  induction t with
  | none => cases h
  | leaf s => rfl
  | node l r ihl ihr =>
    obtain ⟨hl, hr⟩ := Bool.and_eq_true_iff.mp h
    have := ihl hl
    have := ihr hr
    rw [symbols_node, List.length_append, Trie.nodes]
    omega

/-- What BUILD leaves for the tree of R166. -/
structure BuiltTree (w : Table Word) (arena : List Node) (r : Nat) (t : Trie) : Prop where
  held : IsTrie arena (some r) t
  full : t.full = true
  symbols : t.symbols.Perm (weighted w)
  nodes : t.nodes = arena.length
  weighed : Weighed w arena
  weight : (nodeWeight arena r).toNat = weightSum w

/-- R164 to R166: what the merges make of the initial list. -/
theorem mergeLoop_listInit {w : Table Word} (h : weightSum w < 2 ^ 32) (hne : weighted w ≠ []) :
    ∃ arena r t, mergeLoop ((weighted w).length - 1) (listInit w).1 (listInit w).2 = .ok (arena, [r]) ∧
      BuiltTree w arena r t := by
  obtain ⟨order, hinit, hperm, -⟩ := listInit_sorted w
  have hbound : (weighted w).length ≤ 256 := (List.length_filter_le _ _).trans symbols_length.le
  obtain ⟨arena₀, pl₀, ts₀, hloop₀, h₀, hsyms₀, hweight₀⟩ := listInitLoop_forest (tmp := w) hbound forest_nil
  have hinit₀ : listInit w = (arena₀, pl₀) := by rw [listInit, hloop₀]
  obtain ⟨rfl, rfl⟩ := Prod.mk.inj (hinit₀.symm.trans hinit)
  rw [List.flatMap_nil, List.append_nil] at hsyms₀
  rw [show listWeight [] [] = 0 from rfl, Nat.add_zero] at hweight₀
  obtain ⟨n, hn⟩ := Nat.exists_eq_succ_of_ne_zero fun hzero => hne (List.eq_nil_of_length_eq_zero hzero)
  have hlen : (List.range order.length).length = n + 1 := List.length_range.trans (hperm.length_eq.trans hn)
  obtain ⟨arena, r, t, hloop, ⟨hheld, hfull, hnodes⟩, hsyms⟩ := mergeLoop_forest hlen h₀ (hweight₀ ▸ h)
  obtain ⟨hweighed, hweight⟩ := mergeLoop_weighed h₀ (weighed_leavesOf w order) (hweight₀ ▸ h) hloop
  refine ⟨arena, r, t, by rw [hinit, hn]; exact hloop, ?_, hfull t (List.mem_singleton_self t), hsyms.trans hsyms₀,
    by simpa using hnodes, hweighed, ?_⟩
  · cases hheld with
    | cons hr _ => exact hr
  · rwa [listWeight_cons, show listWeight arena [] = 0 from rfl, Nat.add_zero, hweight₀] at hweight

theorem mergeLoop_listInit_empty {w : Table Word} (hnone : weighted w = []) :
    mergeLoop ((weighted w).length - 1) (listInit w).1 (listInit w).2 = .ok ([], []) := by
  obtain ⟨order, hinit, hperm, -⟩ := listInit_sorted w
  obtain rfl := List.perm_nil.mp (hnone ▸ hperm)
  rw [hinit, hnone]
  rfl

/-- The body of BUILD is the merges of the initial list (R163). -/
theorem buildBody_of_mergeLoop {s : State} {arena : List Node} {root : Option Nat}
    (h : mergeLoop ((weighted s.w).length - 1) (listInit s.w).1 (listInit s.w).2 = .ok (arena, root.toList)) :
    buildBody s = .done () { s with arena := arena, pl := [], root := root } := by
  obtain ⟨order, hinit, hperm, -⟩ := listInit_sorted s.w
  rw [← hperm.length_eq, hinit] at h
  simp only [buildBody, hinit, List.length_range]
  rw [h]
  cases root <;> rfl

/-! ### The code table of a tree (R180 to R182) -/

theorem codeIn_leaf (s b : Byte) : codeIn (.leaf s) b = if s = b then some [false] else none := rfl

theorem codeIn_node (l r : Trie) (b : Byte) :
    codeIn (.node l r) b = ((Trie.node l r).codes.find? fun p => p.1 = b).map Prod.snd := rfl

theorem tget_codesOf (t : Trie) (b : Byte) : tget (codesOf t) b = codeIn t b := by
  simp [codesOf, tget_ofFn]

/-- R180: in a tree of distinct symbols a leaf's code is its path. -/
theorem find?_codes_eq_some_iff {t : Trie} (hnodup : t.symbols.Nodup) {b : Byte} {code : Bits} :
    (t.codes.find? fun p => p.1 = b).map Prod.snd = some code ↔ (b, code) ∈ t.codes := by
  constructor
  · intro h
    obtain ⟨⟨b', code'⟩, hfind, rfl⟩ := Option.map_eq_some_iff.mp h
    obtain rfl : b' = b := by simpa using List.find?_some hfind
    exact List.mem_of_find?_eq_some hfind
  · intro h
    obtain ⟨p, hfind⟩ := Option.isSome_iff_exists.mp (List.find?_isSome (p := fun p : Byte × Bits => p.1 = b).mpr
      ⟨_, h, decide_eq_true rfl⟩)
    have hp : p.1 = b := by simpa using List.find?_some hfind
    have := List.inj_on_of_nodup_map hnodup (List.mem_of_find?_eq_some hfind) h hp
    rw [hfind, this]
    rfl

/-- R180 to R182: the table ASSIGN writes is the tree's. -/
theorem assignTable_codesOf {arena : List Node} {root : Option Nat} {t : Trie} (h : EncoderTree arena root t)
    (hdepth : t.depth ≤ 255) (hnodup : t.symbols.Nodup) : assignTable arena root = .ok (codesOf t) := by
  obtain ⟨hheld, hfull, hnodes⟩ := h
  cases t with
  | none =>
    cases hheld
    refine congrArg _ (table_ext fun b => ?_)
    rw [tget_codesOf, tget_replicate]
    rfl
  | leaf s =>
    cases hheld with
    | leaf hx =>
      simp only [assignTable, hx]
      refine congrArg _ (table_ext fun b => ?_)
      rw [tget_codesOf, tget_tset, tget_replicate, codeIn_leaf]
      simp only [eq_comm]
  | node l r =>
    obtain ⟨x, rfl⟩ := isTrie_some hheld
    obtain ⟨wt, y, z, hx, -, -⟩ := isTrie_node hheld
    have hfull : (Trie.node l r).full = true := hfull.resolve_left nofun
    have hcodes : queueCodes [⟨x, [], .node l r⟩] = (Trie.node l r).codes := by
      simp [queueCodes, Queued.codes]
    have hq : ∀ e ∈ [Queued.mk x [] (.node l r)], e.Ok arena :=
      List.forall_mem_singleton.mpr ⟨hheld, hfull, by simpa using hdepth⟩
    obtain ⟨ct, hloop, hw⟩ := assignLoop_writes (n := arena.length) (ct := Vector.replicate 256 none) hq
      (by simpa [queueNodes] using hnodes) (hcodes ▸ hnodup)
    rw [hcodes] at hw
    have hct : ct = codesOf (.node l r) := by
      refine table_ext fun b => Option.ext fun code => ?_
      rw [tget_codesOf, codeIn_node, find?_codes_eq_some_iff hnodup, hw b code, tget_replicate]
      simp
    simp only [assignTable, hx]
    exact hct ▸ hloop

/-- R182 (b): a code is no longer than the tree is deep, but for the code "0" of a single leaf. -/
theorem length_le_of_codesOf {t : Trie} {b : Byte} {code : Bits} (h : tget (codesOf t) b = some code) :
    code.length ≤ max t.depth 1 := by
  rw [tget_codesOf] at h
  cases t with
  | none => cases h
  | leaf s =>
    rw [codeIn_leaf] at h
    split at h
    · obtain rfl := Option.some.inj h
      exact le_max_right _ _
    · cases h
  | node l r =>
    rw [codeIn_node] at h
    obtain ⟨⟨b', code'⟩, hfind, rfl⟩ := Option.map_eq_some_iff.mp h
    exact (length_le_depth (List.mem_of_find?_eq_some hfind)).trans (le_max_left _ _)

theorem assignBody_codesOf {s : State} {t : Trie} (h : EncoderTree s.arena s.root t) (hdepth : t.depth ≤ 255)
    (hnodup : t.symbols.Nodup) : assignBody s = .done () { s with ct := codesOf t } := by
  rw [assignBody, assignTable_codesOf h hdepth hnodup]

theorem codesOf_codesFor {arena : List Node} {root : Option Nat} {t : Trie} (h : EncoderTree arena root t)
    (hdepth : t.depth ≤ 255) (hnodup : t.symbols.Nodup) : CodesFor (codesOf t) (· ∈ t.symbols) := by
  obtain ⟨ct, htable, hcodes⟩ := assignTable_codesFor h hdepth hnodup
  rw [assignTable_codesOf h hdepth hnodup] at htable
  exact Except.ok.inj htable ▸ hcodes

end Sys2Proof.Machine

/-! ### The obligations -/

namespace Sys2Proof.Proofs
open Sys2Proof.Machine

/-- Settles O25: each scan finds what comes before all the rest, and it goes to the list's end. -/
theorem initialListIsSorted : Obligations.InitialListIsSorted := listInit_sorted

/-- Settles O26. -/
theorem mergeStep : Obligations.MergeStep := fun n _ _ _ pl h => ⟨_, rfl, mergeLoop_succ n pl h⟩

/-- Settles O27: the merges of the initial list's forest. -/
theorem buildCompletes : Obligations.BuildCompletes := by
  intro s hfw hsum
  have hbuild {arena : List Node} {root : Option Nat}
      (h : mergeLoop ((weighted s.w).length - 1) (listInit s.w).1 (listInit s.w).2 = .ok (arena, root.toList)) :=
    performAll_single_of_done (st := .build) (s := s) hfw (buildBody_of_mergeLoop (s := started .build s) h)
  by_cases hne : weighted s.w = []
  · have hloop := mergeLoop_listInit_empty hne
    exact ⟨[], none, hbuild hloop, hloop, fun _ => ⟨rfl, rfl⟩, fun h => absurd hne h⟩
  · obtain ⟨arena, r, t, hloop, hheld, hfull, hsyms, hnodes, hweighed, hweight⟩ := mergeLoop_listInit hsum hne
    have hlen := hsyms.length_eq
    refine ⟨arena, some r, hbuild hloop, hloop, fun h => absurd h hne, fun _ => ⟨r, t, rfl, hheld, hfull, hsyms, hnodes,
      ?_, hweighed.leaves, hweighed.add, hweight, ?_⟩⟩
    · rw [← hnodes, nodes_of_full hfull, hlen]
    · rw [← hlen]
      exact depth_lt_symbols_length hfull

/-- Settles O28: the traversal writes each leaf's path. -/
theorem assignCompletes : Obligations.AssignCompletes := by
  intro s t hft hheld hfull hnodes hdepth hnodup
  exact performAll_single_of_done (st := .assign) (s := s) hft
    (assignBody_codesOf (s := started .assign s) ⟨hheld, hfull, hnodes⟩ hdepth hnodup)

/-- Settles O29: the paths of a tree's leaves. -/
theorem assignedCodesArePrefixFree : Obligations.AssignedCodesArePrefixFree := by
  intro s t hft hheld hfull hnodes hdepth hnodup
  obtain ⟨hpresent, hfree, hbounded⟩ := codesOf_codesFor ⟨hheld, hfull, hnodes⟩ hdepth hnodup
  exact ⟨_, assignCompletes s t hft hheld hfull hnodes hdepth hnodup, rfl, rfl, hfree, hpresent,
    fun b c hc => ⟨(hbounded b c hc).1, length_le_of_codesOf hc⟩⟩

end Sys2Proof.Proofs
end

section
/-! PROOFS. The ambiguous code sets that READ_HDR refuses (44_header_codec.md R197): a code that overlaps one in the
tree stops `Insert`, in the arena as in the tree. -/

set_option autoImplicit false

namespace Sys2Proof.Machine

/-! ### An insertion that meets an overlap -/

theorem lookup_nil_eq_some {t : Trie} {x : Byte} : t.lookup [] = some x ↔ t = .leaf x := by
  cases t <;> simp [Trie.lookup, Trie.descend]

/-- R197: a code that has an earlier one as a prefix, or is a prefix of one, is not inserted. -/
theorem insert_eq_none_of_overlap {sym x : Byte} {code path : Bits} {t : Trie} (h : t.lookup path = some x)
    (hpre : path <+: code ∨ code <+: path) : t.insert sym code = none := by
  induction code generalizing t path with
  | nil =>
    cases t with
    | none => rw [lookup_none] at h; cases h
    | leaf _ => rfl
    | node _ _ => rfl
  | cons b code ih =>
    cases path with
    | nil => exact insert_cons_eq_none.mpr (.inl ⟨x, lookup_nil_eq_some.mp h⟩)
    | cons d path =>
      simp only [List.cons_prefix_cons] at hpre
      obtain ⟨rfl, htail⟩ : d = b ∧ (path <+: code ∨ code <+: path) :=
        hpre.elim (fun h => ⟨h.1, .inl h.2⟩) fun h => ⟨h.1.symm, .inr h.2⟩
      rw [lookup_cons] at h
      exact insert_cons_eq_none.mpr (.inr (ih h htail))

/-- `Insert` finds the overlap in the arena that the insertion finds in the tree. -/
theorem insertCode_of_insert_eq_none {sym : Byte} {code : Bits} {arena : List Node} {own : Set Nat} {x : Nat} {t : Trie}
    (hlive : t.live = true) (ht : OwnTrie arena own (some x) t.rooted) (hins : t.insert sym code = none) :
    ∃ arena', insertCode sym code x arena = .overlap arena' := by
  induction code generalizing arena own x t with
  | nil =>
    cases t with
    | none => cases hins
    | leaf s =>
      cases ht with
      | leaf _ hx => exact ⟨arena, by simp [insertCode, hx]⟩
    | node tl tr =>
      obtain ⟨-, hchild⟩ : (tl.live = true ∧ tr.live = true) ∧ (tl ≠ .none ∨ tr ≠ .none) := by
        simpa [Trie.live] using hlive
      obtain ⟨wt, l, r, below, beside, -, hx, hl, hr, -⟩ := ht.focus nofun false
      have hlinked : ¬ (l = none ∧ r = none) := by
        rintro ⟨rfl, rfl⟩
        exact hchild.elim (fun h => h (ownTrie_none_link.mp hl)) fun h => h (ownTrie_none_link.mp hr)
      refine ⟨arena, ?_⟩
      rw [insertCode, hx]
      split
      · rename_i hrec
        obtain ⟨-, rfl, rfl⟩ := Node.inner.inj (Option.some.inj hrec)
        exact absurd ⟨rfl, rfl⟩ hlinked
      · rfl
      · rename_i hnone
        cases hnone
  | cons b code ih =>
    by_cases hleaf : ∃ s, t = .leaf s
    · obtain ⟨s, rfl⟩ := hleaf
      cases ht with
      | leaf _ hx => exact ⟨arena, by simp [insertCode, hx]⟩
    · have hsub := (insert_cons_eq_none.mp hins).resolve_left hleaf
      obtain ⟨wt, l, r, below, beside, -, hx, hbelow, -⟩ := ht.focus (not_exists.mp hleaf) b
      obtain ⟨arena₁, y, -, -, hstep, -, -, -, ht₁, -⟩ := insertCode_cons_descends sym b code hx hbelow
      obtain ⟨arena', hoverlap⟩ := ih (live_sub hlive b) ht₁ hsub
      exact ⟨arena', hstep.trans hoverlap⟩

/-- R197: `Insert` of a code that overlaps an earlier record's. -/
theorem insertCode_of_overlap {arena : List Node} {recs : List HdrRecord} {t : Trie} {q : HdrRecord} {sym : Byte}
    {code : Bits} (h : RecordsTree arena recs t) (hq : q ∈ recs) (hpre : q.code <+: code ∨ code <+: q.code) :
    ∃ arena', insertCode sym code 0 arena = .overlap arena' :=
  insertCode_of_insert_eq_none h.live h.held
    (insert_eq_none_of_overlap ((h.records q.code q.sym).mpr ⟨q, hq, rfl, rfl⟩) hpre)

/-! ### The record that is refused -/

section
variable {s : State} {sess : List (List SrcItem)} {arena : List Node} {k : Nat} {items : List SrcItem}

/-- The bytes of a record but the last, and the last one. -/
theorem exists_lastByte {r : HdrRecord} (hok : r.ok = true) :
    ∃ f v, r.field = f ++ [v] ∧ f.length < bytesFor r.len.toNat := by
  obtain ⟨hlen, hfield⟩ := ok_iff.mp hok
  have hpos := bytesFor_pos hlen
  obtain ⟨f, v, hf⟩ : ∃ f v, r.field = f ++ [v] :=
    (List.eq_nil_or_concat' r.field).resolve_left fun hnil => by rw [hnil, List.length_nil] at hfield; omega
  refine ⟨f, v, hf, ?_⟩
  rw [hf, List.length_append, List.length_singleton] at hfield
  omega

theorem recordRead_of_overlap {n left : Nat} {seen : List Byte} {sym len : Byte} {f : List Byte} {arena' : List Node}
    (hoverlap : insertCode sym (codeOfField len f) 0 arena = .overlap arena') :
    recordRead n left seen sym len f (readingHdr s sess arena k items)
      = .raise .ambiguousCodeSet (readingHdr s sess arena' k items) := by
  simp only [recordRead, readingHdr, hoverlap]

/-- A whole record whose code overlaps an earlier one. -/
theorem hdrLoop_record_of_overlap {n left : Nat} {seen : List Byte} {r : HdrRecord} {arena' : List Node}
    {ready : List SrcItem} (hok : r.ok = true) (hsym : r.sym ∉ seen)
    (hoverlap : insertCode r.sym r.code 0 arena = .overlap arena') :
    hdrLoop (r.bytes.map SrcItem.byte ++ items) (.symbol n left seen) (readingHdr s sess arena k ready)
      = .raise .ambiguousCodeSet (readingHdr s sess arena' (k + r.bytes.length) items) := by
  obtain ⟨f, v, hf, hshort⟩ := exists_lastByte hok
  obtain ⟨hlen, hfield⟩ := ok_iff.mp hok
  have hbytes : r.bytes.map SrcItem.byte ++ items
      = .byte r.sym :: .byte r.len :: (f.map SrcItem.byte ++ .byte v :: items) := by
    simp [HdrRecord.bytes, hf]
  have hlength : k + r.bytes.length = k + 2 + f.length + 1 := by
    simp only [HdrRecord.bytes, hf, List.length_cons, List.length_append, List.length_nil]
    omega
  have hlast (j : Nat) : hdrByte (.code n left seen r.sym r.len f) v (readingHdr s sess arena j items)
      = .raise .ambiguousCodeSet (readingHdr s sess arena' j items) :=
    (if_neg (hf ▸ hfield).not_lt).trans (recordRead_of_overlap (hf ▸ hoverlap))
  rw [hbytes, hlength, hdrLoop_recordHead hlen hsym, hdrLoop_code f [] (by rwa [List.length_nil, Nat.zero_add]),
    List.nil_append, hdrLoop_of_refused (hlast _)]

end

end Sys2Proof.Machine

/-! ### The obligations -/

namespace Sys2Proof.Proofs
open Sys2Proof.Machine

/-- Settles O35: the good records stand in the tree, and the last byte of the new one's code meets the overlap. -/
theorem readHdrDetectsOverlap : Obligations.ReadHdrDetectsOverlap := by
  intro s n recs r later sess hgood hlt hmax hok hnew hoverlap hsess
  rw [List.map_append, List.append_assoc] at hsess
  obtain ⟨arena, t, htree, hread⟩ := hdrLoop_header hgood hlt.le hmax (r.bytes.map SrcItem.byte ++ later) _
  obtain ⟨q, hq, hpre⟩ := hoverlap
  obtain ⟨arena', hinsert⟩ := insertCode_of_overlap (sym := r.sym) htree hq hpre
  rw [afterRecords_of_lt hlt, hdrLoop_record_of_overlap hok (mt List.mem_reverse.mp hnew) hinsert] at hread
  exact ⟨arena', exec_readHdr_of_raise (e := .ambiguousCodeSet) hsess hread⟩

end Sys2Proof.Proofs
end

section
/-! PROOFS. The pipelines in full (46_pipelines.md R230, R231): the state that a COMPRESS and a DECOMPRESS leave which
complete, from the states their stages leave one after another. -/

set_option autoImplicit false

namespace Sys2Proof.Machine

/-! ### DECOMPRESS: UNPACK after the reading of a header -/

theorem unpacking_zero {s : State} {answers : List SnkAnswer} {sess : List (List SnkAnswer)}
    (rest : List SrcItem) (hsnk : s.snkNext = answers :: sess) :
    { snkOpen s with src := some rest } = unpacking 0 rest [] answers sess s := by
  simp [snkOpen, unpacking, hsnk]

/-- The codes of records, with their symbols. -/
def codedRecords (recs : List HdrRecord) : List (Byte × Bits) := recs.map fun r => (r.sym, r.code)

theorem map_fst_codedRecords (recs : List HdrRecord) : (codedRecords recs).map Prod.fst = recs.map HdrRecord.sym := by
  simp [codedRecords, Function.comp_def]

theorem flatMap_snd_codedRecords (recs : List HdrRecord) :
    (codedRecords recs).flatMap Prod.snd = recs.flatMap HdrRecord.code := by
  simp [codedRecords, List.flatMap_map]

theorem code_ne_nil {r : HdrRecord} (h : r.ok = true) : r.code ≠ [] := by
  obtain ⟨hlen, hfield⟩ := ok_iff.mp h
  refine List.ne_nil_of_length_pos ?_
  rw [HdrRecord.code, codeOfField_length hfield]
  exact Nat.pos_of_ne_zero fun hzero => hlen (BitVec.eq_of_toNat_eq hzero)

theorem ofNat_length_ne_zero_of_goodRecords {recs : List HdrRecord} (h : GoodRecords recs) (hne : recs ≠ []) :
    BitVec.ofNat 9 recs.length ≠ 0 := by
  intro hzero
  have hlen := congrArg BitVec.toNat hzero
  have hcount := h.count
  rw [BitVec.toNat_ofNat, Nat.mod_eq_of_lt (by omega)] at hlen
  exact hne (List.eq_nil_of_length_eq_zero hlen)

/-- R215 to R219: UNPACK with the tree of good records, of a payload of their codes, of an empty one, or with no
record. -/
theorem unpackBody_records {s : State} {recs coded : List HdrRecord} {t : Trie} {payload : List Byte}
    {later : List SrcItem} {answers : List SnkAnswer} {sess : List (List SnkAnswer)} (hgood : GoodRecords recs)
    (hcoded : ∀ r ∈ coded, r ∈ recs)
    (hcase : (payload = [] ∧ coded = []) ∨ recs = [] ∨
      (payload ≠ [] ∧ meaningfulBits payload s.lastBits.toNat = coded.flatMap HdrRecord.code))
    (hn : s.decNsym = BitVec.ofNat 9 recs.length) (hroot : s.root = some 0) (htree : IsTrie s.arena (some 0) t)
    (hheld : HoldsRecords t recs) (hsrc : s.src = some (deliver payload .eof later))
    (hsnk : s.snkNext = okThen coded.length answers :: sess) :
    unpackBody s = .done () (unpacking (if recs = [] then 0 else payload.length)
      (if recs = [] then deliver payload .eof later else later) (coded.map HdrRecord.sym) answers sess s) := by
  by_cases hrecs : recs = []
  · subst hrecs
    obtain rfl : coded = [] := List.eq_nil_iff_forall_not_mem.mpr fun r hr => List.not_mem_nil (hcoded r hr)
    rw [unpackBody_of_decNsym_eq_zero hn, if_pos rfl, if_pos rfl, List.map_nil,
      ← unpacking_zero _ (show s.snkNext = answers :: sess from hsnk), ← hsrc]
    rfl
  rw [if_neg hrecs, if_neg hrecs]
  have hn : s.decNsym ≠ 0 := hn ▸ ofNat_length_ne_zero_of_goodRecords hgood hrecs
  rcases hcase with ⟨rfl, rfl⟩ | hnone | ⟨hne, hbits⟩
  · rw [unpackBody_eof hn hroot hsrc, List.length_nil, List.map_nil,
      ← unpacking_zero _ (show s.snkNext = answers :: sess from hsnk)]
    rfl
  · exact absurd hnone hrecs
  · have hlookup {r : HdrRecord} (hr : r ∈ recs) : t.lookup r.code = some r.sym :=
      (hheld r.code r.sym).mpr ⟨r, hr, rfl, rfl⟩
    obtain ⟨r, more, hr⟩ := List.exists_cons_of_ne_nil hrecs
    have hmem : r ∈ recs := hr ▸ List.mem_cons_self
    obtain ⟨tl, tr, rfl⟩ := exists_node_of_lookup (hlookup hmem) (code_ne_nil (hgood.form r hmem))
    have hcodes : ∀ p ∈ codedRecords coded, (Trie.node tl tr).lookup p.2 = some p.1 := by
      intro p hp
      obtain ⟨q, hq, rfl⟩ := List.mem_map.mp hp
      exact hlookup (hcoded q hq)
    have hbody := unpackBody_ok hn hroot htree hcodes hne (hbits.trans (flatMap_snd_codedRecords coded).symm) hsrc
      (by rwa [codedRecords, List.length_map])
    rwa [map_fst_codedRecords] at hbody

/-! ### COMPRESS: the five stages -/

/-! The state that each of the five stages leaves. -/

def countedOf (bs : List Byte) (rest : List SrcItem) (sess : List (List SrcItem)) (s : State) : State :=
  { s with
    w := countsOf bs, total := BitVec.ofNat 32 bs.length, nsym := BitVec.ofNat 9 bs.dedup.length
    src := some rest, srcNext := sess, srcPos := BitVec.ofNat 64 bs.length
    fw := true, ft := false, fc := false, fh := false, fd := false, curOp := 0x1 }

def treeBuilt (arena : List Node) (root : Option Nat) (s : State) : State :=
  { s with arena := arena, root := root, pl := [], ft := true, fc := false, fh := false, fd := false, curOp := 0x2 }

def codesAssigned (ct : Table (Option Bits)) (s : State) : State :=
  { s with ct := ct, fc := true, fh := false, curOp := 0x3 }

def headerWritten (answers : List SnkAnswer) (snks : List (List SnkAnswer)) (s : State) : State :=
  { s with
    objects := headerBytes s.ct :: s.objects, snk := some answers, snkNext := snks
    snkPos := BitVec.ofNat 64 (headerBytes s.ct).length
    payloadStart := BitVec.ofNat 32 (headerBytes s.ct).length
    headerEnd := BitVec.ofNat 32 (headerBytes s.ct).length, fh := true, curOp := 0x4 }

def payloadPacked (bs : List Byte) (rest : List SrcItem) (sess : List (List SrcItem)) (answers : List SnkAnswer)
    (s : State) : State :=
  { s with
    src := some rest, srcNext := sess, srcPos := BitVec.ofNat 64 bs.length
    objects := containerOf s.ct bs :: s.objects.tail, snk := some answers
    snkPos := BitVec.ofNat 64 (containerOf s.ct bs).length
    lastBits := BitVec.ofNat 4 (lastBitsFor (payloadBits s.ct bs).length)
    fh := false, fd := false, curOp := 0x5 }

section
variable {s : State} {bs : List Byte} {later : List SrcItem} {sess : List (List SrcItem)} (rest : List Stage)

theorem performAll_count_counted (hsrc : s.srcNext = deliver bs .eof later :: sess) (hlen : bs.length < 2 ^ 32) :
    performAll (.count :: rest) s = performAll rest (countedOf bs later sess s) := by
  have hbody := countBody_bytes (s := started .count s) hsrc hlen
  rw [countedOf, ← distinct_countsOf hlen]
  exact performAll_cons_of_done (st := .count) rfl hbody

theorem performAll_build_counted (hfw : s.fw = true) (hlen : bs.length < 2 ^ 32) (hw : s.w = countsOf bs) :
    ∃ arena root tree, performAll (.build :: rest) s = performAll rest (treeBuilt arena root s) ∧
      EncoderTree arena root tree ∧ tree.symbols.Perm bs.dedup := by
  have hsum : weightSum s.w < 2 ^ 32 := by rwa [hw, weightSum_countsOf hlen]
  obtain ⟨arena, root, tree, hbody, htree, hsyms⟩ := buildBody_tree (s := started .build s) hsum
  refine ⟨arena, root, tree, performAll_cons_of_done (st := .build) hfw hbody, htree, hsyms.trans ?_⟩
  rw [started_w, hw]
  exact weighted_countsOf_perm hlen

theorem performAll_assign_coded {tree : Trie} (hft : s.ft = true) (htree : EncoderTree s.arena s.root tree)
    (hsyms : tree.symbols.Perm bs.dedup) :
    ∃ ct, performAll (.assign :: rest) s = performAll rest (codesAssigned ct s) ∧ CodesFor ct (· ∈ bs) := by
  obtain ⟨ct, hbody, hcodes⟩ := assignBody_codesFor (s := started .assign s) htree hsyms (List.nodup_dedup bs)
  simp only [List.mem_dedup] at hcodes
  exact ⟨ct, performAll_cons_of_done (st := .assign) hft hbody, hcodes⟩

theorem performAll_writeHdr_header {answers : List SnkAnswer} {snks : List (List SnkAnswer)} (hfc : s.fc = true)
    (hsnk : s.snkNext = okThen (headerBytes s.ct).length answers :: snks) :
    performAll (.writeHdr :: rest) s = performAll rest (headerWritten answers snks s) :=
  performAll_cons_of_done (st := .writeHdr) hfc (writeHdrBody_ok (s := started .writeHdr s) hsnk)

theorem performAll_pack_container {answers : List SnkAnswer} {old : List (List Byte)}
    (hfh : s.fh = true) (hcodes : CodesFor s.ct (· ∈ bs)) (hobj : s.objects = headerBytes s.ct :: old)
    (hend : s.headerEnd = BitVec.ofNat 32 (headerBytes s.ct).length)
    (hpos : s.snkPos = BitVec.ofNat 64 (headerBytes s.ct).length) (hsrc : s.srcNext = deliver bs .eof later :: sess)
    (hsnk : s.snk = some (okThen (((payloadBits s.ct bs).length + 7) / 8 + 1) answers)) :
    performAll (.pack :: rest) s = performAll rest (payloadPacked bs later sess answers s) := by
  have hcoded : ∀ b ∈ bs, tget s.ct b ≠ none := fun b hb =>
    Option.isSome_iff_ne_none.mp ((hcodes.present_iff b).mpr hb)
  rw [payloadPacked, hobj]
  exact performAll_cons_of_done (st := .pack) hfh
    (packBody_container (s := started .pack s) rfl hcodes.bounded hobj hend
    hpos hsrc hcoded hsnk)

end

/-- The state after a COMPRESS of `bs` that completes (R230). -/
def compressed (bs : List Byte) (arena : List Node) (root : Option Nat) (ct : Table (Option Bits))
    (rest : List SrcItem) (sess : List (List SrcItem)) (answers : List SnkAnswer) (snks : List (List SnkAnswer))
    (s : State) : State :=
  { s with
    w := countsOf bs, total := BitVec.ofNat 32 bs.length, nsym := BitVec.ofNat 9 bs.dedup.length
    arena := arena, root := root, pl := [], ct := ct
    payloadStart := BitVec.ofNat 32 (headerBytes ct).length, headerEnd := BitVec.ofNat 32 (headerBytes ct).length
    lastBits := BitVec.ofNat 4 (lastBitsFor (payloadBits ct bs).length)
    src := some rest, srcNext := sess, srcPos := BitVec.ofNat 64 bs.length
    objects := containerOf ct bs :: s.objects, snk := some answers, snkNext := snks
    snkPos := BitVec.ofNat 64 (containerOf ct bs).length
    fw := true, ft := true, fc := true, fh := false, fd := false
    curOp := 0x5, run := .idle, done := true }

/-- R190, R210: from a code table of the input's bytes on, the header and the payload are written. -/
theorem performAll_writeHdr_pack {s : State} {bs : List Byte} {later : List SrcItem}
    {sess : List (List SrcItem)} {k : Nat}
    {snks : List (List SnkAnswer)} (hfc : s.fc = true) (hcodes : CodesFor s.ct (· ∈ bs))
    (hsrc : s.srcNext = deliver bs .eof later :: sess) (hsnk : s.snkNext = okThen k [] :: snks)
    (hk : 8708 + 32 * bs.length ≤ k) :
    ∃ more answers, performAll [.writeHdr, .pack] s
      = .next (endRun (payloadPacked bs later sess answers (headerWritten more snks s))) := by
  have hheader := headerBytes_le hcodes.bounded
  have hpayload := payloadBits_length_le hcodes.bounded bs
  obtain ⟨more, rfl⟩ : ∃ more,
      k = (headerBytes s.ct).length + (((payloadBits s.ct bs).length + 7) / 8 + 1 + more) :=
    ⟨k - (headerBytes s.ct).length - (((payloadBits s.ct bs).length + 7) / 8 + 1), by omega⟩
  rw [okThen_add, okThen_add] at hsnk
  have hpack := performAll_pack_container (answers := okThen more [])
    (s := headerWritten (okThen (((payloadBits s.ct bs).length + 7) / 8 + 1) (okThen more [])) snks s) [] rfl hcodes rfl
    rfl rfl hsrc rfl
  exact ⟨_, okThen more [], (performAll_writeHdr_header [.pack] hfc hsnk).trans hpack⟩

theorem execCompress_compressed {s : State} {bs : List Byte} {later₁ later₂ : List SrcItem} {sess : List (List SrcItem)}
    {k : Nat} {snks : List (List SnkAnswer)}
    (hsrc : s.srcNext = deliver bs .eof later₁ :: deliver bs .eof later₂ :: sess) (hlen : bs.length < 2 ^ 32)
    (hsnk : s.snkNext = okThen k [] :: snks) (hk : 8708 + 32 * bs.length ≤ k) :
    ∃ arena root ct answers, exec .compress s = .next (compressed bs arena root ct later₂ sess answers snks s) ∧
      CodesFor ct (· ∈ bs) := by
  have hcount := performAll_count_counted (s := { s with curOp := Instr.compress.opcode })
    [.build, .assign, .writeHdr, .pack] hsrc hlen
  obtain ⟨arena, root, tree, hbuild, htree, hsyms⟩ :=
    performAll_build_counted (s := countedOf bs _ _ _) [.assign, .writeHdr, .pack] rfl hlen rfl
  obtain ⟨ct, hassign, hcodes⟩ :=
    performAll_assign_coded (s := treeBuilt arena root _) [.writeHdr, .pack] rfl htree hsyms
  obtain ⟨more, answers, hrest⟩ := performAll_writeHdr_pack
    (s := codesAssigned ct (treeBuilt arena root (countedOf bs later₁ (deliver bs .eof later₂ :: sess) s)))
    rfl hcodes rfl hsnk hk
  exact ⟨arena, root, ct, answers, hcount.trans (hbuild.trans (hassign.trans hrest)), hcodes⟩

end Sys2Proof.Machine

/-! ### The obligations -/

namespace Sys2Proof.Proofs
open Sys2Proof.Machine

/-- Settles O47: the five stages, each from the state the one before it leaves. -/
theorem compressCompletes : Obligations.CompressCompletes := by
  intro s bs later₁ later₂ sess k snks hsrc hlen hsnk hk
  obtain ⟨arena, root, ct, answers, hrun, hpresent, hfree, hbounded⟩ := execCompress_compressed hsrc hlen hsnk hk
  exact ⟨arena, root, ct, answers, hrun, hpresent, hfree, hbounded⟩

/-- Settles O49: READ_HDR leaves the records' tree, and UNPACK decodes the payload with it. -/
theorem decompressCompletes : Obligations.DecompressCompletes := by
  intro s recs m coded payload later sess answers snks hgood hlow hhigh hcoded hcase hsrc hsnk
  rw [deliver, List.map_append, List.append_assoc, ← deliver] at hsrc
  obtain ⟨arena, t, hread, htree, hheld, -, -⟩ :=
    readHdrCompletes { s with curOp := Instr.decompress.opcode } recs m _ sess hgood hlow hhigh hsrc
  obtain ⟨u, hend, hrest⟩ := performAll_cons_of_ended (st := .readHdr) hread rfl rfl [.unpack]
  have harena : u.arena = arena := congrArg State.arena hend
  have hlast : u.lastBits.toNat = m.toNat := by
    rw [show u.lastBits = m.extractLsb' 0 4 from congrArg State.lastBits hend, BitVec.extractLsb'_toNat,
      Nat.shiftRight_zero, Nat.mod_eq_of_lt (by omega)]
  have hn : u.decNsym = BitVec.ofNat 9 recs.length := (congrArg State.decNsym hend :)
  have hpayload : u.src = some (deliver payload .eof later) := (congrArg State.src hend :)
  have hanswers : u.snkNext = okThen coded.length answers :: snks := (congrArg State.snkNext hend :).trans hsnk
  have hbody := unpackBody_records (s := started .unpack u) hgood hcoded (by simpa [hlast] using hcase)
    hn (congrArg State.root hend) (harena ▸ htree) hheld hpayload hanswers
  have hfd : u.fd = true := (congrArg State.fd hend :)
  refine ⟨arena, t, hrest.trans ((performAll_cons_of_done (st := .unpack) hfd hbody).trans ?_), htree, hheld⟩
  have hfinal {n : Nat} {rest : List SrcItem} {out : List Byte} :
      endRun (finishStage .unpack (unpacking n rest out answers snks (started .unpack u)))
        = { endRun u with
            objects := out :: (endRun u).objects, snk := some answers, snkNext := snks
            snkPos := BitVec.ofNat 64 out.length, src := some rest
            srcPos := (endRun u).srcPos + BitVec.ofNat 64 n
            fh := false, fd := false, curOp := 0x7 } := rfl
  refine congrArg Host.Outcome.next (hfinal.trans ?_)
  rw [hend, ← BitVec.ofNat_add, List.length_map]

end Sys2Proof.Proofs
end

section
/-! PROOFS. What the body of a stage does not see (20_memory.md R89, R95): in a state that differs from another
outside what the stage reads and writes, and in which more answers may be ready, the body does the same, and where it
waited in the other it goes on with those answers. -/

set_option autoImplicit false

namespace Sys2Proof.Machine

/-! ### A change of the state that the body of a stage does not see -/

/-- What another state has instead of the part that is outside a stage, the objects below the current one (none where
they stay), and what is ready in its sessions after the items and answers of this state. -/
structure Change where
  outer : State → State
  below : Option (List (List Byte)) := none
  items : List SrcItem := []
  answers : List SnkAnswer := []

namespace Change

/-- The current source session with the items that are ready after it. -/
def source (c : Change) (src : Option (List SrcItem)) : Option (List SrcItem) := src.map (· ++ c.items)

/-- The current sink session with the answers that are ready after it. -/
def sink (c : Change) (snk : Option (List SnkAnswer)) : Option (List SnkAnswer) := snk.map (· ++ c.answers)

/-- The current object on top of what is below it. -/
def objects (c : Change) (objects : List (List Byte)) : List (List Byte) :=
  match c.below with
  | none => objects
  | some below => objects.headD [] :: below

/-- The changed state: what the stage reads or writes is as it was. -/
def on (c : Change) (st : Stage) (s : State) : State :=
  let o := c.outer (outside st s)
  match st with
  | .nop => o
  | .count => { o with w := s.w, total := s.total, nsym := s.nsym, src := c.source s.src, srcPos := s.srcPos }
  | .build => { o with w := s.w, arena := s.arena, pl := s.pl, root := s.root }
  | .assign => { o with arena := s.arena, root := s.root, ct := s.ct }
  | .writeHdr =>
    { o with
      ct := s.ct, payloadStart := s.payloadStart, headerEnd := s.headerEnd
      snk := c.sink s.snk, snkPos := s.snkPos, objects := c.objects s.objects }
  | .pack =>
    { o with
      ct := s.ct, headerEnd := s.headerEnd, lastBits := s.lastBits, src := c.source s.src, srcPos := s.srcPos
      snk := c.sink s.snk, snkPos := s.snkPos, objects := c.objects s.objects }
  | .readHdr =>
    { o with
      decNsym := s.decNsym, lastBits := s.lastBits, payloadStart := s.payloadStart, arena := s.arena, root := s.root
      src := c.source s.src, srcPos := s.srcPos }
  | .unpack =>
    { o with
      arena := s.arena, root := s.root, decNsym := s.decNsym, lastBits := s.lastBits
      src := c.source s.src, srcPos := s.srcPos
      snk := c.sink s.snk, snkPos := s.snkPos, objects := c.objects s.objects }

end Change

/-- The stages that read a source session, and those that append to an object. -/
def sourceStages : List Stage := [.count, .pack, .readHdr, .unpack]
def sinkStages : List Stage := [.writeHdr, .pack, .unpack]

/-- The flow from the changed state, where it goes on with `k` from a transaction it waits at. -/
def Flow.replay (g : State → State) (k : Point → State → Flow Unit) (m : Flow Unit) : Flow Unit :=
  match m with
  | .done _ s => .done () (g s)
  | .wait p s => k p (g s)
  | .raise e s => .raise e (g s)
  | .fault f => .fault f

/-- The flow with its states changed. -/
def Flow.map {α : Type} (g : State → State) (m : Flow α) : Flow α :=
  match m with
  | .done a s => .done a (g s)
  | .wait p s => .wait p (g s)
  | .raise e s => .raise e (g s)
  | .fault f => .fault f

/-- A piece that does not wait, what comes after it being replayed. -/
theorem bind_map_eq_replay {α : Type} {g : State → State} {k : Point → State → Flow Unit} {m : Flow α}
    {f f' : α → State → Flow Unit}
    (h : m.All (fun a t => f' a (g t) = (f a t).replay g k) (fun _ _ => False) (fun _ _ => True) fun _ => True) :
    (m.map g).bind f' = (m.bind f).replay g k := by
  cases m with
  | done a s => exact h
  | wait p s => exact absurd h id
  | raise e s => rfl
  | fault f => rfl

/-- No answer is ready for the transaction the engine waits at. -/
def Point.Stuck (p : Point) (s : State) : Prop :=
  match p with
  | .countRead => srcItems s = []
  | .hdrPut todo => todo ≠ [] ∧ s.snk.getD [] = []
  | .hdrGet _ => srcItems s = []
  | .packRead _ _ => srcItems s = []
  | .packByte _ _ => s.snk.getD [] = []
  | .packFlush _ _ => s.snk.getD [] = []
  | .packPatch => patchInside s = true ∧ s.snk.getD [] = []
  | .unpackFirst => s.root ≠ none ∧ srcItems s = []
  | .unpackAhead _ _ => s.root ≠ none ∧ srcItems s = []
  | .unpackPut _ _ _ => s.root ≠ none ∧ s.snk.getD [] = []

/-! ### What the changed state has -/

section
variable {c : Change} {st : Stage} {s : State}

theorem on_src (hst : st ∈ sourceStages) : (c.on st s).src = c.source s.src := by
  simp only [sourceStages, List.mem_cons, List.not_mem_nil, or_false] at hst
  rcases hst with rfl | rfl | rfl | rfl <;> rfl

theorem on_snk (hst : st ∈ sinkStages) : (c.on st s).snk = c.sink s.snk := by
  simp only [sinkStages, List.mem_cons, List.not_mem_nil, or_false] at hst
  rcases hst with rfl | rfl | rfl <;> rfl

theorem srcItems_eq_cons {it : SrcItem} {rest : List SrcItem} :
    srcItems s = it :: rest ↔ s.src = some (it :: rest) := by
  cases hsrc : s.src <;> simp [srcItems, hsrc]

theorem srcItems_on_cons {it : SrcItem} {rest : List SrcItem} (hst : st ∈ sourceStages) (h : srcItems s = it :: rest) :
    srcItems (c.on st s) = it :: (rest ++ c.items) := by
  rw [srcItems, on_src hst, srcItems_eq_cons.mp h]
  rfl

theorem on_curObject (hst : st ∈ sinkStages) : curObject (c.on st s) = curObject s := by
  have hobjects : (c.on st s).objects = c.objects s.objects := by
    simp only [sinkStages, List.mem_cons, List.not_mem_nil, or_false] at hst
    rcases hst with rfl | rfl | rfl <;> rfl
  rw [curObject, hobjects, Change.objects]
  cases c.below <;> rfl

theorem objects_setObject (o : List Byte) (l : List (List Byte)) :
    c.objects (o :: l.tail) = o :: (c.objects l).tail := by
  rw [Change.objects, Change.objects]
  cases c.below <;> rfl

theorem on_appended (hst : st ∈ sinkStages) (v : Byte) (rest : List SnkAnswer) :
    c.on st (appended v rest s) = appended v (rest ++ c.answers) (c.on st s) := by
  have hobject : curObject (c.on st s) = curObject s := on_curObject hst
  simp only [sinkStages, List.mem_cons, List.not_mem_nil, or_false] at hst
  rcases hst with rfl | rfl | rfl
  all_goals
    simp only [appended, hobject]
    simp only [Change.on, Change.sink, objects_setObject]
    rfl

theorem on_patchedState (v : Byte) (rest : List SnkAnswer) :
    c.on .pack (patchedState v rest s) = patchedState v (rest ++ c.answers) (c.on .pack s) := by
  have hobject : curObject (c.on .pack s) = curObject s := on_curObject (by decide)
  simp only [patchedState, hobject]
  simp only [Change.on, Change.sink, objects_setObject]
  rfl

theorem on_tookByte (hst : st ∈ sourceStages) (rest : List SrcItem) :
    c.on st (tookByte rest s) = tookByte (rest ++ c.items) (c.on st s) := by
  simp only [sourceStages, List.mem_cons, List.not_mem_nil, or_false] at hst
  have houtside : outside st (tookByte rest s) = outside st s := by
    rcases hst with rfl | rfl | rfl | rfl <;> rfl
  rw [Change.on.eq_def, houtside]
  rcases hst with rfl | rfl | rfl | rfl <;> rfl

theorem on_tookFinal (hst : st ∈ sourceStages) (rest : List SrcItem) :
    c.on st (tookFinal rest s) = tookFinal (rest ++ c.items) (c.on st s) := by
  simp only [sourceStages, List.mem_cons, List.not_mem_nil, or_false] at hst
  have houtside : outside st (tookFinal rest s) = outside st s := by
    rcases hst with rfl | rfl | rfl | rfl <;> rfl
  rw [Change.on.eq_def, houtside]
  rcases hst with rfl | rfl | rfl | rfl <;> rfl

theorem on_tally (b : Byte) : c.on .count (tally b s) = tally b (c.on .count s) := by
  have houtside : outside .count (tally b s) = outside .count s := rfl
  simp only [Change.on, houtside]
  rfl

theorem on_counted (rest : List SrcItem) (n : BitVec 9) :
    c.on .count { tookFinal rest s with nsym := n }
      = { tookFinal (rest ++ c.items) (c.on .count s) with nsym := n } := by
  have houtside : outside .count { tookFinal rest s with nsym := n } = outside .count s := rfl
  simp only [Change.on, houtside]
  rfl

theorem on_headerRead (l : BitVec 4) (n : BitVec 9) (v : Word) :
    c.on .readHdr { s with lastBits := l, decNsym := n, payloadStart := v }
      = { c.on .readHdr s with lastBits := l, decNsym := n, payloadStart := v } := by
  have houtside : outside .readHdr { s with lastBits := l, decNsym := n, payloadStart := v } = outside .readHdr s := rfl
  simp only [Change.on, houtside]

theorem recordRead_on (n left : Nat) (seen : List Byte) (sym len : Byte) (f : List Byte) :
    recordRead n left seen sym len f (c.on .readHdr s) = (recordRead n left seen sym len f s).map (c.on .readHdr) := by
  have hroot : (c.on .readHdr s).root = s.root := rfl
  have harena : (c.on .readHdr s).arena = s.arena := rfl
  rw [recordRead, recordRead, hroot, harena]
  cases s.root with
  | none => rfl
  | some r =>
    simp only
    cases insertCode sym (codeOfField len f) r s.arena <;> rfl

/-- A byte of the header is taken alike in the changed state. -/
theorem hdrByte_on (h : HdrAt) (v : Byte) : hdrByte h v (c.on .readHdr s) = (hdrByte h v s).map (c.on .readHdr) := by
  cases h with
  | countLo => rfl
  | countHi lo =>
    simp only [hdrByte]
    split <;> rfl
  | symbol n left seen => rfl
  | length n left seen sym =>
    simp only [hdrByte]
    split
    · rfl
    · split <;> rfl
  | code n left seen sym len got =>
    simp only [hdrByte]
    split
    · rfl
    · exact recordRead_on ..
  | meaningful n =>
    have hpos : (c.on .readHdr s).srcPos = s.srcPos := rfl
    simp only [hdrByte, hpos]
    split
    · rfl
    · exact congrArg (Flow.done none) (on_headerRead _ _ _).symm

/-- A byte of the header leaves the session. -/
theorem hdrByte_src (h : HdrAt) (v : Byte) :
    (hdrByte h v s).All (fun _ t => t.src = s.src) (fun _ _ => False) (fun _ _ => True) fun _ => True :=
  hdrByte_all trivial (fun _ _ => rfl)
    (fun _ _ _ _ _ _ _ => recordRead_all (fun _ => trivial) (fun _ _ _ _ => rfl) (fun _ _ _ _ => trivial)
      fun _ _ _ _ => trivial)
    fun _ _ _ => rfl

theorem on_patchInside : patchInside (c.on .pack s) = patchInside s := by
  rw [patchInside, on_curObject (by decide)]
  rfl

end

/-! ### What comes after the bits of a byte -/

/-- What PACK does after the bits of a code (R210). -/
def packOn (ah : Byte × Nat) (s : State) : Flow Unit := packLoop (srcItems s) ah.1 ah.2 s

theorem packBits_src (todo : Bits) (acc : Byte) (held : Nat) (s : State) :
    (packBits todo acc held s).All (fun _ t => t.src = s.src) (fun _ _ => True) (fun _ _ => True) fun _ => True :=
  packBits_all (J := fun _ _ t => t.src = s.src) (fun _ _ _ h => h) (fun _ _ _ _ h _ => h)
    (fun _ _ _ _ _ _ h _ _ => h) (fun _ _ _ _ _ _ _ => trivial) (fun _ _ _ _ _ _ _ _ => trivial) rfl

theorem packLoop_byte {v : Byte} {rest : List SrcItem} {acc : Byte} {held : Nat} {code : Bits} {s : State}
    (hv : tget s.ct v = some code) :
    packLoop (.byte v :: rest) acc held s = (packBits code acc held (tookByte rest s)).bind packOn := by
  have hsrc := packBits_src code acc held (tookByte rest s)
  rw [packLoop, hv]
  cases hbits : packBits code acc held (tookByte rest s) with
  | done ah t =>
    rw [hbits] at hsrc
    have hrest : t.src = some rest := hsrc
    simp only [hbits, Flow.bind, packOn, srcItems, hrest, Option.getD_some]
  | _ => simp only [hbits, Flow.bind]

/-- What UNPACK does after the bits of a byte, `ahead` being the byte after it (R215, R218). -/
def unpackOn (root : Nat) (ahead : Option Byte) (cur : Nat) (s : State) : Flow Unit :=
  match ahead with
  | none => unpackEnd root cur s
  | some v => unpackLoop root (srcItems s) v cur s

theorem walkBits_kept (root : Nat) (ahead : Option Byte) (bits : Bits) (cur : Nat) (s : State) :
    (walkBits root ahead bits cur s).All (fun _ t => t.src = s.src ∧ t.root = s.root) (fun _ _ => True)
      (fun _ _ => True) fun _ => True :=
  walkBits_all (J := fun _ _ t => t.src = s.src ∧ t.root = s.root) (fun _ _ h => h) (fun _ _ _ _ _ _ => trivial)
    (fun _ _ _ _ _ => trivial) (fun _ _ _ _ _ _ _ _ _ h _ _ _ => h) (fun _ _ _ _ _ _ h _ => h)
    (fun _ _ _ _ _ _ _ => trivial) (fun _ _ _ _ _ _ _ => trivial) ⟨rfl, rfl⟩

theorem unpackLoop_byte {root : Nat} {v b : Byte} {rest : List SrcItem} {cur : Nat} {s : State} :
    unpackLoop root (.byte v :: rest) b cur s
      = (walkBits root (some v) (byteBits b) cur (tookByte rest s)).bind (unpackOn root (some v)) := by
  have hkept := walkBits_kept root (some v) (byteBits b) cur (tookByte rest s)
  rw [unpackLoop]
  cases hbits : walkBits root (some v) (byteBits b) cur (tookByte rest s) with
  | done cur t =>
    rw [hbits] at hkept
    have hrest : t.src = some rest := hkept.1
    simp only [Flow.bind, unpackOn, srcItems, hrest, Option.getD_some]
  | _ => simp only [Flow.bind]

theorem unpackEnd_replay {c : Change} {k : Point → State → Flow Unit} {root cur : Nat} {s : State} :
    unpackEnd root cur (c.on .unpack s) = (unpackEnd root cur s).replay (c.on .unpack) k := by
  rw [unpackEnd, unpackEnd]
  split <;> rfl

/-! ### The bodies in the changed state -/

section
variable {c : Change} {k : Point → State → Flow Unit}
  (hk : ∀ (p : Point) (t : State), p.Stuck t → k p (c.on p.stage t) = resumeBody p (c.on p.stage t))

include hk

theorem countLoop_replay {items : List SrcItem} {s : State} (hitems : srcItems s = items) :
    countLoop (srcItems (c.on .count s)) (c.on .count s) = (countLoop items s).replay (c.on .count) k := by
  induction items generalizing s with
  | nil => exact (hk .countRead s hitems).symm
  | cons it rest ih =>
    rw [srcItems_on_cons (by decide) hitems]
    cases it with
    | fail => rw [countLoop, countLoop, Flow.replay, on_tookFinal (by decide)]
    | eof =>
      have hw : (c.on .count s).w = s.w := rfl
      rw [countLoop, countLoop, Flow.replay, on_counted, hw]
    | byte b =>
      have htotal : (c.on .count s).total = s.total := rfl
      rw [countLoop, countLoop, htotal, ← on_tookByte (by decide), ← on_tally]
      split
      · rfl
      · exact ih (s := tally b (tookByte rest s)) rfl

/-- An append in the changed state, `f` coming after it. -/
theorem put_replay {st : Stage} (hst : st ∈ sinkStages) {v : Byte} {p : Point} {s : State} (hp : p.stage = st)
    {f : Unit → State → Flow Unit} (hstuck : s.snk.getD [] = [] → p.Stuck s)
    (hresume : resumeBody p (c.on st s) = (put v p (c.on st s)).bind f)
    (hdone : ∀ rest, f () (c.on st (appended v rest s)) = (f () (appended v rest s)).replay (c.on st) k) :
    (put v p (c.on st s)).bind f = ((put v p s).bind f).replay (c.on st) k := by
  have hsnk : (c.on st s).snk = c.sink s.snk := on_snk hst
  rcases put_cases v p s with ⟨rest, hok, hput⟩ | ⟨rest, hfail, hput⟩ | ⟨hnone, hput⟩
  · rw [hok] at hsnk
    rw [hput, put_ok (rest := rest ++ c.answers) v p hsnk, ← on_appended hst]
    exact hdone rest
  · rw [hfail] at hsnk
    rw [hput, put_fail (rest := rest ++ c.answers) v p hsnk]
    simp only [sinkStages, List.mem_cons, List.not_mem_nil, or_false] at hst
    rcases hst with rfl | rfl | rfl <;> rfl
  · have hnone : s.snk.getD [] = [] := by rcases hnone with h | h <;> rw [h] <;> rfl
    subst hp
    rw [hput, ← hresume, ← hk p s (hstuck hnone)]
    rfl

theorem hdrPutLoop_replay {todo : List Byte} {s : State} :
    hdrPutLoop todo (c.on .writeHdr s) = (hdrPutLoop todo s).replay (c.on .writeHdr) k := by
  induction todo generalizing s with
  | nil => rfl
  | cons v todo ih =>
    exact put_replay hk (st := .writeHdr) (by decide) rfl (fun h => ⟨List.cons_ne_nil _ _, h⟩) rfl fun rest => ih

/-! READ_HDR. -/

theorem hdrLoop_replay {items : List SrcItem} {h : HdrAt} {s : State} (hitems : srcItems s = items) :
    hdrLoop (srcItems (c.on .readHdr s)) h (c.on .readHdr s) = (hdrLoop items h s).replay (c.on .readHdr) k := by
  induction items generalizing h s with
  | nil => exact (hk (.hdrGet h) s hitems).symm
  | cons it rest ih =>
    rw [srcItems_on_cons (by decide) hitems]
    cases it with
    | fail => rw [hdrLoop, hdrLoop, Flow.replay, on_tookFinal (by decide)]
    | eof => rw [hdrLoop, hdrLoop, Flow.replay, on_tookFinal (by decide)]
    | byte v =>
      rw [hdrLoop, hdrLoop, ← on_tookByte (by decide), hdrByte_on]
      refine bind_map_eq_replay (all_mono (hdrByte_src h v) (fun next t hsrc => ?_) (fun _ _ => id) (fun _ _ => id)
        fun _ => id)
      have hrest : t.src = some rest := hsrc
      cases next with
      | none => rfl
      | some h' =>
        have hready : srcItems (c.on .readHdr t) = rest ++ c.items := by rw [srcItems, on_src (by decide), hrest]; rfl
        have hloop := ih (h := h') (s := t) (by rw [srcItems, hrest]; rfl)
        rwa [hready] at hloop

/-! PACK. -/

theorem packPatch_replay {s : State} : packPatch (c.on .pack s) = (packPatch s).replay (c.on .pack) k := by
  have hlast : (c.on .pack s).lastBits = s.lastBits := rfl
  have hsnk : (c.on .pack s).snk = c.sink s.snk := rfl
  have hinside : patchInside (c.on .pack s) = patchInside s := on_patchInside
  cases hp : patchInside s with
  | false =>
    have hp' : ¬ patchInside s = true := Bool.eq_false_iff.mp hp
    rw [packPatch, packPatch, snkPatch, snkPatch, hinside, if_neg hp', if_neg hp']
    rfl
  | true =>
    rw [packPatch, packPatch, hlast]
    rcases snkPatch_cases (s.lastBits.setWidth 8) .packPatch hp with ⟨rest, hok, hpatch⟩ | ⟨rest, hfail, hpatch⟩ |
      ⟨hnone, hpatch⟩
    · rw [hok] at hsnk
      rw [hpatch, snkPatch_ok (rest := rest ++ c.answers) _ _ (hinside.trans hp) hsnk, Flow.replay, on_patchedState]
    · rw [hfail] at hsnk
      rw [hpatch, snkPatch_fail (rest := rest ++ c.answers) _ _ (hinside.trans hp) hsnk]
      rfl
    · have hnone : s.snk.getD [] = [] := by rcases hnone with h | h <;> rw [h] <;> rfl
      rw [hpatch]
      exact (hk .packPatch s ⟨hp, hnone⟩).symm

theorem packFlush_replay {acc : Byte} {held : Nat} {s : State} :
    packFlush acc held (c.on .pack s) = (packFlush acc held s).replay (c.on .pack) k :=
  put_replay hk (st := .pack) (p := .packFlush acc held) (by decide) rfl id rfl fun rest =>
    packPatch_replay hk (s := { appended (flushByte acc held) rest s with lastBits := BitVec.ofNat 4 held })

theorem packEnd_replay {acc : Byte} {held : Nat} {s : State} :
    packEnd acc held (c.on .pack s) = (packEnd acc held s).replay (c.on .pack) k := by
  rw [packEnd, packEnd]
  split
  · exact packFlush_replay hk
  · exact packPatch_replay hk (s := { s with lastBits := 8 })

theorem packBits_replay {todo : Bits} {acc : Byte} {held : Nat} {s : State}
    (hon : ∀ ah t, t.src = s.src → packOn ah (c.on .pack t) = (packOn ah t).replay (c.on .pack) k) :
    (packBits todo acc held (c.on .pack s)).bind packOn
      = ((packBits todo acc held s).bind packOn).replay (c.on .pack) k := by
  induction todo generalizing acc held s with
  | nil => exact hon (acc, held) s rfl
  | cons b todo ih =>
    rw [packBits, packBits]
    split
    · rw [bind_assoc, bind_assoc]
      exact put_replay hk (st := .pack) (p := .packByte (shiftIn acc b) todo) (by decide) rfl id rfl fun rest =>
        ih (s := appended (shiftIn acc b) rest s) hon
    · exact ih hon

theorem packLoop_replay {items : List SrcItem} {acc : Byte} {held : Nat} {s : State} (hitems : srcItems s = items) :
    packLoop (srcItems (c.on .pack s)) acc held (c.on .pack s) = (packLoop items acc held s).replay (c.on .pack) k := by
  induction items generalizing acc held s with
  | nil => exact (hk (.packRead acc held) s hitems).symm
  | cons it rest ih =>
    rw [srcItems_on_cons (by decide) hitems]
    cases it with
    | fail => rw [packLoop, packLoop, Flow.replay, on_tookFinal (by decide)]
    | eof =>
      rw [packLoop, packLoop, ← on_tookFinal (by decide)]
      exact packEnd_replay hk
    | byte v =>
      have hct : (c.on .pack s).ct = s.ct := rfl
      cases hv : tget s.ct v with
      | none =>
        rw [packLoop, packLoop, hct, hv, ← on_tookByte (by decide)]
        rfl
      | some code =>
        rw [packLoop_byte (hct ▸ hv), packLoop_byte hv, ← on_tookByte (by decide)]
        refine packBits_replay hk fun ah t hsrc => ?_
        have hrest : srcItems t = rest := by rw [srcItems, hsrc]; rfl
        rw [packOn, packOn, hrest]
        exact ih hrest

theorem packResume_replay {acc : Byte} {todo : Bits} {s : State} :
    packResume acc todo (c.on .pack s) = (packResume acc todo s).replay (c.on .pack) k :=
  put_replay hk (st := .pack) (p := .packByte acc todo) (by decide) rfl id rfl fun rest =>
    packBits_replay hk (s := appended acc rest s) fun _ _ _ => packLoop_replay hk rfl

/-! UNPACK. -/

theorem walkBits_replay {root : Nat} {ahead : Option Byte} {bits : Bits} {cur : Nat} {s : State}
    (hroot : s.root = some root)
    (hon : ∀ cur t, t.src = s.src → t.root = s.root →
      unpackOn root ahead cur (c.on .unpack t) = (unpackOn root ahead cur t).replay (c.on .unpack) k) :
    (walkBits root ahead bits cur (c.on .unpack s)).bind (unpackOn root ahead)
      = ((walkBits root ahead bits cur s).bind (unpackOn root ahead)).replay (c.on .unpack) k := by
  induction bits generalizing cur s with
  | nil => exact hon cur s rfl rfl
  | cons b bits ih =>
    have harena : (c.on .unpack s).arena = s.arena := rfl
    rw [walkBits, walkBits, harena]
    cases hcur : s.arena[cur]? with
    | none => rfl
    | some n =>
      simp only
      cases hx : n.child b with
      | none => rfl
      | some x =>
        simp only
        rcases hrec : s.arena[x]? with _ | ⟨sym, wt⟩ | ⟨wt, l, r⟩
        · rfl
        · simp only [bind_assoc]
          refine put_replay hk (st := .unpack) (p := .unpackPut sym bits ahead) (by decide) rfl
            (fun h => ⟨by rw [hroot]; nofun, h⟩) ?_ fun rest => ih (s := appended sym rest s) hroot hon
          have hroot' : (c.on .unpack s).root = some root := hroot
          rw [resumeBody, withRoot, hroot']
          rfl
        · exact ih hroot hon

theorem unpackLoop_replay {root : Nat} {items : List SrcItem} {b : Byte} {cur : Nat} {s : State}
    (hroot : s.root = some root) (hitems : srcItems s = items) :
    unpackLoop root (srcItems (c.on .unpack s)) b cur (c.on .unpack s)
      = (unpackLoop root items b cur s).replay (c.on .unpack) k := by
  have hroot' : (c.on .unpack s).root = some root := hroot
  induction items generalizing b cur s with
  | nil =>
    have hresume := hk (.unpackAhead b cur) s ⟨by rw [hroot]; nofun, hitems⟩
    rw [resumeBody, Point.stage, withRoot, hroot'] at hresume
    exact hresume.symm
  | cons it rest ih =>
    rw [srcItems_on_cons (by decide) hitems]
    cases it with
    | fail => rw [unpackLoop, unpackLoop, Flow.replay, on_tookFinal (by decide)]
    | eof =>
      rw [unpackLoop, unpackLoop, ← on_tookFinal (by decide)]
      exact walkBits_replay hk (ahead := none) hroot fun _ _ _ _ => unpackEnd_replay
    | byte v =>
      rw [unpackLoop_byte, unpackLoop_byte, ← on_tookByte (by decide)]
      refine walkBits_replay hk (s := tookByte rest s) hroot fun cur t hsrc hkept => ?_
      have hrest : srcItems t = rest := by rw [srcItems, hsrc]; rfl
      rw [unpackOn, unpackOn, hrest]
      exact ih (hkept.trans hroot) hrest (hkept.trans hroot)

theorem unpackFirst_replay {root : Nat} {s : State} (hroot : s.root = some root) :
    unpackFirst root (srcItems (c.on .unpack s)) (c.on .unpack s)
      = (unpackFirst root (srcItems s) s).replay (c.on .unpack) k := by
  have hroot' : (c.on .unpack s).root = some root := hroot
  cases hitems : srcItems s with
  | nil =>
    have hresume := hk .unpackFirst s ⟨by rw [hroot]; nofun, hitems⟩
    rw [resumeBody, Point.stage, withRoot, hroot'] at hresume
    exact hresume.symm
  | cons it rest =>
    rw [srcItems_on_cons (by decide) hitems]
    cases it with
    | fail => rfl
    | eof => rfl
    | byte v =>
      rw [unpackFirst, unpackFirst, ← on_tookByte (by decide)]
      exact unpackLoop_replay hk (s := tookByte rest s) hroot rfl

theorem unpackResume_replay {root : Nat} {sym : Byte} {todo : Bits} {ahead : Option Byte} {s : State}
    (hroot : s.root = some root) :
    unpackResume root sym todo ahead (c.on .unpack s)
      = (unpackResume root sym todo ahead s).replay (c.on .unpack) k := by
  have hroot' : (c.on .unpack s).root = some root := hroot
  refine put_replay hk (st := .unpack) (p := .unpackPut sym todo ahead) (by decide) rfl
    (fun h => ⟨by rw [hroot]; nofun, h⟩) ?_ fun rest =>
      walkBits_replay hk (s := appended sym rest s) hroot fun cur t _ hkept => ?_
  · rw [resumeBody, withRoot, hroot']
    rfl
  · cases ahead with
    | none => exact unpackEnd_replay
    | some v => exact unpackLoop_replay hk (hkept.trans hroot) rfl

end

end Sys2Proof.Machine
end

section
/-! PROOFS. The body of a stage, begun or resumed, in a changed state: where no more answers are ready it does the
same and waits at the same transaction, and where more are, it goes on with them (20_memory.md R89). -/

set_option autoImplicit false

namespace Sys2Proof.Machine

/-! ### The body of a stage from the state in which its ports are open -/

/-- The state in which the body of a stage begins its work: its ports are open, and what it clears, or writes without
reading, is clear. -/
def begun (st : Stage) (s : State) : State :=
  match st with
  | .count => srcOpen { s with w := Vector.replicate 256 0, total := 0, nsym := 0 }
  | .writeHdr => headerBegun s
  | .pack => srcOpen { s with lastBits := 0 }
  | .readHdr =>
    { srcOpen { s with decNsym := 0, lastBits := 0, payloadStart := 0 } with arena := [emptyNode], root := some 0 }
  | .unpack => snkOpen s
  | .build => { s with arena := [], pl := [], root := none }
  | .assign => { s with ct := Vector.replicate 256 none }
  | .nop => s

/-- The work of a stage's body. -/
def begunBody (st : Stage) (s : State) : Flow Unit :=
  match st with
  | .nop => .done () s
  | .count => countLoop (srcItems s) s
  | .build => buildBody s
  | .assign => assignBody s
  | .writeHdr => hdrPutLoop (headerBytes s.ct) s
  | .pack => packLoop (srcItems s) 0 0 s
  | .readHdr => hdrLoop (srcItems s) .countLo s
  | .unpack => if s.decNsym = 0 then .done () s else withRoot s fun r => unpackFirst r (srcItems s) s

theorem stageBody_eq (st : Stage) (s : State) : stageBody st s = begunBody st (begun st s) := by
  cases st with
  | build => simp only [stageBody, begunBody, begun, buildBody]
  | assign => simp only [stageBody, begunBody, begun, assignBody]
  | _ => rfl

/-! ### The bodies in a changed state -/

section
variable {c : Change} {k : Point → State → Flow Unit}

theorem buildBody_replay {s : State} : buildBody (c.on .build s) = (buildBody s).replay (c.on .build) k := by
  have hw : (c.on .build s).w = s.w := rfl
  have hdone (arena : List Node) (pl : List Nat) (root : Option Nat) :
      { c.on .build s with arena := arena, pl := pl, root := root }
        = c.on .build { s with arena := arena, pl := pl, root := root } := rfl
  simp only [buildBody, hw]
  cases mergeLoop ((listInit s.w).2.length - 1) (listInit s.w).1 (listInit s.w).2 with
  | error f => rfl
  | ok m =>
    obtain ⟨arena, pl⟩ := m
    cases pl with
    | nil => exact congrArg _ (hdone arena [] none)
    | cons r pl => exact congrArg _ (hdone arena pl (some r))

theorem assignBody_replay {s : State} : assignBody (c.on .assign s) = (assignBody s).replay (c.on .assign) k := by
  have htable : assignTable (c.on .assign s).arena (c.on .assign s).root = assignTable s.arena s.root := rfl
  rw [assignBody, assignBody, htable]
  cases assignTable s.arena s.root <;> rfl

theorem withRoot_replay {s : State} {f f' : Nat → Flow Unit}
    (h : ∀ r, s.root = some r → f' r = (f r).replay (c.on .unpack) k) :
    withRoot (c.on .unpack s) f' = (withRoot s f).replay (c.on .unpack) k := by
  have hroot : (c.on .unpack s).root = s.root := rfl
  rw [withRoot, withRoot, hroot]
  cases hr : s.root with
  | none => rfl
  | some r => exact h r hr

variable (hk : ∀ (p : Point) (t : State), p.Stuck t → k p (c.on p.stage t) = resumeBody p (c.on p.stage t))

include hk

theorem begunBody_replay (st : Stage) (s : State) :
    begunBody st (c.on st s) = (begunBody st s).replay (c.on st) k := by
  cases st with
  | nop => rfl
  | count => exact countLoop_replay hk rfl
  | build => exact buildBody_replay
  | assign => exact assignBody_replay
  | writeHdr => exact hdrPutLoop_replay hk
  | pack => exact packLoop_replay hk rfl
  | readHdr => exact hdrLoop_replay hk rfl
  | unpack =>
    have hn : (c.on .unpack s).decNsym = s.decNsym := rfl
    rw [begunBody, begunBody, hn]
    split
    · rfl
    · exact withRoot_replay fun r hr => unpackFirst_replay hk hr

theorem resumeBody_replay (p : Point) (s : State) :
    resumeBody p (c.on p.stage s) = (resumeBody p s).replay (c.on p.stage) k := by
  cases p with
  | countRead => exact countLoop_replay hk rfl
  | hdrPut todo => exact hdrPutLoop_replay hk
  | hdrGet h => exact hdrLoop_replay hk rfl
  | packRead acc held => exact packLoop_replay hk rfl
  | packByte acc todo => exact packResume_replay hk
  | packFlush acc held => exact packFlush_replay hk
  | packPatch => exact packPatch_replay hk
  | unpackFirst => exact withRoot_replay fun r hr => unpackFirst_replay hk hr
  | unpackAhead b cur => exact withRoot_replay fun r hr => unpackLoop_replay hk hr rfl
  | unpackPut sym todo ahead => exact withRoot_replay fun r hr => unpackResume_replay hk hr

end

/-! ### More answers -/

section
variable {c : Change} {st : Stage} {s s' : State}

/-- A stage that has begun with more answers ready goes on with them from where it waits without them. -/
theorem stageBody_late (h : begun st s' = c.on st (begun st s)) :
    stageBody st s' = (stageBody st s).replay (c.on st) resumeBody := by
  rw [stageBody_eq, stageBody_eq, h]
  exact begunBody_replay (fun _ _ _ => rfl) st _

theorem resumeBody_late (p : Point) :
    resumeBody p (c.on p.stage s) = (resumeBody p s).replay (c.on p.stage) resumeBody :=
  resumeBody_replay (fun _ _ _ => rfl) p s

/-! ### No more answers -/

/-- A change that adds no answer. -/
def Change.Plain (c : Change) : Prop := c.items = [] ∧ c.answers = []

theorem Change.Plain.source (h : c.Plain) (src : Option (List SrcItem)) : c.source src = src := by
  cases src <;> simp [Change.source, h.1]

theorem Change.Plain.sink (h : c.Plain) (snk : Option (List SnkAnswer)) : c.sink snk = snk := by
  cases snk <;> simp [Change.sink, h.2]

theorem resumeBody_of_stuck {p : Point} (h : p.Stuck s) : resumeBody p s = .wait p s := by
  have hput {v : Byte} {q : Point} (h : s.snk.getD [] = []) : put v q s = .wait q s := by
    refine put_wait v q ?_
    cases hsnk : s.snk with
    | none => exact .inl rfl
    | some answers =>
      rw [hsnk] at h
      exact .inr (congrArg some h)
  have hroot {f : Nat → Flow Unit} (h : s.root ≠ none) (hf : ∀ r, f r = .wait p s) : withRoot s f = .wait p s := by
    obtain ⟨r, hr⟩ := Option.ne_none_iff_exists'.mp h
    rw [withRoot, hr]
    exact hf r
  cases p with
  | countRead => rw [resumeBody, show srcItems s = [] from h, countLoop]
  | hdrPut todo =>
    obtain ⟨v, todo, rfl⟩ := List.exists_cons_of_ne_nil h.1
    rw [resumeBody, hdrPutLoop, hput h.2]
    rfl
  | hdrGet at_ => rw [resumeBody, show srcItems s = [] from h, hdrLoop]
  | packRead acc held => rw [resumeBody, show srcItems s = [] from h, packLoop]
  | packByte acc todo =>
    rw [resumeBody, packResume, hput h]
    rfl
  | packFlush acc held =>
    rw [resumeBody, packFlush, hput h]
    rfl
  | packPatch =>
    refine snkPatch_wait _ _ h.1 ?_
    cases hsnk : s.snk with
    | none => exact .inl rfl
    | some answers => exact .inr (congrArg some (by simpa [hsnk] using h.2))
  | unpackFirst => exact hroot h.1 fun r => by rw [h.2]; rfl
  | unpackAhead b cur => exact hroot h.1 fun r => by rw [h.2]; rfl
  | unpackPut sym todo ahead =>
    refine hroot h.1 fun r => ?_
    rw [unpackResume, hput h.2]
    rfl

theorem Point.Stuck.on {p : Point} (h : p.Stuck s) (hc : c.Plain) : p.Stuck (c.on p.stage s) := by
  have hitems (hst : p.stage ∈ sourceStages) : srcItems (c.on p.stage s) = srcItems s := by
    rw [srcItems, on_src hst, hc.source]
    rfl
  have hanswers (hst : p.stage ∈ sinkStages) : (c.on p.stage s).snk.getD [] = s.snk.getD [] := by
    rw [on_snk hst, hc.sink]
  cases p with
  | countRead => exact (hitems (by simp [Point.stage, sourceStages])).trans h
  | hdrPut todo => exact ⟨h.1, (hanswers (by simp [Point.stage, sinkStages])).trans h.2⟩
  | hdrGet at_ => exact (hitems (by simp [Point.stage, sourceStages])).trans h
  | packRead acc held => exact (hitems (by simp [Point.stage, sourceStages])).trans h
  | packByte acc todo => exact (hanswers (by simp [Point.stage, sinkStages])).trans h
  | packFlush acc held => exact (hanswers (by simp [Point.stage, sinkStages])).trans h
  | packPatch =>
    exact ⟨on_patchInside.trans h.1, (hanswers (by simp [Point.stage, sinkStages])).trans h.2⟩
  | unpackFirst => exact ⟨h.1, (hitems (by simp [Point.stage, sourceStages])).trans h.2⟩
  | unpackAhead b cur => exact ⟨h.1, (hitems (by simp [Point.stage, sourceStages])).trans h.2⟩
  | unpackPut sym todo ahead => exact ⟨h.1, (hanswers (by simp [Point.stage, sinkStages])).trans h.2⟩

theorem replay_wait (g : State → State) (m : Flow Unit) : m.replay g .wait = m.map g := by
  cases m <;> rfl

theorem wait_of_stuck (hc : c.Plain) (p : Point) (t : State) (h : p.Stuck t) :
    Flow.wait p (c.on p.stage t) = resumeBody p (c.on p.stage t) :=
  (resumeBody_of_stuck (h.on hc)).symm

/-- A stage that has begun in a changed state with no more answers ready does the same. -/
theorem stageBody_on (hc : c.Plain) (h : begun st s' = c.on st (begun st s)) :
    stageBody st s' = (stageBody st s).map (c.on st) := by
  rw [stageBody_eq, stageBody_eq, h, ← replay_wait]
  exact begunBody_replay (wait_of_stuck hc) st _

theorem resumeBody_on (hc : c.Plain) (p : Point) :
    resumeBody p (c.on p.stage s) = (resumeBody p s).map (c.on p.stage) := by
  rw [← replay_wait]
  exact resumeBody_replay (wait_of_stuck hc) p s

end

end Sys2Proof.Machine
end

section
/-! PROOFS. Answers that arrive late (20_memory.md R89): a run that waits goes on, once the answer is there, as it
would have gone where the answer was ready before. -/

set_option autoImplicit false

namespace Sys2Proof.Machine

/-! ### A run does not see the run state, nor the sessions to come -/

section
variable {st : Stage} {rest : List Stage} {s t u : State}

/-- The change of the run state alone. -/
def runChange (r : Run) : Change := { outer := fun s => { s with run := r } }

/-- The change of the source sessions to come alone. -/
def srcNextChange (l : List (List SrcItem)) : Change := { outer := fun s => { s with srcNext := l } }

/-- The change of the sink sessions to come alone. -/
def snkNextChange (l : List (List SnkAnswer)) : Change := { outer := fun s => { s with snkNext := l } }

theorem runChange_on (r : Run) (st : Stage) (s : State) : (runChange r).on st s = { s with run := r } := by
  have hc : (runChange r).Plain := ⟨rfl, rfl⟩
  cases st <;> simp only [Change.on, hc.source, hc.sink] <;> rfl

theorem srcNextChange_on (l : List (List SrcItem)) (st : Stage) (s : State) :
    (srcNextChange l).on st s = { s with srcNext := l } := by
  have hc : (srcNextChange l).Plain := ⟨rfl, rfl⟩
  cases st <;> simp only [Change.on, hc.source, hc.sink] <;> rfl

theorem snkNextChange_on (l : List (List SnkAnswer)) (st : Stage) (s : State) :
    (snkNextChange l).on st s = { s with snkNext := l } := by
  have hc : (snkNextChange l).Plain := ⟨rfl, rfl⟩
  cases st <;> simp only [Change.on, hc.source, hc.sink] <;> rfl

theorem started_withRun (r : Run) : started st { s with run := r } = { started st s with run := r } := by
  cases st <;> rfl

theorem begun_withRun (r : Run) : begun st { s with run := r } = { begun st s with run := r } := by
  cases st <;> rfl

theorem finishStage_withRun (r : Run) : finishStage st { s with run := r } = { finishStage st s with run := r } := by
  cases st <;> rfl

theorem raiseError_withRun (e : ErrKind) (r : Run) : raiseError st e { s with run := r } = raiseError st e s := by
  cases st <;> rfl

/-- Where a stage's flow goes does not depend on the run state, where that of the stages to come does not. -/
theorem settle_map_withRun {k : State → Host.Outcome State Fault Refusal} (r : Run)
    (hk : ∀ t, k { t with run := r } = k t) (m : Flow Unit) :
    settle st rest k (m.map ((runChange r).on st)) = settle st rest k m := by
  cases m with
  | done a t =>
    rw [Flow.map, runChange_on, settle_done, settle_done, finishStage_withRun]
    exact hk _
  | wait p t =>
    rw [Flow.map, runChange_on]
    rfl
  | raise e t =>
    rw [Flow.map, runChange_on, settle_raise, settle_raise, raiseError_withRun]
  | fault f => rfl

theorem performAll_withRun (l : List Stage) (s : State) (r : Run) :
    performAll l { s with run := r } = performAll l s := by
  induction l generalizing s with
  | nil => rfl
  | cons st rest ih =>
    rw [performAll, performAll]
    cases hpre : pre st s with
    | false =>
      have hpre' : pre st { s with run := r } = false := by rw [← hpre]; cases st <;> rfl
      rw [performStage_not_pre hpre, performStage_not_pre hpre', settle_raise, settle_raise]
      exact congrArg _ (raiseError_withRun (s := { s with curOp := st.op }) .sequenceError r)
    | true =>
      have hpre' : pre st { s with run := r } = true := by rw [← hpre]; cases st <;> rfl
      rw [performStage_pre hpre, performStage_pre hpre', ← started, ← started, started_withRun,
        stageBody_on (c := runChange r) (s := started st s) ⟨rfl, rfl⟩ (by rw [begun_withRun, runChange_on])]
      exact settle_map_withRun r (fun t => ih t) _

theorem resumeBody_withRun {p : Point} (r : Run) :
    resumeBody p { s with run := r } = (resumeBody p s).map ((runChange r).on p.stage) := by
  rw [← resumeBody_on ⟨rfl, rfl⟩, runChange_on]

/-! ### A run that goes on with a late answer -/

/-- What `deliverItem` and `deliverAnswer` are: a change of what is ready, which keeps the run state. -/
structure Delivers (c : Change) (st : Stage) (d : State → State) : Prop where
  on : ∀ t, c.on st t = d t
  run : ∀ t r, d { t with run := r } = { d t with run := r }
  finish : ∀ t, finishStage st (d t) = d (finishStage st t)

variable {c : Change} {d : State → State}

theorem Delivers.run_eq (hd : Delivers c st d) (t : State) : (d t).run = t.run :=
  (congrArg State.run (hd.run t t.run) :)

/-- A stage that waits goes on, once the answer is there, as `m'` does, which had it before. -/
theorem engineTurn_of_replay (hd : Delivers c st d) {m m' : Flow Unit} (hm : m' = m.replay (c.on st) resumeBody)
    (hstage : ∀ p t, m = .wait p t → p.stage = st) (hu : settle st rest (performAll rest) m = .next u)
    (hbusy : u.busy = true) :
    engineTurn (d u) = settle st rest (performAll rest) m' ∨
      ∃ t, performAll rest (finishStage st t) = .next u ∧ m = .done () t ∧
        settle st rest (performAll rest) m' = performAll rest (d (finishStage st t)) := by
  cases m with
  | done a t =>
    refine .inr ⟨t, hu, rfl, ?_⟩
    rw [hm, Flow.replay, hd.on, settle_done, hd.finish]
  | wait p t =>
    obtain rfl := hstage p t rfl
    obtain rfl := Host.Outcome.next.inj hu
    have hrun : (d { t with run := .waiting p.stage p rest }).run = .waiting p.stage p rest := hd.run_eq _
    refine .inl ?_
    rw [engineTurn_of_waiting hrun, resumeRun, hm, Flow.replay, hd.on, hd.run, resumeBody_withRun]
    exact settle_map_withRun _ (fun t => performAll_withRun rest t _) _
  | raise e t =>
    obtain rfl := Host.Outcome.next.inj hu
    cases hbusy
  | fault f => cases hu

/-- A stage that has been performed up to a transaction goes on, once the answer is there, as it does from `s'`, where
the answer was ready before. -/
theorem engineTurn_of_performAll {s' : State} (hd : Delivers c st d)
    (hbegun : begun st (started st s') = d (begun st (started st s))) (hpre : pre st s' = pre st s)
    (hu : performAll (st :: rest) s = .next u) (hbusy : u.busy = true) :
    engineTurn (d u) = performAll (st :: rest) s' ∨
      ∃ t, performAll rest (finishStage st t) = .next u ∧ stageBody st (started st s) = .done () t ∧
        performAll (st :: rest) s' = performAll rest (d (finishStage st t)) := by
  rw [performAll] at hu
  cases h : pre st s with
  | false =>
    rw [performStage_not_pre h] at hu
    obtain rfl := Host.Outcome.next.inj hu
    cases hbusy
  | true =>
    rw [performStage_pre h] at hu
    rw [performAll, performStage_pre (hpre.trans h)]
    exact engineTurn_of_replay hd (stageBody_late (hbegun.trans (hd.on _).symm))
      (fun p t hwait => (outside_of_wait hwait).1)
      hu hbusy

/-- A waiting stage goes on, once the answer is there, as where it was ready before. -/
theorem engineTurn_of_resumed {p : Point} (hd : Delivers c p.stage d) (hrun : s.run = .waiting p.stage p rest)
    (hu : engineTurn s = .next u) (hbusy : u.busy = true) :
    engineTurn (d u) = engineTurn (d s) ∨
      ∃ t, performAll rest (finishStage p.stage t) = .next u ∧ resumeBody p s = .done () t ∧
        engineTurn (d s) = performAll rest (d (finishStage p.stage t)) := by
  rw [engineTurn_of_waiting hrun] at hu
  rw [engineTurn_of_waiting ((hd.run_eq s).trans hrun)]
  have hlate : resumeBody p (d s) = _ := hd.on s ▸ resumeBody_late (c := c) (s := s) p
  refine engineTurn_of_replay hd hlate (fun q t hwait => ?_) hu hbusy
  have hframe := resumeBody_framed p s
  rw [hwait] at hframe
  exact hframe.1

/-- A run that has ended does not wait. -/
theorem not_busy_of_performAll_nil (h : performAll [] s = .next u) : u.busy ≠ true := by
  obtain rfl := Host.Outcome.next.inj h
  nofun

/-! ### Late items and late answers -/

def lateItem (it : SrcItem) : Change := { outer := id, items := [it] }

def lateAnswer (a : SnkAnswer) : Change := { outer := id, answers := [a] }

theorem sink_nil_answers (it : SrcItem) (snk : Option (List SnkAnswer)) : (lateItem it).sink snk = snk := by
  cases snk <;> simp [Change.sink, lateItem]

theorem source_nil_items (a : SnkAnswer) (src : Option (List SrcItem)) : (lateAnswer a).source src = src := by
  cases src <;> simp [Change.source, lateAnswer]

theorem deliverItem_eq (it : SrcItem) (s : State) : deliverItem it s = { s with src := s.src.map (· ++ [it]) } := by
  rw [deliverItem]
  split
  · rename_i items hsrc
    rw [hsrc]
    rfl
  · rename_i hsrc
    rw [hsrc]
    exact congrArg (fun o => { s with src := o }) hsrc

theorem deliverAnswer_eq (a : SnkAnswer) (s : State) : deliverAnswer a s = { s with snk := s.snk.map (· ++ [a]) } := by
  rw [deliverAnswer]
  split
  · rename_i answers hsnk
    rw [hsnk]
    rfl
  · rename_i hsnk
    rw [hsnk]
    exact congrArg (fun o => { s with snk := o }) hsnk

theorem delivers_item (it : SrcItem) (hst : st ∈ sourceStages) : Delivers (lateItem it) st (deliverItem it) where
  on t := by
    rw [deliverItem_eq]
    simp only [sourceStages, List.mem_cons, List.not_mem_nil, or_false] at hst
    rcases hst with rfl | rfl | rfl | rfl <;> simp only [Change.on, sink_nil_answers] <;> rfl
  run t r := by rw [deliverItem_eq, deliverItem_eq]
  finish t := by
    rw [deliverItem_eq, deliverItem_eq]
    cases st <;> rfl

theorem delivers_answer (a : SnkAnswer) (hst : st ∈ sinkStages) : Delivers (lateAnswer a) st (deliverAnswer a) where
  on t := by
    rw [deliverAnswer_eq]
    simp only [sinkStages, List.mem_cons, List.not_mem_nil, or_false] at hst
    rcases hst with rfl | rfl | rfl <;> simp only [Change.on, source_nil_items] <;> rfl
  run t r := by rw [deliverAnswer_eq, deliverAnswer_eq]
  finish t := by
    rw [deliverAnswer_eq, deliverAnswer_eq]
    cases st <;> rfl

/-- UNPACK continues the session: a late item of it. -/
theorem engineTurn_unpack_lateItem (it : SrcItem) (hu : performAll [.unpack] s = .next u) (hbusy : u.busy = true) :
    engineTurn (deliverItem it u) = performAll [.unpack] (deliverItem it s) := by
  have hbegun : begun .unpack (started .unpack (deliverItem it s))
      = deliverItem it (begun .unpack (started .unpack s)) := by
    rw [deliverItem_eq, deliverItem_eq]
    rfl
  have hpre : pre .unpack (deliverItem it s) = pre .unpack s := by rw [deliverItem_eq]; rfl
  rcases engineTurn_of_performAll (delivers_item it (by decide)) hbegun hpre hu hbusy with h | ⟨t, hend, -⟩
  · exact h
  · exact absurd hbusy (not_busy_of_performAll_nil hend)

/-- PACK continues the sink session: a late answer of it. -/
theorem engineTurn_pack_lateAnswer (a : SnkAnswer) (hu : performAll [.pack] s = .next u) (hbusy : u.busy = true) :
    engineTurn (deliverAnswer a u) = performAll [.pack] (deliverAnswer a s) := by
  have hbegun : begun .pack (started .pack (deliverAnswer a s)) = deliverAnswer a (begun .pack (started .pack s)) := by
    rw [deliverAnswer_eq, deliverAnswer_eq]
    rfl
  have hpre : pre .pack (deliverAnswer a s) = pre .pack s := by rw [deliverAnswer_eq]; rfl
  rcases engineTurn_of_performAll (delivers_answer a (by decide)) hbegun hpre hu hbusy with h | ⟨t, hend, -⟩
  · exact h
  · exact absurd hbusy (not_busy_of_performAll_nil hend)

end

end Sys2Proof.Machine
end

section
/-! PROOFS. An item or an answer of a session that a later stage opens (20_memory.md R75, R78, R89): the stages before
it do not see the session. -/

set_option autoImplicit false

namespace Sys2Proof.Machine

section
variable {st : Stage} {rest : List Stage} {s t u : State}

/-! ### A stage that does not see the session -/

@[simp] theorem outside_srcNext : (outside st s).srcNext = s.srcNext := by cases st <;> rfl
@[simp] theorem outside_snkNext : (outside st s).snkNext = s.snkNext := by cases st <;> rfl

/-- A stage performed in a state that it does not tell from another: it waits, or the run goes on alike in both. -/
theorem performAll_pass {c : Change} {s' : State} (hc : c.Plain)
    (hbegun : begun st (started st s') = c.on st (begun st (started st s))) (hpre : pre st s' = pre st s)
    (hu : performAll (st :: rest) s = .next u) (hbusy : u.busy = true) :
    (∃ p t, stageBody st (started st s) = .wait p t ∧ u = { t with run := .waiting st p rest }) ∨
      ∃ t, stageBody st (started st s) = .done () t ∧ performAll rest (finishStage st t) = .next u ∧
        performAll (st :: rest) s' = performAll rest (finishStage st (c.on st t)) := by
  rcases performAll_cons_cases hu with ⟨-, rfl⟩ | ⟨h, ⟨p, t, hbody, rfl⟩ | ⟨e, t, -, rfl⟩ | ⟨t, hbody, hend⟩⟩
  · cases hbusy
  · exact .inl ⟨p, t, hbody, rfl⟩
  · cases hbusy
  · have hbody' : stageBody st (started st s') = .done () (c.on st t) := by
      rw [stageBody_on hc hbegun, hbody]
      rfl
    exact .inr ⟨t, hbody, hend, performAll_cons_of_done (hpre.trans h) hbody'⟩

/-- The stage does not see the source sessions to come. -/
theorem performAll_pass_srcNext {s' : List (List SrcItem) → State}
    (hbegun : ∀ l, begun st (started st (s' l)) = { begun st (started st s) with srcNext := l })
    (hpre : ∀ l, pre st (s' l) = pre st s) (hu : performAll (st :: rest) s = .next u) (hbusy : u.busy = true) :
    u.srcNext = (portsOpened st (started st s)).srcNext ∨
      ∃ t, performAll rest t = .next u ∧ t.srcNext = (portsOpened st (started st s)).srcNext ∧
        ∀ l, performAll (st :: rest) (s' l) = performAll rest { t with srcNext := l } := by
  have hpass (l : List (List SrcItem)) := performAll_pass (c := srcNextChange l) (s' := s' l) ⟨rfl, rfl⟩
    ((hbegun l).trans (srcNextChange_on l st _).symm) (hpre l) hu hbusy
  rcases hpass [] with ⟨p, t, hbody, rfl⟩ | ⟨t, hbody, hend, -⟩
  · have hkept : t.srcNext = _ := eq_of_outside State.srcNext (fun _ => outside_srcNext) (outside_of_wait hbody).2
    exact .inl hkept
  · have hkept : t.srcNext = _ := eq_of_outside State.srcNext (fun _ => outside_srcNext) (outside_of_done hbody)
    refine .inr ⟨finishStage st t, hend, by rw [← hkept]; cases st <;> rfl, fun l => ?_⟩
    rcases hpass l with ⟨p, t', hbody', -⟩ | ⟨t', hbody', -, hrun⟩
    · rw [hbody] at hbody'
      cases hbody'
    · rw [hbody] at hbody'
      obtain ⟨-, rfl⟩ := Flow.done.inj hbody'
      rw [hrun, srcNextChange_on]
      cases st <;> rfl

/-- The stage does not see the sink sessions to come. -/
theorem performAll_pass_snkNext (hbegun : ∀ l, begun st (started st { s with snkNext := l })
      = { begun st (started st s) with snkNext := l }) (hports : (portsOpened st (started st s)).snkNext = s.snkNext)
    (hu : performAll (st :: rest) s = .next u) (hbusy : u.busy = true) :
    u.snkNext = s.snkNext ∨
      ∃ t, performAll rest t = .next u ∧ t.snkNext = s.snkNext ∧
        ∀ l, performAll (st :: rest) { s with snkNext := l } = performAll rest { t with snkNext := l } := by
  have hpre (l : List (List SnkAnswer)) : pre st { s with snkNext := l } = pre st s := by cases st <;> rfl
  have hpass (l : List (List SnkAnswer)) := performAll_pass (c := snkNextChange l) (s' := { s with snkNext := l })
    ⟨rfl, rfl⟩ ((hbegun l).trans (snkNextChange_on l st _).symm) (hpre l) hu hbusy
  rcases hpass [] with ⟨p, t, hbody, rfl⟩ | ⟨t, hbody, hend, -⟩
  · have hkept : t.snkNext = _ := eq_of_outside State.snkNext (fun _ => outside_snkNext) (outside_of_wait hbody).2
    exact .inl (hkept.trans hports)
  · have hkept : t.snkNext = _ := eq_of_outside State.snkNext (fun _ => outside_snkNext) (outside_of_done hbody)
    refine .inr ⟨finishStage st t, hend, by rw [← hports, ← hkept]; cases st <;> rfl, fun l => ?_⟩
    rcases hpass l with ⟨p, t', hbody', -⟩ | ⟨t', hbody', -, hrun⟩
    · rw [hbody] at hbody'
      cases hbody'
    · rw [hbody] at hbody'
      obtain ⟨-, rfl⟩ := Flow.done.inj hbody'
      rw [hrun, snkNextChange_on]
      cases st <;> rfl

/-! ### A session of bytes alone does not end COUNT -/

theorem countLoop_bytes_not_done (bs : List Byte) (s t : State) : countLoop (bs.map SrcItem.byte) s ≠ .done () t := by
  intro hdone
  have hall : (countLoop (bs.map SrcItem.byte) s).All (fun _ _ => False) (fun _ _ => True) (fun _ _ => True)
      fun _ => True :=
    countLoop_all (I := fun items _ => ∀ it ∈ items, it ≠ .eof) (fun _ _ => trivial) (fun _ _ _ => trivial)
      (fun _ _ h => h _ List.mem_cons_self rfl) (fun _ _ _ _ _ => trivial)
      (fun _ _ _ h _ it hit => h it (List.mem_cons_of_mem _ hit)) fun it hit => by
        obtain ⟨b, -, rfl⟩ := List.mem_map.mp hit
        nofun
  rw [hdone] at hall
  exact hall

/-! ### The commands whose first session is awaited -/

/-- A late item of the session that the first stage opens. -/
theorem engineTurn_opener_lateItem {bs : List Byte} {it : SrcItem} {sess : List (List SrcItem)}
    (hst : st ∈ [Stage.count, .pack, .readHdr]) (hrest : rest = [] ∨ st = .count ∨ (st = .readHdr ∧ rest = [.unpack]))
    (hsrc : s.srcNext = bs.map SrcItem.byte :: sess) (hu : performAll (st :: rest) s = .next u)
    (hbusy : u.busy = true) :
    engineTurn (deliverItem it u)
      = performAll (st :: rest) { s with srcNext := (bs.map SrcItem.byte ++ [it]) :: sess } := by
  have hbegun : begun st (started st { s with srcNext := (bs.map SrcItem.byte ++ [it]) :: sess })
      = deliverItem it (begun st (started st s)) := by
    rw [deliverItem_eq]
    simp only [List.mem_cons, List.not_mem_nil, or_false] at hst
    rcases hst with rfl | rfl | rfl <;> simp [begun, srcOpen, started, invalidate, hsrc]
  have hpre : pre st { s with srcNext := (bs.map SrcItem.byte ++ [it]) :: sess } = pre st s := by cases st <;> rfl
  have hmem : st ∈ sourceStages := by
    simp only [List.mem_cons, List.not_mem_nil, or_false] at hst
    rcases hst with rfl | rfl | rfl <;> decide
  rcases engineTurn_of_performAll (delivers_item it hmem) hbegun hpre hu hbusy with h | ⟨t, hend, hbody, hrun⟩
  · exact h
  · rcases hrest with rfl | rfl | ⟨rfl, rfl⟩
    · exact absurd hbusy (not_busy_of_performAll_nil hend)
    · rw [stageBody_eq, begunBody, show srcItems (begun .count (started .count s)) = bs.map SrcItem.byte by
        simp [begun, srcItems, hsrc]] at hbody
      exact absurd hbody (countLoop_bytes_not_done bs _ t)
    · rw [hrun]
      exact engineTurn_unpack_lateItem it hend hbusy

/-- A late answer of the session that the first stage opens. -/
theorem engineTurn_opener_lateAnswer {answers : List SnkAnswer} {a : SnkAnswer} {sess : List (List SnkAnswer)}
    (hst : (st = .writeHdr ∧ (rest = [] ∨ rest = [.pack])) ∨ (st = .unpack ∧ rest = []))
    (hsnk : s.snkNext = answers :: sess) (hu : performAll (st :: rest) s = .next u) (hbusy : u.busy = true) :
    engineTurn (deliverAnswer a u) = performAll (st :: rest) { s with snkNext := (answers ++ [a]) :: sess } := by
  have hbegun : begun st (started st { s with snkNext := (answers ++ [a]) :: sess })
      = deliverAnswer a (begun st (started st s)) := by
    rw [deliverAnswer_eq]
    rcases hst with ⟨rfl, -⟩ | ⟨rfl, -⟩ <;> simp [begun, headerBegun, snkOpen, started, invalidate, hsnk]
  have hpre : pre st { s with snkNext := (answers ++ [a]) :: sess } = pre st s := by cases st <;> rfl
  have hmem : st ∈ sinkStages := by rcases hst with ⟨rfl, -⟩ | ⟨rfl, -⟩ <;> decide
  rcases engineTurn_of_performAll (delivers_answer a hmem) hbegun hpre hu hbusy with h | ⟨t, hend, hbody, hrun⟩
  · exact h
  · rcases hst with ⟨rfl, rfl | rfl⟩ | ⟨rfl, rfl⟩
    · exact absurd hbusy (not_busy_of_performAll_nil hend)
    · rw [hrun]
      exact engineTurn_pack_lateAnswer a hend hbusy
    · exact absurd hbusy (not_busy_of_performAll_nil hend)

/-! ### The sessions that a pipeline opens later -/

/-- The second session of a COMPRESS, which PACK opens. -/
theorem engineTurn_compress_lateItem {first : List SrcItem} {bs : List Byte} {it : SrcItem} {sess : List (List SrcItem)}
    (hsrc : s.srcNext = first :: bs.map SrcItem.byte :: sess)
    (hu : performAll [.count, .build, .assign, .writeHdr, .pack] s = .next u) (hbusy : u.busy = true)
    (hopened : u.srcNext = sess) :
    engineTurn (deliverItem it u) = performAll [.count, .build, .assign, .writeHdr, .pack]
      { s with srcNext := first :: (bs.map SrcItem.byte ++ [it]) :: sess } := by
  have hne : u.srcNext ≠ bs.map SrcItem.byte :: sess := by
    rw [hopened]
    exact fun h => absurd (congrArg List.length h) (by simp)
  have hcount := performAll_pass_srcNext (s' := fun l => { s with srcNext := first :: l })
    (fun l => by simp [begun, srcOpen, started, invalidate, hsrc]) (fun l => rfl) hu hbusy
  rw [show (portsOpened .count (started .count s)).srcNext = bs.map SrcItem.byte :: sess by
    simp [portsOpened, hsrc]] at hcount
  obtain ⟨t₁, hu₁, hsrc₁, hrun₁⟩ := hcount.resolve_left hne
  obtain ⟨t₂, hu₂, hsrc₂, hrun₂⟩ := (performAll_pass_srcNext (s' := fun l => { t₁ with srcNext := l }) (fun l => rfl)
    (fun l => rfl) hu₁ hbusy).resolve_left fun h => hne (h.trans hsrc₁)
  obtain ⟨t₃, hu₃, hsrc₃, hrun₃⟩ := (performAll_pass_srcNext (s' := fun l => { t₂ with srcNext := l }) (fun l => rfl)
    (fun l => rfl) hu₂ hbusy).resolve_left fun h => hne (h.trans (hsrc₂.trans hsrc₁))
  obtain ⟨t₄, hu₄, hsrc₄, hrun₄⟩ := (performAll_pass_srcNext (s' := fun l => { t₃ with srcNext := l }) (fun l => rfl)
    (fun l => rfl) hu₃ hbusy).resolve_left fun h => hne (h.trans (hsrc₃.trans (hsrc₂.trans hsrc₁)))
  rw [hrun₁, hrun₂, hrun₃, hrun₄]
  exact engineTurn_opener_lateItem (by decide) (.inl rfl) (hsrc₄.trans (hsrc₃.trans (hsrc₂.trans hsrc₁))) hu₄ hbusy

/-- The sink session of a COMPRESS, which WRITE_HDR opens. -/
theorem engineTurn_compress_lateAnswer {answers : List SnkAnswer} {a : SnkAnswer} {sess : List (List SnkAnswer)}
    (hsnk : s.snkNext = answers :: sess) (hu : performAll [.count, .build, .assign, .writeHdr, .pack] s = .next u)
    (hbusy : u.busy = true) (hopened : u.snkNext = sess) :
    engineTurn (deliverAnswer a u) = performAll [.count, .build, .assign, .writeHdr, .pack]
      { s with snkNext := (answers ++ [a]) :: sess } := by
  have hne : u.snkNext ≠ answers :: sess := by
    rw [hopened]
    exact fun h => absurd (congrArg List.length h) (by simp)
  obtain ⟨t₁, hu₁, hsnk₁, hrun₁⟩ := (performAll_pass_snkNext (fun l => rfl) rfl hu hbusy).resolve_left
    fun h => hne (h.trans hsnk)
  obtain ⟨t₂, hu₂, hsnk₂, hrun₂⟩ := (performAll_pass_snkNext (fun l => rfl) rfl hu₁ hbusy).resolve_left
    fun h => hne (h.trans (hsnk₁.trans hsnk))
  obtain ⟨t₃, hu₃, hsnk₃, hrun₃⟩ := (performAll_pass_snkNext (fun l => rfl) rfl hu₂ hbusy).resolve_left
    fun h => hne (h.trans (hsnk₂.trans (hsnk₁.trans hsnk)))
  rw [hrun₁, hrun₂, hrun₃]
  exact engineTurn_opener_lateAnswer (.inl ⟨rfl, .inr rfl⟩) (hsnk₃.trans (hsnk₂.trans (hsnk₁.trans hsnk))) hu₃ hbusy

/-- The sink session of a DECOMPRESS, which UNPACK opens. -/
theorem engineTurn_decompress_lateAnswer {answers : List SnkAnswer} {a : SnkAnswer} {sess : List (List SnkAnswer)}
    (hsnk : s.snkNext = answers :: sess) (hu : performAll [.readHdr, .unpack] s = .next u)
    (hbusy : u.busy = true) (hopened : u.snkNext = sess) :
    engineTurn (deliverAnswer a u) = performAll [.readHdr, .unpack] { s with snkNext := (answers ++ [a]) :: sess } := by
  have hne : u.snkNext ≠ answers :: sess := by
    rw [hopened]
    exact fun h => absurd (congrArg List.length h) (by simp)
  obtain ⟨t₁, hu₁, hsnk₁, hrun₁⟩ := (performAll_pass_snkNext (fun l => rfl) rfl hu hbusy).resolve_left
    fun h => hne (h.trans hsnk)
  rw [hrun₁]
  exact engineTurn_opener_lateAnswer (.inr ⟨rfl, rfl⟩) (hsnk₁.trans hsnk) hu₁ hbusy

/-- The engine's move on an accepted command (R132). -/
theorem engineTurn_accepted {i : Instr} (hrun : s.run = .accepted) (hdec : decode s.cmd = .command i) :
    engineTurn s = performAll (stagesOf i) { s with curOp := i.opcode } :=
  (engineTurn_of_command hrun hdec).trans (exec_eq_performAll i s)

theorem stage_mem_sourceStages {p : Point} (h : p.stage ≠ .writeHdr) : p.stage ∈ sourceStages := by
  cases p <;> simp_all [Point.stage, sourceStages]

end

end Sys2Proof.Machine

/-! ### The obligations -/

namespace Sys2Proof.Proofs
open Sys2Proof.Machine

/-- Settles O59: the session is the waiting stage's, or one that a stage of the command opens or continues, and the
stages before that one do not see it. -/
theorem anItemMayArriveLate : Obligations.AnItemMayArriveLate := by
  intro s u bs it hu hbusy
  refine ⟨?waiting, ?opened, ?continued, ?second⟩
  case waiting =>
    intro st p rest hrun hst hne hrest hsrc
    subst hst
    rcases engineTurn_of_resumed (delivers_item it (stage_mem_sourceStages hne)) hrun hu hbusy with
      h | ⟨t, hend, hbody, hlate⟩
    · exact h
    · rcases hrest with rfl | hcount | ⟨hread, rfl⟩
      · exact absurd hbusy (not_busy_of_performAll_nil hend)
      · cases p with
        | countRead =>
          rw [resumeBody, srcItems, hsrc] at hbody
          exact absurd hbody (countLoop_bytes_not_done bs s t)
        | _ => cases hcount
      · rw [hlate]
        exact engineTurn_unpack_lateItem it hend hbusy
  case opened =>
    intro i sess hrun hdec hi hsrc
    rw [engineTurn_accepted hrun hdec] at hu
    refine Eq.trans ?_ (engineTurn_accepted (s := { s with srcNext := (bs.map SrcItem.byte ++ [it]) :: sess })
      hrun hdec).symm
    simp only [List.mem_cons, List.not_mem_nil, or_false] at hi
    rcases hi with rfl | rfl | rfl | rfl | rfl
    · exact engineTurn_opener_lateItem (s := { s with curOp := Instr.count.opcode }) (by decide)
        (.inl rfl) hsrc hu hbusy
    · exact engineTurn_opener_lateItem (s := { s with curOp := Instr.readHdr.opcode }) (by decide)
        (.inl rfl) hsrc hu hbusy
    · exact engineTurn_opener_lateItem (s := { s with curOp := Instr.pack.opcode }) (by decide) (.inl rfl) hsrc hu hbusy
    · exact engineTurn_opener_lateItem (s := { s with curOp := Instr.compress.opcode }) (by decide)
        (.inr (.inl rfl)) hsrc
        hu hbusy
    · exact engineTurn_opener_lateItem (s := { s with curOp := Instr.decompress.opcode }) (by decide)
        (.inr (.inr ⟨rfl, rfl⟩)) hsrc hu hbusy
  case continued =>
    intro hrun hdec hsrc
    rw [engineTurn_accepted hrun hdec] at hu
    refine (engineTurn_unpack_lateItem it hu hbusy).trans ?_
    rw [deliverItem_eq, deliverItem_eq]
    exact (engineTurn_accepted (s := { s with src := s.src.map (· ++ [it]) }) hrun hdec).symm
  case second =>
    intro first sess hrun hdec hsrc hopened
    rw [engineTurn_accepted hrun hdec] at hu
    exact (engineTurn_compress_lateItem (s := { s with curOp := Instr.compress.opcode }) hsrc hu hbusy hopened).trans
      (engineTurn_accepted (s := { s with srcNext := first :: (bs.map SrcItem.byte ++ [it]) :: sess }) hrun hdec).symm

/-- Settles O60: as O59, for the sink sessions. -/
theorem anAnswerMayArriveLate : Obligations.AnAnswerMayArriveLate := by
  intro s u answers a hu hbusy
  refine ⟨?waiting, ?opened, ?continued⟩
  case waiting =>
    intro st p rest hrun hst hrest hsnk
    subst hst
    have hmem : p.stage ∈ sinkStages := by
      rcases hrest with ⟨hmem, -⟩ | ⟨hst, -⟩
      · exact hmem
      · exact hst ▸ by decide
    rcases engineTurn_of_resumed (delivers_answer a hmem) hrun hu hbusy with h | ⟨t, hend, hbody, hlate⟩
    · exact h
    · rcases hrest with ⟨-, rfl⟩ | ⟨-, rfl⟩
      · exact absurd hbusy (not_busy_of_performAll_nil hend)
      · rw [hlate]
        exact engineTurn_pack_lateAnswer a hend hbusy
  case opened =>
    intro i sess hrun hdec hi hsnk hopened
    rw [engineTurn_accepted hrun hdec] at hu
    refine Eq.trans ?_ (engineTurn_accepted (s := { s with snkNext := (answers ++ [a]) :: sess }) hrun hdec).symm
    simp only [List.mem_cons, List.not_mem_nil, or_false] at hi
    rcases hi with rfl | rfl | rfl | rfl
    · exact engineTurn_opener_lateAnswer (s := { s with curOp := Instr.writeHdr.opcode }) (.inl ⟨rfl, .inl rfl⟩) hsnk hu
        hbusy
    · exact engineTurn_opener_lateAnswer (s := { s with curOp := Instr.unpack.opcode }) (.inr ⟨rfl, rfl⟩) hsnk hu hbusy
    · exact engineTurn_compress_lateAnswer (s := { s with curOp := Instr.compress.opcode }) hsnk hu hbusy hopened
    · exact engineTurn_decompress_lateAnswer (s := { s with curOp := Instr.decompress.opcode }) hsnk hu hbusy hopened
  case continued =>
    intro hrun hdec hsnk
    rw [engineTurn_accepted hrun hdec] at hu
    refine (engineTurn_pack_lateAnswer a hu hbusy).trans ?_
    rw [deliverAnswer_eq, deliverAnswer_eq]
    exact (engineTurn_accepted (s := { s with snk := s.snk.map (· ++ [a]) }) hrun hdec).symm

end Sys2Proof.Proofs
end

section
/-! PROOFS. A pipeline and its stages issued one by one (46_pipelines.md R232, R233): the two differ in the command word
alone, which no stage sees. -/

set_option autoImplicit false

namespace Sys2Proof.Machine

section
variable {st : Stage} {rest : List Stage} {s t u : State}

/-- The change of the command word alone. -/
def cmdChange (v : Word) : Change := { outer := fun s => { s with cmd := v } }

theorem cmdChange_on (v : Word) (st : Stage) (s : State) : (cmdChange v).on st s = { s with cmd := v } := by
  have hc : (cmdChange v).Plain := ⟨rfl, rfl⟩
  cases st <;> simp only [Change.on, hc.source, hc.sink] <;> rfl

/-- The pipeline `v` as it stands where the host would issue its next stage in `s`. -/
def piped (v : Word) (op : BitVec 4) (s : State) : State := { accept v s with curOp := op }

theorem started_piped (v v' : Word) (op op' : BitVec 4) :
    started st (piped v op s) = { started st (piped v' op' s) with cmd := v } := by
  cases st <;> rfl

theorem begun_withCmd (v : Word) : begun st { s with cmd := v } = { begun st s with cmd := v } := by
  cases st <;> rfl

/-- A stage of the pipeline does what the stage issued alone does. -/
theorem stageBody_piped (v v' : Word) (op op' : BitVec 4) :
    stageBody st (started st (piped v op s))
      = (stageBody st (started st (piped v' op' s))).map ((cmdChange v).on st) := by
  refine stageBody_on ⟨rfl, rfl⟩ ?_
  rw [cmdChange_on, started_piped v v' op op', begun_withCmd]

theorem pre_piped (v v' : Word) (op op' : BitVec 4) : pre st (piped v op s) = pre st (piped v' op' s) := by
  cases st <;> rfl

/-- A stage that is done leaves the pipeline where the host would issue the next one. -/
theorem finishStage_piped {v' : Word} {op' : BitVec 4} (hbody : stageBody st (started st (piped v' op' s)) = .done () u)
    (v : Word) : finishStage st { u with cmd := v } = piped v st.op (endRun (finishStage st u)) ∧
      endRun (piped v st.op (endRun (finishStage st u))) = { endRun (finishStage st u) with cmd := v } := by
  have hframe := outside_of_done hbody
  have hrun : u.run = .accepted := (eq_of_outside State.run (outside_run st) hframe).trans (by cases st <;> rfl)
  have hdone : u.done = false := (eq_of_outside State.done (outside_done st) hframe).trans (by cases st <;> rfl)
  have herr : u.err = false := (eq_of_outside State.err (outside_err st) hframe).trans (by cases st <;> rfl)
  have hinfo : u.errInfo = 0 :=
    (eq_of_outside State.errInfo (outside_errInfo st) hframe).trans (by cases st <;> rfl)
  have hop : u.curOp = st.op := (eq_of_outside State.curOp (outside_curOp st) hframe).trans (by cases st <;> rfl)
  cases st <;> simp [finishStage, clearAtEnd, setOnSuccess, piped, accept, endRun, hrun, hdone, herr, hinfo, hop]

/-- The stages of a pipeline one by one, up to the last or the first that ends with an error. -/
theorem performAll_of_oneByOne (v : Word) {l : List Stage} {op : BitVec 4}
    (h : oneByOne (l.map Stage.toInstr) s = some t)
    (hend : l = [] → endRun (piped v op s) = { s with cmd := v }) :
    performAll l (piped v op s) = .next { t with cmd := v } ∧
      (t.done = false → t.err = true ∧ ∃ e, t.errInfo = errWord t.curOp e) := by
  induction l generalizing s op with
  | nil =>
    obtain rfl := Option.some.inj h
    have hdone : s.done = true := (congrArg State.done (hend rfl)).symm
    exact ⟨congrArg _ (hend rfl), fun hnot => absurd (hdone.symm.trans hnot) (by decide)⟩
  | cons st l ih =>
    have hexec : exec st.toInstr (accept (encode st.toInstr) s)
        = performAll [st] (piped (encode st.toInstr) st.toInstr.opcode s) := by
      rw [exec_eq_performAll]
      cases st <;> rfl
    rw [List.map_cons, oneByOne, hexec] at h
    have hbody := stageBody_piped (st := st) (s := s) v (encode st.toInstr) op st.toInstr.opcode
    have hpre := pre_piped (st := st) (s := s) v (encode st.toInstr) op st.toInstr.opcode
    cases hrun : performAll [st] (piped (encode st.toInstr) st.toInstr.opcode s) with
    | next t' =>
      rw [hrun] at h
      simp only at h
      rcases performAll_cons_cases hrun with ⟨hpre', rfl⟩ | ⟨hpre', ⟨p, u, hbody', rfl⟩ | ⟨e, u, hbody', rfl⟩ |
        ⟨u, hbody', hrest⟩⟩
      · obtain rfl := Option.some.inj h
        rw [performAll, performStage_not_pre (hpre.trans hpre')]
        cases st <;> exact ⟨rfl, fun _ => ⟨rfl, _, rfl⟩⟩
      · cases h
      · obtain rfl := Option.some.inj h
        rw [performAll, performStage_pre (hpre.trans hpre'), ← started, hbody, hbody', Flow.map,
          cmdChange_on, settle_raise]
        cases st <;> exact ⟨rfl, fun _ => ⟨rfl, _, rfl⟩⟩
      · obtain rfl := Host.Outcome.next.inj hrest
        obtain ⟨hnext, hlast⟩ := finishStage_piped hbody' v
        have hbody : stageBody st (started st (piped v op s)) = .done () { u with cmd := v } := by
          rw [hbody, hbody', Flow.map, cmdChange_on]
        rw [performAll_cons_of_done (hpre.trans hpre') hbody, hnext]
        exact ih h fun _ => hlast
    | _ =>
      rw [hrun] at h
      cases h

end

end Sys2Proof.Machine
/-! ### The obligations -/

namespace Sys2Proof.Proofs
open Sys2Proof.Machine

/-- Settles O50: stage by stage the pipeline leaves what the command of the stage leaves. -/
theorem pipelinesAreTheirStages : Obligations.PipelinesAreTheirStages := by
  intro s t
  constructor
  · intro h
    exact performAll_of_oneByOne (encode .compress) (l := compressStages) (op := Instr.compress.opcode) h nofun
  · intro h
    exact performAll_of_oneByOne (encode .decompress) (l := decompressStages) (op := Instr.decompress.opcode) h nofun

end Sys2Proof.Proofs
end

section
/-! PROOFS. What the outcome of a pipeline depends on (20_memory.md R95): stage by stage, what each stage reads was
written by a stage before it or stands in its session. -/

set_option autoImplicit false

namespace Sys2Proof.Machine

/-! ### A stage in two states that agree on what it reads -/

/-- The state in which a stage of a run begins its work (R132). -/
def launched (st : Stage) (s : State) : State := begun st (started st s)

/-- The change to the state `b`, of which what the stage does not see is kept. -/
def swap (b : State) : Change := { outer := fun _ => b, below := some b.objects.tail }

theorem swap_plain (b : State) : (swap b).Plain := ⟨rfl, rfl⟩

/-- The objects after a stage that leaves `o` as the current one. -/
def objectsAfter (st : Stage) (o : List Byte) (objects : List (List Byte)) : List (List Byte) :=
  match st with
  | .writeHdr => o :: objects
  | .pack => o :: objects.tail
  | .unpack => o :: objects
  | _ => objects

/-- What is known of a state after the stage, when `known` is known before it and `known'` is what the stage adds. -/
structure Passes (st : Stage) (known known' : State → State) : Prop where
  pre : ∀ s, pre st s = pre st (known s)
  refused : ∀ s, known (raiseError st .sequenceError { s with curOp := st.op })
    = known (raiseError st .sequenceError { known s with curOp := st.op })
  raised : ∀ s u e, known' (raiseError st e ((swap (launched st s)).on st u))
    = known' (raiseError st e ((swap (launched st (known s))).on st u))
  finished : ∀ s u, known' (finishStage st ((swap (launched st s)).on st u))
    = known' (finishStage st ((swap (launched st (known s))).on st u))

section
variable {st : Stage} {rest : List Stage} {s s' t : State} {known known' : State → State}

theorem objects_swap (s u : State) :
    ((swap (launched st s)).on st u).objects = objectsAfter st (curObject u) s.objects := by
  cases st <;> rfl

/-- A run of stages that ends, begun in two states that agree on what its first stage reads: that stage is refused in
both, ends both with the same error, or both go on. -/
theorem performAll_alike (hpass : Passes st known known') (hknown : known s = known s')
    (hself : launched st s = (swap (launched st s)).on st (launched st s))
    (hother : launched st s' = (swap (launched st s')).on st (launched st s))
    (h : performAll (st :: rest) s = .next t) (hbusy : t.busy = false) :
    (pre st s = false ∧ ∃ t', performAll (st :: rest) s' = .next t' ∧ t'.busy = false ∧ t.done = false ∧
      known t = known t' ∧ t.objects = s.objects ∧ t'.objects = s'.objects) ∨
    (∃ t' o, performAll (st :: rest) s' = .next t' ∧ t'.busy = false ∧ t.done = false ∧ t.curOp = st.op ∧
      known' t = known' t' ∧ t.objects = objectsAfter st o s.objects ∧ t'.objects = objectsAfter st o s'.objects) ∨
    ∃ u u' o, performAll rest (finishStage st u) = .next t ∧
      performAll (st :: rest) s' = performAll rest (finishStage st u') ∧
      known' (finishStage st u) = known' (finishStage st u') ∧
      (finishStage st u).objects = objectsAfter st o s.objects ∧
      (finishStage st u').objects = objectsAfter st o s'.objects := by
  have hpre : pre st s' = pre st s := by rw [hpass.pre s, hpass.pre s', hknown]
  have hobjects (v : State) : (finishStage st v).objects = v.objects := by cases st <;> rfl
  have hobjects' (e : ErrKind) (v : State) : (raiseError st e v).objects = v.objects := by cases st <;> rfl
  have hended (e : ErrKind) (v : State) : (raiseError st e v).busy = false ∧ (raiseError st e v).done = false := by
    cases st <;> exact ⟨rfl, rfl⟩
  have hsame : stageBody st (started st s) = (stageBody st (started st s)).map ((swap (launched st s)).on st) :=
    stageBody_on (swap_plain _) hself
  have hbody' : stageBody st (started st s') = (stageBody st (started st s)).map ((swap (launched st s')).on st) :=
    stageBody_on (swap_plain _) hother
  rcases performAll_cons_cases h with ⟨hrefused, rfl⟩ | ⟨hheld, ⟨p, u, -, rfl⟩ | ⟨e, u, hbody, rfl⟩ | ⟨u, hbody, hend⟩⟩
  · refine .inl ⟨hrefused, raiseError st .sequenceError { s' with curOp := st.op }, ?_, (hended _ _).1,
      (hended _ _).2, ?_,
      hobjects' _ _, hobjects' _ _⟩
    · rw [performAll, performStage_not_pre (hpre.trans hrefused)]
      rfl
    · rw [hpass.refused s, hpass.refused s', hknown]
  · cases hbusy
  · rw [hbody] at hsame hbody'
    obtain ⟨-, hu⟩ := Flow.raise.inj hsame
    have hop : (raiseError st e u).curOp = st.op := (clearAtEnd_curOp st u).trans (curOp_of_raise hbody)
    refine .inr (.inl ⟨raiseError st e ((swap (launched st s')).on st u), curObject u, ?_, (hended _ _).1,
      (hended _ _).2,
      hop, ?_, ?_, ?_⟩)
    · rw [performAll, performStage_pre (hpre.trans hheld), ← started, hbody']
      rfl
    · rw [hpass.raised s', ← hknown, ← hpass.raised s, ← hu]
    · rw [hobjects', hu, objects_swap, ← hu]
    · rw [hobjects', objects_swap]
  · rw [hbody] at hsame hbody'
    obtain ⟨-, hu⟩ := Flow.done.inj hsame
    refine .inr (.inr ⟨u, (swap (launched st s')).on st u, curObject u, hend,
      performAll_cons_of_done (hpre.trans hheld) hbody', ?_, ?_, ?_⟩)
    · rw [hpass.finished s', ← hknown, ← hpass.finished s, ← hu]
    · rw [hobjects, hu, objects_swap, ← hu]
    · rw [hobjects, objects_swap]

end

/-! ### What is known after each stage of COMPRESS -/

/-- The sessions to come and the completion state. -/
def knownStart (s : State) : State :=
  { State.reset with
    srcNext := s.srcNext, snkNext := s.snkNext, run := s.run, done := s.done, err := s.err, errInfo := s.errInfo
    curOp := s.curOp }

def knownCount (s : State) : State :=
  { knownStart s with
    w := s.w, total := s.total, nsym := s.nsym, src := s.src, srcPos := s.srcPos
    fw := s.fw, ft := s.ft, fc := s.fc, fh := s.fh, fd := s.fd }

def knownBuild (s : State) : State := { knownCount s with arena := s.arena, pl := s.pl, root := s.root }

def knownAssign (s : State) : State := { knownBuild s with ct := s.ct }

def knownHeader (s : State) : State :=
  { knownAssign s with
    payloadStart := s.payloadStart, headerEnd := s.headerEnd, snk := s.snk, snkPos := s.snkPos
    objects := [curObject s] }

def knownPack (s : State) : State := { knownHeader s with lastBits := s.lastBits }

theorem passes_count : Passes .count knownStart knownCount :=
  ⟨fun _ => rfl, fun _ => rfl, fun _ _ _ => rfl, fun _ _ => rfl⟩

theorem passes_build : Passes .build knownCount knownBuild :=
  ⟨fun _ => rfl, fun _ => rfl, fun _ _ _ => rfl, fun _ _ => rfl⟩

theorem passes_assign : Passes .assign knownBuild knownAssign :=
  ⟨fun _ => rfl, fun _ => rfl, fun _ _ _ => rfl, fun _ _ => rfl⟩

theorem passes_writeHdr : Passes .writeHdr knownAssign knownHeader :=
  ⟨fun _ => rfl, fun _ => rfl, fun _ _ _ => rfl, fun _ _ => rfl⟩

theorem passes_pack : Passes .pack knownHeader knownPack :=
  ⟨fun _ => rfl, fun _ => rfl, fun _ _ _ => rfl, fun _ _ => rfl⟩

/-! What each stage reads is known before it. -/

section
variable {s s' : State}

theorem launched_count (h : knownStart s = knownStart s') :
    launched .count s' = (swap (launched .count s')).on .count (launched .count s) := by
  have hsrc : s.srcNext = s'.srcNext := (congrArg State.srcNext h :)
  simp only [Change.on, (swap_plain _).source]
  simp [launched, begun, started, invalidate, srcOpen, swap, hsrc]

theorem launched_build (h : knownCount s = knownCount s') :
    launched .build s' = (swap (launched .build s')).on .build (launched .build s) := by
  have hw : s.w = s'.w := (congrArg State.w h :)
  simp [Change.on, launched, begun, started, invalidate, swap, hw]

theorem launched_assign (h : knownBuild s = knownBuild s') :
    launched .assign s' = (swap (launched .assign s')).on .assign (launched .assign s) := by
  have harena : s.arena = s'.arena := (congrArg State.arena h :)
  have hroot : s.root = s'.root := (congrArg State.root h :)
  simp [Change.on, launched, begun, started, invalidate, swap, harena, hroot]

theorem launched_writeHdr (h : knownAssign s = knownAssign s') (hend : s.headerEnd = s'.headerEnd) :
    launched .writeHdr s' = (swap (launched .writeHdr s')).on .writeHdr (launched .writeHdr s) := by
  have hct : s.ct = s'.ct := (congrArg State.ct h :)
  have hsnk : s.snkNext = s'.snkNext := (congrArg State.snkNext h :)
  simp only [Change.on, (swap_plain _).sink]
  simp [launched, begun, headerBegun, started, invalidate, snkOpen, swap, Change.objects, hct, hsnk, hend]

theorem launched_pack (h : knownHeader s = knownHeader s') (hne : s'.objects ≠ []) :
    launched .pack s' = (swap (launched .pack s')).on .pack (launched .pack s) := by
  have hct : s.ct = s'.ct := (congrArg State.ct h :)
  have hsrc : s.srcNext = s'.srcNext := (congrArg State.srcNext h :)
  have hsnk : s.snk = s'.snk := (congrArg State.snk h :)
  have hpos : s.snkPos = s'.snkPos := (congrArg State.snkPos h :)
  have hend : s.headerEnd = s'.headerEnd := (congrArg State.headerEnd h :)
  have hobject : curObject s = curObject s' := List.singleton_inj.mp (congrArg State.objects h :)
  have hobjects : s'.objects = s.objects.headD [] :: s'.objects.tail := by
    obtain ⟨o, l, ho⟩ := List.exists_cons_of_ne_nil hne
    rw [curObject, curObject, ho] at hobject
    rw [hobject, ho]
    rfl
  simp only [Change.on, (swap_plain _).source, (swap_plain _).sink]
  simpa [launched, begun, started, invalidate, srcOpen, swap, Change.objects, hct, hsrc, hsnk, hpos, hend]
    using hobjects

end

/-! ### The header's end is not read by WRITE_HDR -/

/-- The flow with another header's end, which a WRITE_HDR that is done overwrites. -/
def Flow.withHeaderEnd (v : Word) (m : Flow Unit) : Flow Unit :=
  match m with
  | .done _ s => .done () s
  | .wait p s => .wait p { s with headerEnd := v }
  | .raise e s => .raise e { s with headerEnd := v }
  | .fault f => .fault f

theorem hdrPutLoop_withHeaderEnd (todo : List Byte) (v : Word) (s : State) :
    hdrPutLoop todo { s with headerEnd := v } = (hdrPutLoop todo s).withHeaderEnd v := by
  induction todo generalizing s with
  | nil => rfl
  | cons b todo ih =>
    rw [hdrPutLoop, hdrPutLoop]
    rcases put_cases b (.hdrPut (b :: todo)) s with ⟨rest, hsnk, hput⟩ | ⟨rest, hsnk, hput⟩ | ⟨hsnk, hput⟩
    · rw [hput, put_ok (s := { s with headerEnd := v }) _ _ hsnk]
      exact ih (appended b rest s)
    · rw [hput, put_fail (s := { s with headerEnd := v }) _ _ hsnk]
      rfl
    · rw [hput, put_wait (s := { s with headerEnd := v }) _ _ hsnk]
      rfl

/-- A run of WRITE_HDR and more stages that ends, with another header's end before it. -/
theorem performAll_writeHdr_withHeaderEnd {rest : List Stage} {s t : State} (v : Word)
    (h : performAll (.writeHdr :: rest) s = .next t) (hbusy : t.busy = false) :
    performAll (.writeHdr :: rest) { s with headerEnd := v } = .next t ∨
      (t.done = false ∧
        performAll (.writeHdr :: rest) { s with headerEnd := v } = .next { t with headerEnd := v }) := by
  have hbody : stageBody .writeHdr (started .writeHdr { s with headerEnd := v })
      = (stageBody .writeHdr (started .writeHdr s)).withHeaderEnd v :=
    hdrPutLoop_withHeaderEnd _ v (headerBegun (started .writeHdr s))
  rcases performAll_cons_cases h with ⟨hpre, rfl⟩ | ⟨hpre, ⟨p, u, -, rfl⟩ | ⟨e, u, hraise, rfl⟩ | ⟨u, hdone, hend⟩⟩
  · refine .inr ⟨rfl, ?_⟩
    rw [performAll, performStage_not_pre (show pre .writeHdr { s with headerEnd := v } = false from hpre)]
    rfl
  · cases hbusy
  · refine .inr ⟨rfl, ?_⟩
    rw [performAll, performStage_pre (show pre .writeHdr { s with headerEnd := v } = true from hpre), ← started, hbody,
      hraise]
    rfl
  · refine .inl ((performAll_cons_of_done (st := .writeHdr) (s := { s with headerEnd := v }) hpre ?_).trans hend)
    rw [hbody, hdone]
    rfl

/-! ### COMPRESS -/

/-- A run that ended in `t` ends from another state alike: as far as `known` tells, it begins the same objects, and
where `full` holds it is alike as far as `known'` tells. -/
def EndsAlike (known known' : State → State) (full : State → Prop) (s s' t : State)
    (out : Host.Outcome State Fault Refusal) : Prop :=
  ∃ t' began, out = .next t' ∧ t'.busy = false ∧ known t = known t' ∧ t.objects = began ++ s.objects ∧
    t'.objects = began ++ s'.objects ∧ (began ≠ [] → t'.snkPos = t.snkPos) ∧ (full t → known' t = known' t')

/-- How a COMPRESS ends alike. -/
abbrev CompressAlike := EndsAlike knownCount knownPack fun t => t.done = true

section
variable {s s' v v' t : State} {o : List Byte}

theorem pack_alike (hknown : knownHeader v = knownHeader v') (ho : v.objects = o :: s.objects)
    (ho' : v'.objects = o :: s'.objects) (h : performAll [.pack] v = .next t) (hbusy : t.busy = false) :
    CompressAlike s s' t (performAll [.pack] v') := by
  have hself := launched_pack (s := v) rfl (by rw [ho]; nofun)
  have hother := launched_pack hknown (by rw [ho']; nofun)
  rcases performAll_alike passes_pack hknown hself hother h hbusy with
    ⟨-, t', hrun, hbusy', hdone, ht, hobj, hobj'⟩ | ⟨t', o', hrun, hbusy', hdone, -, ht, hobj, hobj'⟩ |
    ⟨u, u', o', hend, hrun, ht, hobj, hobj'⟩
  · exact ⟨t', [o], hrun, hbusy', (congrArg knownCount ht :), hobj.trans ho, hobj'.trans ho',
      fun _ => (congrArg State.snkPos ht :).symm, fun h => absurd (h.symm.trans hdone) (by decide)⟩
  · rw [ho] at hobj
    rw [ho'] at hobj'
    exact ⟨t', [o'], hrun, hbusy', (congrArg knownCount ht :), hobj, hobj', fun _ => (congrArg State.snkPos ht :).symm,
      fun h => absurd (h.symm.trans hdone) (by decide)⟩
  · rw [ho] at hobj
    rw [ho'] at hobj'
    obtain rfl := Host.Outcome.next.inj hend
    exact ⟨_, [o'], hrun, rfl, (congrArg (fun w => knownCount (endRun w)) ht :), hobj, hobj',
      fun _ => (congrArg State.snkPos ht :).symm, fun _ => (congrArg (fun w => knownPack (endRun w)) ht :)⟩

/-- A run that ends with an error before an object is begun, or with the one begun, and what is known after it. -/
theorem compressAlike_of_error {known : State → State} {out : Host.Outcome State Fault Refusal} {t' : State}
    {began : List (List Byte)} (hrun : out = .next t') (hbusy : t'.busy = false) (hdone : t.done = false)
    (ht : known t = known t') (hcount : ∀ w, knownCount (known w) = knownCount w)
    (hobj : t.objects = began ++ s.objects)
    (hobj' : t'.objects = began ++ s'.objects) (hpos : began ≠ [] → t'.snkPos = t.snkPos) :
    CompressAlike s s' t out := by
  refine ⟨t', began, hrun, hbusy, ?_, hobj, hobj', hpos, fun h => absurd (h.symm.trans hdone) (by decide)⟩
  rw [← hcount, ht, hcount]

theorem writeHdr_alike (hknown : knownAssign v = knownAssign v') (ho : v.objects = s.objects)
    (ho' : v'.objects = s'.objects)
    (h : performAll [.writeHdr, .pack] v = .next t) (hbusy : t.busy = false) :
    CompressAlike s s' t (performAll [.writeHdr, .pack] v') := by
  have halike {w : State} (h : performAll [.writeHdr, .pack] { v with headerEnd := v'.headerEnd } = .next w)
      (hbusy : w.busy = false) : CompressAlike s s' w (performAll [.writeHdr, .pack] v') := by
    have hself := launched_writeHdr (s := { v with headerEnd := v'.headerEnd }) rfl rfl
    have hother := launched_writeHdr (s := { v with headerEnd := v'.headerEnd }) hknown rfl
    rcases performAll_alike (s := { v with headerEnd := v'.headerEnd }) passes_writeHdr hknown hself hother h hbusy with
      ⟨-, t', hrun, hbusy', hdone, ht, hobj, hobj'⟩ | ⟨t', o', hrun, hbusy', hdone, -, ht, hobj, hobj'⟩ |
      ⟨u, u', o', hend, hrun, ht, hobj, hobj'⟩
    · exact compressAlike_of_error (began := []) hrun hbusy' hdone ht (fun _ => rfl) (hobj.trans ho) (hobj'.trans ho')
        (absurd rfl)
    · refine compressAlike_of_error (began := [o']) hrun hbusy' hdone ht (fun _ => rfl) (hobj.trans ?_) (hobj'.trans ?_)
        fun _ => (congrArg State.snkPos ht :).symm
      · exact congrArg (o' :: ·) ho
      · exact congrArg (o' :: ·) ho'
    · rw [hrun]
      exact pack_alike ht (hobj.trans (congrArg (o' :: ·) ho)) (hobj'.trans (congrArg (o' :: ·) ho')) hend hbusy
  rcases performAll_writeHdr_withHeaderEnd v'.headerEnd h hbusy with h | ⟨hdone, h⟩
  · exact halike h hbusy
  · obtain ⟨t', began, hrun, hbusy', ht, hobj, hobj', hpos, -⟩ := halike h hbusy
    exact ⟨t', began, hrun, hbusy', ht, hobj, hobj', hpos, fun h => absurd (h.symm.trans hdone) (by decide)⟩

theorem assign_alike (hknown : knownBuild v = knownBuild v') (ho : v.objects = s.objects)
    (ho' : v'.objects = s'.objects)
    (h : performAll [.assign, .writeHdr, .pack] v = .next t) (hbusy : t.busy = false) :
    CompressAlike s s' t (performAll [.assign, .writeHdr, .pack] v') := by
  rcases performAll_alike passes_assign hknown (launched_assign rfl) (launched_assign hknown) h hbusy with
    ⟨-, t', hrun, hbusy', hdone, ht, hobj, hobj'⟩ | ⟨t', o', hrun, hbusy', hdone, -, ht, hobj, hobj'⟩ |
    ⟨u, u', o', hend, hrun, ht, hobj, hobj'⟩
  · exact compressAlike_of_error (began := []) hrun hbusy' hdone ht (fun _ => rfl) (hobj.trans ho) (hobj'.trans ho')
      (absurd rfl)
  · exact compressAlike_of_error (began := []) hrun hbusy' hdone ht (fun _ => rfl) (hobj.trans ho) (hobj'.trans ho')
      (absurd rfl)
  · rw [hrun]
    exact writeHdr_alike ht (hobj.trans ho) (hobj'.trans ho') hend hbusy

theorem build_alike (hknown : knownCount v = knownCount v') (ho : v.objects = s.objects) (ho' : v'.objects = s'.objects)
    (h : performAll [.build, .assign, .writeHdr, .pack] v = .next t) (hbusy : t.busy = false) :
    CompressAlike s s' t (performAll [.build, .assign, .writeHdr, .pack] v') := by
  rcases performAll_alike passes_build hknown (launched_build rfl) (launched_build hknown) h hbusy with
    ⟨-, t', hrun, hbusy', hdone, ht, hobj, hobj'⟩ | ⟨t', o', hrun, hbusy', hdone, -, ht, hobj, hobj'⟩ |
    ⟨u, u', o', hend, hrun, ht, hobj, hobj'⟩
  · exact compressAlike_of_error (began := []) hrun hbusy' hdone ht (fun _ => rfl) (hobj.trans ho) (hobj'.trans ho')
      (absurd rfl)
  · exact compressAlike_of_error (began := []) hrun hbusy' hdone ht (fun _ => rfl) (hobj.trans ho) (hobj'.trans ho')
      (absurd rfl)
  · rw [hrun]
    exact assign_alike ht (hobj.trans ho) (hobj'.trans ho') hend hbusy

theorem compress_alike (hknown : knownStart s = knownStart s') (h : performAll compressStages s = .next t)
    (hbusy : t.busy = false) : CompressAlike s s' t (performAll compressStages s') := by
  rcases performAll_alike passes_count hknown (launched_count rfl) (launched_count hknown) h hbusy with
    ⟨hpre, -⟩ | ⟨t', o', hrun, hbusy', hdone, -, ht, hobj, hobj'⟩ | ⟨u, u', o', hend, hrun, ht, hobj, hobj'⟩
  · cases hpre
  · exact compressAlike_of_error (began := []) hrun hbusy' hdone ht (fun _ => rfl) hobj hobj' (absurd rfl)
  · rw [compressStages, hrun]
    exact build_alike ht hobj hobj' hend hbusy

end

/-! ### DECOMPRESS -/

def knownRead (s : State) : State :=
  { knownStart s with
    decNsym := s.decNsym, lastBits := s.lastBits, payloadStart := s.payloadStart, arena := s.arena, root := s.root
    src := s.src, srcPos := s.srcPos, ft := s.ft, fd := s.fd }

def knownUnpack (s : State) : State :=
  { knownRead s with fh := s.fh, snk := s.snk, snkPos := s.snkPos, objects := [curObject s] }

theorem passes_readHdr : Passes .readHdr knownStart knownRead :=
  ⟨fun _ => rfl, fun _ => rfl, fun _ _ _ => rfl, fun _ _ => rfl⟩

theorem passes_unpack : Passes .unpack knownRead knownUnpack :=
  ⟨fun _ => rfl, fun _ => rfl, fun _ _ _ => rfl, fun _ _ => rfl⟩

section
variable {s s' t : State}

theorem launched_readHdr (h : knownStart s = knownStart s') :
    launched .readHdr s' = (swap (launched .readHdr s')).on .readHdr (launched .readHdr s) := by
  have hsrc : s.srcNext = s'.srcNext := (congrArg State.srcNext h :)
  simp only [Change.on, (swap_plain _).source]
  simp [launched, begun, started, invalidate, srcOpen, swap, hsrc]

theorem launched_unpack (h : knownRead s = knownRead s') :
    launched .unpack s' = (swap (launched .unpack s')).on .unpack (launched .unpack s) := by
  have harena : s.arena = s'.arena := (congrArg State.arena h :)
  have hroot : s.root = s'.root := (congrArg State.root h :)
  have hn : s.decNsym = s'.decNsym := (congrArg State.decNsym h :)
  have hlast : s.lastBits = s'.lastBits := (congrArg State.lastBits h :)
  have hsrc : s.src = s'.src := (congrArg State.src h :)
  have hpos : s.srcPos = s'.srcPos := (congrArg State.srcPos h :)
  have hsnk : s.snkNext = s'.snkNext := (congrArg State.snkNext h :)
  simp only [Change.on, (swap_plain _).source, (swap_plain _).sink]
  simp [launched, begun, started, invalidate, snkOpen, swap, Change.objects, harena, hroot, hn, hlast, hsrc, hpos, hsnk]

/-- How a DECOMPRESS ends alike: where UNPACK ended it, F_H too. -/
abbrev DecompressAlike := EndsAlike knownRead knownUnpack fun t => t.curOp = 0x7

theorem decompress_alike (hknown : knownStart s = knownStart s') (h : performAll decompressStages s = .next t)
    (hbusy : t.busy = false) : DecompressAlike s s' t (performAll decompressStages s') := by
  rcases performAll_alike passes_readHdr hknown (launched_readHdr rfl) (launched_readHdr hknown) h hbusy with
    ⟨hpre, -⟩ | ⟨t', o', hrun, hbusy', -, hop, ht, hobj, hobj'⟩ | ⟨u, u', o', hend, hrun, hv, hobj, hobj'⟩
  · cases hpre
  · exact ⟨t', [], hrun, hbusy', ht, hobj, hobj', absurd rfl, fun h => absurd (h.symm.trans hop) (by decide)⟩
  rw [decompressStages, hrun]
  rcases performAll_alike passes_unpack hv (launched_unpack rfl) (launched_unpack hv) hend hbusy with
    ⟨hpre, -⟩ | ⟨t', o, hrun, hbusy', -, -, ht, hobj₁, hobj₁'⟩ | ⟨w, w', o, hend, hrun, ht, hobj₁, hobj₁'⟩
  · cases hpre
  · exact ⟨t', [o], hrun, hbusy', (congrArg knownRead ht :), hobj₁.trans (congrArg (o :: ·) hobj),
      hobj₁'.trans (congrArg (o :: ·) hobj'), fun _ => (congrArg State.snkPos ht :).symm, fun _ => ht⟩
  · obtain rfl := Host.Outcome.next.inj hend
    exact ⟨_, [o], hrun, rfl, (congrArg (fun v => knownRead (endRun v)) ht :), hobj₁.trans (congrArg (o :: ·) hobj),
      hobj₁'.trans (congrArg (o :: ·) hobj'), fun _ => (congrArg State.snkPos ht :).symm,
      fun _ => (congrArg (fun v => knownUnpack (endRun v)) ht :)⟩

end

end Sys2Proof.Machine
/-! ### The obligations -/

namespace Sys2Proof.Proofs
open Sys2Proof.Machine

/-- Settles O52: before each stage the two runs agree on all that it reads. -/
theorem pipelinesDependOnTheirSessions : Obligations.PipelinesDependOnTheirSessions := by
  intro s s' t hsrc hsnk
  have hknown (i : Instr) : knownStart { accept (encode i) s with curOp := i.opcode }
      = knownStart { accept (encode i) s' with curOp := i.opcode } := by
    simp [knownStart, accept, hsrc, hsnk]
  constructor
  · intro h hbusy
    obtain ⟨t', began, hrun, hbusy', hcount, hobj, hobj', hpos, hfull⟩ := compress_alike (hknown .compress) h hbusy
    have same {α : Type} (g : State → α) (hg : ∀ w, g (knownCount w) = g w) : g t' = g t := by
      rw [← hg t', ← hcount, hg]
    refine ⟨t', began, hrun, hbusy', same State.done fun _ => rfl, same State.err fun _ => rfl,
      same State.errInfo fun _ => rfl, same State.curOp fun _ => rfl, hobj, hobj', hpos, same State.srcPos fun _ => rfl,
      same State.w fun _ => rfl, same State.total fun _ => rfl, same State.nsym fun _ => rfl,
      same State.fw fun _ => rfl,
      same State.ft fun _ => rfl, same State.fc fun _ => rfl, same State.fh fun _ => rfl, same State.fd fun _ => rfl,
      fun hdone => ?_⟩
    have hpack := (hfull hdone).symm
    exact ⟨(congrArg State.arena hpack :), (congrArg State.root hpack :), (congrArg State.ct hpack :),
      (congrArg State.payloadStart hpack :), (congrArg State.headerEnd hpack :), (congrArg State.lastBits hpack :)⟩
  · intro h hbusy
    obtain ⟨t', began, hrun, hbusy', hread, hobj, hobj', hpos, hfull⟩ := decompress_alike (hknown .decompress) h hbusy
    have same {α : Type} (g : State → α) (hg : ∀ w, g (knownRead w) = g w) : g t' = g t := by
      rw [← hg t', ← hread, hg]
    exact ⟨t', began, hrun, hbusy', same State.done fun _ => rfl, same State.err fun _ => rfl,
      same State.errInfo fun _ => rfl, same State.curOp fun _ => rfl, hobj, hobj', hpos, same State.srcPos fun _ => rfl,
      same State.arena fun _ => rfl, same State.root fun _ => rfl, same State.decNsym fun _ => rfl,
      same State.payloadStart fun _ => rfl, same State.lastBits fun _ => rfl, same State.ft fun _ => rfl,
      same State.fd fun _ => rfl, fun hop => (congrArg State.fh (hfull hop) :).symm⟩

end Sys2Proof.Proofs
end
